-- ==== Sys2Proof/Word.lean ====
section
/-! DEFINITION. The words of the model: samples, indexes, fixed tables, and the raw operands that commands carry.
Spec: spec/00_scope.md (Conventions), spec/10_control_ports.md (10.12 Formats). -/

namespace Sys2Proof

/-- An audio sample, or a sum of samples on its way to one: an exact whole number until the step that saturates or
clamps it (00_scope "Samples", R5, R7). -/
abbrev Sample := Int
/-- The eight data bits of a control-port character (R195). -/
abbrev Byte := BitVec 8
/-- One word of an audio link frame or of a zone-line frame (R12, 10.12). -/
abbrev Word24 := BitVec 24

/-- The control ports: 0 is CP-A, 1 is CP-B, 2 is CP-C. -/
abbrev PortId := Fin 3
/-- Mix index less one: 0-7 are A1-A8, 8-19 are F1-F12, 20-23 are RF1-RF4 (1.4). -/
abbrev MixId := Fin 24
/-- Source index less one: 0-63 are IN1-IN64, 64-95 the voice channels (00_scope "Sources and mixes"). -/
abbrev SourceId := Fin 96
/-- Foldback mix F1-F12, less one. -/
abbrev FoldbackId := Fin 12
/-- Zone Z1-Z16, less one; the same index names its line L1-L16. -/
abbrev ZoneId := Fin 16
/-- Voice V1-V16, less one. -/
abbrev VoiceId := Fin 16
/-- Input link SAI0-SAI3. -/
abbrev LinkId := Fin 4

/-- A fixed table with entry `i` replaced. -/
abbrev upd {α : Type} {n : Nat} (v : Vector α n) (i : Fin n) (x : α) : Vector α n := v.set i x

/-- A fixed table with every entry passed through `f`, which also sees the index. -/
def vmapi {α β : Type} {n : Nat} (f : Fin n → α → β) (v : Vector α n) : Vector β n := Vector.ofFn fun i => f i v[i]

/-- The entry of a 1-based index, where it is in range. -/
def idx1 (n k : Nat) : Option (Fin n) := if h : 1 ≤ k ∧ k ≤ n then some ⟨k - 1, by omega⟩ else none

/-- Whether bit `i` of a set carried in a message is 1 (R212: the first member is the least significant bit). -/
def bitOf (set i : Nat) : Bool := set / 2 ^ i % 2 == 1

/-- The first `n` members of a set carried in a message. -/
def setOfBits (n set : Nat) : Vector Bool n := Vector.ofFn fun i => bitOf set i

/-- A level target as a message carries it: a kind, an index (mix, zone, voice or tag) and a source (R212). -/
structure RawTarget where
  kind : Nat
  index : Nat
  source : Nat
deriving DecidableEq, Repr

/-- A cue action as a CUE ADD or the show area gives it, before the checks of R83. -/
inductive RawAction where
  | play (clip tag code fadeIn loop : Nat)
  | stop (tag time : Nat)
  | release (tag : Nat)
  | level (target : RawTarget) (code time : Nat)
  | recall (mix snapshot time : Nat)
  | mute (mix setting : Nat)
  | page (zones clip priority chime policy restartable : Nat)
  | lamp (zone state : Nat)
  | unknown (kind : Nat)
deriving DecidableEq, Repr

/-- A cue of the show area, before the check of R55. -/
structure RawCue where
  number : Nat
  label : List Nat
  prewait : Nat
  mode : Nat
  delay : Nat
  actions : List (Nat × RawAction)
deriving DecidableEq, Repr

/-- What the show-card data format (outside the manual's scope, R51) reads in card page 0. -/
structure CardHeader where
  mark : Bool
  pages : Nat
  dirFirst : Nat
  dirCount : Nat
  showFirst : Nat
  showCount : Nat
deriving DecidableEq, Repr

/-- A directory entry as read from the card, before the check of R60. -/
structure RawClip where
  valid : Bool
  channels : Nat
  start : Nat
  length : Nat
  loopFlag : Bool
  loopStart : Nat
  loopEnd : Nat
deriving DecidableEq, Repr

/-- One item of the show area: a cue, a snapshot, a setting's value, or a line of the line power set (3.2, R56). -/
inductive ShowItem where
  | cue (c : RawCue)
  | snapshot (number : Nat) (content : Option (Nat × List Nat))
  | setting (number value : Nat)
  | linePower (line : Nat)
deriving DecidableEq, Repr

/-- A card page of 4096 bytes: its 1024 sample words, and what the show-card data format reads in the same bytes. -/
structure CardPage where
  words : List Word24
  header : Option CardHeader
  clips : List RawClip
  items : List ShowItem
deriving DecidableEq, Repr

/-- What the receiver sampled from RXD for one start bit (R194, R196). -/
structure RxBits where
  data : Byte
  head : Bool
  parity : Bool
  /-- the stop bit stands at mark -/
  stop : Bool
  /-- RXD is back at mark before two character times from the start bit -/
  backAtMark : Bool
  /-- RXD stood at mark for one whole character time before the start bit -/
  idleBefore : Bool
deriving DecidableEq, Repr

/-- An upstream frame of a zone line: its three words as received (10.12). -/
structure UpFrame where
  sync : Word24
  content : Word24
  check : Word24
deriving DecidableEq, Repr

/-- The inputs that stand when the RESET input is released (R50, R194). -/
structure ResetPins where
  card : Bool
  prdy : Vector Bool 3
  cts : Vector Bool 3
deriving DecidableEq, Repr

/-- The blocks whose return to NORMAL changes only the alarm state they hold (R191). -/
inductive AlarmBlock where
  | cueEngine | fadeUnit | voices | mixEngine
deriving DecidableEq, Repr

/-- Lamp states (R212 codes 0, 1, 2). -/
inductive Lamp where
  | off | on | blink
deriving DecidableEq, Repr

/-- The target of a cue LEVEL action (R83). -/
inductive CueTarget where
  | crosspoint (m : MixId) (src : SourceId)
  | master (m : MixId)
  | zoneProgramme (z : ZoneId)
  | voices (tag : Nat)
deriving DecidableEq, Repr

end Sys2Proof
end

