-- ==== Sys2Proof/Config.lean ====
section
/-! DEFINITION. What the spec leaves open: free values with no body, so that no proof can see them. -/

namespace Sys2Proof

/-- How a flag character that is neither 0 nor 1 is read where the owning rule gives no test for it: the force flag of
TAKE GO, the copy flag of CUE OPEN, the loop engage of PLAY. R212 codes NO as 0 and YES as 1 and says nothing of the
rest. Free value, notes/assumptions/11.md. -/
opaque Config.oddFlag : Nat → Bool

/-- The character that carries the last contact reading in STATUS GENERAL: none, RELEASED or ASSERTED. No table of the
spec codes it. Free value, notes/assumptions/12.md. -/
opaque Config.contactCode : Option Bool → Nat

/-- The character that carries a snapshot's state (holding levels, or EMPTY) in SNAPSHOT READ. No table of the spec
codes it. Free value, notes/assumptions/12.md. -/
opaque Config.snapshotCode : Bool → Nat

end Sys2Proof
end

