-- ==== Sys2Proof/Syntax.lean ====
section
/-! DEFINITION. The commands: one constructor for each row of spec/opcode_table.json, in the table's order.
The first 55 and the last are events of the part and its blocks; the 49 between them are the requests, each the
owner's taking of a request that a port has handed to it (R200), with the fields the request carries (10.12). -/

namespace Sys2Proof

/-- The commands of the part. -/
inductive Instr where
  /-- POWER_ON_RESET: RESET input released, with the inputs that stand then. -/
  | powerOnReset (pins : ResetPins)
  /-- SAMPLE_COMPUTATION: one sample period of the word clock. -/
  | sampleComputation
  /-- CONTACT_ASSERTION: the alarm contact reads ASSERTED. -/
  | contactAssertion
  /-- CONTACT_RELEASE: the alarm contact reads RELEASED. -/
  | contactRelease
  /-- QUALIFICATION_EXPIRY: the alarm input takes its timer's expiry. -/
  | qualificationExpiry
  /-- FRAME_EVENT: the mix engine's frame event. -/
  | frameEvent
  /-- LINK_FRAME: one link frame; `none` is an invalid frame or none at all. -/
  | linkFrame (link : LinkId) (frame : Option (Vector Word24 16))
  /-- CARD_DETECT: the contact shows a card. -/
  | cardDetect
  /-- INSERTION_TIMER_EXPIRY: the card unit takes the 250 ms expiry. -/
  | insertionTimerExpiry
  /-- CARD_REMOVAL: the contact shows no card. -/
  | cardRemoval
  /-- CARD_READ_COMPLETE: the card answers the read of that number with a page. -/
  | cardReadComplete (read : Nat) (page : CardPage)
  /-- CARD_READ_ERROR: the card answers the read of that number with an error or a wrong length. -/
  | cardReadError (read : Nat)
  /-- CARD_READ_TIMEOUT: the reader takes the 50 ms timeout of its read. -/
  | cardReadTimeout
  /-- SHOW_AREA_OFFER: the cue engine takes the offer of a checked show area. -/
  | showAreaOffer
  /-- PREWAIT_END: the entry's clock has reached the pre-wait. -/
  | prewaitEnd (cue : Nat)
  /-- ACTION_DUE: the entry's next action has come due. -/
  | actionDue (cue : Nat)
  /-- CONTINUE_DUE: the entry's clock has reached the continue delay. -/
  | continueDue (cue : Nat)
  /-- GUARD_EXPIRY: the cue engine takes the guard timer's expiry. -/
  | guardExpiry
  /-- PLAY_ACTION: the voices take a cue PLAY action. -/
  | playAction (cue pos clip tag code fadeIn : Nat) (loop : Bool)
  /-- STOP_ACTION: the voices take a cue STOP action. -/
  | stopAction (cue pos tag time : Nat)
  /-- RELEASE_ACTION: the voices take a cue RELEASE action. -/
  | releaseAction (cue pos tag : Nat)
  /-- LEVEL_ACTION: the target's owner takes a cue LEVEL action. -/
  | levelAction (cue pos : Nat) (target : CueTarget) (code time : Nat)
  /-- RECALL_ACTION: the fade unit takes a cue RECALL action. -/
  | recallAction (cue pos : Nat) (mix : MixId) (snapshot : Fin 128) (time : Nat)
  /-- MUTE_ACTION: the mix engine takes a cue MUTE action. -/
  | muteAction (cue pos : Nat) (mix : MixId) (on : Bool)
  /-- PAGE_ACTION: the paging unit takes a cue PAGE action. -/
  | pageAction (cue pos : Nat) (zones : Vector Bool 16) (clip priority : Nat) (chime all restartable : Bool)
  /-- LAMP_ACTION: the zone table takes a cue LAMP action. -/
  | lampAction (cue pos : Nat) (zone : ZoneId) (lamp : Lamp)
  /-- PAGING_PLAY: the voices take the paging play handed to them. -/
  | pagingPlay
  /-- PAGING_STOP: the voices take the paging stop handed to them. -/
  | pagingStop
  /-- PAGING_VOICE_REPORT: the paging unit takes V16's next report. -/
  | pagingVoiceReport
  /-- GAP_EXPIRY: the paging unit takes a gap timer's expiry. -/
  | gapExpiry (zone : ZoneId)
  /-- CHIME_EXPIRY: the paging unit takes a chime timer's expiry. -/
  | chimeExpiry (page : Nat)
  /-- LIVE_MAX_EXPIRY: the paging unit takes a live maximum's expiry. -/
  | liveMaxExpiry (page : Nat)
  /-- ZONE_LINK_LEFT: the paging unit takes a link's leaving UP. -/
  | zoneLinkLeft (zone : ZoneId)
  /-- ZONE_LINK_ENTERED: the paging unit takes a link's entering UP. -/
  | zoneLinkEntered (zone : ZoneId)
  /-- LINE_FRAME_EVENT: the line frame event, with the upstream frames each line received since the last. -/
  | lineFrameEvent (up : Vector (List UpFrame) 16)
  /-- LINE_OVERLOAD: the line driver reports an overload. -/
  | lineOverload (line : ZoneId)
  /-- PRESENCE_REPORT: the line driver reports a change of presence. -/
  | presenceReport (line : ZoneId) (present : Bool)
  /-- PORT_UP: PRDY becomes active. -/
  | portUp (port : PortId)
  /-- PORT_DOWN: PRDY becomes inactive. -/
  | portDown (port : PortId)
  /-- PORT_DOWN_CUE_ENGINE: the cue engine takes a port-down. -/
  | portDownCueEngine (port : PortId)
  /-- PORT_DOWN_PAGING: the paging unit takes a port-down. -/
  | portDownPaging (port : PortId)
  /-- PORT_DOWN_MIX: the mix engine takes a port-down. -/
  | portDownMix (port : PortId)
  /-- CHARACTER_RECEIVED: the receiver has read the eleven bits after a start bit. -/
  | characterReceived (port : PortId) (rx : RxBits)
  /-- ASSEMBLER_ENTRY: the assembler takes the head entry of the holding FIFO. -/
  | assemblerEntry (port : PortId)
  /-- REQUEST_TAKEN: the port takes its oldest WAITING request and hands it to its owner. -/
  | requestTaken (port : PortId)
  /-- TRANSMIT_START: the idle transmitter begins a message. -/
  | transmitStart (port : PortId)
  /-- TRANSMIT_END: the last character of the message has been sent. -/
  | transmitEnd (port : PortId)
  /-- CTS_CHANGE: CTS changes, when `begun` characters of the message in hand have been begun. -/
  | ctsChange (port : PortId) (active : Bool) (begun : Nat)
  /-- ALARM_ENTRY_CUE_ENGINE: the cue engine takes the entry into ALARM. -/
  | alarmEntryCueEngine
  /-- ALARM_ENTRY_FADE_UNIT: the fade unit takes the entry into ALARM. -/
  | alarmEntryFadeUnit
  /-- ALARM_ENTRY_VOICES: the voices take the entry into ALARM. -/
  | alarmEntryVoices
  /-- ALARM_ENTRY_MIX_ENGINE: the mix engine takes the entry into ALARM. -/
  | alarmEntryMixEngine
  /-- ALARM_ENTRY_PAGING: the paging unit takes the entry into ALARM. -/
  | alarmEntryPaging
  /-- ALARM_RETURN_PAGING: the paging unit takes the return to NORMAL. -/
  | alarmReturnPaging
  /-- ALARM_RETURN: another block takes the return to NORMAL. -/
  | alarmReturn (block : AlarmBlock)
  /-- STATUS: request kind 1. -/
  | status (port : PortId) (tag : Nat) (sect first : Nat)
  /-- SUBSCRIBE: request kind 2. -/
  | subscribe (port : PortId) (tag : Nat) (classes : Nat)
  /-- CLEAR_ERRORS: request kind 3. -/
  | clearErrors (port : PortId) (tag : Nat)
  /-- SET_RIGHTS: request kind 4. -/
  | setRights (port : PortId) (tag : Nat) (named rights : Nat)
  /-- CONFIG: request kind 5. -/
  | config (port : PortId) (tag : Nat) (pairs : List (Nat × Nat))
  /-- SETTING_READ: request kind 6. -/
  | settingRead (port : PortId) (tag : Nat) (first count : Nat)
  /-- SET_LEVEL: request kind 7. -/
  | setLevel (port : PortId) (tag : Nat) (target : RawTarget) (code time : Nat)
  /-- READ_LEVEL: request kind 8. -/
  | readLevel (port : PortId) (tag : Nat) (target : RawTarget)
  /-- MUTE: request kind 9. -/
  | mute (port : PortId) (tag : Nat) (mix setting : Nat)
  /-- STORE: request kind 10. -/
  | store (port : PortId) (tag : Nat) (snapshot mix : Nat)
  /-- CLEAR: request kind 11. -/
  | clear (port : PortId) (tag : Nat) (snapshot : Nat)
  /-- SNAPSHOT_READ: request kind 12. -/
  | snapshotRead (port : PortId) (tag : Nat) (snapshot first count : Nat)
  /-- RECALL: request kind 13. -/
  | recall (port : PortId) (tag : Nat) (mix snapshot time : Nat)
  /-- SET_SAFE: request kind 14. -/
  | setSafe (port : PortId) (tag : Nat) (mix source setting : Nat)
  /-- READ_SAFE: request kind 15. -/
  | readSafe (port : PortId) (tag : Nat) (mix : Nat)
  /-- RELOAD_SHOW: request kind 16. -/
  | reloadShow (port : PortId) (tag : Nat)
  /-- CLIP_READ: request kind 17. -/
  | clipRead (port : PortId) (tag : Nat) (clip : Nat)
  /-- PLAY: request kind 18. -/
  | play (port : PortId) (tag : Nat) (clip vtag code fadeIn loop : Nat)
  /-- STOP: request kind 19. -/
  | stop (port : PortId) (tag : Nat) (vtag time : Nat)
  /-- RELEASE: request kind 20. -/
  | release (port : PortId) (tag : Nat) (vtag : Nat)
  /-- VOICE_READ: request kind 21. -/
  | voiceRead (port : PortId) (tag : Nat) (voice : Nat)
  /-- CUE_OPEN: request kind 22. -/
  | cueOpen (port : PortId) (tag : Nat) (number prewait mode delay : Nat) (label : List Nat) (copy : Nat)
  /-- CUE_ADD: request kind 23. -/
  | cueAdd (port : PortId) (tag : Nat) (offset : Nat) (action : RawAction)
  /-- CUE_DROP: request kind 24. -/
  | cueDrop (port : PortId) (tag : Nat) (position : Nat)
  /-- CUE_PUT: request kind 25. -/
  | cuePut (port : PortId) (tag : Nat)
  /-- CUE_DELETE: request kind 26. -/
  | cueDelete (port : PortId) (tag : Nat) (number : Nat)
  /-- CUE_READ: request kind 27. -/
  | cueRead (port : PortId) (tag : Nat) (selector number item : Nat)
  /-- TAKE_GO: request kind 28. -/
  | takeGo (port : PortId) (tag : Nat) (force : Nat)
  /-- RELEASE_GO: request kind 29. -/
  | releaseGo (port : PortId) (tag : Nat)
  /-- STANDBY: request kind 30. -/
  | standby (port : PortId) (tag : Nat) (number : Nat)
  /-- BACK: request kind 31. -/
  | back (port : PortId) (tag : Nat)
  /-- GO: request kind 32. -/
  | go (port : PortId) (tag : Nat)
  /-- STOP_ALL: request kind 33. -/
  | stopAll (port : PortId) (tag : Nat)
  /-- SHOW_RESET: request kind 34. -/
  | showReset (port : PortId) (tag : Nat)
  /-- TALK_ON: request kind 35. -/
  | talkOn (port : PortId) (tag : Nat) (mixes : Nat)
  /-- TALK_OFF: request kind 36. -/
  | talkOff (port : PortId) (tag : Nat)
  /-- TALK_LEVEL: request kind 37. -/
  | talkLevel (port : PortId) (tag : Nat) (code : Nat)
  /-- ZONE_SET: request kind 38. -/
  | zoneSet (port : PortId) (tag : Nat) (zone feed change code : Nat)
  /-- PAGE: request kind 39. -/
  | page (port : PortId) (tag : Nat) (zones source clip priority chime policy restartable : Nat)
  /-- PAGE_END: request kind 40. -/
  | pageEnd (port : PortId) (tag : Nat) (page : Nat)
  /-- PAGE_CANCEL: request kind 41. -/
  | pageCancel (port : PortId) (tag : Nat) (page : Nat)
  /-- PAGE_READ: request kind 42. -/
  | pageRead (port : PortId) (tag : Nat) (page : Nat)
  /-- PAGE_LIST: request kind 43. -/
  | pageList (port : PortId) (tag : Nat)
  /-- ZONE_READ: request kind 44. -/
  | zoneRead (port : PortId) (tag : Nat) (zone : Nat)
  /-- LINE_POWER: request kind 45. -/
  | linePower (port : PortId) (tag : Nat) (line setting : Nat)
  /-- LAMP: request kind 46. -/
  | lamp (port : PortId) (tag : Nat) (zone state : Nat)
  /-- ZONE_CAP: request kind 47. -/
  | zoneCap (port : PortId) (tag : Nat) (zone code : Nat)
  /-- LINE_READ: request kind 48. -/
  | lineRead (port : PortId) (tag : Nat) (line : Nat)
  /-- ALARM_RESET: request kind 49. -/
  | alarmReset (port : PortId) (tag : Nat)
  /-- CARD_LEAVING_CONTACT: the contact shows no card while the insertion timer runs. -/
  | cardLeavingContact
deriving DecidableEq, Repr

end Sys2Proof
end

