-- ==== Sys2Proof/WellFormed.lean ====
section
/-! DEFINITION. Which commands are well formed: the operands of a request fit the characters that 10.12 gives them and
its body is at most 62 characters long; the actions of the cue-action rows are within the ranges of R83; a card page
holds 1024 sample words. The meaning of a command does not depend on it: a request outside is refused by its own rule. -/

namespace Sys2Proof

/-- A number fits `n` characters. -/
def fits (n v : Nat) : Bool := decide (v < 256 ^ n)

def RawTarget.wf (t : RawTarget) : Bool := fits 1 t.kind && fits 1 t.index && fits 1 t.source

/-- A raw action fits its characters; an unknown kind is one that 4.3 does not number. -/
def RawAction.wf : RawAction → Bool
  | .play clip tag code fadeIn loop => fits 2 clip && fits 1 tag && fits 1 code && fits 3 fadeIn && fits 1 loop
  | .stop tag time => fits 1 tag && fits 3 time
  | .release tag => fits 1 tag
  | .recall mix snapshot time => fits 1 mix && fits 1 snapshot && fits 3 time
  | .mute mix setting => fits 1 mix && fits 1 setting
  | .page zones clip priority chime policy restartable => fits 2 zones && fits 2 clip && fits 1 priority && fits 1 chime && fits 1 policy && fits 1 restartable
  | .lamp zone state => fits 1 zone && fits 1 state
  | .level target code time => target.wf && fits 1 code && fits 3 time
  | .unknown kind => decide (8 ≤ kind) && fits 1 kind

def between (lo hi v : Nat) : Bool := decide (lo ≤ v) && decide (v ≤ hi)

/-- A cue LEVEL target: a tag of 1-255 where it names voices (R83). -/
def CueTarget.wf : CueTarget → Bool
  | .voices tag => between 1 255 tag
  | .crosspoint .. | .master _ | .zoneProgramme _ => true

/-- The checks on a command. -/
def Instr.wf : Instr → Bool
  | .powerOnReset _ | .sampleComputation | .contactAssertion | .contactRelease | .qualificationExpiry | .frameEvent
  | .linkFrame .. | .cardDetect | .insertionTimerExpiry | .cardRemoval | .cardReadError _ | .cardReadTimeout
  | .showAreaOffer | .guardExpiry | .pagingPlay | .pagingStop | .pagingVoiceReport | .gapExpiry _ | .chimeExpiry _
  | .liveMaxExpiry _ | .zoneLinkLeft _ | .zoneLinkEntered _ | .lineFrameEvent _ | .lineOverload _
  | .presenceReport .. | .portUp _ | .portDown _ | .portDownCueEngine _ | .portDownPaging _ | .portDownMix _
  | .characterReceived .. | .assemblerEntry _ | .requestTaken _ | .transmitStart _ | .transmitEnd _ | .ctsChange ..
  | .alarmEntryCueEngine | .alarmEntryFadeUnit | .alarmEntryVoices | .alarmEntryMixEngine | .alarmEntryPaging
  | .alarmReturnPaging | .alarmReturn _ | .cardLeavingContact => true
  | .cardReadComplete _ content => content.words.length == 1024
  | .prewaitEnd cue | .actionDue cue | .continueDue cue => between 1 9999 cue
  | .playAction cue pos clip tag code fadeIn _ =>
    between 1 9999 cue && between 1 32 pos && between 1 1024 clip && between 1 255 tag && between 0 240 code
      && between 0 600000 fadeIn
  | .stopAction cue pos tag time =>
    between 1 9999 cue && between 1 32 pos && between 1 255 tag && between 0 600000 time
  | .releaseAction cue pos tag => between 1 9999 cue && between 1 32 pos && between 1 255 tag
  | .levelAction cue pos target code time =>
    between 1 9999 cue && between 1 32 pos && target.wf && between 0 240 code && between 0 600000 time
  | .recallAction cue pos _ _ time => between 1 9999 cue && between 1 32 pos && between 0 600000 time
  | .muteAction cue pos _ _ => between 1 9999 cue && between 1 32 pos
  | .pageAction cue pos zones clip priority _ _ _ =>
    between 1 9999 cue && between 1 32 pos && zones.toList.any id && between 1 1024 clip && between 1 3 priority
  | .lampAction cue pos _ _ => between 1 9999 cue && between 1 32 pos
  | .status _ tag sect first => fits 1 tag && fits 1 sect && fits 1 first
  | .subscribe _ tag classes => fits 1 tag && fits 1 classes
  | .clearErrors _ tag => fits 1 tag
  | .setRights _ tag named rights => fits 1 tag && fits 1 named && fits 1 rights
  | .settingRead _ tag first count => fits 1 tag && fits 1 first && fits 1 count
  | .mute _ tag mix setting => fits 1 tag && fits 1 mix && fits 1 setting
  | .store _ tag snapshot mix => fits 1 tag && fits 1 snapshot && fits 1 mix
  | .clear _ tag snapshot => fits 1 tag && fits 1 snapshot
  | .snapshotRead _ tag snapshot first count => fits 1 tag && fits 1 snapshot && fits 1 first && fits 1 count
  | .recall _ tag mix snapshot time => fits 1 tag && fits 1 mix && fits 1 snapshot && fits 3 time
  | .setSafe _ tag mix source setting => fits 1 tag && fits 1 mix && fits 1 source && fits 1 setting
  | .readSafe _ tag mix => fits 1 tag && fits 1 mix
  | .reloadShow _ tag => fits 1 tag
  | .clipRead _ tag clip => fits 1 tag && fits 2 clip
  | .play _ tag clip vtag code fadeIn loop => fits 1 tag && fits 2 clip && fits 1 vtag && fits 1 code && fits 3 fadeIn && fits 1 loop
  | .stop _ tag vtag time => fits 1 tag && fits 1 vtag && fits 3 time
  | .release _ tag vtag => fits 1 tag && fits 1 vtag
  | .voiceRead _ tag voice => fits 1 tag && fits 1 voice
  | .cueDrop _ tag position => fits 1 tag && fits 1 position
  | .cuePut _ tag => fits 1 tag
  | .cueDelete _ tag number => fits 1 tag && fits 2 number
  | .cueRead _ tag selector number item => fits 1 tag && fits 1 selector && fits 2 number && fits 1 item
  | .takeGo _ tag force => fits 1 tag && fits 1 force
  | .releaseGo _ tag => fits 1 tag
  | .standby _ tag number => fits 1 tag && fits 2 number
  | .back _ tag => fits 1 tag
  | .go _ tag => fits 1 tag
  | .stopAll _ tag => fits 1 tag
  | .showReset _ tag => fits 1 tag
  | .talkOn _ tag mixes => fits 1 tag && fits 2 mixes
  | .talkOff _ tag => fits 1 tag
  | .talkLevel _ tag code => fits 1 tag && fits 1 code
  | .zoneSet _ tag zone feed change code => fits 1 tag && fits 1 zone && fits 1 feed && fits 1 change && fits 1 code
  | .page _ tag zones source clip priority chime policy restartable => fits 1 tag && fits 2 zones && fits 1 source && fits 2 clip && fits 1 priority && fits 1 chime && fits 1 policy && fits 1 restartable
  | .pageEnd _ tag id => fits 1 tag && fits 1 id
  | .pageCancel _ tag id => fits 1 tag && fits 1 id
  | .pageRead _ tag id => fits 1 tag && fits 1 id
  | .pageList _ tag => fits 1 tag
  | .zoneRead _ tag zone => fits 1 tag && fits 1 zone
  | .linePower _ tag line setting => fits 1 tag && fits 1 line && fits 1 setting
  | .lamp _ tag zone state => fits 1 tag && fits 1 zone && fits 1 state
  | .zoneCap _ tag zone code => fits 1 tag && fits 1 zone && fits 1 code
  | .lineRead _ tag line => fits 1 tag && fits 1 line
  | .alarmReset _ tag => fits 1 tag
  | .config _ tag pairs =>
    fits 1 tag && between 1 15 pairs.length && pairs.all fun p => fits 1 p.1 && fits 3 p.2
  | .setLevel _ tag target code time => fits 1 tag && target.wf && fits 1 code && fits 3 time
  | .readLevel _ tag target => fits 1 tag && target.wf
  | .cueOpen _ tag number prewait mode delay label copy =>
    fits 1 tag && fits 2 number && fits 3 prewait && fits 1 mode && fits 3 delay && between 0 50 label.length
      && label.all (fits 1) && fits 1 copy
  | .cueAdd _ tag offset action => fits 1 tag && fits 3 offset && action.wf

end Sys2Proof
end

