-- ==== Sys2Proof/Decode.lean ====
section
/-! DEFINITION. What commands look like outside the part. The table gives no row any bits, so no word spells a command
(notes/assumptions/5.md). A request is spelt by a control-port message: its kind, and a body of a tag and fields of the
sizes of 10.12 (R200, R212); `parseRequest` reads one and `requestMessage` writes one. -/

namespace Sys2Proof

/-- No row of the opcode table gives bits: no word spells a command. -/
def decodeTableWord (_nbits _w : Nat) : Option Instr := none

/-- A number in `n` characters, most significant first (00_scope "Numbers on the control ports"). -/
def numChars : Nat → Nat → List Nat
  | 0, _ => []
  | n + 1, v => v / 256 ^ n % 256 :: numChars n v

/-- The number that some characters hold. -/
def charsNum (cs : List Nat) : Nat := cs.foldl (fun v c => 256 * v + c) 0

/-- The numbers of the given sizes that a run of characters holds, when it is exactly that long. -/
def readNums : List Nat → List Nat → Option (List Nat)
  | [], [] => some []
  | [], _ :: _ => none
  | n :: ns, cs =>
    if n ≤ cs.length then (readNums ns (cs.drop n)).map fun vs => charsNum (cs.take n) :: vs else none

/-- Numbers written in the given sizes. -/
def writeNums : List (Nat × Nat) → List Nat
  | [] => []
  | (n, v) :: rest => numChars n v ++ writeNums rest

/-- The pairs of a CONFIG, one after another: a setting number of one character and a value of three (R200). -/
def readPairs : List Nat → Option (List (Nat × Nat))
  | [] => some []
  | a :: b :: c :: d :: rest => (readPairs rest).map fun ps => (a, charsNum [b, c, d]) :: ps
  | _ => none

def writePairs : List (Nat × Nat) → List Nat
  | [] => []
  | (n, v) :: ps => n :: numChars 3 v ++ writePairs ps

/-- The action of a CUE ADD after its kind and offset: the arguments R83 lists for the kind. -/
def readAction (kind : Nat) (cs : List Nat) : Option RawAction := match kind with
  | 0 => match readNums [2, 1, 1, 3, 1] cs with
    | some [clip, tag, code, fadeIn, loop] => some (.play clip tag code fadeIn loop)
    | _ => none
  | 1 => match readNums [1, 3] cs with
    | some [tag, time] => some (.stop tag time)
    | _ => none
  | 2 => match readNums [1] cs with
    | some [tag] => some (.release tag)
    | _ => none
  | 4 => match readNums [1, 1, 3] cs with
    | some [mix, snapshot, time] => some (.recall mix snapshot time)
    | _ => none
  | 5 => match readNums [1, 1] cs with
    | some [mix, setting] => some (.mute mix setting)
    | _ => none
  | 6 => match readNums [2, 2, 1, 1, 1, 1] cs with
    | some [zones, clip, priority, chime, policy, restartable] => some (.page zones clip priority chime policy restartable)
    | _ => none
  | 7 => match readNums [1, 1] cs with
    | some [zone, state] => some (.lamp zone state)
    | _ => none
  | 3 => match readNums [1, 1, 1, 1, 3] cs with
    | some [k, i, x, code, time] => some (.level { kind := k, index := i, source := x } code time)
    | _ => none
  | k => if cs.isEmpty then some (.unknown k) else none

def writeAction : RawAction → Nat × List Nat
  | .play clip tag code fadeIn loop => (0, writeNums [(2, clip), (1, tag), (1, code), (3, fadeIn), (1, loop)])
  | .stop tag time => (1, writeNums [(1, tag), (3, time)])
  | .release tag => (2, writeNums [(1, tag)])
  | .recall mix snapshot time => (4, writeNums [(1, mix), (1, snapshot), (3, time)])
  | .mute mix setting => (5, writeNums [(1, mix), (1, setting)])
  | .page zones clip priority chime policy restartable => (6, writeNums [(2, zones), (2, clip), (1, priority), (1, chime), (1, policy), (1, restartable)])
  | .lamp zone state => (7, writeNums [(1, zone), (1, state)])
  | .level t code time => (3, writeNums [(1, t.kind), (1, t.index), (1, t.source), (1, code), (3, time)])
  | .unknown k => (k, [])

/-- The request that a message of a kind and a body spells on a port; none where the kind is unknown or the body's length
is wrong for it (R200). CUE READ's item takes one character (notes/assumptions/14.md). -/
def parseRequest (port : PortId) (kind : Nat) (body : List Nat) : Option Instr := match body with
  | [] => none
  | tag :: cs => match kind with
    | 1 => match readNums [1, 1] cs with
      | some [sect, first] => some (.status port tag sect first)
      | _ => none
    | 2 => match readNums [1] cs with
      | some [classes] => some (.subscribe port tag classes)
      | _ => none
    | 3 => if cs.isEmpty then some (.clearErrors port tag) else none
    | 4 => match readNums [1, 1] cs with
      | some [named, rights] => some (.setRights port tag named rights)
      | _ => none
    | 6 => match readNums [1, 1] cs with
      | some [first, count] => some (.settingRead port tag first count)
      | _ => none
    | 9 => match readNums [1, 1] cs with
      | some [mix, setting] => some (.mute port tag mix setting)
      | _ => none
    | 10 => match readNums [1, 1] cs with
      | some [snapshot, mix] => some (.store port tag snapshot mix)
      | _ => none
    | 11 => match readNums [1] cs with
      | some [snapshot] => some (.clear port tag snapshot)
      | _ => none
    | 12 => match readNums [1, 1, 1] cs with
      | some [snapshot, first, count] => some (.snapshotRead port tag snapshot first count)
      | _ => none
    | 13 => match readNums [1, 1, 3] cs with
      | some [mix, snapshot, time] => some (.recall port tag mix snapshot time)
      | _ => none
    | 14 => match readNums [1, 1, 1] cs with
      | some [mix, source, setting] => some (.setSafe port tag mix source setting)
      | _ => none
    | 15 => match readNums [1] cs with
      | some [mix] => some (.readSafe port tag mix)
      | _ => none
    | 16 => if cs.isEmpty then some (.reloadShow port tag) else none
    | 17 => match readNums [2] cs with
      | some [clip] => some (.clipRead port tag clip)
      | _ => none
    | 18 => match readNums [2, 1, 1, 3, 1] cs with
      | some [clip, vtag, code, fadeIn, loop] => some (.play port tag clip vtag code fadeIn loop)
      | _ => none
    | 19 => match readNums [1, 3] cs with
      | some [vtag, time] => some (.stop port tag vtag time)
      | _ => none
    | 20 => match readNums [1] cs with
      | some [vtag] => some (.release port tag vtag)
      | _ => none
    | 21 => match readNums [1] cs with
      | some [voice] => some (.voiceRead port tag voice)
      | _ => none
    | 24 => match readNums [1] cs with
      | some [position] => some (.cueDrop port tag position)
      | _ => none
    | 25 => if cs.isEmpty then some (.cuePut port tag) else none
    | 26 => match readNums [2] cs with
      | some [number] => some (.cueDelete port tag number)
      | _ => none
    | 27 => match readNums [1, 2, 1] cs with
      | some [selector, number, item] => some (.cueRead port tag selector number item)
      | _ => none
    | 28 => match readNums [1] cs with
      | some [force] => some (.takeGo port tag force)
      | _ => none
    | 29 => if cs.isEmpty then some (.releaseGo port tag) else none
    | 30 => match readNums [2] cs with
      | some [number] => some (.standby port tag number)
      | _ => none
    | 31 => if cs.isEmpty then some (.back port tag) else none
    | 32 => if cs.isEmpty then some (.go port tag) else none
    | 33 => if cs.isEmpty then some (.stopAll port tag) else none
    | 34 => if cs.isEmpty then some (.showReset port tag) else none
    | 35 => match readNums [2] cs with
      | some [mixes] => some (.talkOn port tag mixes)
      | _ => none
    | 36 => if cs.isEmpty then some (.talkOff port tag) else none
    | 37 => match readNums [1] cs with
      | some [code] => some (.talkLevel port tag code)
      | _ => none
    | 38 => match readNums [1, 1, 1, 1] cs with
      | some [zone, feed, change, code] => some (.zoneSet port tag zone feed change code)
      | _ => none
    | 39 => match readNums [2, 1, 2, 1, 1, 1, 1] cs with
      | some [zones, source, clip, priority, chime, policy, restartable] => some (.page port tag zones source clip priority chime policy restartable)
      | _ => none
    | 40 => match readNums [1] cs with
      | some [page] => some (.pageEnd port tag page)
      | _ => none
    | 41 => match readNums [1] cs with
      | some [page] => some (.pageCancel port tag page)
      | _ => none
    | 42 => match readNums [1] cs with
      | some [page] => some (.pageRead port tag page)
      | _ => none
    | 43 => if cs.isEmpty then some (.pageList port tag) else none
    | 44 => match readNums [1] cs with
      | some [zone] => some (.zoneRead port tag zone)
      | _ => none
    | 45 => match readNums [1, 1] cs with
      | some [line, setting] => some (.linePower port tag line setting)
      | _ => none
    | 46 => match readNums [1, 1] cs with
      | some [zone, state] => some (.lamp port tag zone state)
      | _ => none
    | 47 => match readNums [1, 1] cs with
      | some [zone, code] => some (.zoneCap port tag zone code)
      | _ => none
    | 48 => match readNums [1] cs with
      | some [line] => some (.lineRead port tag line)
      | _ => none
    | 49 => if cs.isEmpty then some (.alarmReset port tag) else none
    | 5 => match readPairs cs with
      | some pairs => if between 1 15 pairs.length then some (.config port tag pairs) else none
      | none => none
    | 7 => match readNums [1, 1, 1, 1, 3] cs with
      | some [k, i, x, code, time] => some (.setLevel port tag { kind := k, index := i, source := x } code time)
      | _ => none
    | 8 => match readNums [1, 1, 1] cs with
      | some [k, i, x] => some (.readLevel port tag { kind := k, index := i, source := x })
      | _ => none
    | 22 => match readNums [2, 3, 1, 3, 1] (cs.take 10) with
      | some [number, prewait, mode, delay, n] =>
        let rest := cs.drop 10
        if rest.length = n + 1 then match rest.drop n with
          | [copy] => some (.cueOpen port tag number prewait mode delay (rest.take n) copy)
          | _ => none
        else none
      | _ => none
    | 23 => match readNums [1, 3] (cs.take 4) with
      | some [k, offset] => (readAction k (cs.drop 4)).map fun a => .cueAdd port tag offset a
      | _ => none
    | _ => none

/-- The port, kind and body of a request; none for a command that is no request. -/
def requestMessage : Instr → Option (PortId × Nat × List Nat)
  | .status port tag sect first => some (port, 1, tag :: writeNums [(1, sect), (1, first)])
  | .subscribe port tag classes => some (port, 2, tag :: writeNums [(1, classes)])
  | .clearErrors port tag => some (port, 3, tag :: writeNums [])
  | .setRights port tag named rights => some (port, 4, tag :: writeNums [(1, named), (1, rights)])
  | .settingRead port tag first count => some (port, 6, tag :: writeNums [(1, first), (1, count)])
  | .mute port tag mix setting => some (port, 9, tag :: writeNums [(1, mix), (1, setting)])
  | .store port tag snapshot mix => some (port, 10, tag :: writeNums [(1, snapshot), (1, mix)])
  | .clear port tag snapshot => some (port, 11, tag :: writeNums [(1, snapshot)])
  | .snapshotRead port tag snapshot first count => some (port, 12, tag :: writeNums [(1, snapshot), (1, first), (1, count)])
  | .recall port tag mix snapshot time => some (port, 13, tag :: writeNums [(1, mix), (1, snapshot), (3, time)])
  | .setSafe port tag mix source setting => some (port, 14, tag :: writeNums [(1, mix), (1, source), (1, setting)])
  | .readSafe port tag mix => some (port, 15, tag :: writeNums [(1, mix)])
  | .reloadShow port tag => some (port, 16, tag :: writeNums [])
  | .clipRead port tag clip => some (port, 17, tag :: writeNums [(2, clip)])
  | .play port tag clip vtag code fadeIn loop => some (port, 18, tag :: writeNums [(2, clip), (1, vtag), (1, code), (3, fadeIn), (1, loop)])
  | .stop port tag vtag time => some (port, 19, tag :: writeNums [(1, vtag), (3, time)])
  | .release port tag vtag => some (port, 20, tag :: writeNums [(1, vtag)])
  | .voiceRead port tag voice => some (port, 21, tag :: writeNums [(1, voice)])
  | .cueDrop port tag position => some (port, 24, tag :: writeNums [(1, position)])
  | .cuePut port tag => some (port, 25, tag :: writeNums [])
  | .cueDelete port tag number => some (port, 26, tag :: writeNums [(2, number)])
  | .cueRead port tag selector number item => some (port, 27, tag :: writeNums [(1, selector), (2, number), (1, item)])
  | .takeGo port tag force => some (port, 28, tag :: writeNums [(1, force)])
  | .releaseGo port tag => some (port, 29, tag :: writeNums [])
  | .standby port tag number => some (port, 30, tag :: writeNums [(2, number)])
  | .back port tag => some (port, 31, tag :: writeNums [])
  | .go port tag => some (port, 32, tag :: writeNums [])
  | .stopAll port tag => some (port, 33, tag :: writeNums [])
  | .showReset port tag => some (port, 34, tag :: writeNums [])
  | .talkOn port tag mixes => some (port, 35, tag :: writeNums [(2, mixes)])
  | .talkOff port tag => some (port, 36, tag :: writeNums [])
  | .talkLevel port tag code => some (port, 37, tag :: writeNums [(1, code)])
  | .zoneSet port tag zone feed change code => some (port, 38, tag :: writeNums [(1, zone), (1, feed), (1, change), (1, code)])
  | .page port tag zones source clip priority chime policy restartable => some (port, 39, tag :: writeNums [(2, zones), (1, source), (2, clip), (1, priority), (1, chime), (1, policy), (1, restartable)])
  | .pageEnd port tag page => some (port, 40, tag :: writeNums [(1, page)])
  | .pageCancel port tag page => some (port, 41, tag :: writeNums [(1, page)])
  | .pageRead port tag page => some (port, 42, tag :: writeNums [(1, page)])
  | .pageList port tag => some (port, 43, tag :: writeNums [])
  | .zoneRead port tag zone => some (port, 44, tag :: writeNums [(1, zone)])
  | .linePower port tag line setting => some (port, 45, tag :: writeNums [(1, line), (1, setting)])
  | .lamp port tag zone state => some (port, 46, tag :: writeNums [(1, zone), (1, state)])
  | .zoneCap port tag zone code => some (port, 47, tag :: writeNums [(1, zone), (1, code)])
  | .lineRead port tag line => some (port, 48, tag :: writeNums [(1, line)])
  | .alarmReset port tag => some (port, 49, tag :: writeNums [])
  | .config port tag pairs => some (port, 5, tag :: writePairs pairs)
  | .setLevel port tag t code time =>
    some (port, 7, tag :: writeNums [(1, t.kind), (1, t.index), (1, t.source), (1, code), (3, time)])
  | .readLevel port tag t => some (port, 8, tag :: writeNums [(1, t.kind), (1, t.index), (1, t.source)])
  | .cueOpen port tag number prewait mode delay label copy =>
    some (port, 22, tag :: writeNums [(2, number), (3, prewait), (1, mode), (3, delay), (1, label.length)]
      ++ label ++ [copy])
  | .cueAdd port tag offset action =>
    some (port, 23, tag :: writeNums [(1, (writeAction action).1), (3, offset)] ++ (writeAction action).2)
  | _ => none

end Sys2Proof
end

