-- ==== Sys2Proof/Machine/Levels.lean ====
section
/-! DEFINITION. The arithmetic of levels and samples: the gain law, applying a gain, saturation and clamping, and the
position of a fade. Spec: 01 R1-R8, 02 R31, 06 R123-R126, R132. -/

namespace Sys2Proof.Machine

/-- Highest level code and highest fine level (R1, R2). -/
abbrev maxCode : Nat := 240
abbrev maxFine : Nat := 3840
/-- Unity, code and fine (1.1). -/
abbrev unityCode : Nat := 216
abbrev unityFine : Nat := 3456
/-- The longest time a request or action carries, in ms (00_scope "Time"). -/
abbrev maxTime : Nat := 600000
/-- Sample periods to the millisecond (00_scope "Time"). -/
abbrev samplesPerMs : Nat := 48

/-- A time in ms as sample periods. -/
def afterMs (t : Nat) : Nat := samplesPerMs * t

/-- The ms left on a timer, a part of a ms counted as one (notes/assumptions/25.md). -/
def msLeft (timer : Option Nat) : Nat := match timer with
  | none => 0
  | some k => (k + 47) / 48

/-- R1: a code received is brought into 0-240. -/
def clampCode (c : Nat) : Nat := min c maxCode

/-- R28: a time received is brought into 0-600 000. -/
def clampTime (t : Nat) : Nat := min t maxTime

/-- R1: the fine level of a code. -/
def fineOfCode (c : Nat) : Nat := 16 * c

/-- The mantissa table M[k] (1.2). -/
def mantissa (k : Nat) : Nat :=
  [16384, 17358, 18390, 19484, 20643, 21870, 23170, 24548, 26008, 27554, 29193, 30929].getD k 0

/-- R3: the gain word of a level code. -/
def codeGain (c : Nat) : Nat :=
  if c = 0 then 0
  else if 18 ≤ c / 12 then mantissa (c % 12) * 2 ^ (c / 12 - 18)
  else mantissa (c % 12) / 2 ^ (18 - c / 12)

/-- R4: the gain word of a fine level. -/
def fineGain (f : Nat) : Nat :=
  if maxFine ≤ f then 65536
  else codeGain (f / 16) + (codeGain (f / 16 + 1) - codeGain (f / 16)) * (f % 16) / 16

/-- R5: a gain word applied to a sample, halves rounded upward. -/
def applyGain (g : Nat) (x : Sample) : Sample := (x * g + 8192) / 16384

/-- 00_scope "Samples": the 24-bit range. -/
abbrev sampleMin : Sample := -8388608
abbrev sampleMax : Sample := 8388607

/-- Saturation to the 24-bit range. -/
def saturate (x : Sample) : Sample := if x < sampleMin then sampleMin else if sampleMax < x then sampleMax else x

/-- R125: the clamp of a foldback mix at its ceiling. -/
def clampTo (c : Nat) (x : Sample) : Sample := if x < -(c : Int) then -(c : Int) else if (c : Int) < x then c else x

/-- R123: the effective fine level of a foldback mix. -/
def effective (master backoff duck : Nat) : Nat := master - backoff - duck

/-- R126: the backoff after a frame event. -/
def moveBackoff (mark : Bool) (b : Nat) : Nat := if mark then min (b + 4) 192 else b - 1

/-- R132: the talk duck after a frame event. -/
def moveDuck (target d : Nat) : Nat :=
  if d < target then min (d + 16) target else if target < d then max (d - 16) target else d

/-- R31, R32: what a record writes to one of its targets at the frame event that brings its count to `n`. -/
def fadePosition (f0 f1 n dur : Nat) : Nat :=
  if dur ≤ n then f1 else ((f0 : Int) + Int.tdiv (((f1 : Int) - f0) * n) dur).toNat

end Sys2Proof.Machine
end

