-- ==== Sys2Proof/Machine/State.lean ====
section
/-! DEFINITION. The state of the part as plain data, block by block, and the state after power-on reset.
Levels and times are whole numbers (00_scope "Levels", "Time"); timers count sample periods, 48 to the millisecond
(notes/assumptions/1.md). INVENTORY.md lists every field with the rule that names it. -/

namespace Sys2Proof.Machine

/-! ### Requests, replies and notices (10) -/

/-- The outcomes of a request (00_scope "Request Outcomes", R212). -/
inductive ReqOutcome where
  | accepted | clamped | notPermitted | notHolder | held | goGuard | atEnd | atStart | full | noRoom | inUse | noSuch
  | badArgument | alarm | ended | notMounted | active
deriving DecidableEq, Repr

/-- The notice classes, in the order of R212's codes 1 to 7. -/
inductive NoticeClass where
  | cue | mix | voice | page | station | alarm | port
deriving DecidableEq, Repr

/-- The rights of a port, in the order of 10's port record. -/
inductive Right where
  | cue | edit | mix | page | station | system
deriving DecidableEq, Repr

/-- One field of a reply or notice: a number sent in so many characters, most significant first, or a text (R212). -/
inductive Field where
  | num (chars value : Nat)
  | text (chars : List Nat)
deriving DecidableEq, Repr

structure Reply where
  tag : Nat
  kind : Nat
  outcome : ReqOutcome
  fields : List Field
deriving DecidableEq, Repr

structure Notice where
  cls : NoticeClass
  kind : Nat
  fields : List Field
deriving DecidableEq, Repr

/-- An entry of the holding FIFO (R196). -/
inductive RxEntry where
  | character (data : Byte) (head : Bool)
  | parity | framing | brk
deriving DecidableEq, Repr

/-- The message in assembly in MESSAGE: its head, its length once read, and the body so far (R198). -/
structure Assembly where
  head : Byte
  len : Option Nat
  body : List Byte
deriving DecidableEq, Repr

/-- WAITING until the port takes the request; then with its owner; ANSWERED once the reply is formed (10.4). -/
inductive ReqState where
  | waiting | handed (i : Instr) | answered
deriving DecidableEq, Repr

structure Request where
  kind : Nat
  body : List Byte
  state : ReqState
deriving DecidableEq, Repr

/-- A character as it is sent: its data, its head mark and its parity bit (R195). -/
structure TxChar where
  data : Byte
  head : Bool
  parity : Bool
deriving DecidableEq, Repr

/-- A message being sent: its characters, how many have been begun, and whether it is a reply (R201). -/
structure Transmission where
  reply : Bool
  chars : List TxChar
  begun : Nat
deriving DecidableEq, Repr

/-- The error flags (R205). -/
structure ErrFlags where
  parity : Bool
  framing : Bool
  overrun : Bool
  malformed : Bool
deriving DecidableEq, Repr

/-- A port record (10). `pageMic` 0 is NONE. `taken` are requests of before a port-down that their owners have still to
take (R210). -/
structure PortRecord where
  up : Bool
  prdy : Bool
  cts : Bool
  armed : Bool
  fifo : List RxEntry
  loss : Bool
  asm : Option Assembly
  reqs : List Request
  taken : List Instr
  replies : List Reply
  notices : List Notice
  lost : Bool
  tx : Option Transmission
  errs : ErrFlags
  subs : Vector Bool 7
  rights : Vector Bool 6
  pageMic : Nat
  talkLevel : Nat
deriving DecidableEq, Repr

/-! ### Alarm (09) -/

inductive AlarmState where
  | normal | qualifying | alarm | alarmHeld
deriving DecidableEq, Repr

/-- What the alarm input hands to the five blocks of R188: the entry (or re-entry) into ALARM, the return to NORMAL. -/
inductive AlarmMsg where
  | entry | return
deriving DecidableEq, Repr

/-- The alarm state as a block holds it (R188): whether it is ALARM or ALARM HELD, and the hand-offs it has not taken. -/
structure AlarmView where
  standing : Bool
  inbox : List AlarmMsg
deriving DecidableEq, Repr

/-- The alarm input (9.2). `last` is the last contact reading, `some true` for ASSERTED. -/
structure AlarmInput where
  state : AlarmState
  timer : Option Nat
  last : Option Bool
deriving DecidableEq, Repr

/-! ### Mix engine and input links (01, 06) -/

/-- An input link (R13): lock state, run count, and the sixteen samples it delivers (R14). -/
structure InputLink where
  locked : Bool
  run : Nat
  words : Vector Sample 16
deriving DecidableEq, Repr

structure MixEngine where
  xpt : Vector (Vector Nat 96) 24
  master : Vector Nat 24
  mute : Vector Bool 24
  clip : Vector Bool 24
  ceiling : Vector Nat 12
  backoff : Vector Nat 12
  clampMark : Vector Bool 12
  duck : Vector Nat 12
  /-- talk records: none while inactive, else the mix set (6.5) -/
  talk : Vector (Option (Vector Bool 12)) 3
  talkDepth : Nat
  sampleCount : Nat
  frameDue : Bool
  links : Vector InputLink 4
  out : Vector Sample 24
  alarm : AlarmView
  downIn : List PortId
deriving DecidableEq, Repr

/-! ### Fade unit (02) -/

/-- The level targets (00_scope "Levels"). -/
inductive Target where
  | crosspoint (m : MixId) (src : SourceId)
  | master (m : MixId)
  | zoneProgramme (z : ZoneId)
  | zoneDuck (z : ZoneId)
  | voice (v : VoiceId)
deriving DecidableEq, Repr

/-- Who asked for a fade and is told how it ends (2.1). -/
inductive FadeOrigin where
  | entry (cue : Nat)
  | port (p : PortId)
  | paging (z : ZoneId)
  | voiceStop (v : VoiceId)
deriving DecidableEq, Repr

/-- What a record drives. Entry 96 of a MIX record's tables is the master (2.1). -/
inductive FadeBody where
  | single (t : Target) (f0 f1 : Nat)
  | mix (m : MixId) (snapshot : Fin 128) (starts ends : Vector Nat 97) (engaged : Vector Bool 97)
deriving DecidableEq, Repr

structure FadeRecord where
  body : FadeBody
  dur : Nat
  n : Nat
  origin : FadeOrigin
deriving DecidableEq, Repr

inductive Ending where
  | complete | takenOver | removed | snapped
deriving DecidableEq, Repr

/-- A snapshot that holds levels: the crosspoints in source order, then the master (2.6). -/
structure Snapshot where
  mix : MixId
  levels : Vector Nat 97
deriving DecidableEq, Repr

structure FadeUnit where
  table : List FadeRecord
  snaps : Vector (Option Snapshot) 128
  safe : Vector (Vector Bool 96) 24
  alarm : AlarmView
deriving DecidableEq, Repr

/-! ### Cue list and cue engine (04, 05) -/

/-- A stored cue action, its arguments within the ranges of R83. -/
inductive Action where
  | play (clip tag code fadeIn : Nat) (loop : Bool)
  | stop (tag time : Nat)
  | release (tag : Nat)
  | level (target : CueTarget) (code time : Nat)
  | recall (mix : MixId) (snapshot : Fin 128) (time : Nat)
  | mute (mix : MixId) (on : Bool)
  | page (zones : Vector Bool 16) (clip priority : Nat) (chime all restartable : Bool)
  | lamp (zone : ZoneId) (state : Lamp)
deriving DecidableEq, Repr

structure CueAction where
  offset : Nat
  act : Action
deriving DecidableEq, Repr

/-- Follow modes; the continue delay is present only with CONTINUE (R82). -/
inductive Follow where
  | none | continue (delay : Nat) | follow
deriving DecidableEq, Repr

structure Cue where
  number : Nat
  label : List Nat
  prewait : Nat
  follow : Follow
  actions : List CueAction
deriving DecidableEq, Repr

/-- An edit draft: a cue being built, with the replaced-value mark (4.4). -/
structure Draft where
  cue : Cue
  replaced : Bool
deriving DecidableEq, Repr

inductive RunState where
  | prewait | active | settling
deriving DecidableEq, Repr

/-- A running entry (R106). `clock` counts sample periods. `cont` is `some true` while the continue is PENDING, `some
false` once TAKEN. `origin` is the firing port, or none for FOLLOW. -/
structure RunEntry where
  cue : Nat
  state : RunState
  clock : Nat
  next : Nat
  out : Nat
  cont : Option Bool
  origin : Option PortId
  issued : Nat
  snapped : Nat
  failed : Nat
deriving DecidableEq, Repr

structure CueEngine where
  list : List Cue
  standing : Option Nat
  running : List RunEntry
  holder : Option PortId
  guard : Option Nat
  goGuard : Nat
  panicFade : Nat
  drafts : Vector (Option Draft) 3
  alarm : AlarmView
  downIn : List PortId
deriving DecidableEq, Repr

/-! ### Card unit and voices (03) -/

inductive CardState where
  | absent | mounting | mounted | failed
deriving DecidableEq, Repr

/-- A valid directory entry (3.5). -/
structure ClipEntry where
  channels : Nat
  start : Nat
  length : Nat
  loop : Option (Nat × Nat)
deriving DecidableEq, Repr

/-- A checked show area (R55). -/
structure ShowArea where
  cues : List Cue
  snaps : Vector (Option Snapshot) 128
  settings : List (Nat × Nat)
  power : Vector Bool 16
deriving DecidableEq, Repr

/-- A page that a mount or reload has still to read. -/
inductive LoadPage where
  | header | directory (page : Nat) | showArea (page : Nat)
deriving DecidableEq, Repr

/-- A mount or reload in progress: what is still to read, what has been read, and the checked show area on offer to the
cue engine (R51, R52, R57). -/
structure LoadJob where
  reload : Bool
  todo : List LoadPage
  clips : List RawClip
  items : List ShowItem
  withShow : Bool
  offer : Option ShowArea
deriving DecidableEq, Repr

structure FetchEntry where
  voice : VoiceId
  slot : Nat
  page : Nat
deriving DecidableEq, Repr

inductive ReadJob where
  | voice (v : VoiceId) (slot page : Nat)
  | load (page : LoadPage)
deriving DecidableEq, Repr

/-- The read in flight: what it is for, the card page it asks for, its number, and how many sample periods it has run
(R59, R62, R63). -/
structure Read where
  job : ReadJob
  page : Nat
  number : Nat
  age : Nat
deriving DecidableEq, Repr

structure CardUnit where
  showing : Bool
  state : CardState
  showLoaded : Bool
  insertTimer : Option Nat
  /-- valid entries by clip number, ascending -/
  dir : List (Nat × ClipEntry)
  header : Option CardHeader
  job : Option LoadJob
  reader : Option Read
  lastWasVoice : Bool
  readNumber : Nat
  queue : List FetchEntry
deriving DecidableEq, Repr

inductive SlotState where
  | empty | requested | inFlight | filled
deriving DecidableEq, Repr

/-- A ring slot (3.6). `wraps` is how many wraps of the loop lie between the play position and its page, so the wrap mark
stands while it is not 0 (R66). `stale` and `again` are R70's: a read in flight that is no longer wanted, and the page to
ask for once it is done. -/
structure Slot where
  state : SlotState
  page : Nat
  wraps : Nat
  stale : Bool
  again : Option Nat
  words : List Word24
deriving DecidableEq, Repr

inductive VoiceState where
  | idle | priming | playing | stopping | draining
deriving DecidableEq, Repr

inductive VoiceOrigin where
  | entry (cue : Nat)
  | port (p : PortId)
  | paging
deriving DecidableEq, Repr

/-- A voice record (3.7). -/
structure Voice where
  state : VoiceState
  clip : Nat
  info : ClipEntry
  tag : Option Nat
  startTag : Nat
  pos : Nat
  looping : Bool
  level : Nat
  ring : List Slot
  cur : Nat
  nextFetch : Option (Nat × Nat)
  underrun : Bool
  origin : Option VoiceOrigin
  token : Nat
deriving DecidableEq, Repr

/-- Why a voice ended (R212), or the read failure that stopped it. -/
inductive VoiceEnd where
  | clipEnd | stopped | reset | alarm | cardRemoved | paging
  | fault (page : Nat) (timeout : Bool)
deriving DecidableEq, Repr

/-- What the paging unit asks of the voices: a paging play (R76); a stop of V16 (R75), either of its own recorded page or
of a cue or port voice, to free V16 at alarm entry (R160). -/
inductive PagingAsk where
  | play (token clip : Nat)
  | stopOwn
  | freeV16
deriving DecidableEq, Repr

structure VoiceUnit where
  free : Nat
  tab : Vector Voice 16
  pagingIn : List PagingAsk
  alarm : AlarmView
deriving DecidableEq, Repr

/-! ### Paging unit (07) -/

inductive Service where
  | free | carrying | gap
deriving DecidableEq, Repr

/-- A zone record (7.1). `feed` is none, or the relay feed less one. -/
structure Zone where
  feed : Option (Fin 4)
  prog : Nat
  duck : Nat
  pageLevel : Nat
  cap : Nat
  service : Service
  carried : Option Nat
  prio : Option Nat
  gapTimer : Option Nat
  clip : Bool
  lamp : Lamp
deriving DecidableEq, Repr

inductive ZoneStatus where
  | waiting | carrying | done | preEmpted | unreached
deriving DecidableEq, Repr

inductive PageOrigin where
  | port (p : PortId)
  | cue (n : Nat)
  | alarm
deriving DecidableEq, Repr

/-- `live` carries the input channel less one. -/
inductive PageSource where
  | live (ch : Fin 64)
  | clip (n : Nat)
  | none
deriving DecidableEq, Repr

inductive PageState where
  | pending | chiming | speaking | ended
deriving DecidableEq, Repr

inductive PlayState where
  | none | waitingForVoice | priming | playing
deriving DecidableEq, Repr

inductive PageOutcome where
  | ended | cancelled | timeLimit | clipEnd | preEmpted | noZone | notMounted | noSuchClip | noBuffer | voiceFault
  | cardRemoved | portDown | alarmReset
deriving DecidableEq, Repr

/-- A page record (R146). `all` is the policy ALL. `token` is the play the page has issued and not seen the end of. -/
structure Page where
  id : Nat
  origin : PageOrigin
  prio : Nat
  wanted : Vector (Option ZoneStatus) 16
  all : Bool
  source : PageSource
  chime : Bool
  restartable : Bool
  state : PageState
  timer : Option Nat
  chimePos : Nat
  play : PlayState
  outcome : Option PageOutcome
  token : Option Nat
deriving DecidableEq, Repr

/-- V16's reports to the paging unit (R154). -/
inductive VoiceReport where
  | started (token : Nat)
  | ended (token : Nat) (why : VoiceEnd)
  | idle
deriving DecidableEq, Repr

structure PagingUnit where
  zones : Vector Zone 16
  pages : List Page
  lastId : Nat
  /-- ids given to alarm pages still to be created (R192), oldest first -/
  alarmIds : List Nat
  holder : Option Nat
  reserve : Bool
  duckDepth : Nat
  duckAttack : Nat
  duckRelease : Nat
  gap : Nat
  liveMax : Nat
  /-- EVACUATION SOURCE, 0 for NONE -/
  evac : Nat
  linkUp : Vector Bool 16
  /-- link changes told by the line unit: the zone, and whether the link entered UP -/
  linkIn : List (ZoneId × Bool)
  voiceIn : List VoiceReport
  lastToken : Nat
  alarm : AlarmView
  downIn : List PortId
deriving DecidableEq, Repr

/-! ### Line unit (08) -/

inductive Power where
  | off | on | fault
deriving DecidableEq, Repr

inductive Link where
  | down | hunt | up
deriving DecidableEq, Repr

inductive LampOrigin where
  | port (p : PortId)
  | cue (n : Nat)
  | button
  | refresh
deriving DecidableEq, Repr

inductive LineCmd where
  | lamp (state : Lamp) (origin : LampOrigin)
  | cap (code : Nat)
deriving DecidableEq, Repr

/-- The outstanding command with its sequence number and its age in frames (8.1). -/
structure Outstanding where
  cmd : LineCmd
  seq : Nat
  age : Nat
deriving DecidableEq, Repr

/-- What the last line frame event read on a line in UP, of what R182 lets a LAMP come together with: the echo of the
outstanding command, or an edge that acknowledged a blinking lamp (notes/assumptions/48.md). -/
inductive Together
  | nothing
  | echo
  | acknowledge
deriving DecidableEq, Repr

/-- A line record (8.1), with the zone samples handed over for its next frames, the last downstream frame (R170), and what
a LAMP taken now comes together with (R182). -/
structure Line where
  power : Power
  present : Bool
  link : Link
  good : Nat
  bad : Nat
  queue : List LineCmd
  out : Option Outstanding
  nextSeq : Nat
  button : Bool
  samples : List Sample
  sent : List Word24
  together : Together
deriving DecidableEq, Repr

structure LineUnit where
  tab : Vector Line 16
  count : Nat
  due : Nat
deriving DecidableEq, Repr

/-! ### The part -/

/-- The state of the part, with the queue of commands that wait, first in, first out. -/
structure State where
  pending : List Instr
  mix : MixEngine
  fades : FadeUnit
  card : CardUnit
  voices : VoiceUnit
  cues : CueEngine
  paging : PagingUnit
  lines : LineUnit
  alarm : AlarmInput
  ports : Vector PortRecord 3
deriving DecidableEq, Repr

/-- Faults of a step. No meaning raises one: the spec gives every command an effect. -/
inductive Fault where
  /-- Raised by no meaning; the type is not empty, so that a later repair can name a fault. Safe: a stop proves nothing
  false. -/
  | unspecified
deriving DecidableEq, Repr

/-- Refusals of a step. -/
inductive Refusal where
  /-- Raised by an arm of exec whose command has no meaning yet; no arm does. Safe: a stop proves nothing false. -/
  | notModelled (mnemonic : String)
deriving DecidableEq, Repr

/-! ### Power-on reset -/

namespace State.Reset

def alarmView : AlarmView := { standing := false, inbox := [] }

/-- R24, R137; the delivered samples are 0 as R14 gives for an UNLOCKED link. -/
def mix : MixEngine where
  xpt := Vector.replicate 24 (Vector.replicate 96 0)
  master := Vector.replicate 24 3456
  mute := Vector.replicate 24 true
  clip := Vector.replicate 24 false
  ceiling := Vector.replicate 12 4194304
  backoff := Vector.replicate 12 0
  clampMark := Vector.replicate 12 false
  duck := Vector.replicate 12 0
  talk := Vector.replicate 3 none
  talkDepth := 12
  sampleCount := 0
  frameDue := false
  links := Vector.replicate 4 { locked := false, run := 0, words := Vector.replicate 16 0 }
  out := Vector.replicate 24 0
  alarm := alarmView
  downIn := []

/-- R49. -/
def fades : FadeUnit where
  table := []
  snaps := Vector.replicate 128 none
  safe := Vector.replicate 24 (Vector.replicate 96 false)
  alarm := alarmView

/-- R78. -/
def card : CardUnit where
  showing := false
  state := .absent
  showLoaded := false
  insertTimer := none
  dir := []
  header := none
  job := none
  reader := none
  lastWasVoice := true
  readNumber := 0
  queue := []

/-- R78. The clip, copied entry, start tag, play position, origin, underrun-reported flag and next fetch of a voice that has
played nothing are not given: the values here are a DESIGN CHOICE (notes/assumptions/10.md). -/
def voice : Voice where
  state := .idle
  clip := 0
  info := { channels := 1, start := 0, length := 1, loop := none }
  tag := none
  startTag := 0
  pos := 0
  looping := false
  level := 3456
  ring := []
  cur := 0
  nextFetch := none
  underrun := false
  origin := none
  token := 0

/-- R78. -/
def voices : VoiceUnit where
  free := 48
  tab := Vector.replicate 16 voice
  pagingIn := []
  alarm := alarmView

/-- R93, R121. -/
def cues : CueEngine where
  list := []
  standing := none
  running := []
  holder := none
  guard := none
  goGuard := 300
  panicFade := 2000
  drafts := Vector.replicate 3 none
  alarm := alarmView
  downIn := []

/-- R165. -/
def zone : Zone where
  feed := some 0
  prog := 3456
  duck := 3456
  pageLevel := 216
  cap := 216
  service := .free
  carried := none
  prio := none
  gapTimer := none
  clip := false
  lamp := .off

/-- R165, R164. -/
def paging : PagingUnit where
  zones := Vector.replicate 16 zone
  pages := []
  lastId := 0
  alarmIds := []
  holder := none
  reserve := true
  duckDepth := 168
  duckAttack := 100
  duckRelease := 500
  gap := 500
  liveMax := 60000
  evac := 0
  linkUp := Vector.replicate 16 false
  linkIn := []
  voiceIn := []
  lastToken := 0
  alarm := alarmView
  downIn := []

/-- R185. -/
def line : Line where
  power := .off
  present := false
  link := .down
  good := 0
  bad := 0
  queue := []
  out := none
  nextSeq := 0
  button := false
  samples := []
  sent := []
  together := .nothing

/-- R185. -/
def lines : LineUnit where
  tab := Vector.replicate 16 line
  count := 0
  due := 0

/-- R193. -/
def alarm : AlarmInput := { state := .normal, timer := none, last := none }

/-- The defaults of 10.8. -/
def rights (p : PortId) : Vector Bool 6 :=
  if p = 0 then #v[true, true, true, false, false, true]
  else if p = 1 then #v[true, false, false, true, true, true]
  else #v[false, false, true, true, false, false]

/-- R211. -/
def port (p : PortId) : PortRecord where
  up := false
  prdy := false
  cts := false
  armed := false
  fifo := []
  loss := false
  asm := none
  reqs := []
  taken := []
  replies := []
  notices := []
  lost := false
  tx := none
  errs := { parity := false, framing := false, overrun := false, malformed := false }
  subs := Vector.replicate 7 false
  rights := rights p
  pageMic := 0
  talkLevel := 216

end State.Reset

/-- The machine right after power-on reset, with no card showing and PRDY and CTS of every port inactive
(notes/assumptions/9.md). -/
def State.reset : State where
  pending := []
  mix := Reset.mix
  fades := Reset.fades
  card := Reset.card
  voices := Reset.voices
  cues := Reset.cues
  paging := Reset.paging
  lines := Reset.lines
  alarm := Reset.alarm
  ports := #v[Reset.port 0, Reset.port 1, Reset.port 2]

end Sys2Proof.Machine
end

