-- ==== Sys2Proof/Machine/Formats.lean ====
section
/-! DEFINITION. How replies and notices code their fields (R212), and the characters of a message (10.12).
A code that no table of the spec gives is numbered in the order in which the sentence that defines it lists its values
(notes/assumptions/13.md); a size that the table of quantities does not give is in notes/assumptions/14.md. -/

namespace Sys2Proof.Machine

/-! ### Field builders, by the table of quantities of R212 -/

/-- One character. -/
def f1 (v : Nat) : Field := .num 1 v
/-- Two characters: cue numbers, fine levels, clip numbers, cue counts, pool counts. -/
def f2 (v : Nat) : Field := .num 2 v
/-- Three characters: times, clocks, setting values, gain words. -/
def f3 (v : Nat) : Field := .num 3 v
/-- Four characters: frame numbers (notes/assumptions/14.md). -/
def f4 (v : Nat) : Field := .num 4 v
/-- YES/NO and ON/OFF. -/
def fb (b : Bool) : Field := .num 1 b.toNat

/-- A set: the first member in the least significant bit. -/
def setBits : List Bool → Nat
  | [] => 0
  | b :: bs => b.toNat + 2 * setBits bs

/-- A set in a given number of characters. -/
def fset {n : Nat} (chars : Nat) (v : Vector Bool n) : Field := .num chars (setBits v.toList)

def portCode (p : PortId) : Nat := p.val

def fport (p : PortId) : Field := f1 (p.val + 1)

/-- The go authority holder: NONE 0, CP-A 1, CP-B 2, CP-C 3. -/
def holderCode : Option PortId → Nat
  | none => 0
  | some p => p.val + 1

def fholder (h : Option PortId) : Field := f1 (holderCode h)

/-- An origin: three characters. -/
def forigin (code cue : Nat) : List Field := [f1 code, f2 cue]

def entryOrigin : Option PortId → List Field
  | some p => forigin p.val 0
  | none => forigin 4 0

def voiceOrigin : Option VoiceOrigin → List Field
  | some (.entry n) => forigin 3 n
  | some (.port p) => forigin p.val 0
  | some .paging => forigin 8 0
  | none => forigin 0 0

def pageOrigin : PageOrigin → List Field
  | .port p => forigin p.val 0
  | .cue n => forigin 3 n
  | .alarm => forigin 5 0

def lampOrigin : LampOrigin → List Field
  | .port p => forigin p.val 0
  | .cue n => forigin 3 n
  | .button => forigin 6 0
  | .refresh => forigin 7 0

def pageSource : PageSource → List Field
  | .live ch => [f1 0, f2 (ch.val + 1)]
  | .clip n => [f1 1, f2 n]
  | .none => [f1 2, f2 0]

/-- A level target: kind, then mix, zone, voice or tag, then the source. -/
def ftarget : Target → List Field
  | .crosspoint m x => [f1 0, f1 (m.val + 1), f1 (x.val + 1)]
  | .master m => [f1 1, f1 (m.val + 1), f1 0]
  | .zoneProgramme z => [f1 2, f1 (z.val + 1), f1 0]
  | .zoneDuck z => [f1 3, f1 (z.val + 1), f1 0]
  | .voice v => [f1 4, f1 (v.val + 1), f1 0]

def fcueTarget : CueTarget → List Field
  | .crosspoint m x => [f1 0, f1 (m.val + 1), f1 (x.val + 1)]
  | .master m => [f1 1, f1 (m.val + 1), f1 0]
  | .zoneProgramme z => [f1 2, f1 (z.val + 1), f1 0]
  | .voices t => [f1 5, f1 t, f1 0]

/-! ### Codes of outcomes, states and reasons -/

/-- R212: 0 and 1 for the successes, then the refusals in the order of the introduction's table. -/
def ReqOutcome.code : ReqOutcome → Nat
  | .accepted => 0 | .clamped => 1 | .notPermitted => 2 | .notHolder => 3 | .held => 4 | .goGuard => 5 | .atEnd => 6
  | .atStart => 7 | .full => 8 | .noRoom => 9 | .inUse => 10 | .noSuch => 11 | .badArgument => 12 | .alarm => 13
  | .ended => 14 | .notMounted => 15 | .active => 16

/-- The place of a notice class in a subscription set (10, port record). -/
def NoticeClass.idx : NoticeClass → Fin 7
  | .cue => 0 | .mix => 1 | .voice => 2 | .page => 3 | .station => 4 | .alarm => 5 | .port => 6

/-- The place of a right in a rights set (10, port record). -/
def Right.idx : Right → Fin 6
  | .cue => 0 | .edit => 1 | .mix => 2 | .page => 3 | .station => 4 | .system => 5

/-- The results of a cue action (00_scope "Action Results"). -/
inductive ActionResult where
  | done | snapped | noVoice | noBuffer | noSuchClip | notMounted | emptySnapshot | pageFull | alarm
deriving DecidableEq, Repr

def ActionResult.code : ActionResult → Nat
  | .done => 0 | .snapped => 1 | .noVoice => 2 | .noBuffer => 3 | .noSuchClip => 4 | .notMounted => 5
  | .emptySnapshot => 6 | .pageFull => 7 | .alarm => 8

def Ending.code : Ending → Nat
  | .complete => 0 | .takenOver => 1 | .removed => 2 | .snapped => 3

def CardState.code : CardState → Nat
  | .absent => 0 | .mounting => 1 | .mounted => 2 | .failed => 3

def VoiceState.code : VoiceState → Nat
  | .idle => 0 | .priming => 1 | .playing => 2 | .stopping => 3 | .draining => 4

def RunState.code : RunState → Nat
  | .prewait => 0 | .active => 1 | .settling => 2

def AlarmState.code : AlarmState → Nat
  | .normal => 0 | .qualifying => 1 | .alarm => 2 | .alarmHeld => 3

def Power.code : Power → Nat
  | .off => 0 | .on => 1 | .fault => 2

def Link.code : Link → Nat
  | .down => 0 | .hunt => 1 | .up => 2

def lampCode : Lamp → Nat
  | .off => 0 | .on => 1 | .blink => 2

def Service.code : Service → Nat
  | .free => 0 | .carrying => 1 | .gap => 2

def ZoneStatus.code : ZoneStatus → Nat
  | .waiting => 0 | .carrying => 1 | .done => 2 | .preEmpted => 3 | .unreached => 4

def PageState.code : PageState → Nat
  | .pending => 0 | .chiming => 1 | .speaking => 2 | .ended => 3

def PlayState.code : PlayState → Nat
  | .none => 0 | .waitingForVoice => 1 | .priming => 2 | .playing => 3

def PageOutcome.code : PageOutcome → Nat
  | .ended => 0 | .cancelled => 1 | .timeLimit => 2 | .clipEnd => 3 | .preEmpted => 4 | .noZone => 5 | .notMounted => 6
  | .noSuchClip => 7 | .noBuffer => 8 | .voiceFault => 9 | .cardRemoved => 10 | .portDown => 11 | .alarmReset => 12

/-- The feed of a zone: NONE 0, RF1-RF4 1-4 (setting 23-38). -/
def feedCode : Option (Fin 4) → Nat
  | none => 0
  | some k => k.val + 1

/-! ### Characters -/

def Field.chars : Field → List Nat
  | .num n v => numChars n v
  | .text t => t.length :: t

def fieldsChars (fs : List Field) : List Nat := fs.flatMap Field.chars

/-- The characters of a reply: 128, L, the tag, the request kind, the outcome, the fields (10.12). -/
def Reply.chars (r : Reply) : List Nat :=
  let body := r.tag :: r.kind :: r.outcome.code :: fieldsChars r.fields
  128 :: body.length :: body

/-- The characters of a notice: 129, L, the header, the notice kind, the fields (10.12, R212, R203). -/
def Notice.chars (n : Notice) (lost : Bool) : List Nat :=
  let body := (n.cls.idx.val + 1 + 128 * lost.toNat) :: n.kind :: fieldsChars n.fields
  129 :: body.length :: body

end Sys2Proof.Machine
end

