-- ==== Sys2Proof/Machine/Ops.lean ====
section
/-! DEFINITION. The shared operations over State: replacing one record of a table, reading and writing a level target,
sending notices (R202), and answering a request (R200). -/

namespace Sys2Proof.Machine

/-! ### One record replaced -/

def modPort (p : PortId) (f : PortRecord → PortRecord) (s : State) : State :=
  { s with ports := upd s.ports p (f s.ports[p]) }

def modVoice (v : VoiceId) (f : Voice → Voice) (s : State) : State :=
  { s with voices := { s.voices with tab := upd s.voices.tab v (f s.voices.tab[v]) } }

def modZone (z : ZoneId) (f : Zone → Zone) (s : State) : State :=
  { s with paging := { s.paging with zones := upd s.paging.zones z (f s.paging.zones[z]) } }

def modLine (l : ZoneId) (f : Line → Line) (s : State) : State :=
  { s with lines := { s.lines with tab := upd s.lines.tab l (f s.lines.tab[l]) } }

def modMix (f : MixEngine → MixEngine) (s : State) : State := { s with mix := f s.mix }
def modFades (f : FadeUnit → FadeUnit) (s : State) : State := { s with fades := f s.fades }
def modCard (f : CardUnit → CardUnit) (s : State) : State := { s with card := f s.card }
def modVoices (f : VoiceUnit → VoiceUnit) (s : State) : State := { s with voices := f s.voices }
def modCues (f : CueEngine → CueEngine) (s : State) : State := { s with cues := f s.cues }
def modPaging (f : PagingUnit → PagingUnit) (s : State) : State := { s with paging := f s.paging }
def modLines (f : LineUnit → LineUnit) (s : State) : State := { s with lines := f s.lines }

/-! ### Level targets (00_scope "Levels") -/

/-- The fine level a target holds. -/
def levelOf (t : Target) (s : State) : Nat := match t with
  | .crosspoint m x => s.mix.xpt[m][x]
  | .master m => s.mix.master[m]
  | .zoneProgramme z => s.paging.zones[z].prog
  | .zoneDuck z => s.paging.zones[z].duck
  | .voice v => s.voices.tab[v].level

/-- A fine level written to a target in the block that holds it. -/
def writeLevel (t : Target) (f : Nat) (s : State) : State := match t with
  | .crosspoint m x => modMix (fun e => { e with xpt := upd e.xpt m (upd e.xpt[m] x f) }) s
  | .master m => modMix (fun e => { e with master := upd e.master m f }) s
  | .zoneProgramme z => modZone z (fun r => { r with prog := f }) s
  | .zoneDuck z => modZone z (fun r => { r with duck := f }) s
  | .voice v => modVoice v (fun r => { r with level := f }) s

/-! ### Notices (R202) -/

/-- A notice reaching a port: not taken while DOWN; queued while fewer than 16 wait; else lost, and the flag set. -/
def enqueueNotice (n : Notice) (r : PortRecord) : PortRecord :=
  if r.up then
    if r.notices.length < 16 then { r with notices := r.notices ++ [n] } else { r with lost := true }
  else r

/-- A notice sent to one port. -/
def notifyPort (p : PortId) (n : Notice) (s : State) : State := modPort p (enqueueNotice n) s

/-- A notice sent to every port that `who` selects. -/
def notifyWhere (who : PortId → PortRecord → Bool) (n : Notice) (s : State) : State :=
  { s with ports := vmapi (fun p r => if who p r then enqueueNotice n r else r) s.ports }

/-- A notice sent to every port subscribed to its class. -/
def notifyClass (n : Notice) (s : State) : State := notifyWhere (fun _ r => r.subs[n.cls.idx]) n s

/-! ### Requests (R200) -/

/-- The outcome and fields with which an owner answers a request. -/
structure Answer where
  outcome : ReqOutcome
  fields : List Field := []
deriving DecidableEq, Repr

/-- ACCEPTED with no field. -/
def accept : Answer := { outcome := .accepted }

/-- A refusal with no field. -/
def refuse (o : ReqOutcome) : Answer := { outcome := o }

/-- ACCEPTED, or CLAMPED where a value was brought into range. -/
def acceptOr (clamped : Bool) (fields : List Field := []) : Answer :=
  { outcome := if clamped then .clamped else .accepted, fields := fields }

/-- Whether the port went down after it had handed this very request to its owner, which has still to take it (R210). -/
def orphaned (p : PortId) (i : Instr) (s : State) : Bool := s.ports[p].taken.contains i

/-- Whether the port has handed this very request to its owner and not yet had its answer; one of before a port-down goes
first. -/
def handed (p : PortId) (i : Instr) (s : State) : Bool :=
  !orphaned p i s && s.ports[p].reqs.any fun r => r.state == .handed i

/-- The handed request becomes ANSWERED (R200). -/
def markAnswered (i : Instr) : List Request → List Request
  | [] => []
  | r :: rs => if r.state = .handed i then { r with state := .answered } :: rs else r :: markAnswered i rs

/-- The reply joins the tail of the reply queue, and the request becomes ANSWERED (R200). -/
def answer (p : PortId) (tag kind : Nat) (i : Instr) (a : Answer) (s : State) : State :=
  modPort p (fun r => { r with
    reqs := markAnswered i r.reqs
    replies := r.replies ++ [{ tag := tag, kind := kind, outcome := a.outcome, fields := a.fields }] }) s

/-- R210: a request of before a port-down has been taken by its owner, and its reply is discarded. -/
def discardReply (p : PortId) (i : Instr) (s : State) : State :=
  modPort p (fun r => { r with taken := r.taken.erase i }) s

/-- The owner takes a request: it is judged against the state as it stands, carried out or refused, and answered; the
reply of one of before a port-down is discarded (R210). A command that names a request no port has handed over changes
nothing (notes/assumptions/4.md). -/
def serve (p : PortId) (tag kind : Nat) (i : Instr) (body : State → State × Answer) (s : State) :
    Host.Outcome State Fault Refusal :=
  if handed p i s then .next (answer p tag kind i (body s).2 (body s).1)
  else if orphaned p i s then .next (discardReply p i (body s).1)
  else .next s

/-- Whether a port holds a right. -/
def hasRight (p : PortId) (r : Right) (s : State) : Bool := s.ports[p].rights[r.idx]

/-- A request that has no effect but its answer, or is refused. -/
def only (s : State) (a : Answer) : State × Answer := (s, a)

/-! ### Running entries, as other blocks reach them (05) -/

/-- The running entry of a cue, changed (a cue has at most one entry, R105). -/
def modEntry (cue : Nat) (f : RunEntry → RunEntry) (s : State) : State :=
  modCues (fun c => { c with running := c.running.map fun e => if e.cue = cue then f e else e }) s

end Sys2Proof.Machine
end

