-- ==== Sys2Proof/Machine/Flags.lean ====
section
/-! DEFINITION. The held flags: clip flags of mixes and zones (R10, R140), and a port's error flags with PORT ERROR
(R205). -/

namespace Sys2Proof.Machine

/-- The four error flags, in the order of 10's port record. -/
inductive ErrFlag where
  | parity | framing | overrun | malformed
deriving DecidableEq, Repr

def ErrFlag.code : ErrFlag → Nat
  | .parity => 0 | .framing => 1 | .overrun => 2 | .malformed => 3

def ErrFlags.has (e : ErrFlags) : ErrFlag → Bool
  | .parity => e.parity | .framing => e.framing | .overrun => e.overrun | .malformed => e.malformed

def ErrFlags.put (e : ErrFlags) : ErrFlag → ErrFlags
  | .parity => { e with parity := true }
  | .framing => { e with framing := true }
  | .overrun => { e with overrun := true }
  | .malformed => { e with malformed := true }

def ErrFlags.clear : ErrFlags := { parity := false, framing := false, overrun := false, malformed := false }

/-- The flags as a set in one character, PARITY least significant (notes/assumptions/14.md). -/
def ErrFlags.bits (e : ErrFlags) : Nat := setBits [e.parity, e.framing, e.overrun, e.malformed]

/-- PORT ERROR: the flag set, and the four flags as they then stand. -/
def portErrorNotice (f : ErrFlag) (e : ErrFlags) : Notice :=
  { cls := .port, kind := 1, fields := [f1 f.code, f1 e.bits] }

/-- R205: a flag set in its port record; PORT ERROR to the port itself on a passage from clear to set, if subscribed. -/
def PortRecord.setError (f : ErrFlag) (r : PortRecord) : PortRecord :=
  if r.errs.has f then r
  else
    let r' := { r with errs := r.errs.put f }
    if r.subs[NoticeClass.port.idx] then enqueueNotice (portErrorNotice f r'.errs) r' else r'

/-- R10: a mix whose sample was saturated or clamped has its clip flag set. -/
def orFlag (hit old : Bool) : Bool := hit || old

/-- R10, R140: the clip flags of mixes and zones, each cleared as a FLAGS reply carries it. -/
def clearClips (s : State) : State :=
  { s with
    mix := { s.mix with clip := Vector.replicate 24 false }
    paging := { s.paging with zones := vmapi (fun _ z => { z with clip := false }) s.paging.zones } }

end Sys2Proof.Machine
end

