-- ==== Sys2Proof/Machine/Operands.lean ====
section
/-! DEFINITION. The checks of form and range that operands pass before they are used: targets, ON/OFF settings, sets,
cue actions (R83, R84) and settings values (10.10). -/

namespace Sys2Proof.Machine

/-- ON/OFF or YES/NO by its code; any other character is neither. -/
def onOff : Nat → Option Bool
  | 0 => some false
  | 1 => some true
  | _ => none

/-- A YES/NO flag where the owning rule tests no further value (notes/assumptions/11.md). -/
def yesNo (v : Nat) : Bool := match onOff v with
  | some b => b
  | none => Config.oddFlag v

def lampOf : Nat → Option Lamp
  | 0 => some .off
  | 1 => some .on
  | 2 => some .blink
  | _ => none

/-- The zones of a set of 16, none when a bit lies outside or the set is empty. -/
def zoneSetOf (bits : Nat) : Option (Vector Bool 16) :=
  if 0 < bits ∧ bits < 65536 then some (setOfBits 16 bits) else none

/-- A target of the table of 1.9 (R18, R22), none when its kind is unknown or an index lies outside its range; a third
character that its kind has no use for is disregarded (notes/assumptions/44.md). -/
def targetOf (t : RawTarget) : Option Target := match t.kind with
  | 0 => do return .crosspoint (← idx1 24 t.index) (← idx1 96 t.source)
  | 1 => do return .master (← idx1 24 t.index)
  | 2 => do return .zoneProgramme (← idx1 16 t.index)
  | 3 => do return .zoneDuck (← idx1 16 t.index)
  | 4 => do return .voice (← idx1 16 t.index)
  | _ => none

/-- The targets SET LEVEL may name (1.9). -/
def settable : Target → Bool
  | .crosspoint .. | .master _ | .zoneProgramme _ => true
  | .zoneDuck _ | .voice _ => false

/-- Whether a port holds a right that the target's kind needs (1.9). -/
def targetRight (p : PortId) (t : Target) (s : State) : Bool := match t with
  | .crosspoint .. | .master _ | .voice _ => hasRight p .mix s
  | .zoneProgramme _ | .zoneDuck _ => hasRight p .mix s || hasRight p .page s

/-- A target of a cue LEVEL action (R83); a third character that its kind has no use for is disregarded
(notes/assumptions/44.md). -/
def cueTargetOf (t : RawTarget) : Option CueTarget := match t.kind with
  | 0 => do return .crosspoint (← idx1 24 t.index) (← idx1 96 t.source)
  | 1 => do return .master (← idx1 24 t.index)
  | 2 => do return .zoneProgramme (← idx1 16 t.index)
  | 5 => if 1 ≤ t.index ∧ t.index ≤ 255 then some (.voices t.index) else none
  | _ => none

/-- Whether a code or time is one that is replaced (R84). -/
def codeReplaced (c : Nat) : Bool := maxCode < c
def timeReplaced (t : Nat) : Bool := maxTime < t

/-- R83, R84: an action with its arguments brought into range, and whether one was replaced; none for BAD_ARGUMENT. -/
def actionOf : RawAction → Option (Action × Bool)
  | .play clip tag code fadeIn loop => do
    let lp ← onOff loop
    if between 1 1024 clip && between 1 255 tag then
      return (.play clip tag (clampCode code) (clampTime fadeIn) lp, codeReplaced code || timeReplaced fadeIn)
    else none
  | .stop tag time =>
    if between 1 255 tag then some (.stop tag (clampTime time), timeReplaced time) else none
  | .release tag => if between 1 255 tag then some (.release tag, false) else none
  | .level target code time => do
    let t ← cueTargetOf target
    return (.level t (clampCode code) (clampTime time), codeReplaced code || timeReplaced time)
  | .recall mix snapshot time => do
    let m ← idx1 24 mix
    let n ← idx1 128 snapshot
    return (.recall m n (clampTime time), timeReplaced time)
  | .mute mix setting => do
    let m ← idx1 24 mix
    let b ← onOff setting
    return (.mute m b, false)
  | .page zones clip priority chime policy restartable => do
    let zs ← zoneSetOf zones
    let ch ← onOff chime
    let pol ← onOff policy
    let re ← onOff restartable
    if between 1 1024 clip && between 1 3 priority then return (.page zs clip priority ch (!pol) re, false) else none
  | .lamp zone state => do
    let z ← idx1 16 zone
    let l ← lampOf state
    return (.lamp z l, false)
  | .unknown _ => none

/-- R85: an action placed by its offset, after all of an equal one; the answer's second part is its position. -/
def placeAction (a : CueAction) : List CueAction → List CueAction × Nat
  | [] => ([a], 1)
  | b :: bs =>
    if a.offset < b.offset then (a :: b :: bs, 1)
    else (b :: (placeAction a bs).1, (placeAction a bs).2 + 1)

/-- R81, R212: a label is 0-24 characters, each of code 32-126. -/
def labelOk (l : List Nat) : Bool := decide (l.length ≤ 24) && l.all (between 32 126)

/-- A follow mode by its code, with the continue delay brought into range (R82). -/
def followOf (mode delay : Nat) : Option Follow := match mode with
  | 0 => some .none
  | 1 => some (.continue (clampTime delay))
  | 2 => some .follow
  | _ => none

/-- Whether a continue delay was replaced: it is read only with CONTINUE (R86). -/
def delayReplaced (mode delay : Nat) : Bool := mode == 1 && timeReplaced delay

/-- The range of a setting by its number (10.10). -/
def settingRange (n : Nat) : Nat × Nat :=
  if n = 1 then (0, 2000)
  else if n = 2 then (0, 10000)
  else if n ≤ 14 then (65536, 8388607)
  else if n = 15 then (0, 60)
  else if n = 16 then (0, 1)
  else if n = 17 then (0, 216)
  else if n ≤ 19 then (0, 10000)
  else if n = 20 then (0, 2000)
  else if n = 21 then (5000, 300000)
  else if n = 22 then (0, 64)
  else if n ≤ 38 then (0, 4)
  else if n ≤ 54 then (0, 240)
  else if n ≤ 57 then (0, 64)
  else (0, 240)

/-- R208: a value outside its setting's range is replaced by the nearer end. -/
def clampSetting (n v : Nat) : Nat := max (settingRange n).1 (min v (settingRange n).2)

/-- R208: whether a pair breaks the first test for a reason of its own. -/
def badPair (n v : Nat) : Bool :=
  !between 1 60 n || (n == 16 && decide (1 < v)) || (between 23 38 n && decide (4 < v))

end Sys2Proof.Machine
end

