-- ==== Sys2Proof/Machine/Fades.lean ====
section
/-! DEFINITION. The fade table (02): which record drives a target, how a target leaves a record, how an ending is told to
a running entry or a port, and the advance at a frame event. -/

namespace Sys2Proof.Machine

/-- The most records the table holds (R25). -/
abbrev fadeRoom : Nat := 64

/-- The place of a target in the 97 of a MIX record of mix `m`. -/
def placeIn (m : MixId) : Target → Option (Fin 97)
  | .crosspoint m' x => if m' = m then some ⟨x.val, by omega⟩ else none
  | .master m' => if m' = m then some 96 else none
  | _ => none

/-- Whether a record drives a target (R25). -/
def drives (t : Target) (r : FadeRecord) : Bool := match r.body with
  | .single t' _ _ => t' == t
  | .mix m _ _ _ engaged => match placeIn m t with
    | some i => engaged[i]
    | none => false

/-- Whether any record of the table drives a target (R22, R25). -/
def driven (t : Target) (s : State) : Bool := s.fades.table.any (drives t)

/-- What a takeover of `t` leaves of a record: a SINGLE record on `t` leaves the table; a MIX record loses `t` from its
engaged set and leaves with the last one (R27, R34). -/
def displace (t : Target) (r : FadeRecord) : Option FadeRecord := match r.body with
  | .single t' _ _ => if t' = t then none else some r
  | .mix m sn st en engaged => match placeIn m t with
    | none => some r
    | some i =>
      let left := upd engaged i false
      if left.toList.any id then some { r with body := .mix m sn st en left } else
        if engaged[i] then none else some r

/-- The level FADE DONE carries: the target's, or the master's for a MIX record (R26). -/
def endingLevel (r : FadeRecord) (s : State) : Nat := match r.body with
  | .single t _ _ => levelOf t s
  | .mix m _ _ _ _ => levelOf (.master m) s

/-- FADE DONE (R26). -/
def fadeDone (r : FadeRecord) (e : Ending) (s : State) : Notice :=
  { cls := .mix, kind := 1,
    fields := (match r.body with
      | .single t _ _ => f1 0 :: ftarget t
      | .mix m sn _ _ _ => [f1 1, f1 (m.val + 1), f1 (sn.val + 1)]) ++ [f1 e.code, f2 (endingLevel r s)] }

/-- R26, R110: an ending told to a running entry or to a port. The paging unit does nothing with one; a voice stop is
told by `report`. -/
def tell (e : Ending) (s : State) (r : FadeRecord) : State := match r.origin with
  | .entry n => if e = .snapped then s else modEntry n (fun x => { x with out := x.out - 1 }) s
  | .port p => notifyPort p (fadeDone r e s) s
  | .paging _ => s
  | .voiceStop _ => s

/-- The records that drive a voice's level. -/
def onVoice (v : VoiceId) (r : FadeRecord) : Bool := drives (.voice v) r

/-- The table without the records that `out` selects. -/
def dropFades (out : FadeRecord → Bool) (s : State) : State :=
  modFades (fun f => { f with table := f.table.filter fun r => !out r }) s

/-- The present levels of a mix: its crosspoints in source order, then its master (2.6). -/
def mixLevels (m : MixId) (s : State) : Vector Nat 97 :=
  Vector.ofFn fun i => if h : i.val < 96 then s.mix.xpt[m][i.val] else s.mix.master[m]

/-- Levels written to the engaged targets of a mix. -/
def writeMix (m : MixId) (engaged : Vector Bool 97) (levels : Vector Nat 97) (s : State) : State :=
  modMix (fun e => { e with
    xpt := upd e.xpt m (vmapi (fun i old => if engaged[i.val] then levels[i.val] else old) e.xpt[m])
    master := upd e.master m (if engaged[96] then levels[96] else e.master[m]) }) s

/-- R35 step 1: the engaged set of a recall of mix `m`: its master, and each crosspoint whose safe flag is clear. -/
def recallSet (m : MixId) (s : State) : Vector Bool 97 :=
  Vector.ofFn fun i => if h : i.val < 96 then !s.fades.safe[m][i.val] else true

/-- R35 steps 2 and 3: the records a recall of `m` displaces. -/
def displacedBy (m : MixId) (engaged : Vector Bool 97) (r : FadeRecord) : Bool := match r.body with
  | .single t _ _ => match placeIn m t with
    | some i => engaged[i]
    | none => false
  | .mix m' _ _ _ _ => m' == m

def isSingle (r : FadeRecord) : Bool := match r.body with
  | .single .. => true
  | .mix .. => false

/-- R31: one frame event on one record: its targets written for the raised count. -/
def writeRecord (s : State) (r : FadeRecord) : State := match r.body with
  | .single t a b => writeLevel t (fadePosition a b r.n r.dur) s
  | .mix m _ a b engaged =>
    writeMix m engaged (Vector.ofFn fun i => fadePosition a[i] b[i] r.n r.dur) s

/-- Whether a record, its count raised, completes (R32). -/
def complete (r : FadeRecord) : Bool := decide (r.dur ≤ r.n)

end Sys2Proof.Machine
end

