-- ==== Sys2Proof/Machine/Reader.lean ====
section
/-! DEFINITION. The card reader and the fetch queue (R62), the assignment of clip pages to ring slots (R66), the notices
of the voices and the ending of a voice (R74). -/

namespace Sys2Proof.Machine

/-! ### The reader -/

/-- What the reader would take next (R62): of two kinds waiting, the one that did not go last. -/
def nextJob (c : CardUnit) : Option ReadJob :=
  let voice := c.queue.head?.map fun e => ReadJob.voice e.voice e.slot e.page
  let load := (c.job.bind fun j => j.todo.head?).map ReadJob.load
  match voice, load with
  | none, none => none
  | some v, none => some v
  | none, some l => some l
  | some v, some l => some (if c.lastWasVoice then l else v)

/-- A ring slot changed. -/
def modSlot (v : VoiceId) (k : Nat) (f : Slot → Slot) (s : State) : State :=
  modVoice v (fun r => { r with ring := r.ring.modify k f }) s

/-- The card page that a read asks for: the header is page 0 (R51), and clip page p is the clip's start page + p (R59). -/
def cardPageOf (s : State) : ReadJob → Nat
  | .voice v _ p => s.voices.tab[v].info.start + p
  | .load .header => 0
  | .load (.directory n) => n
  | .load (.showArea n) => n

/-- A read taken: the entry leaves the queue or the page the list, and the slot becomes IN FLIGHT. -/
def takeJob (j : ReadJob) (s : State) : State :=
  let begun (c : CardUnit) : CardUnit :=
    { c with
      readNumber := c.readNumber + 1
      reader := some { job := j, page := cardPageOf s j, number := c.readNumber + 1, age := 0 } }
  match j with
  | .voice v k _ =>
    modCard (fun c => begun { c with queue := c.queue.tail, lastWasVoice := true })
      (modSlot v k (fun x => { x with state := .inFlight }) s)
  | .load _ =>
    modCard (fun c => begun { c with
      job := c.job.map fun j => { j with todo := j.todo.tail }
      lastWasVoice := false }) s

/-- R62: a free reader takes the next read. -/
def readerTake (s : State) : State := match s.card.reader with
  | some _ => s
  | none => match nextJob s.card with
    | none => s
    | some j => takeJob j s

/-! ### Play order (R59, R66) -/

/-- F, the frames of a card page. -/
def pageFrames (c : ClipEntry) : Nat := if c.channels = 2 then 512 else 1024

/-- The number of clip pages. -/
def clipPages (c : ClipEntry) : Nat := (c.length + pageFrames c - 1) / pageFrames c

/-- The quota of a clip: 2 pages mono, 4 stereo (3.6). -/
def quota (c : ClipEntry) : Nat := if c.channels = 2 then 4 else 2

/-- The page that follows another in play order, with the number of wraps before it. -/
def pageAfter (c : ClipEntry) (looping : Bool) (page wraps : Nat) : Option (Nat × Nat) :=
  match looping, c.loop with
  | true, some (ls, le) =>
    if page = (le - 1) / pageFrames c then some (ls / pageFrames c, wraps + 1) else some (page + 1, wraps)
  | _, _ => if page + 1 < clipPages c then some (page + 1, wraps) else none

def emptySlot : Slot := { state := .empty, page := 0, wraps := 0, stale := false, again := none, words := [] }

def requestedSlot (page wraps : Nat) : Slot :=
  { state := .requested, page := page, wraps := wraps, stale := false, again := none, words := [] }

/-- A slot REQUESTED with a page, and its entry at the tail of the fetch queue (R62). -/
def requestSlot (v : VoiceId) (k page wraps : Nat) (s : State) : State :=
  modCard (fun c => { c with queue := c.queue ++ [{ voice := v, slot := k, page := page }] })
    (modSlot v k (fun _ => requestedSlot page wraps) s)

/-- The next page of the play order assigned to slot `k`; with none left the slot is EMPTY (R65, R66). -/
def assignSlot (v : VoiceId) (s : State) (k : Nat) : State :=
  let r := s.voices.tab[v]
  match r.nextFetch with
  | none => modSlot v k (fun _ => emptySlot) s
  | some (p, w) =>
    requestSlot v k p w (modVoice v (fun r => { r with nextFetch := pageAfter r.info r.looping p w }) s)

/-! ### Notices of class VOICE (R77) -/

def voiceCode : VoiceId → Field := fun v => f1 (v.val + 1)

def voiceStarted (v : VoiceId) (r : Voice) : Notice :=
  { cls := .voice, kind := 1, fields := [voiceCode v, f2 r.clip, f1 (r.tag.getD 0)] ++ voiceOrigin r.origin }

def endReason : VoiceEnd → Nat
  | .clipEnd => 0 | .stopped => 1 | .reset => 2 | .alarm => 3 | .cardRemoved => 4 | .paging => 5 | .fault .. => 0

/-- VOICE ENDED, or VOICE FAULT for a read failure. -/
def voiceEnded (v : VoiceId) (r : Voice) : VoiceEnd → Notice
  | .fault page timeout =>
    { cls := .voice, kind := 4, fields := [voiceCode v, f2 r.clip, f4 page, fb timeout] }
  | why => { cls := .voice, kind := 2,
             fields := [voiceCode v, f2 r.clip, f1 r.startTag] ++ voiceOrigin r.origin ++ [f1 (endReason why)] }

def voiceUnderrun (v : VoiceId) (r : Voice) : Notice :=
  { cls := .voice, kind := 3, fields := [voiceCode v, f2 r.clip, f4 r.pos] }

/-! ### The ending of a voice -/

/-- V16 (3.9). -/
abbrev pagingVoice : VoiceId := 15

/-- A report of V16 to the paging unit. -/
def tellPaging (r : VoiceReport) (s : State) : State :=
  modPaging (fun p => { p with voiceIn := p.voiceIn ++ [r] }) s

/-- A voice becomes IDLE: its quota returns to the pool, and the paging unit is told of V16 (R61, R74). -/
def becomeIdle (v : VoiceId) (s : State) : State :=
  let s1 := modVoices (fun u => { u with free := u.free + s.voices.tab[v].ring.length }) s
  let s2 := modVoice v (fun r => { r with state := .idle, ring := [], nextFetch := none }) s1
  if v = pagingVoice then tellPaging .idle s2 else s2

/-- Whether the read in flight is for a slot of the voice. -/
def readingFor (v : VoiceId) (s : State) : Bool := match s.card.reader with
  | some { job := .voice v' _ _, .. } => v' == v
  | _ => false

def sounding (r : Voice) : Bool := match r.state with
  | .priming | .playing | .stopping => true
  | .idle | .draining => false

/-- The REQUESTED slots of a voice that has ended hold nothing wanted. -/
def unrequest (x : Slot) : Slot := if x.state = .requested then emptySlot else x

/-- R74: a voice in PRIMING, PLAYING or STOPPING ends; one that has ended already is left as it is. -/
def endVoice (v : VoiceId) (why : VoiceEnd) (s : State) : State :=
  let r := s.voices.tab[v]
  if sounding r then
    let s1 := modVoice v (fun r => { r with tag := none, looping := false }) s
    let gone := s1.fades.table.filter (onVoice v)
    let s2 := gone.foldl (tell .removed) (dropFades (onVoice v) s1)
    let s3 := modCard (fun c => { c with queue := c.queue.filter fun e => e.voice ≠ v }) s2
    let s4 := modVoice v (fun r => { r with ring := r.ring.map unrequest, nextFetch := none }) s3
    let idle := !readingFor v s
    let s5 := if idle then
        modVoice v (fun r => { r with state := .idle, ring := [] })
          (modVoices (fun u => { u with free := u.free + r.ring.length }) s4)
      else modVoice v (fun r => { r with state := .draining }) s4
    let s6 := notifyClass (voiceEnded v r why) s5
    let s7 := if r.origin = some .paging then tellPaging (.ended r.token why) s6 else s6
    if idle && v == pagingVoice then tellPaging .idle s7 else s7
  else s

end Sys2Proof.Machine
end

