-- ==== Sys2Proof/Machine/Takeover.lean ====
section
/-! DEFINITION. Fades as they meet (2.2, 2.4, 2.5): reporting an ending to every originator, takeover, creating a SINGLE
or MIX fade, snaps, removals, and the frame event of the fade unit. -/

namespace Sys2Proof.Machine

/-- R26, R73: an ending told to its originator; that of a voice stop ends the voice, for the reason given. -/
def report (e : Ending) (why : VoiceEnd) (s : State) (r : FadeRecord) : State := match r.origin with
  | .voiceStop v => endVoice v why s
  | _ => tell e s r

/-- R27, R34: a newer instruction takes a target over. -/
def takeOver (t : Target) (s : State) : State :=
  let gone := s.fades.table.filter fun r => (displace t r).isNone
  gone.foldl (report .takenOver .stopped) (modFades (fun f => { f with table := f.table.filterMap (displace t) }) s)

/-- R19: a snap of one target. -/
def snap (t : Target) (fine : Nat) (s : State) : State := writeLevel t fine (takeOver t s)

/-- A record as it enters the table. -/
def newSingle (t : Target) (start fine dur : Nat) (o : FadeOrigin) : FadeRecord :=
  { body := .single t start fine, dur := dur, n := 0, origin := o }

/-- R27, R36: a SINGLE fade. The answer's second part is whether it was given a record; if not, it snapped. -/
def createSingle (t : Target) (fine dur : Nat) (o : FadeOrigin) (s : State) : State × Bool :=
  let s1 := takeOver t s
  let r := newSingle t (levelOf t s1) fine dur o
  if s1.fades.table.length < fadeRoom then
    (modFades (fun f => { f with table := f.table ++ [r] }) s1, true)
  else (report .snapped .stopped (writeLevel t fine s1) r, false)

/-- R35, R36: a recall of a snapshot's levels to a mix. The answer's second part is whether a record was made; a snap
recall (time 0) makes none and tells no one. Of several SINGLEs displaced, the endings are told in table order
(notes/assumptions/41.md). -/
def recallMix (m : MixId) (number : Fin 128) (levels : Vector Nat 97) (dur : Nat) (o : FadeOrigin) (s : State) :
    State × Bool :=
  let engaged := recallSet m s
  let out := displacedBy m engaged
  let gone := s.fades.table.filter (fun r => out r && isSingle r) ++ s.fades.table.filter (fun r => out r && !isSingle r)
  let s1 := gone.foldl (report .takenOver .stopped) (dropFades out s)
  let r : FadeRecord :=
    { body := .mix m number (mixLevels m s1) levels engaged, dur := dur, n := 0, origin := o }
  if dur = 0 then (writeMix m engaged levels s1, false)
  else if s1.fades.table.length < fadeRoom then (modFades (fun f => { f with table := f.table ++ [r] }) s1, true)
  else (report .snapped .stopped (writeMix m engaged levels s1) r, false)

/-- 2.5: records removed, those that `told` selects with a report of REMOVED, in table order
(notes/assumptions/41.md). -/
def removeFades (out told : FadeRecord → Bool) (why : VoiceEnd) (s : State) : State :=
  let gone := s.fades.table.filter fun r => out r && told r
  gone.foldl (report .removed why) (dropFades out s)

def fromEntry (r : FadeRecord) : Bool := match r.origin with
  | .entry _ => true
  | _ => false

def fromPaging (r : FadeRecord) : Bool := match r.origin with
  | .paging _ => true
  | _ => false

def onAnyVoice (r : FadeRecord) : Bool := match r.body with
  | .single (.voice _) _ _ => true
  | _ => false

/-- R31, R32: the fade unit's part of the frame event: every record advanced, then every completion told,
in table order (notes/assumptions/41.md). -/
def advanceFades (s : State) : State :=
  let raised := s.fades.table.map fun r => { r with n := r.n + 1 }
  let s1 := raised.foldl writeRecord s
  let s2 := modFades (fun f => { f with table := raised.filter fun r => !complete r }) s1
  (raised.filter complete).foldl (report .complete .stopped) s2

end Sys2Proof.Machine
end

