-- ==== Sys2Proof/Machine/Voices.lean ====
section
/-! DEFINITION. The voices (03, 3.7-3.10): starting, stopping and releasing plays, what a read's end does to a slot, and
the voices' part of a sample period. -/

namespace Sys2Proof.Machine

/-! ### Starting a play (R64, R65) -/

/-- Whether a voice is open to a cue or port play (R64). -/
def openTo (s : State) (v : VoiceId) : Bool :=
  s.voices.tab[v].state == .idle && (v != pagingVoice || !s.paging.reserve)

/-- The lowest-numbered open voice. -/
def openVoice (s : State) : Option VoiceId := (List.finRange 16).find? (openTo s)

/-- A valid directory entry by clip number (R60). -/
def clipOf (clip : Nat) (s : State) : Option ClipEntry := (s.card.dir.find? fun e => e.1 == clip).map (·.2)

/-- R65: the level is set last. The answer's second part: whether a fade-in was wanted and given a record; the third:
whether it snapped. -/
def startLevel (v : VoiceId) (code fadeIn : Nat) (o : FadeOrigin) (s : State) : State × Nat × Bool :=
  if fadeIn = 0 then (snap (.voice v) (fineOfCode code) s, 0, false)
  else
    let r := createSingle (.voice v) (fineOfCode code) fadeIn o (snap (.voice v) 0 s)
    (r.1, r.2.toNat, !r.2)

/-- R65 up to the level: quota, copied entry, tag, position, slots and first assignments; PRIMING. -/
def startVoice (v : VoiceId) (clip : Nat) (info : ClipEntry) (tag : Nat) (loop : Bool) (o : VoiceOrigin) (token : Nat)
    (s : State) : State :=
  let s1 := modVoices (fun u => { u with free := u.free - quota info }) s
  let s2 := modVoice v (fun r => { r with
    state := .priming
    clip := clip
    info := info
    tag := some tag
    startTag := tag
    pos := 0
    looping := loop && info.loop.isSome
    ring := List.replicate (quota info) emptySlot
    cur := 0
    nextFetch := some (0, 0)
    underrun := false
    origin := some o
    token := token }) s1
  (List.range (quota info)).foldl (assignSlot v) s2

/-- What a play finds, by the tests of R64 from the card state on. -/
inductive PlayTest where
  | notMounted | noSuchClip | noVoice | noBuffer
  | start (v : VoiceId) (info : ClipEntry)
deriving DecidableEq, Repr

/-- R64's tests of a play for a given choice of voice. -/
def playTest (clip : Nat) (voice : Option VoiceId) (s : State) : PlayTest :=
  if s.card.state ≠ .mounted then .notMounted
  else match clipOf clip s with
  | none => .noSuchClip
  | some info => match voice with
    | none => .noVoice
    | some v => if s.voices.free < quota info then .noBuffer else .start v info

/-! ### Stops (R71, R75) -/

def matchesTag (tag : Nat) (r : Voice) : Bool :=
  (r.state == .priming || r.state == .playing) && r.tag == some tag

/-- R71: one voice stopped over a time: a PRIMING voice ends, a PLAYING voice enters STOPPING. -/
def stopVoice (time : Nat) (s : State) (v : VoiceId) : State := match s.voices.tab[v].state with
  | .priming => endVoice v .stopped s
  | .playing =>
    (createSingle (.voice v) 0 time (.voiceStop v)
      (modVoice v (fun r => { r with tag := none, state := .stopping }) s)).1
  | _ => s

/-- The voices whose record passes a test, in ascending number. -/
def voicesWhere (q : Voice → Bool) (s : State) : List VoiceId := (List.finRange 16).filter fun v => q s.voices.tab[v]

/-- R71: every voice with the tag, in ascending voice number. -/
def stopTag (tag time : Nat) (s : State) : State := (voicesWhere (matchesTag tag) s).foldl (stopVoice time) s

/-- R75, STOP ALL: every voice but one whose origin is paging. -/
def stopAllVoices (time : Nat) (s : State) : State :=
  (voicesWhere (fun r => r.origin != some .paging) s).foldl (stopVoice time) s

/-! ### Release (R70) -/

/-- The slots of a ring of `n`, from slot `k` on, in ring order. -/
def ringFrom (n k : Nat) : List Nat := (List.range n).map fun i => (k + i) % n

/-- What a release makes of a slot with the wrap mark. -/
def releaseSlot (x : Slot) : Slot :=
  if x.wraps = 0 then x
  else match x.state with
  | .filled | .requested => emptySlot
  | .inFlight => { x with stale := true, again := none, wraps := 0 }
  | .empty => x

/-- A slot emptied by a release is asked for at once; a stale one keeps the page to ask for (R70). -/
def refillSlot (v : VoiceId) (s : State) (k : Nat) : State :=
  let r := s.voices.tab[v]
  match r.ring[k]?, r.nextFetch with
  | some x, some (p, _) =>
    if x.state = .empty then assignSlot v s k
    else if x.stale then
      modSlot v k (fun x => { x with again := some p })
        (modVoice v (fun r => { r with nextFetch := pageAfter r.info false p 0 }) s)
    else s
  | _, _ => s

/-- A PRIMING voice has enough (R67): half its quota, or every slot its clip can assign if that is fewer. -/
def primed (r : Voice) : Bool :=
  let wanted := min (r.ring.length / 2) (if r.looping then r.ring.length else clipPages r.info)
  decide (wanted ≤ (r.ring.filter fun x => x.state == .filled).length)

/-- R67: a PRIMING voice that has enough enters PLAYING and sends VOICE STARTED; the paging unit is told of V16's own. -/
def checkPrimed (v : VoiceId) (s : State) : State :=
  let r := s.voices.tab[v]
  if r.state = .priming && primed r then
    let s1 := notifyClass (voiceStarted v r) (modVoice v (fun r => { r with state := .playing }) s)
    if r.origin = some .paging then tellPaging (.started r.token) s1 else s1
  else s

/-- R70 on one voice whose loop is engaged. -/
def releaseVoice (s : State) (v : VoiceId) : State :=
  let r := s.voices.tab[v]
  let order := ringFrom r.ring.length r.cur
  let kept := order.filter fun k => match r.ring[k]? with
    | some x => decide (x.wraps = 0) && x.state != .empty
    | none => false
  let last := kept.getLast?.getD r.cur
  let lastPage := ((r.ring[last]?).map (·.page)).getD 0
  let s1 := modCard (fun c => { c with queue := c.queue.filter fun e =>
      !(e.voice == v && (match r.ring[e.slot]? with
        | some x => decide (0 < x.wraps)
        | none => false)) }) s
  let s2 := modVoice v (fun r => { r with
    looping := false
    ring := r.ring.map releaseSlot
    nextFetch := pageAfter r.info false lastPage 0 }) s1
  checkPrimed v ((ringFrom r.ring.length (last + 1)).foldl (refillSlot v) s2)

def releasable (tag : Nat) (r : Voice) : Bool := matchesTag tag r && r.looping

/-- R70: every voice with the tag whose loop is engaged, in ascending voice number (notes/assumptions/51.md). -/
def releaseTag (tag : Nat) (s : State) : State := (voicesWhere (releasable tag) s).foldl releaseVoice s

/-! ### The end of a voice read (R62, R63, R67, R70, R74) -/

/-- What a read's end does to the voice it was for: `got` is the page's words, or whether a failure was a timeout. -/
def slotDone (v : VoiceId) (k : Nat) (got : List Word24 ⊕ Bool) (s : State) : State :=
  let r := s.voices.tab[v]
  match r.ring[k]? with
  | none => s
  | some x =>
    if r.state = .draining then becomeIdle v s
    else if x.stale then match x.again with
      | some p => requestSlot v k p 0 s
      | none => modSlot v k (fun _ => emptySlot) s
    else match got with
      | .inl words => checkPrimed v (modSlot v k (fun x => { x with state := .filled, words := words }) s)
      | .inr timeout => endVoice v (.fault x.page timeout) s

/-! ### A sample period (R68, R69, R66, R72) -/

def playing (r : Voice) : Bool := r.state == .playing || r.state == .stopping

/-- The slot a voice plays from, when it is FILLED. -/
def readySlot (r : Voice) : Option Slot := match r.ring[r.cur]? with
  | some x => if x.state = .filled then some x else none
  | none => none

/-- A sample word of a page. -/
def wordAt (x : Slot) (i : Nat) : Sample := (x.words.getD i 0).toInt

/-- A sample at the voice's level, saturated (R68). -/
def voiced (r : Voice) (x : Sample) : Sample := saturate (applyGain (fineGain r.level) x)

/-- R16, R68, R69: what a voice delivers on its two sources. -/
def voiceOut (r : Voice) : Sample × Sample :=
  if playing r then match readySlot r with
    | none => (0, 0)
    | some x =>
      let i := r.pos % pageFrames r.info
      if r.info.channels = 2 then (voiced r (wordAt x (2 * i)), voiced r (wordAt x (2 * i + 1)))
      else (voiced r (wordAt x i), voiced r (wordAt x i))
  else (0, 0)

/-- A wrap passed: every page is one wrap nearer (R66). -/
def passWrap (r : Voice) : Voice :=
  { r with
    ring := r.ring.map fun x => { x with wraps := x.wraps - 1 }
    nextFetch := r.nextFetch.map fun (p, w) => (p, w - 1) }

/-- R66: the current slot is left: emptied and assigned the next page; the voice plays on from the next slot. -/
def leaveSlot (v : VoiceId) (s : State) : State :=
  let k := s.voices.tab[v].cur
  modVoice v (fun r => { r with cur := (r.cur + 1) % r.ring.length })
    (assignSlot v (modSlot v k (fun _ => emptySlot) s) k)

/-- R66: the frame after frame `i`, and whether the move is a wrap; none at the clip end (R72). -/
def nextFrame (r : Voice) : Option (Nat × Bool) :=
  match r.looping, r.info.loop with
  | true, some (ls, le) => if r.pos + 1 = le then some (ls, true) else some (r.pos + 1, false)
  | _, _ => if r.info.length ≤ r.pos + 1 then none else some (r.pos + 1, false)

/-- A voice after the sample period in which its frame was played or missed. -/
def voicePeriod (s : State) (v : VoiceId) : State :=
  let r := s.voices.tab[v]
  if playing r then match readySlot r with
    | none =>
      if r.underrun then s
      else notifyClass (voiceUnderrun v r) (modVoice v (fun r => { r with underrun := true }) s)
    | some _ => match nextFrame r with
      | none => endVoice v .clipEnd s
      | some (i, wrap) =>
        let s1 := modVoice v (fun r => let r' := { r with pos := i }; if wrap then passWrap r' else r') s
        if wrap || i % pageFrames r.info = 0 then leaveSlot v s1 else s1
  else s

/-- The voices' part of a sample period, in ascending voice number (notes/assumptions/51.md). -/
def voicesPeriod (s : State) : State := (List.finRange 16).foldl voicePeriod s

/-! ### Cue actions on voices -/

/-- The result of an action, and the fade records it created for its running entry (R108). -/
structure Issued where
  result : ActionResult
  made : Nat := 0
deriving DecidableEq, Repr

/-- R64: a PLAY action issued by the running entry of a cue. -/
def playFor (cue clip tag code fadeIn : Nat) (loop : Bool) (s : State) : State × Issued :=
  if s.voices.alarm.standing then (s, { result := .alarm })
  else match playTest clip (openVoice s) s with
  | .notMounted => (s, { result := .notMounted })
  | .noSuchClip => (s, { result := .noSuchClip })
  | .noVoice => (s, { result := .noVoice })
  | .noBuffer => (s, { result := .noBuffer })
  | .start v info =>
    let r := startLevel v code fadeIn (.entry cue) (startVoice v clip info tag loop (.entry cue) 0 s)
    (r.1, { result := if r.2.2 then .snapped else .done, made := r.2.1 })

/-- R71: a STOP action. -/
def stopFor (tag time : Nat) (s : State) : State × Issued := (stopTag tag time s, { result := .done })

/-- R70: a RELEASE action. -/
def releaseFor (tag : Nat) (s : State) : State × Issued := (releaseTag tag s, { result := .done })

end Sys2Proof.Machine
end

