-- ==== Sys2Proof/Machine/Paging.lean ====
section
/-! DEFINITION. The paging unit (07): zone service, the page list, start passes, pre-emption, the paging voice's holder,
the endings of pages, PAGE STATE, and the zone stage. The play a page has issued is known by a token
(notes/assumptions/18.md). -/

namespace Sys2Proof.Machine

/-! ### Reading and changing page records -/

abbrev pageRoom : Nat := 16

def pageOf (id : Nat) (s : State) : Option Page := s.paging.pages.find? fun p => p.id == id

def modPage (id : Nat) (f : Page → Page) (s : State) : State :=
  modPaging (fun u => { u with pages := u.pages.map fun p => if p.id = id then f p else p }) s

def isClip (p : Page) : Bool := match p.source with
  | .clip _ => true
  | _ => false

def started (p : Page) : Bool := p.state == .chiming || p.state == .speaking

/-- A page carries or waits for a zone while its status there says so (R146). -/
def carries (p : Page) (z : ZoneId) : Bool := p.wanted[z] == some .carrying
def waits (p : Page) (z : ZoneId) : Bool := p.wanted[z] == some .waiting

def zonesOf (q : ZoneId → Bool) : List ZoneId := (List.finRange 16).filter q

/-- A page that carries no zone and waits for none. -/
def bereft (p : Page) : Bool := (List.finRange 16).all fun z => !carries p z && !waits p z

def setStatus (z : ZoneId) (st : ZoneStatus) (p : Page) : Page := { p with wanted := upd p.wanted z (some st) }

/-! ### PAGE STATE (R162) -/

def zoneStatuses (p : Page) : List Field :=
  (List.finRange 16).flatMap fun z => match p.wanted[z] with
    | some st => [f1 (z.val + 1), f1 st.code]
    | none => []

/-- The fields of PAGE STATE (R162). -/
def pageFields (p : Page) : List Field :=
  [f1 p.id] ++ pageOrigin p.origin ++ [f1 p.prio] ++ pageSource p.source ++ [f1 p.state.code]
    ++ (if isClip p then [f1 p.play.code] else []) ++ zoneStatuses p
    ++ (match p.outcome with
        | some o => [f1 o.code]
        | none => [])

def pageStateNotice (p : Page) : Notice := { cls := .page, kind := 1, fields := pageFields p }

/-- Whether an event changed what PAGE STATE is sent for: the page is new, or its state, a zone's status or its outcome
changed. -/
def pageChanged (before : List Page) (p : Page) : Bool := match before.find? fun q => q.id == p.id with
  | none => true
  | some q => q.state != p.state || q.wanted != p.wanted || q.outcome != p.outcome

/-- The pages in the order of a pass: by priority, then by arrival (R148). -/
def passOrder (ps : List Page) : List Page :=
  (List.range 4).flatMap fun k => ps.filter fun p => p.prio == k

/-- One notice for each page that an event changed, in the order of a pass (R162). -/
def tellPages (before : List Page) (s : State) : State :=
  ((passOrder s.paging.pages).filter (pageChanged before)).foldl (fun s p => notifyClass (pageStateNotice p) s) s

/-- An event of the paging unit with its PAGE STATE notices. -/
def pagingEvent (f : State → State) (s : State) : State := tellPages s.paging.pages (f s)

/-! ### Zones -/

/-- R144: a zone enters GAP; its duck stays. -/
def enterGap (s : State) (z : ZoneId) : State :=
  modZone z (fun r => { r with service := .gap, gapTimer := some (afterMs s.paging.gap) }) s

/-- A zone becomes FREE. -/
def freeZone (z : ZoneId) (s : State) : State :=
  modZone z (fun r => { r with service := .free, carried := none, prio := none, gapTimer := none }) s

/-- The release fade of a zone's duck (R144, R145). -/
def releaseDuck (z : ZoneId) (s : State) : State :=
  (createSingle (.zoneDuck z) unityFine s.paging.duckRelease (.paging z) s).1

/-- The duck depth code of a page (R143, R160). -/
def duckCode (p : Page) (s : State) : Nat := if p.origin = .alarm then 0 else s.paging.duckDepth

/-! ### Ends, restarts and losses -/

/-- An ask of the paging unit joins the voices' hand-offs. -/
def askVoices (a : PagingAsk) (s : State) : State :=
  modVoices (fun u => { u with pagingIn := u.pagingIn ++ [a] }) s

/-- A page that holds the paging voice asks for the stop of its own play, if it issued one, and releases the voice
(R150; a play issued and not yet taken: notes/assumptions/46.md). -/
def dropVoice (p : Page) (s : State) : State :=
  if s.paging.holder = some p.id then
    modPaging (fun u => { u with holder := none }) (if p.token.isSome then askVoices .stopOwn s else s)
  else s

/-- R150: a page ends. -/
def endPage (o : PageOutcome) (s : State) (id : Nat) : State := match pageOf id s with
  | none => s
  | some p =>
    if p.state = .ended then s
    else
      let lost := zonesOf (carries p)
      let s1 := modPage id (fun q => lost.foldl (fun q z => setStatus z .done q)
        { q with state := .ended, outcome := some o, timer := none, token := none }) s
      dropVoice p (lost.foldl enterGap s1)

/-- R149: a restartable page returns to PENDING, its wanted zones waited for again where their links are UP; with none,
it ends NO ZONE. -/
def restartPage (s : State) (id : Nat) : State := match pageOf id s with
  | none => s
  | some p =>
    let s1 := dropVoice p (modPage id (fun q => { q with
      state := .pending
      play := .none
      timer := none
      token := none
      chimePos := 0
      wanted := vmapi (fun z st => match st with
        | none => none
        | some _ => some (if s.paging.linkUp[z] then .waiting else .unreached)) q.wanted }) s)
    match pageOf id s1 with
    | some q => if bereft q then endPage .noZone s1 id else s1
    | none => s1

/-- R149: a page that has lost its last zone to a higher priority restarts or ends. -/
def afterLoss (s : State) (id : Nat) : State := match pageOf id s with
  | none => s
  | some p =>
    if p.state = .ended || !bereft p then s
    else if p.restartable && isClip p then restartPage s id else endPage .preEmpted s id

/-- R143: a zone joins a page. -/
def joinZone (id : Nat) (s : State) (z : ZoneId) : State := match pageOf id s with
  | none => s
  | some p =>
    let r := s.paging.zones[z]
    let s1 := match r.service, r.carried with
      | .carrying, some other =>
        afterLoss (modPage other (fun q => if carries q z then setStatus z .preEmpted q else q) s) other
      | _, _ => s
    let s2 := modPage id (setStatus z .carrying) s1
    let s3 := modZone z (fun r => { r with
      service := .carrying, carried := some id, prio := some p.prio, gapTimer := none }) s2
    (createSingle (.zoneDuck z) (fineOfCode (duckCode p s)) s.paging.duckAttack (.paging z) s3).1

/-! ### Speaking (R152, R153) -/

def pagingVoiceIdle (s : State) : Bool := s.voices.tab[pagingVoice].state == .idle

/-- R153: the paging play is issued. -/
def issuePlay (id clip : Nat) (s : State) : State :=
  let token := s.paging.lastToken + 1
  askVoices (.play token clip)
    (modPage id (fun p => { p with token := some token }) (modPaging (fun u => { u with lastToken := token }) s))

/-- R152: entry to SPEAKING. -/
def enterSpeaking (s : State) (id : Nat) : State := match pageOf id s with
  | none => s
  | some p =>
    let timer := match p.source, p.origin with
      | .live _, .port _ => some (afterMs s.paging.liveMax)
      | _, _ => none
    let s1 := modPage id (fun q => { q with state := .speaking, timer := timer }) s
    match p.source with
    | .clip n => if pagingVoiceIdle s then issuePlay id n s1 else s1
    | _ => s1

/-! ### The start pass (R148, R151) -/

/-- R148: whether a zone is eligible for a page. -/
def eligible (s : State) (p : Page) (z : ZoneId) : Bool :=
  let r := s.paging.zones[z]
  waits p z && s.paging.linkUp[z] && (match r.service with
    | .free => true
    | .carrying => match r.prio with
      | some k => decide (p.prio < k)
      | none => false
    | .gap => p.prio == 0)

/-- What a CLIP page finds of the paging voice (R151): it may start, it must first pre-empt the holder, or it waits. -/
inductive VoiceClaim where
  | has | preEmpts (holder : Nat) | waits
deriving DecidableEq, Repr

def voiceClaim (s : State) (p : Page) : VoiceClaim := match s.paging.holder with
  | none => if pagingVoiceIdle s then .has else .waits
  | some h => match pageOf h s with
    | some q => if p.prio < q.prio then .preEmpts h else .waits
    | none => .waits

/-- R151: the holder is pre-empted in every zone; a zone it carried that the new page does not join enters GAP. -/
def preEmptHolder (h : Nat) (joins : List ZoneId) (s : State) : State := match pageOf h s with
  | none => s
  | some q =>
    let carried := zonesOf (carries q)
    let s1 := modPage h (fun q => (zonesOf fun z => carries q z || waits q z).foldl
      (fun q z => setStatus z .preEmpted q) q) s
    let s2 := (carried.filter fun z => !joins.contains z).foldl enterGap s1
    afterLoss s2 h

/-- A page starts: it becomes the holder if it plays a clip, joins its zones in ascending number, and enters CHIMING or
SPEAKING (R148, R151, R152). -/
def startPage (id : Nat) (p : Page) (joins : List ZoneId) (s : State) : State :=
  let s1 := if isClip p then
      modPage id (fun q => { q with play := .waitingForVoice }) (modPaging (fun u => { u with holder := some id }) s)
    else s
  let s2 := joins.foldl (joinZone id) s1
  if p.chime then
    modPage id (fun q => { q with state := .chiming, timer := some (afterMs 600), chimePos := 0 }) s2
  else enterSpeaking s2 id

/-- One visit of a pass (R148). -/
def visit (s : State) (id : Nat) : State := match pageOf id s with
  | none => s
  | some p =>
    let wanted := zonesOf (waits p)
    let open' := zonesOf (eligible s p)
    match p.state with
    | .ended => s
    | .pending =>
      let ready := if p.all then !wanted.isEmpty && wanted.all (eligible s p) else !open'.isEmpty
      if ready then
        if isClip p then match voiceClaim s p with
          | .has => startPage id p open' s
          | .preEmpts h => startPage id p open' (preEmptHolder h open' s)
          | .waits => s
        else startPage id p open' s
      else s
    | .chiming | .speaking => if p.all then s else open'.foldl (joinZone id) s

/-- R148: a start pass. -/
def startPass (s : State) : State :=
  (((passOrder s.paging.pages).filter fun p => p.state != .ended).map (·.id)).foldl visit s

/-! ### Creation (R146, R147) -/

/-- Whether a page can be placed: fewer than 16 records, or one ENDED. -/
def pageFits (s : State) : Bool :=
  decide (s.paging.pages.length < pageRoom) || s.paging.pages.any fun p => p.state == .ended

def nextId (n : Nat) : Nat := if 255 ≤ n then 1 else n + 1

/-- The next id above `n` that is not among those held, sought in so many steps (R146). -/
def freeId (ids : List Nat) : Nat → Nat → Nat
  | 0, n => nextId n
  | k + 1, n => if ids.contains (nextId n) then freeId ids k (nextId n) else nextId n

/-- The id the paging unit gives beside some records: held by none of them, nor kept for an alarm page (R146, R192). -/
def newPageId (ps : List Page) (s : State) : Nat :=
  freeId (ps.map (·.id) ++ s.paging.alarmIds) (16 + s.paging.alarmIds.length) s.paging.lastId

/-- The list without its oldest ENDED record. -/
def dropOldestEnded : List Page → List Page
  | [] => []
  | p :: ps => if p.state = .ended then ps else p :: dropOldestEnded ps

def roomFor (ps : List Page) : List Page := if ps.length < pageRoom then ps else dropOldestEnded ps

/-- What a page is created with. -/
structure PageSpec where
  origin : PageOrigin
  prio : Nat
  zones : Vector Bool 16
  all : Bool
  source : PageSource
  chime : Bool
  restartable : Bool
deriving DecidableEq, Repr

/-- What gives the page its id: for the alarm page the id that was kept for it (R192), if any. -/
def keptId (q : PageSpec) (s : State) : Option Nat := if q.origin = .alarm then s.paging.alarmIds.head? else none

/-- R147: a page is created, with the id it is given. -/
def createPage (q : PageSpec) (s : State) : State :=
  let ps := roomFor s.paging.pages
  let kept := keptId q s
  let id := kept.getD (newPageId ps s)
  let p : Page :=
    { id := id, origin := q.origin, prio := q.prio, all := q.all, source := q.source, chime := q.chime
      restartable := q.restartable, state := .pending, timer := none, chimePos := 0, play := .none
      outcome := none, token := none
      wanted := Vector.ofFn fun z =>
        if q.zones[z] then some (if s.paging.linkUp[z] then .waiting else .unreached) else none }
  let s1 := modPaging (fun u => { u with
    pages := ps ++ [p]
    lastId := if kept.isSome then u.lastId else id
    alarmIds := if kept.isSome then u.alarmIds.tail else u.alarmIds }) s
  if bereft p && q.origin != .alarm then endPage .noZone s1 id else startPass s1

/-- R147 as an event, with its notices; a record removed for room is not compared with the new one. -/
def createEvent (q : PageSpec) (s : State) : State := tellPages (roomFor s.paging.pages) (createPage q s)

/-! ### Events -/

/-- R145: the link of a zone leaves UP, as the paging unit takes it. -/
def linkLeft (z : ZoneId) (s : State) : State :=
  let r := s.paging.zones[z]
  let s1 := modPaging (fun u => { u with
    linkUp := upd u.linkUp z false
    pages := u.pages.map fun p =>
      if p.state != .ended && (carries p z || waits p z) then setStatus z .unreached p else p }) s
  let s2 := if r.service = .free then s1 else releaseDuck z (freeZone z s1)
  let ending := s2.paging.pages.filter fun p => p.state != .ended && bereft p && p.origin != .alarm
  startPass ((ending.map (·.id)).foldl (endPage .noZone) s2)

/-- R145: the link of a zone enters UP. -/
def linkEntered (z : ZoneId) (s : State) : State :=
  startPass (modPaging (fun u => { u with
    linkUp := upd u.linkUp z true
    pages := u.pages.map fun p =>
      if p.origin = .alarm && p.state != .ended && p.wanted[z] == some .unreached then setStatus z .waiting p
      else p }) s)

/-- R144: the gap of a zone expires. -/
def gapExpired (z : ZoneId) (s : State) : State :=
  let s1 := startPass (freeZone z s)
  if s1.paging.zones[z].service = .carrying then s1 else releaseDuck z s1

/-- The page that has issued the play of a token, and holds the paging voice. -/
def holderOf (token : Nat) (s : State) : Option Page :=
  (s.paging.holder.bind fun h => pageOf h s).filter fun p => p.token == some token

/-- The outcome a page ends with when its voice ends (R154); none after a stop the paging unit asked for. -/
def outcomeOf : VoiceEnd → Option PageOutcome
  | .clipEnd => some .clipEnd
  | .fault .. => some .voiceFault
  | .cardRemoved => some .cardRemoved
  | .stopped | .reset | .alarm | .paging => none

/-- R154: a report of V16. At an IDLE report a page whose play is already issued, and not yet taken by the voices, issues no
second one (notes/assumptions/57.md). -/
def takeReport (r : VoiceReport) (s : State) : State := match r with
  | .started t => match holderOf t s with
    | some p => modPage p.id (fun q => { q with play := .playing }) s
    | none => s
  | .ended t why => match holderOf t s, outcomeOf why with
    | some p, some o => endPage o (modPage p.id (fun q => { q with token := none }) s) p.id
    | _, _ => s
  | .idle =>
    let s1 := match s.paging.holder.bind fun h => pageOf h s with
      | some p => match p.source with
        | .clip n =>
          if p.state = .speaking && p.play == .waitingForVoice && p.token.isNone then issuePlay p.id n s else s
        | _ => s
      | none => s
    startPass s1

/-- R153, R76: what the paging unit is told of a play as the voices take it: it found V16 busy, it failed, or it
started. -/
def playAnswer (token : Nat) (t : Option PlayTest) (s : State) : State := match holderOf token s with
  | none => s
  | some p =>
    let failed (o : PageOutcome) : State := endPage o (modPage p.id (fun q => { q with token := none }) s) p.id
    match t with
    | some (.start ..) => modPage p.id (fun q => { q with play := .priming }) s
    | some .notMounted => failed .notMounted
    | some .noSuchClip => failed .noSuchClip
    | some .noBuffer => failed .noBuffer
    | some .noVoice | none => modPage p.id (fun q => { q with token := none }) s

/-- R76: the voices take a paging play. -/
def takePlay (token clip : Nat) (s : State) : State :=
  if pagingVoiceIdle s then
    let t := playTest clip (some pagingVoice) s
    let s1 := match t with
      | .start v info =>
        snap (.voice v) unityFine (startVoice v clip info 0 false .paging token s)
      | _ => s
    playAnswer token (some t) s1
  else playAnswer token none s

/-! ### The zone stage (R139, R152) -/

/-- The built-in chime table (R152). -/
def chimeSample (p : Nat) : Sample :=
  if 28800 ≤ p then 0
  else
    let t : Int := if p < 14400 then 60 else 80
    let u : Int := (p : Int) % t
    let h : Int := (p : Int) % 14400
    let m : Int := (4 * u - 2 * t).natAbs
    Int.tdiv (4194304 * (m - t) * (14400 - h)) (t * 14400)

/-- The sample a page gives before the zone's page level: `inputs` are S1-S64, `v16` the sum S95 + S96. -/
def pageSample (p : Page) (inputs : Vector Sample 64) (v16 : Sample) : Sample := match p.state with
  | .chiming => chimeSample p.chimePos
  | .speaking => match p.source with
    | .live ch => inputs[ch]
    | .clip _ => if p.play = .priming || p.play = .playing then v16 / 2 else 0
    | .none => 0
  | .pending | .ended => 0

/-- R139 to step 3: a zone's sample before saturation. -/
def zoneSum (r : Zone) (page : Option Page) (feeds : Vector Sample 4) (inputs : Vector Sample 64) (v16 : Sample) :
    Sample :=
  let feed : Sample := match r.feed with
    | some k => feeds[k]
    | none => 0
  let ducked := applyGain (fineGain r.duck) (applyGain (fineGain r.prog) feed)
  match r.service, page with
  | .carrying, some p => ducked + applyGain (codeGain r.pageLevel) (pageSample p inputs v16)
  | _, _ => ducked

/-- The page a zone carries. -/
def carriedPage (s : State) (z : ZoneId) : Option Page :=
  s.paging.zones[z].carried.bind fun id => pageOf id s

/-! ### Cue PAGE actions (R156) -/

def pageFor (cue : Nat) (zones : Vector Bool 16) (clip prio : Nat) (chime all restartable : Bool) (s : State) :
    State × Issued :=
  if pageFits s then
    (createEvent
      { origin := .cue cue, prio := prio, zones := zones, all := all, source := .clip clip, chime := chime
        restartable := restartable } s, { result := .done })
  else (s, { result := .pageFull })

end Sys2Proof.Machine
end

