-- ==== Sys2Proof/Machine/Stations.lean ====
section
/-! DEFINITION. The line unit (08): power and presence, the judging of upstream frames, the link, the command queue, the
button, the downstream frame, and lamps and caps as they arrive. -/

namespace Sys2Proof.Machine

/-! ### Notices of class STATION (R183) -/

/-- The causes of LINE STATE, in the order R183 lists them. -/
inductive LineCause where
  | request | overload | load | sync | badFrames | noEcho | settings
deriving DecidableEq, Repr

def LineCause.code : LineCause → Nat
  | .request => 0 | .overload => 1 | .load => 2 | .sync => 3 | .badFrames => 4 | .noEcho => 5 | .settings => 6

/-- The results of LAMP SET, in the order R183 lists them. -/
inductive LampResult where
  | done | replaced | lost
deriving DecidableEq, Repr

def LampResult.code : LampResult → Nat
  | .done => 0 | .replaced => 1 | .lost => 2

def zoneCode (z : ZoneId) : Field := f1 (z.val + 1)

/-- PRESENT 0, ABSENT 1 (8.1). -/
def presenceCode (b : Bool) : Nat := if b then 0 else 1

def lineState (l : ZoneId) (c : LineCause) (r : Line) : Notice :=
  { cls := .station, kind := 4,
    fields := [zoneCode l, f1 r.power.code, f1 (presenceCode r.present), f1 r.link.code, f1 c.code] }

def tellLine (l : ZoneId) (c : LineCause) (s : State) : State := notifyClass (lineState l c s.lines.tab[l]) s

def lampSet (z : ZoneId) (st : Lamp) (o : LampOrigin) (r : LampResult) : Notice :=
  { cls := .station, kind := 3, fields := [zoneCode z, f1 (lampCode st)] ++ lampOrigin o ++ [f1 r.code] }

/-- LAMP SET for a LAMP command; a CAP sends nothing. -/
def tellLamp (z : ZoneId) (r : LampResult) (s : State) : LineCmd → State
  | .lamp st o => notifyClass (lampSet z st o r) s
  | .cap _ => s

def callNotice (z : ZoneId) : Notice := { cls := .station, kind := 1, fields := [zoneCode z] }
def acknowledgedNotice (z : ZoneId) : Notice := { cls := .station, kind := 2, fields := [zoneCode z] }

/-! ### The link -/

/-- The paging unit is told of a link (R145). -/
def tellLink (z : ZoneId) (up : Bool) (s : State) : State :=
  modPaging (fun u => { u with linkIn := u.linkIn ++ [(z, up)] }) s

/-- R173: a link leaves UP for `dest`: commands discarded, LAMP SET LOST, button RELEASED, the paging unit told.
Both runs of frames start again (notes/assumptions/47.md). -/
def leaveUp (l : ZoneId) (dest : Link) (s : State) : State :=
  let r := s.lines.tab[l]
  let lost := (match r.out with
    | some o => [o.cmd]
    | none => []) ++ r.queue
  let s1 := modLine l (fun r => { r with out := none, queue := [], button := false, link := dest, good := 0, bad := 0 }) s
  tellLink l false (lost.foldl (tellLamp l .lost) s1)

/-- A link becomes `dest`, with the effects of leaving UP where it was UP; the good run starts again
(notes/assumptions/47.md). -/
def setLink (l : ZoneId) (dest : Link) (s : State) : State :=
  if s.lines.tab[l].link = .up then leaveUp l dest s else modLine l (fun r => { r with link := dest, good := 0 }) s

/-- R174: a link enters UP: the refresh, the button as the frame gives it, the paging unit told. -/
def enterUp (l : ZoneId) (button : Bool) (s : State) : State :=
  let z := s.paging.zones[l]
  tellLine l .sync (tellLink l true (modLine l (fun r => { r with
    link := .up, good := 0, bad := 0, button := button
    queue := [.cap z.cap, .lamp z.lamp .refresh] }) s))

/-! ### Power (R166) -/

/-- A line enters ON. -/
def powerOn (l : ZoneId) (c : LineCause) (s : State) : State :=
  tellLine l c (modLine l (fun r => { r with
    power := .on, present := false, link := .down, nextSeq := 0, good := 0, bad := 0 }) s)

/-- A line leaves ON, or FAULT, for a power in which it is not powered. -/
def powerDown (l : ZoneId) (dest : Power) (c : LineCause) (s : State) : State :=
  tellLine l c (modLine l (fun r => { r with power := dest, present := false }) (setLink l .down s))

/-- R167: LINE POWER carried out. -/
def setPower (l : ZoneId) (on : Bool) (s : State) : State := match on, s.lines.tab[l].power with
  | true, .on => s
  | true, _ => powerOn l .request s
  | false, .off => s
  | false, _ => powerDown l .off .request s

/-- R168: a presence report. -/
def presence (l : ZoneId) (present : Bool) (s : State) : State :=
  let r := s.lines.tab[l]
  if r.power ≠ .on then s
  else if present then
    let s1 := modLine l (fun r => { r with present := true }) s
    if r.link = .down then tellLine l .load (modLine l (fun r => { r with link := .hunt, good := 0 }) s1) else s1
  else
    let s1 := modLine l (fun r => { r with present := false }) s
    if r.link = .down then s1 else tellLine l .load (setLink l .down s1)

/-! ### The downstream frame (R170, R176, 10.12) -/

abbrev downSync : Word24 := 0xC3A55A

/-- The check word over some words (10.12). -/
def checkWord (ws : List Word24) : Word24 := 0 - ws.foldl (· + ·) 0

/-- R176: the head of the queue becomes outstanding. -/
def takeCommand (r : Line) : Line := match r.link, r.out, r.queue with
  | .up, none, c :: cs =>
    { r with queue := cs, out := some { cmd := c, seq := r.nextSeq, age := 0 }, nextSeq := (r.nextSeq + 1) % 8 }
  | _, _, _ => r

/-- The control slot (10.12). -/
def controlSlot (o : Option Outstanding) : Word24 :=
  let head : Nat := match o with
    | none => 0
    | some { cmd := .lamp st _, seq, .. } => 64 + 8 * seq + lampCode st
    | some { cmd := .cap _, seq, .. } => 128 + 8 * seq
  let code : Nat := match o with
    | some { cmd := .cap c, .. } => c
    | _ => 0
  BitVec.ofNat 24 (65536 * head + 256 * code + (255 - head))

/-- The downstream frame (10.12). -/
def downFrame (samples : List Word24) (o : Option Outstanding) : List Word24 :=
  let body := samples ++ [controlSlot o]
  downSync :: body ++ [checkWord body]

/-- The sample words of a downstream frame. -/
def frameSamples (f : List Word24) : List Word24 := f.tail.dropLast.dropLast

/-- Step 4 of R170: the frame is sent, and an outstanding command is one frame older. -/
def sendFrame (r : Line) : Line :=
  { r with
    sent := downFrame ((r.samples.take 48).map (BitVec.ofInt 24)) r.out
    samples := r.samples.drop 48
    out := r.out.map fun o => { o with age := o.age + 1 } }

/-- R182, before step 3 of R170: the command that step 3 took stands at the head of the queue again. -/
def openFrame (r : Line) : Line := match r.out with
  | some o => { r with out := none, queue := o.cmd :: r.queue, nextSeq := o.seq }
  | none => r

/-- R182: steps 3 and 4 of R170 for the frame of the last line frame event, which keeps its samples. -/
def closeFrame (r : Line) : Line :=
  let q := takeCommand r
  { q with
    sent := downFrame (frameSamples r.sent) q.out
    out := q.out.map fun o => { o with age := o.age + 1 } }

/-! ### Commands (R175) -/

def sameKind : LineCmd → LineCmd → Bool
  | .lamp .., .lamp .. => true
  | .cap _, .cap _ => true
  | _, _ => false

/-- R175: a command joins the queue, or takes the place of a queued one of its kind. -/
def enqueue (l : ZoneId) (c : LineCmd) (s : State) : State :=
  match s.lines.tab[l].queue.find? (sameKind c) with
  | some old =>
    tellLamp l .replaced
      (modLine l (fun r => { r with queue := r.queue.map fun x => if sameKind c x then c else x }) s) old
  | none => modLine l (fun r => { r with queue := r.queue ++ [c] }) s

/-- R182: whether a command comes into the last line frame event (notes/assumptions/48.md). A LAMP does after the echo of row
3, where it joins the empty queue with nothing out; a LAMP OFF after the acknowledge of row 2, whose ON went out there. -/
def entersFrame (c : LineCmd) (r : Line) : Bool := match r.together, c with
  | .echo, .lamp .. => r.queue.isEmpty && r.out.isNone
  | .acknowledge, .lamp .off _ =>
    (r.queue.find? (sameKind c)).isNone && r.out.any fun o => o.cmd == .lamp .on .button && o.age == 1
  | _, _ => false

/-- R175: a command arrives at the queue of a line whose link is UP. An outstanding command stands, but for the ON of an
acknowledge in the order of R182. -/
def arrive (l : ZoneId) (c : LineCmd) (s : State) : State :=
  let r := s.lines.tab[l]
  if r.link = .up then
    if entersFrame c r then modLine l closeFrame (enqueue l c (modLine l openFrame s)) else enqueue l c s
  else s

/-- R179: the commanded lamp written, and the command sent on where the link is UP. -/
def commandLamp (z : ZoneId) (st : Lamp) (o : LampOrigin) (s : State) : State :=
  arrive z (.lamp st o) (modZone z (fun r => { r with lamp := st }) s)

/-- R180: the level cap written, and the command sent on where the link is UP. -/
def commandCap (z : ZoneId) (code : Nat) (s : State) : State :=
  arrive z (.cap code) (modZone z (fun r => { r with cap := code }) s)

/-! ### The line frame event (R170) -/

abbrev upSync : Word24 := 0x5A3CA5

/-- R171: the one frame of a period, when it is valid. -/
def judge : List UpFrame → Option UpFrame
  | [f] => if f.sync = upSync ∧ f.check = checkWord [f.content] then some f else none
  | _ => none

/-- The echo field: a sequence number 0-7; NONE (15) and every other value match no command. -/
def echoOf (f : UpFrame) : Nat := (f.content.extractLsb' 20 4).toNat

def pressed (f : UpFrame) : Bool := f.content.getLsbD 19

/-- R177: an echo completes the outstanding command. -/
def takeEcho (l : ZoneId) (f : UpFrame) (s : State) : State := match s.lines.tab[l].out with
  | some o =>
    if o.seq = echoOf f then tellLamp l .done (modLine l (fun r => { r with out := none }) s) o.cmd else s
  | none => s

/-- R181: the button of a valid frame while the link is UP. -/
def takeButton (l : ZoneId) (down : Bool) (s : State) : State :=
  let was := s.lines.tab[l].button
  let s1 := modLine l (fun r => { r with button := down }) s
  if down && !was then
    if s.paging.zones[l].lamp = .blink then notifyClass (acknowledgedNotice l) (commandLamp l .on .button s1)
    else notifyClass (callNotice l) s1
  else s1

/-- R172: the link moved by the frames received since the last line frame event, and the frame read. -/
def judgeLine (l : ZoneId) (frames : List UpFrame) (s : State) : State :=
  let r := s.lines.tab[l]
  match r.link, judge frames with
  | .down, _ => s
  | .hunt, some f =>
    if r.good = 0 then modLine l (fun r => { r with good := 1 }) s else enterUp l (pressed f) s
  | .hunt, none => modLine l (fun r => { r with good := 0 }) s
  | .up, some f => takeButton l (pressed f) (takeEcho l f (modLine l (fun r => { r with bad := 0 }) s))
  | .up, none =>
    if r.bad < 3 then modLine l (fun r => { r with bad := r.bad + 1 }) s
    else tellLine l .badFrames (leaveUp l .hunt s)

/-- R178: a command carried in 20 frames without an echo. -/
def noEcho (l : ZoneId) (s : State) : State := match s.lines.tab[l].out with
  | some o => if o.age = 20 then tellLine l .noEcho (leaveUp l .hunt s) else s
  | none => s

/-- R182: whether a frame judged on a line in UP acknowledges the zone's lamp, or else echoes the outstanding command. -/
def comesTogether (lamp : Lamp) (frames : List UpFrame) (r : Line) : Together := match r.link, judge frames with
  | .up, some f =>
    if pressed f && !r.button && lamp == .blink then .acknowledge
    else if r.out.any fun o => o.seq == echoOf f then .echo else .nothing
  | _, _ => .nothing

/-- R170: one line at a line frame event; a line not powered takes no part, and its samples are discarded.
Its echo or acknowledge is held for a LAMP that comes together with it until the next sample period (R182,
notes/assumptions/48.md). -/
def lineFrame (up : Vector (List UpFrame) 16) (s : State) (l : ZoneId) : State :=
  let r := s.lines.tab[l]
  if r.power = .on then
    let s1 := noEcho l (judgeLine l up[l] (modLine l (fun r => { r with together := .nothing }) s))
    modLine l (fun q => { sendFrame (takeCommand q) with
      together := comesTogether s.paging.zones[l].lamp up[l] r }) s1
  else modLine l (fun r => { r with samples := r.samples.drop 48 }) s

/-! ### Loads and cue LAMP actions -/

/-- R184: the line power set of a load, in ascending line number (notes/assumptions/54.md). -/
def powerSet (named : Vector Bool 16) (s : State) : State :=
  (zonesOf fun l => named[l]).foldl (fun s l => if s.lines.tab[l].power = .off then powerOn l .settings s else s) s

/-- R179: a cue LAMP action; its result is DONE in every case. -/
def lampFor (cue : Nat) (z : ZoneId) (st : Lamp) (s : State) : State × Issued :=
  (commandLamp z st (.cue cue) s, { result := .done })

end Sys2Proof.Machine
end

