-- ==== Sys2Proof/Machine/Alarm.lean ====
section
/-! DEFINITION. The alarm input (09), its hand-offs to the five blocks of R188, and what the fade unit, the voices, the
mix engine and the paging unit do as they take one. The cue engine's part is in CueEngine.lean. -/

namespace Sys2Proof.Machine

/-- The causes of a change of alarm state, in the order R187 reports them. -/
inductive AlarmCause where
  | asserted | qualified | released | reAsserted | reset
deriving DecidableEq, Repr

def AlarmCause.code : AlarmCause → Nat
  | .asserted => 0 | .qualified => 1 | .released => 2 | .reAsserted => 3 | .reset => 4

/-- ALARM STATE (R192). -/
def alarmNotice (old new : AlarmState) (c : AlarmCause) (more : List Field) : Notice :=
  { cls := .alarm, kind := 1, fields := [f1 old.code, f1 new.code, f1 c.code] ++ more }

/-- The alarm state changes, with its notice. -/
def alarmMove (new : AlarmState) (timer : Option Nat) (c : AlarmCause) (more : List Field) (s : State) : State :=
  notifyClass (alarmNotice s.alarm.state new c more)
    { s with alarm := { s.alarm with state := new, timer := timer } }

/-- A hand-off joins each of the five blocks' inboxes (R188). -/
def handAlarm (m : AlarmMsg) (s : State) : State :=
  let put (v : AlarmView) : AlarmView := { v with inbox := v.inbox ++ [m] }
  { s with
    cues := { s.cues with alarm := put s.cues.alarm }
    fades := { s.fades with alarm := put s.fades.alarm }
    voices := { s.voices with alarm := put s.voices.alarm }
    mix := { s.mix with alarm := put s.mix.alarm }
    paging := { s.paging with alarm := put s.paging.alarm } }

/-- A block takes the hand-off that waits longest, when it is the one named; it then holds the state it names. -/
def takeAlarm (m : AlarmMsg) (v : AlarmView) : Option AlarmView := match v.inbox with
  | x :: xs => if x = m then some { standing := m == .entry, inbox := xs } else none
  | [] => none

/-! ### The alarm page (R160) -/

def alarmPage (s : State) : Option Page := s.paging.pages.find? fun p => p.origin == .alarm && p.state != .ended

/-- The page that makes room for the alarm page: of the greatest priority number present, the one that arrived last. -/
def alarmVictim (ps : List Page) : Option Page :=
  let top := ps.foldl (fun k p => max k p.prio) 0
  (ps.filter fun p => p.prio == top).getLast?

/-- The id of the alarm page of the entry last told: kept for it, or the standing page's. -/
def entryId (s : State) : Option Nat := s.paging.alarmIds.getLast?.or ((alarmPage s).map (·.id))

/-- R192: the id of the alarm page of a new entry, given when the entry is told and kept until the paging unit creates the
page (notes/assumptions/15.md). -/
def keepId (s : State) : State :=
  let id := newPageId s.paging.pages s
  modPaging (fun u => { u with lastId := id, alarmIds := u.alarmIds ++ [id] }) s

/-- R187, R192: an entry into ALARM, told with its alarm page's id and handed on. A re-entry's page is the one of the entry
before. -/
def enterAlarm (c : AlarmCause) (s : State) : State :=
  let s1 := if c = .reAsserted && (entryId s).isSome then s else keepId s
  handAlarm .entry (alarmMove .alarm none c [f1 ((entryId s1).getD 0)] s1)

/-- Step 3 of R160. -/
def makeRoom (s : State) : State :=
  if pageFits s then s
  else match alarmVictim s.paging.pages with
    | none => s
    | some v =>
      let s1 := endPage .preEmpted s v.id
      let s2 := match pageOf v.id s1 with
        | some p => notifyClass (pageStateNotice p) s1
        | none => s1
      modPaging (fun u => { u with pages := u.pages.filter fun p => p.id != v.id }) s2

/-- What the alarm page is created with (R160). -/
def alarmSpec (s : State) : PageSpec :=
  { origin := .alarm, prio := 0, zones := Vector.replicate 16 true, all := false
    source := match idx1 64 s.paging.evac with
      | some ch => .live ch
      | none => .none
    chime := false, restartable := false }

/-- Step 2 of R160: a cue or port voice sounding on V16 is to be stopped. -/
def freeVoice (s : State) : State :=
  let r := s.voices.tab[pagingVoice]
  if sounding r && r.origin != some .paging then askVoices .freeV16 s else s

/-- R160: the paging unit takes an entry. -/
def pagingEntry (s : State) : State := match alarmPage s with
  | some _ => s
  | none => let s1 := makeRoom (freeVoice s); createEvent (alarmSpec s1) s1

/-- R161: the paging unit takes the return to NORMAL. -/
def pagingReturn (s : State) : State := match alarmPage s with
  | some p => pagingEvent (fun s => endPage .alarmReset s p.id) s
  | none => s

/-! ### The other blocks -/

/-- R39; the records are told in table order (notes/assumptions/41.md). -/
def fadesEntry (s : State) : State := removeFades (fun r => !fromPaging r) (fun r => !fromEntry r) .alarm s

/-- R75: every sounding voice of V1-V15 ends, in ascending number, and the records that each end removes are told as that
voice ends, before its VOICE ENDED (notes/assumptions/43.md). -/
def voicesEntry (s : State) : State :=
  ((voicesWhere sounding s).filter fun v => v != pagingVoice).foldl (fun s v => endVoice v .alarm s) s

/-- R23, R130. -/
def mixEntry (s : State) : State :=
  modMix (fun e => { e with
    mute := vmapi (fun m b => decide (m.val < 20) || b) e.mute
    talk := Vector.replicate 3 none }) s

end Sys2Proof.Machine
end

