-- ==== Sys2Proof/Machine/CueEngine.lean ====
section
/-! DEFINITION. The cue engine (04, 05): carrying out cue actions, counting their results, firing, follows, completion,
and what empties the running list. Completions that a fade ending makes possible are made at the end of the step, in
firing order (notes/assumptions/19.md). -/

namespace Sys2Proof.Machine

/-! ### Carrying out an action (R108) -/

/-- The targets a cue LEVEL action names: the voices with a tag, in ascending number, or the one target (R29). -/
def cueTargets (t : CueTarget) (s : State) : List Target := match t with
  | .crosspoint m x => [.crosspoint m x]
  | .master m => [.master m]
  | .zoneProgramme z => [.zoneProgramme z]
  | .voices tag => (voicesWhere (matchesTag tag) s).map .voice

/-- R19, R29: a LEVEL action. With time 0 on voices with tag the voices are taken in ascending number, as R29 has them for a
fade (notes/assumptions/55.md). -/
def levelFor (cue : Nat) (t : CueTarget) (code time : Nat) (s : State) : State × Issued :=
  let fine := fineOfCode code
  if time = 0 then ((cueTargets t s).foldl (fun s t => snap t fine s) s, { result := .done })
  else
    let step (a : State × Nat × Bool) (t : Target) : State × Nat × Bool :=
      let r := createSingle t fine time (.entry cue) a.1
      (r.1, a.2.1 + r.2.toNat, a.2.2 || !r.2)
    let r := (cueTargets t s).foldl step (s, 0, false)
    (r.1, { result := if r.2.2 then .snapped else .done, made := r.2.1 })

/-- R47: a RECALL action. -/
def recallFor (cue : Nat) (m : MixId) (number : Fin 128) (time : Nat) (s : State) : State × Issued :=
  match s.fades.snaps[number] with
  | none => (s, { result := .emptySnapshot })
  | some sn =>
    let r := recallMix m number sn.levels time (.entry cue) s
    (r.1, { result := if time = 0 || r.2 then .done else .snapped, made := r.2.toNat })

/-- The mute flag of a mix written (R20, R21). -/
def setMute (m : MixId) (on : Bool) (s : State) : State := modMix (fun e => { e with mute := upd e.mute m on }) s

/-- Whether the mix engine refuses a mute setting: an unmute of an auditorium or foldback mix in an alarm state. -/
def unmuteBarred (m : MixId) (on : Bool) (s : State) : Bool := !on && decide (m.val < 20) && s.mix.alarm.standing

/-- R21: a MUTE action. -/
def muteFor (m : MixId) (on : Bool) (s : State) : State × Issued :=
  if unmuteBarred m on s then (s, { result := .alarm }) else (setMute m on s, { result := .done })

/-- R108: an action handed to the block that owns its target. -/
def perform (cue : Nat) (a : Action) (s : State) : State × Issued := match a with
  | .play clip tag code fadeIn loop => playFor cue clip tag code fadeIn loop s
  | .stop tag time => stopFor tag time s
  | .release tag => releaseFor tag s
  | .level t code time => levelFor cue t code time s
  | .recall m n time => recallFor cue m n time s
  | .mute m on => muteFor m on s
  | .page zs clip prio chime all re => pageFor cue zs clip prio chime all re s
  | .lamp z st => lampFor cue z st s

/-- The kinds of action, numbered in the order of 4.3. -/
def Action.kind : Action → Nat
  | .play .. => 0 | .stop .. => 1 | .release _ => 2 | .level .. => 3 | .recall .. => 4 | .mute .. => 5 | .page .. => 6
  | .lamp .. => 7

/-! ### Notices of class CUE (R119) -/

/-- The standing cue as a field: its number, or 0 for END (R207 for STATUS; elsewhere notes/assumptions/45.md). -/
def standingCode (o : Option Nat) : Field := f2 (o.getD 0)

def cueFired (c : Cue) (o : Option PortId) (standing : Option Nat) : Notice :=
  { cls := .cue, kind := 1, fields := [f2 c.number, .text c.label] ++ entryOrigin o ++ [standingCode standing] }

/-- The endings of CUE COMPLETE, in the order R111 lists them. -/
inductive CueEnding where
  | complete | stopped | reset | alarm
deriving DecidableEq, Repr

def CueEnding.code : CueEnding → Nat
  | .complete => 0 | .stopped => 1 | .reset => 2 | .alarm => 3

def cueComplete (e : RunEntry) (how : CueEnding) : Notice :=
  { cls := .cue, kind := 2, fields := [f2 e.cue, f1 how.code, f1 e.issued, f1 e.snapped, f1 e.failed] }

/-- The reasons of FOLLOW ABANDONED, in the order of R114's tests. -/
inductive AbandonReason where
  | atEnd | standingMoved | inUse | full
deriving DecidableEq, Repr

def AbandonReason.code : AbandonReason → Nat
  | .atEnd => 0 | .standingMoved => 1 | .inUse => 2 | .full => 3

def followAbandoned (n : Nat) (next : Option Nat) (why : AbandonReason) : Notice :=
  { cls := .cue, kind := 3,
    fields := [f2 n] ++ (match next with
      | some m => [f2 m]
      | none => []) ++ [f1 why.code] }

def actionResult (cue pos : Nat) (a : Action) (r : ActionResult) : Notice :=
  { cls := .cue, kind := 4, fields := [f2 cue, f1 pos, f1 a.kind, f1 r.code] }

/-- The causes of AUTHORITY, in the order R97 lists them. -/
inductive AuthorityCause where
  | taken | released | forced | portDown
deriving DecidableEq, Repr

def AuthorityCause.code : AuthorityCause → Nat
  | .taken => 0 | .released => 1 | .forced => 2 | .portDown => 3

def authority (old new : Option PortId) (c : AuthorityCause) : Notice :=
  { cls := .cue, kind := 5, fields := [fholder old, fholder new, f1 c.code] }

/-! ### The cue list -/

abbrev runRoom : Nat := 16
abbrev listRoom : Nat := 1000
abbrev poolRoom : Nat := 8192

def cueIn (n : Nat) (l : List Cue) : Option Cue := l.find? fun c => c.number == n
def cueOf (n : Nat) (s : State) : Option Cue := cueIn n s.cues.list

/-- The cue directly after a number: the next higher number in the list (R114). -/
def cueAfter (n : Nat) (l : List Cue) : Option Nat := (l.find? fun c => decide (n < c.number)).map (·.number)

/-- The last cue below a number (R101). -/
def cueBefore (n : Nat) (l : List Cue) : Option Nat :=
  ((l.filter fun c => decide (c.number < n)).getLast?).map (·.number)

def firstCue (l : List Cue) : Option Nat := l.head?.map (·.number)

/-- The pool's use (R80). -/
def poolUse (l : List Cue) : Nat := (l.map fun c => c.actions.length).sum

def entryOf (n : Nat) (s : State) : Option RunEntry := s.cues.running.find? fun e => e.cue == n

def running (n : Nat) (s : State) : Bool := s.cues.running.any fun e => e.cue == n

/-! ### Issue and count (R108, R109) -/

def failedResult : ActionResult → Bool
  | .done | .snapped => false
  | _ => true

/-- R109, R110: a result and the records created, counted in the entry; next action moves past the action issued. -/
def countResult (cue pos : Nat) (a : Action) (r : Issued) (s : State) : State :=
  let s1 := modEntry cue (fun e => { e with
    out := e.out + r.made
    next := pos + 1
    issued := e.issued + 1
    snapped := e.snapped + (r.result == .snapped).toNat
    failed := e.failed + (failedResult r.result).toNat }) s
  if r.result = .done then s1 else notifyClass (actionResult cue pos a r.result) s1

/-- R108: one action issued. -/
def issueAction (cue pos : Nat) (a : Action) (s : State) : State :=
  let r := perform cue a s
  countResult cue pos a r.2 r.1

/-! ### Completion and follows (R111-R114). `fire` is what a follow that passes does. -/

/-- R114: a follow taken. -/
def follow (fire : Nat → Option PortId → State → State) (n : Nat) (s : State) : State :=
  let next := cueAfter n s.cues.list
  let abandon (why : AbandonReason) : State := notifyClass (followAbandoned n next why) s
  match next with
  | none => abandon .atEnd
  | some m =>
    if s.cues.standing ≠ some m then abandon .standingMoved
    else if running m s then abandon .inUse
    else if runRoom ≤ s.cues.running.length then abandon .full
    else fire m none s

def dropEntry (n : Nat) (s : State) : State :=
  modCues (fun c => { c with running := c.running.filter fun e => e.cue ≠ n }) s

/-- R111: an entry completes. -/
def completeEntry (fire : Nat → Option PortId → State → State) (n : Nat) (s : State) : State :=
  match entryOf n s with
  | none => s
  | some e =>
    let s1 := notifyClass (cueComplete e .complete) (dropEntry n s)
    match (cueOf n s).map Cue.follow with
    | some Follow.follow => Machine.follow fire n s1
    | _ => s1

/-- No outstanding fade, and the continue absent or TAKEN. -/
def settled (e : RunEntry) : Bool := e.out == 0 && e.cont != some true

/-- R111: all actions issued: the entry completes, or enters SETTLING. -/
def leaveActive (fire : Nat → Option PortId → State → State) (n : Nat) (s : State) : State :=
  match entryOf n s with
  | none => s
  | some e =>
    if settled e then completeEntry fire n s else modEntry n (fun e => { e with state := .settling }) s

/-- R112: a continue taken. -/
def takeContinue (fire : Nat → Option PortId → State → State) (n : Nat) (s : State) : State :=
  let s1 := modEntry n (fun e => { e with cont := some false }) (follow fire n s)
  match entryOf n s1 with
  | some e => if e.state = .settling && settled e then completeEntry fire n s1 else s1
  | none => s1

/-- The next `k` actions of a cue issued, each if it is there (R107, R108). -/
def issueRun (c : Cue) : Nat → State → State
  | 0, s => s
  | k + 1, s => match entryOf c.number s with
    | none => s
    | some e => match c.actions[e.next - 1]? with
      | some a => issueRun c k (issueAction c.number e.next a.act s)
      | none => s

/-- All actions of a cue have been issued. -/
def allIssued (c : Cue) (s : State) : Bool := match entryOf c.number s with
  | some e => decide (c.actions.length < e.next)
  | none => false

/-- Actions issued, and ACTIVE left after the last. -/
def issueMany (fire : Nat → Option PortId → State → State) (c : Cue) (k : Nat) (s : State) : State :=
  let s1 := issueRun c k s
  if allIssued c s1 then leaveActive fire c.number s1 else s1

/-- R107: an entry enters ACTIVE, and its actions of offset 0 are issued. -/
def activate (fire : Nat → Option PortId → State → State) (c : Cue) (s : State) : State :=
  issueMany fire c (c.actions.takeWhile fun a => a.offset == 0).length
    (modEntry c.number (fun e => { e with state := .active }) s)

/-- The entry with which a firing begins (R103). -/
def newEntry (c : Cue) (o : Option PortId) : RunEntry :=
  { cue := c.number, state := .prewait, clock := 0, next := 1, out := 0
    cont := match c.follow with
      | .continue _ => some true
      | _ => none
    origin := o, issued := 0, snapped := 0, failed := 0 }

/-- R103: a cue is fired. The fuel bounds a chain of follows, each of a higher number than the one before
(notes/assumptions/20.md). -/
def fireFuel : Nat → Nat → Option PortId → State → State
  | 0, _, _, s => s
  | k + 1, n, o, s => match cueOf n s with
    | none => s
    | some c =>
      let standing := cueAfter n s.cues.list
      let s1 := modCues (fun q => { q with running := q.running ++ [newEntry c o], standing := standing }) s
      let s2 := notifyClass (cueFired c o standing) s1
      let s3 := if c.prewait = 0 then activate (fireFuel k) c s2 else s2
      match c.follow with
      | .continue d => if d = 0 then takeContinue (fireFuel k) n s3 else s3
      | _ => s3

/-- The firing of a cue, with as many follows as the list has cues. -/
def fire (n : Nat) (o : Option PortId) (s : State) : State := fireFuel (s.cues.list.length + 1) n o s

/-! ### The end of a step -/

/-- Entries in SETTLING that nothing holds complete, in firing order. -/
def settleFuel : Nat → State → State
  | 0, s => s
  | k + 1, s => match s.cues.running.find? fun e => e.state == .settling && settled e with
    | none => s
    | some e => settleFuel k (completeEntry fire e.cue s)

/-- Each completion takes an entry out, and each firing that it leads to moves the standing cue up the list, so that there
are fewer completions than entries and cues (notes/assumptions/20.md). -/
def settle (s : State) : State := settleFuel (s.cues.running.length + s.cues.list.length + 1) s

/-- What ends a step in which a fade may have ended, a page been asked for or the reader become free. -/
def finish (s : State) : State := readerTake (settle s)

/-! ### Clock events -/

/-- PREWAIT_END is due. -/
def prewaitDue (n : Nat) (s : State) : Bool := match entryOf n s, cueOf n s with
  | some e, some c => e.state == .prewait && decide (afterMs c.prewait ≤ e.clock)
  | _, _ => false

/-- ACTION_DUE: the entry's next action, when its offset has come. -/
def actionDue (n : Nat) (s : State) : Bool := match entryOf n s, cueOf n s with
  | some e, some c => e.state == .active && (match c.actions[e.next - 1]? with
    | some a => decide (afterMs (c.prewait + a.offset) ≤ e.clock)
    | none => false)
  | _, _ => false

/-- CONTINUE_DUE is due. -/
def continueDue (n : Nat) (s : State) : Bool := match entryOf n s, cueOf n s with
  | some e, some c => e.cont == some true && (match c.follow with
    | .continue d => decide (afterMs d ≤ e.clock)
    | _ => false)
  | _, _ => false

/-- Whether a cue's stored action at a position is the one named (R85). -/
def holdsAction (cue pos : Nat) (a : Action) (s : State) : Bool := match cueOf cue s with
  | some c => (c.actions[pos - 1]?).map CueAction.act == some a
  | none => false

/-- The next action of an entry in ACTIVE, due and of the position and contents named, is issued (R108). -/
def issueGiven (cue pos : Nat) (a : Action) (s : State) : State := match entryOf cue s, cueOf cue s with
  | some e, some c =>
    if e.next == pos && actionDue cue s && holdsAction cue pos a s then
      let s1 := issueAction cue pos a s
      if allIssued c s1 then leaveActive fire cue s1 else s1
    else s
  | _, _ => s

/-! ### Emptying the running list (R116-R118) -/

/-- Every entry removed in firing order, each with CUE COMPLETE. -/
def emptyRunning (how : CueEnding) (s : State) : State :=
  s.cues.running.foldl (fun s e => notifyClass (cueComplete e how) s) (modCues (fun c => { c with running := [] }) s)

/-- STOP ALL carried out, with the counts of entries removed and voices stopped (R116). -/
def stopAll (s : State) : State × Nat × Nat :=
  let entries := s.cues.running.length
  let s2 := removeFades fromEntry (fun _ => false) .stopped (emptyRunning .stopped s)
  let q (r : Voice) : Bool := (r.state == .priming || r.state == .playing) && r.origin != some .paging
  (stopAllVoices s.cues.panicFade s2, entries, (voicesWhere q s2).length)

/-- SHOW RESET carried out (R117); the records are told in table order (notes/assumptions/41.md), and then the voices end in
ascending number (notes/assumptions/43.md). -/
def showReset (s : State) : State :=
  let s1 := emptyRunning .reset s
  let s2 := removeFades (fun r => !fromPaging r) (fun r => !fromEntry r) .reset s1
  let ending := voicesWhere (fun r => sounding r && r.origin != some .paging) s2
  let s3 := ending.foldl (fun s v => endVoice v .reset s) s2
  modCues (fun c => { c with guard := none, standing := firstCue c.list }) s3

/-! ### Authority (R94-R97) -/

/-- The holder changes, with AUTHORITY; a forced move is also told to the two ports it names. -/
def moveHolder (new : Option PortId) (c : AuthorityCause) (s : State) : State :=
  let old := s.cues.holder
  notifyWhere (fun p r => r.subs[NoticeClass.cue.idx] || (c == .forced && (old == some p || new == some p)))
    (authority old new c) (modCues (fun q => { q with holder := new }) s)

/-- R96, R92: the cue engine's part of a port-down. -/
def cuesPortDown (p : PortId) (s : State) : State :=
  let s1 := if s.cues.holder = some p then moveHolder none .portDown s else s
  modCues (fun c => { c with drafts := upd c.drafts p none }) s1

/-- R92: the cue engine takes a checked list, unless its running list holds an entry. -/
def takeList (l : List Cue) (s : State) : State :=
  modCues (fun c => { c with list := l, standing := firstCue l }) s

end Sys2Proof.Machine
end

