-- ==== Sys2Proof/Machine/Settings.lean ====
section
/-! DEFINITION. The settings by number (10.10): reading one, and each owner's taking of a value (R208, R56). -/

namespace Sys2Proof.Machine

/-- The index less one of a setting in a run of `n` settings that begins at number `first`. -/
def inRun (first n k : Nat) : Option (Fin n) := idx1 n (k + 1 - first)

/-- The talk record of a port ended (R129, R130). -/
def endTalk (p : PortId) (s : State) : State := modMix (fun e => { e with talk := upd e.talk p none }) s

/-- A port's PAGE MIC taken; NONE ends the port's talk (R127, R130). -/
def setPageMic (p : PortId) (v : Nat) (s : State) : State :=
  let s1 := modPort p (fun r => { r with pageMic := v }) s
  if v = 0 then endTalk p s1 else s1

/-- The feed of a setting's value: NONE 0, RF1-RF4 1-4. -/
def feedOf (v : Nat) : Option (Fin 4) := idx1 4 v

/-- A value in range, taken by the setting's owner (R134, R164, R120, R127). -/
def takeSetting (n v : Nat) (s : State) : State :=
  if n = 1 then modCues (fun c => { c with goGuard := v }) s
  else if n = 2 then modCues (fun c => { c with panicFade := v }) s
  else if n ≤ 14 then match inRun 3 12 n with
    | some f => modMix (fun e => { e with ceiling := upd e.ceiling f v }) s
    | none => s
  else if n = 15 then modMix (fun e => { e with talkDepth := v }) s
  else if n = 16 then modPaging (fun u => { u with reserve := v == 1 }) s
  else if n = 17 then modPaging (fun u => { u with duckDepth := v }) s
  else if n = 18 then modPaging (fun u => { u with duckAttack := v }) s
  else if n = 19 then modPaging (fun u => { u with duckRelease := v }) s
  else if n = 20 then modPaging (fun u => { u with gap := v }) s
  else if n = 21 then modPaging (fun u => { u with liveMax := v }) s
  else if n = 22 then modPaging (fun u => { u with evac := v }) s
  else if n ≤ 38 then match inRun 23 16 n with
    | some z => modZone z (fun r => { r with feed := feedOf v }) s
    | none => s
  else if n ≤ 54 then match inRun 39 16 n with
    | some z => modZone z (fun r => { r with pageLevel := v }) s
    | none => s
  else if n ≤ 57 then match inRun 55 3 n with
    | some p => setPageMic p v s
    | none => s
  else match inRun 58 3 n with
    | some p => modPort p (fun r => { r with talkLevel := v }) s
    | none => s

/-- The value of a setting as it stands (R209). -/
def settingValue (n : Nat) (s : State) : Nat :=
  if n = 1 then s.cues.goGuard
  else if n = 2 then s.cues.panicFade
  else if n ≤ 14 then ((inRun 3 12 n).map fun f => s.mix.ceiling[f]).getD 0
  else if n = 15 then s.mix.talkDepth
  else if n = 16 then s.paging.reserve.toNat
  else if n = 17 then s.paging.duckDepth
  else if n = 18 then s.paging.duckAttack
  else if n = 19 then s.paging.duckRelease
  else if n = 20 then s.paging.gap
  else if n = 21 then s.paging.liveMax
  else if n = 22 then s.paging.evac
  else if n ≤ 38 then ((inRun 23 16 n).map fun z => feedCode s.paging.zones[z].feed).getD 0
  else if n ≤ 54 then ((inRun 39 16 n).map fun z => s.paging.zones[z].pageLevel).getD 0
  else if n ≤ 57 then ((inRun 55 3 n).map fun p => s.ports[p].pageMic).getD 0
  else ((inRun 58 3 n).map fun p => s.ports[p].talkLevel).getD 0

/-- R56, R208: a setting's value brought into range and taken. A number outside 1-60 sets nothing, and of two items of one
number the last stands (notes/assumptions/56.md). -/
def loadSetting (s : State) (nv : Nat × Nat) : State :=
  if between 1 60 nv.1 then takeSetting nv.1 (clampSetting nv.1 nv.2) s else s

end Sys2Proof.Machine
end

