-- ==== Sys2Proof/Machine/Loads.lean ====
section
/-! DEFINITION. The card unit (03, 3.1-3.5): insertion, mounting, the check and application of a show area, reload,
removal, and what a read's end does. The show-card data format is outside the manual (R51): a card page carries what that
format reads in it (notes/assumptions/8.md). -/

namespace Sys2Proof.Machine

/-- The events of CARD STATE (R212). -/
inductive CardEvent where
  | inserted | mounted | mountedWithShow | failedHeader | failedReadError | failedTimeout | failedShowArea | removed
  | reloadStarted | reloaded | reloadAbandoned | reloadFailed
deriving DecidableEq, Repr

def CardEvent.code : CardEvent → Nat
  | .inserted => 0 | .mounted => 1 | .mountedWithShow => 2 | .failedHeader => 3 | .failedReadError => 4
  | .failedTimeout => 5 | .failedShowArea => 6 | .removed => 7 | .reloadStarted => 8 | .reloaded => 9
  | .reloadAbandoned => 10 | .reloadFailed => 11

def tellCard (e : CardEvent) (s : State) : State :=
  notifyClass { cls := .voice, kind := 5, fields := [f1 s.card.state.code, f1 e.code, f2 s.card.dir.length] } s

/-! ### Checks -/

/-- R51: the header passes. -/
def headerOk (h : CardHeader) : Bool :=
  h.mark && decide (h.dirFirst + h.dirCount ≤ h.pages) && decide (h.showFirst + h.showCount ≤ h.pages)

/-- R60: a directory entry as kept: valid, or absent. -/
def checkClip (pages : Nat) (r : RawClip) : Option ClipEntry :=
  let c : ClipEntry :=
    { channels := r.channels, start := r.start, length := r.length
      loop := if r.loopFlag then some (r.loopStart, r.loopEnd) else none }
  if r.valid && (r.channels == 1 || r.channels == 2) && between 1 2147483647 r.length
      && decide (r.start + clipPages c ≤ pages)
      && (!r.loopFlag || (decide (r.loopStart < r.loopEnd) && decide (r.loopEnd ≤ r.length)))
  then some c else none

/-- The valid entries of a directory with their clip numbers, ascending. Of the 1024 entries it holds, those that its pages do
not give are absent (notes/assumptions/58.md), and those beyond are not kept (notes/assumptions/33.md). -/
def directory (pages : Nat) (clips : List RawClip) : List (Nat × ClipEntry) :=
  ((clips.take 1024).zipIdx 1).filterMap fun x => (checkClip pages x.1).map fun c => (x.2, c)

/-- The actions of a loaded cue in offset order (R85), none when one breaks R83. -/
def checkActions : List (Nat × RawAction) → List CueAction → Option (List CueAction)
  | [], done => some done
  | (off, a) :: as, done => match actionOf a with
    | none => none
    | some (b, _) => checkActions as (placeAction { offset := clampTime off, act := b } done).1

/-- R55: one cue of a show area. Its label is held to R81 as a label given by request is
(notes/assumptions/52.md). -/
def checkCue (r : RawCue) : Option Cue := do
  let f ← followOf r.mode r.delay
  let as ← checkActions r.actions []
  if between 1 9999 r.number && labelOk r.label && between 1 32 as.length then
    return { number := r.number, label := r.label, prewait := clampTime r.prewait, follow := f, actions := as }
  else none

/-- R55: the cues of a show area, each checked. -/
def checkCues : List RawCue → Option (List Cue)
  | [] => some []
  | r :: rs => do return (← checkCue r) :: (← checkCues rs)

/-- Numbers in strictly ascending order. -/
def ascending : List Cue → Bool
  | c :: d :: cs => decide (c.number < d.number) && ascending (d :: cs)
  | _ => true

/-- R42, R55: one snapshot of a show area: EMPTY, or its mix and 97 codes; none when the mix is out of range.
Codes missing of the 97 are 0, codes beyond them are disregarded (notes/assumptions/42.md). -/
def checkSnapshot : Option (Nat × List Nat) → Option (Option Snapshot)
  | none => some none
  | some (m, codes) => do
    let mix ← idx1 24 m
    return some { mix := mix, levels := Vector.ofFn fun i => fineOfCode (clampCode (codes.getD i.val 0)) }

/-- The snapshots of a show area laid over an all-EMPTY memory (notes/assumptions/35.md). Of two
with one number the last is kept; a number outside 1-128 fails the check (notes/assumptions/50.md). -/
def checkSnapshots : List ShowItem → Vector (Option Snapshot) 128 → Option (Vector (Option Snapshot) 128)
  | [], v => some v
  | .snapshot n content :: is, v => do
    let sn ← checkSnapshot content
    let i ← idx1 128 n
    checkSnapshots is (upd v i sn)
  | _ :: is, v => checkSnapshots is v

def rawCues (is : List ShowItem) : List RawCue := is.filterMap fun i => match i with
  | .cue c => some c
  | _ => none

def rawSettings (is : List ShowItem) : List (Nat × Nat) := is.filterMap fun i => match i with
  | .setting n v => some (n, v)
  | _ => none

def rawPower (is : List ShowItem) : List Nat := is.filterMap fun i => match i with
  | .linePower l => some l
  | _ => none

/-- R55: a show area checked as a whole. A line power item outside 1-16 names no line (notes/assumptions/56.md). -/
def checkArea (is : List ShowItem) : Option ShowArea := do
  let cues ← checkCues (rawCues is)
  let snaps ← checkSnapshots is (Vector.replicate 128 none)
  if decide (cues.length ≤ listRoom) && ascending cues && decide (poolUse cues ≤ poolRoom) then
    return { cues := cues, snaps := snaps, settings := rawSettings is
             power := Vector.ofFn fun l => (rawPower is).contains (l.val + 1) }
  else none

/-! ### Mount and reload -/

/-- Pages `first` to `first + count - 1`. -/
def pagesFrom (first count : Nat) : List Nat := (List.range count).map fun i => first + i

def newJob (reload withShow : Bool) (todo : List LoadPage) : LoadJob :=
  { reload := reload, todo := todo, clips := [], items := [], withShow := withShow, offer := none }

/-- R50, R51: the card state becomes MOUNTING, and the header is to be read. -/
def startMount (s : State) : State :=
  tellCard .inserted (modCard (fun c => { c with
    state := .mounting, insertTimer := none, header := none
    job := some (newJob false (!c.showLoaded) [.header]) }) s)

/-- R53: the mount fails; R58: the reload fails. -/
def failLoad (e : CardEvent) (j : LoadJob) (s : State) : State :=
  if j.reload then tellCard .reloadFailed (modCard (fun c => { c with job := none }) s)
  else tellCard e (modCard (fun c => { c with job := none, state := .failed, dir := [] }) s)

/-- R55, R56, R42, R48: what the other owners take of a show area that the cue engine has taken. -/
def applyArea (reload : Bool) (a : ShowArea) (s : State) : State :=
  let s1 := modFades (fun f => { f with
    snaps := a.snaps
    safe := if reload then Vector.replicate 24 (Vector.replicate 96 false) else f.safe }) s
  let s2 := powerSet a.power (a.settings.foldl loadSetting s1)
  modCard (fun c => { c with showLoaded := true }) s2

/-- R52: the mount completes, with or without the show area. -/
def completeMount (e : CardEvent) (j : LoadJob) (s : State) : State :=
  tellCard e (modCard (fun c => { c with
    job := none, state := .mounted
    dir := directory ((c.header.map (·.pages)).getD 0) j.clips }) s)

/-- The last page has been read: the show area is checked and offered, or the mount completes (R52, R58). -/
def loadRead (j : LoadJob) (s : State) : State :=
  if j.withShow then match checkArea j.items with
    | some a => modCard (fun c => { c with job := some { j with offer := some a } }) s
    | none => failLoad .failedShowArea j s
  else completeMount .mounted j s

/-- What a load does with pages still to read, or with none. -/
def loadOn (j : LoadJob) (s : State) : State :=
  if j.todo.isEmpty then loadRead j s else modCard (fun c => { c with job := some j }) s

/-- R51, R62: a mount or reload page has been read. -/
def loadPage (which : LoadPage) (p : CardPage) (j : LoadJob) (s : State) : State := match which with
  | .header => match p.header with
    | some h =>
      if headerOk h then
        loadOn { j with todo := (pagesFrom h.dirFirst h.dirCount).map .directory
                    ++ (if j.withShow then (pagesFrom h.showFirst h.showCount).map .showArea else []) }
          (modCard (fun c => { c with header := some h }) s)
      else failLoad .failedHeader j s
    | none => failLoad .failedHeader j s
  | .directory _ => loadOn { j with clips := j.clips ++ p.clips } s
  | .showArea _ => loadOn { j with items := j.items ++ p.items } s

/-- The offer of a checked show area taken or declined by the cue engine, and the load ended (R92, R52, R58). -/
def takeOffer (j : LoadJob) (a : ShowArea) (s : State) : State :=
  if s.cues.running.isEmpty then
    let s1 := applyArea j.reload a (takeList a.cues s)
    if j.reload then tellCard .reloaded (modCard (fun c => { c with job := none }) s1)
    else completeMount .mountedWithShow j s1
  else if j.reload then tellCard .reloadAbandoned (modCard (fun c => { c with job := none }) s)
  else completeMount .mounted j s

/-- R57: a reload starts. -/
def startReload (s : State) : State :=
  let todo := ((s.card.header.map fun h => pagesFrom h.showFirst h.showCount).getD []).map LoadPage.showArea
  tellCard .reloadStarted (loadOn (newJob true true todo) s)

/-- What a failed load read is reported as. -/
def failEvent (timeout : Bool) : CardEvent := if timeout then .failedTimeout else .failedReadError

/-- The end of the read in flight: a page, or a failure and whether it is a timeout (R62, R63). -/
def readDone (r : Read) (got : CardPage ⊕ Bool) (s : State) : State :=
  let s1 := modCard (fun c => { c with reader := none }) s
  match r.job with
  | .voice v k _ => slotDone v k (match got with
      | .inl p => .inl p.words
      | .inr t => .inr t) s1
  | .load which => match s1.card.job with
    | none => s1
    | some j => match got with
      | .inl p => loadPage which p j s1
      | .inr t => failLoad (failEvent t) j s1

/-- The read in flight, when it has that number. -/
def readNumbered (n : Nat) (s : State) : Option Read := s.card.reader.filter fun r => r.number == n

/-! ### Removal (R54) -/

/-- R54, R74, R75: a voice at card removal. -/
def removeVoice (s : State) (v : VoiceId) : State :=
  if s.voices.tab[v].state = .draining then becomeIdle v s else endVoice v .cardRemoved s

/-- R54: the card is removed. The voices end in ascending number, and the records that each end removes are told as that
voice ends, before its VOICE ENDED (notes/assumptions/43.md). -/
def removeCard (s : State) : State :=
  let s1 := modCard (fun c => { c with
    showing := false, state := .absent, reader := none, queue := [], job := none, header := none, dir := [] }) s
  let s2 := (List.finRange 16).foldl removeVoice s1
  tellCard .removed (removeFades onAnyVoice (fun _ => true) .cardRemoved s2)

end Sys2Proof.Machine
end

