-- ==== Sys2Proof/Machine/MixEngine.lean ====
section
/-! DEFINITION. The sample period (01, 06, 07): sources, the 24 mixes, the zone stage, and the clocks and timers that
count it; the frame event of the mix engine; and the input links. -/

namespace Sys2Proof.Machine

/-! ### Sources (R14, R16) -/

/-- An input channel's sample, as its link delivers it. -/
def inputAt (s : State) (i : Fin 64) : Sample := (s.mix.links[i.val / 16]'(by omega)).words[i.val % 16]

/-- S1-S64. -/
def inputSamples (s : State) : Vector Sample 64 := Vector.ofFn (inputAt s)

/-- The 96 sources of one sample period. -/
def sources (s : State) : Vector Sample 96 :=
  Vector.ofFn fun i =>
    if h : i.val < 64 then inputAt s ⟨i.val, h⟩
    else
      let o := voiceOut (s.voices.tab[(i.val - 64) / 2]'(by omega))
      if i.val % 2 = 0 then o.1 else o.2

/-! ### The mixes (R7, R8, R124) -/

/-- R7: the crosspoint sum. -/
def crosspointSum (levels : Vector Nat 96) (src : Vector Sample 96) : Sample :=
  ((List.finRange 96).map fun i => applyGain (fineGain levels[i]) src[i]).sum

/-- The foldback index of a mix. -/
def foldbackOf (m : MixId) : Option FoldbackId := if h : 8 ≤ m.val ∧ m.val < 20 then some ⟨m.val - 8, by omega⟩ else none

/-- R131: the talk term of a port in a foldback mix. -/
def talkTerm (s : State) (inputs : Vector Sample 64) (f : FoldbackId) (p : PortId) : Sample :=
  match s.mix.talk[p] with
  | some set =>
    if set[f] then match idx1 64 s.ports[p].pageMic with
      | some ch => applyGain (codeGain s.ports[p].talkLevel) inputs[ch]
      | none => 0
    else 0
  | none => 0

/-- R8, R124 to the mute: a mix's result before saturation or clamp. -/
def mixSum (s : State) (src : Vector Sample 96) (inputs : Vector Sample 64) (m : MixId) : Sample :=
  if s.mix.mute[m] then 0
  else
    let sum := crosspointSum s.mix.xpt[m] src
    match foldbackOf m with
    | none => applyGain (fineGain s.mix.master[m]) sum
    | some f =>
      applyGain (fineGain (effective s.mix.master[m] s.mix.backoff[f] s.mix.duck[f])) sum
        + ((List.finRange 3).map (talkTerm s inputs f)).sum

/-- R8, R125: the last step of a mix. -/
def limit (s : State) (m : MixId) (x : Sample) : Sample := match foldbackOf m with
  | none => saturate x
  | some f => clampTo s.mix.ceiling[f] x

/-- The results of one sample period. -/
structure SampleResult where
  sums : Vector Sample 24
  outs : Vector Sample 24
  zoneSums : Vector Sample 16
  zoneOuts : Vector Sample 16
deriving DecidableEq, Repr

/-- R6, R139: everything computed in one sample period. -/
def computeSample (s : State) : SampleResult :=
  let src := sources s
  let inputs := inputSamples s
  let sums := Vector.ofFn (mixSum s src inputs)
  let outs := Vector.ofFn fun m => limit s m sums[m]
  let feeds : Vector Sample 4 := Vector.ofFn fun k => outs[20 + k.val]
  let v16 := src[94] + src[95]
  let zs := Vector.ofFn fun z => zoneSum s.paging.zones[z] (carriedPage s z) feeds inputs v16
  { sums := sums, outs := outs, zoneSums := zs, zoneOuts := Vector.ofFn fun z => saturate zs[z] }

/-- Whether a mix's result was replaced by its saturation or clamp. -/
def mixHit (r : SampleResult) (m : MixId) : Bool := r.sums[m] != r.outs[m]

/-- The results written: mix outputs, clip flags, clamp marks, zone clip flags, and each zone's sample to its line. What came
together with a line frame event has come (R182). -/
def writeSample (r : SampleResult) (s : State) : State :=
  { s with
    mix := { s.mix with
      out := r.outs
      clip := vmapi (fun m b => orFlag (mixHit r m) b) s.mix.clip
      clampMark := vmapi (fun f b => orFlag (mixHit r ⟨f.val + 8, by omega⟩) b) s.mix.clampMark }
    paging := { s.paging with
      zones := vmapi (fun z q => { q with clip := orFlag (r.zoneSums[z] != r.zoneOuts[z]) q.clip }) s.paging.zones
      pages := s.paging.pages.map fun p =>
        if p.state = .chiming then { p with chimePos := min (p.chimePos + 1) 28800 } else p }
    lines := { s.lines with tab := vmapi (fun l q => { q with
      samples := q.samples ++ [r.zoneOuts[l]], together := .nothing }) s.lines.tab } }

/-! ### Clocks and timers -/

/-- A running timer counts one sample period; at 0 it has expired and waits to be taken. -/
def tick (t : Option Nat) : Option Nat := t.map fun k => k - 1

/-- R11: the sample count, and the frame event raised after the 48th sample. -/
def countSample (e : MixEngine) : MixEngine :=
  if 47 ≤ e.sampleCount then { e with sampleCount := 0, frameDue := true }
  else { e with sampleCount := e.sampleCount + 1 }

/-- R169: the line unit's own count. -/
def countLine (u : LineUnit) : LineUnit :=
  if 47 ≤ u.count then { u with count := 0, due := u.due + 1 } else { u with count := u.count + 1 }

/-- Every count of sample periods moved by one, and the first contact reading taken (R186). -/
def tickAll (s : State) : State :=
  { s with
    mix := countSample s.mix
    lines := countLine s.lines
    alarm := { s.alarm with timer := tick s.alarm.timer, last := some (s.alarm.last.getD false) }
    card := { s.card with
      insertTimer := tick s.card.insertTimer
      reader := s.card.reader.map fun r => { r with age := r.age + 1 } }
    cues := { s.cues with
      guard := tick s.cues.guard
      running := s.cues.running.map fun e => { e with clock := e.clock + 1 } }
    paging := { s.paging with
      zones := vmapi (fun _ z => { z with gapTimer := tick z.gapTimer }) s.paging.zones
      pages := s.paging.pages.map fun p => { p with timer := tick p.timer } } }

/-- One sample period (R6, R68, R139). -/
def samplePeriod (s : State) : State := finish (tickAll (voicesPeriod (writeSample (computeSample s) s)))

/-! ### The frame event (R11, R31, R126, R132) -/

/-- Whether an active talk record covers a foldback mix. -/
def talkCovers (e : MixEngine) (f : FoldbackId) : Bool := e.talk.toList.any fun t => match t with
  | some set => set[f]
  | none => false

/-- R126, R132: backoff and talk duck of every foldback mix, and the clamp marks cleared. -/
def moveFoldback (e : MixEngine) : MixEngine :=
  { e with
    backoff := vmapi (fun f b => moveBackoff e.clampMark[f] b) e.backoff
    duck := vmapi (fun f d => moveDuck (if talkCovers e f then fineOfCode e.talkDepth else 0) d) e.duck
    clampMark := Vector.replicate 12 false }

/-- The frame event taken: fades advance, foldback moves. -/
def frame (s : State) : State :=
  finish (modMix moveFoldback (advanceFades (modMix (fun e => { e with frameDue := false }) s)))

/-! ### Input links (R13-R15) -/

/-- R13: the lock state and run count after a frame. -/
def linkMove (valid : Bool) (l : InputLink) : InputLink := match l.locked, valid with
  | false, true => if l.run < 47 then { l with run := l.run + 1 } else { l with locked := true, run := 0 }
  | false, false => { l with run := 0 }
  | true, true => { l with run := 0 }
  | true, false => if l.run < 3 then { l with run := l.run + 1 } else { l with locked := false, run := 0 }

/-- R14: the samples a link delivers. -/
def linkWords (locked : Bool) (frame : Option (Vector Word24 16)) : Vector Sample 16 := match locked, frame with
  | true, some w => Vector.ofFn fun i => w[i].toInt
  | _, _ => Vector.replicate 16 0

/-- The lock states in the order of R13's table: UNLOCKED 0, LOCKED 1
(notes/assumptions/13.md). -/
def lockCode (locked : Bool) : Nat := locked.toNat

/-- INPUT LINK (R15), the link number in one character (notes/assumptions/14.md), the lock code by
notes/assumptions/13.md. -/
def linkNotice (k : LinkId) (locked : Bool) : Notice :=
  { cls := .mix, kind := 2, fields := [f1 k.val, f1 (lockCode locked)] }

/-- One link frame (R13-R15). -/
def linkFrame (k : LinkId) (frame : Option (Vector Word24 16)) (s : State) : State :=
  let old := s.mix.links[k]
  let new := linkMove frame.isSome old
  let s1 := modMix (fun e => { e with
    links := upd e.links k { new with words := linkWords new.locked frame } }) s
  if old.locked = new.locked then s1 else notifyClass (linkNotice k new.locked) s1

/-- R17: the sixteen slots of an output link. -/
def outputSlots (second : Bool) (s : State) : Vector Sample 16 :=
  Vector.ofFn fun i =>
    if second then
      if h : i.val < 12 then s.mix.out[8 + i.val] else 0
    else s.mix.out[i.val]

end Sys2Proof.Machine
end

