-- ==== Sys2Proof/Machine/Ports.lean ====
section
/-! DEFINITION. The control ports (10): coming up and going down, the receiver, the assembler, the taking of a request,
and the transmitter. -/

namespace Sys2Proof.Machine

abbrev fifoRoom : Nat := 2
abbrev requestRoom : Nat := 2

/-! ### Up and down (R194, R210) -/

/-- R194: a port enters UP. -/
def portUp (r : PortRecord) : PortRecord := { r with up := true, prdy := true, armed := false }

/-- R210: whether a request handed to its owner is still carried out after the port-down. The port itself owns SUBSCRIBE
and CLEAR ERRORS, and step 4 clears all that they write (notes/assumptions/49.md). -/
def outlives : Instr → Bool
  | .subscribe .. => false
  | .clearErrors .. => false
  | _ => true

/-- The request that an owner has been handed. -/
def handedTo (q : Request) : Option Instr := match q.state with
  | .handed i => some i
  | _ => none

/-- R210, steps 1 to 4. -/
def portDown (r : PortRecord) : PortRecord :=
  { r with
    up := false, prdy := false, armed := false, tx := none, fifo := [], loss := false, asm := none, reqs := []
    taken := r.taken ++ (r.reqs.filterMap handedTo).filter outlives
    replies := [], notices := [], lost := false, errs := ErrFlags.clear, subs := Vector.replicate 7 false }

/-- R210, step 5: the port-down is handed to the cue engine, the paging unit and the mix engine. -/
def handDown (p : PortId) (s : State) : State :=
  { s with
    cues := { s.cues with downIn := s.cues.downIn ++ [p] }
    paging := { s.paging with downIn := s.paging.downIn ++ [p] }
    mix := { s.mix with downIn := s.mix.downIn ++ [p] } }

/-! ### The receiver (R195-R197) -/

/-- The ones of a byte. -/
def ones (b : Byte) : Nat := ((List.range 8).map fun i => (b.getLsbD i).toNat).sum

/-- R195: even parity over the data bits, the head mark and the parity bit. -/
def parityEven (x : RxBits) : Bool := (ones x.data + x.head.toNat + x.parity.toNat) % 2 == 0

/-- R196: the entry of a start bit. -/
def rxEntry (x : RxBits) : RxEntry :=
  if x.stop then if parityEven x then .character x.data x.head else .parity
  else if x.backAtMark then .framing else .brk

/-- R197: an entry offered to the holding FIFO. -/
def offerEntry (e : RxEntry) (r : PortRecord) : PortRecord :=
  if r.fifo.length < fifoRoom then { r with fifo := r.fifo ++ [e] }
  else { r.setError .overrun with loss := true }

/-- R194, R196: a start bit on RXD. None is taken until RXD has stood at mark for a character time. -/
def receive (x : RxBits) (r : PortRecord) : PortRecord :=
  if r.up && (r.armed || x.idleBefore) then offerEntry (rxEntry x) { r with armed := true } else r

/-! ### The assembler (R197-R199) -/

/-- R199: a completed message. -/
def completeMessage (head : Byte) (body : List Byte) (r : PortRecord) : PortRecord :=
  if r.reqs.length < requestRoom then
    { r with reqs := r.reqs ++ [{ kind := head.toNat, body := body, state := .waiting }] }
  else r.setError .overrun

/-- R198: an entry dealt with. -/
def dealEntry (e : RxEntry) (r : PortRecord) : PortRecord := match e with
  | .parity => { r with asm := none }.setError .parity
  | .framing => { r with asm := none }.setError .framing
  | .brk => { r with asm := none }
  | .character d true =>
    let fresh : Option Assembly := some { head := d, len := none, body := [] }
    match r.asm with
    | none => { r with asm := fresh }
    | some _ => { r.setError .malformed with asm := fresh }
  | .character d false => match r.asm with
    | none => r
    | some a => match a.len with
      | none =>
        if 62 < d.toNat then { r with asm := none }.setError .malformed
        else if d.toNat = 0 then completeMessage a.head [] { r with asm := none }
        else { r with asm := some { a with len := some d.toNat } }
      | some n =>
        let body := a.body ++ [d]
        if n ≤ body.length then completeMessage a.head body { r with asm := none }
        else { r with asm := some { a with body := body } }

/-- R197, R198: the assembler takes the head of the holding FIFO; with the loss mark set, the message in assembly is
discarded first. -/
def assemble (r : PortRecord) : PortRecord := match r.fifo with
  | [] => r
  | e :: es => dealEntry e { r with fifo := es, asm := if r.loss then none else r.asm, loss := false }

/-! ### The taking of a request (R200) -/

def isHanded (q : Request) : Bool := match q.state with
  | .handed _ => true
  | _ => false

/-- The oldest WAITING request in a new state. -/
def markTaken (st : ReqState) : List Request → List Request
  | [] => []
  | q :: qs => if q.state = .waiting then { q with state := st } :: qs else q :: markTaken st qs

/-- The tag a reply carries: 0 for a body that holds none. -/
def bodyTag (q : Request) : Nat := match q.body with
  | [] => 0
  | b :: _ => b.toNat

/-- R200: the port takes its oldest WAITING request, and hands it to its owner or answers it BAD_ARGUMENT itself. -/
def takeRequest (p : PortId) (r : PortRecord) : PortRecord :=
  if r.reqs.any isHanded then r
  else match r.reqs.find? fun q => q.state == .waiting with
    | none => r
    | some q => match parseRequest p q.kind (q.body.map BitVec.toNat) with
      | some i => { r with reqs := markTaken (.handed i) r.reqs }
      | none => { r with
          reqs := markTaken .answered r.reqs
          replies := r.replies ++ [{ tag := bodyTag q, kind := q.kind, outcome := .badArgument, fields := [] }] }

/-! ### The transmitter (R201, R203) -/

/-- R195: a character framed for TXD; its parity bit makes the ones of data, head mark and parity even. -/
def txChar (head : Bool) (c : Nat) : TxChar :=
  let d : Byte := BitVec.ofNat 8 c
  { data := d, head := head, parity := (ones d + head.toNat) % 2 == 1 }

/-- R195: the characters of a message framed; the head mark is on the first alone. -/
def framed : List Nat → List TxChar
  | [] => []
  | c :: cs => txChar true c :: cs.map (txChar false)

def sending (reply : Bool) (chars : List Nat) : Transmission := { reply := reply, chars := framed chars, begun := 1 }

/-- R201: an idle transmitter with CTS active begins the oldest reply, else the oldest notice, which takes the
notices-lost flag. -/
def transmitStart (r : PortRecord) : PortRecord :=
  if r.up && r.cts && r.tx.isNone then match r.replies, r.notices with
    | q :: qs, _ => { r with replies := qs, tx := some (sending true q.chars) }
    | [], n :: ns => { r with notices := ns, tx := some (sending false (n.chars r.lost)), lost := false }
    | [], [] => r
  else r

/-- The oldest ANSWERED request leaves the buffer (R199). -/
def dropAnswered : List Request → List Request
  | [] => []
  | q :: qs => if q.state = .answered then qs else q :: dropAnswered qs

/-- R201: the last character has been sent; while CTS is inactive, only if it had been begun. -/
def transmitEnd (r : PortRecord) : PortRecord := match r.tx with
  | none => r
  | some t =>
    if r.cts || decide (t.chars.length ≤ t.begun) then
      { r with tx := none, reqs := if t.reply then dropAnswered r.reqs else r.reqs }
    else r

/-- R201: CTS changes, when so many characters of the message in hand have been begun. None is begun while CTS was
inactive. -/
def ctsChange (active : Bool) (begun : Nat) (r : PortRecord) : PortRecord :=
  { r with
    cts := active
    tx := if r.cts then r.tx.map fun t => { t with begun := max t.begun (min begun t.chars.length) } else r.tx }

/-! ### STATUS (R207) -/

def talkSet (t : Option (Vector Bool 12)) : Vector Bool 12 := t.getD (Vector.replicate 12 false)

def generalFields (s : State) : List Field :=
  [f1 s.alarm.state.code, f1 (Config.contactCode s.alarm.last),
   f3 (if s.alarm.state = .qualifying then msLeft s.alarm.timer else 0), fholder s.cues.holder,
   fb s.cues.guard.isSome, standingCode s.cues.standing, f2 s.cues.list.length, f2 (poolUse s.cues.list),
   f1 s.cues.running.length, f1 s.fades.table.length, f1 s.voices.free, f1 s.card.state.code, fb s.card.showLoaded,
   fb (match s.card.job with
     | some j => j.reload
     | none => false)]

def flagsFields (s : State) : List Field :=
  [fset 3 s.mix.clip, fset 2 (vmapi (fun _ z => z.clip) s.paging.zones)]
    ++ s.mix.links.toList.map fun l => f1 (lockCode l.locked)

def voicesFields (s : State) : List Field := s.voices.tab.toList.map fun r => f1 r.state.code

def entryFields (e : RunEntry) : List Field :=
  [f2 e.cue, f1 e.state.code, f3 (min (e.clock / samplesPerMs) 16777215), f1 e.next, f1 e.out]

def runningFields (first : Nat) (s : State) : List Field :=
  f1 s.cues.running.length :: ((s.cues.running.drop (first - 1)).take 7).flatMap entryFields

def linesFields (s : State) : List Field :=
  s.lines.tab.toList.flatMap fun r => [f1 r.power.code, f1 r.link.code]

/-- UP 0, DOWN 1 (10, port record). -/
def portStateCode (up : Bool) : Nat := if up then 0 else 1

def portFields (s : State) (p : PortId) : List Field :=
  let r := s.ports[p]
  [f1 (portStateCode r.up), f1 r.errs.bits, fb r.lost, fset 1 r.subs, fset 1 r.rights, fset 2 (talkSet s.mix.talk[p])]

/-- R207: the contents of a section; none for a section outside 1-6, or a first position outside 1-16 where it is read. -/
def statusFields (sect first : Nat) (s : State) : Option (List Field) := match sect with
  | 1 => some (generalFields s)
  | 2 => some (flagsFields s)
  | 3 => some (voicesFields s)
  | 4 => if between 1 16 first then some (runningFields first s) else none
  | 5 => some (linesFields s)
  | 6 => some ((List.finRange 3).flatMap (portFields s) ++ [f3 s.mix.talkDepth])
  | _ => none

end Sys2Proof.Machine
end

