-- ==== Sys2Proof/Machine/PortRequests.lean ====
section
/-! DEFINITION. Requests 1 to 6, owned by the port (10.6-10.10). -/

namespace Sys2Proof.Machine

/-- The outcome of a step. -/
abbrev Out := Host.Outcome State Fault Refusal

/-- A request after which completions, and the reader's next read, may follow. -/
def serveFinish (p : PortId) (tag kind : Nat) (i : Instr) (body : State → State × Answer) (s : State) : Out :=
  if handed p i s then .next (finish (answer p tag kind i (body s).2 (body s).1))
  else if orphaned p i s then .next (finish (discardReply p i (body s).1))
  else .next s

/-- R207. A FLAGS reply clears the flags it carries (R10, R140). -/
def statusBody (sect first : Nat) (s : State) : State × Answer := match statusFields sect first s with
  | none => only s (refuse .badArgument)
  | some fs => (if sect = 2 then clearClips s else s, { outcome := .accepted, fields := fs })

def execStatus (port : PortId) (tag sect first : Nat) (s : State) : Out :=
  serve port tag 1 (.status port tag sect first) (statusBody sect first) s

/-- R204. -/
def subscribeBody (port : PortId) (classes : Nat) (s : State) : State × Answer :=
  if 128 ≤ classes then only s (refuse .badArgument)
  else (modPort port (fun r => { r with subs := setOfBits 7 classes }) s,
        { outcome := .accepted, fields := [f1 classes] })

def execSubscribe (port : PortId) (tag classes : Nat) (s : State) : Out :=
  serve port tag 2 (.subscribe port tag classes) (subscribeBody port classes) s

/-- R205. -/
def clearErrorsBody (port : PortId) (s : State) : State × Answer :=
  (modPort port (fun r => { r with errs := ErrFlags.clear }) s,
   { outcome := .accepted, fields := [f1 s.ports[port].errs.bits] })

def execClearErrors (port : PortId) (tag : Nat) (s : State) : Out :=
  serve port tag 3 (.clearErrors port tag) (clearErrorsBody port) s

/-- The named port's rights replaced. -/
def withRights (q : PortId) (rights : Vector Bool 6) (s : State) : State :=
  modPort q (fun r => { r with rights := rights }) s

/-- R206: at least one port holds SYSTEM. -/
def someSystem (s : State) : Bool := (List.finRange 3).any fun p => hasRight p .system s

/-- R206. -/
def setRightsBody (port : PortId) (named rights : Nat) (s : State) : State × Answer :=
  match idx1 3 named with
  | none => only s (refuse .badArgument)
  | some q =>
    if 64 ≤ rights then only s (refuse .badArgument)
    else if !hasRight port .system s then only s (refuse .notPermitted)
    else
      let s1 := withRights q (setOfBits 6 rights) s
      if someSystem s1 then (s1, { outcome := .accepted, fields := [f1 rights] }) else only s (refuse .badArgument)

def execSetRights (port : PortId) (tag named rights : Nat) (s : State) : Out :=
  serve port tag 4 (.setRights port tag named rights) (setRightsBody port named rights) s

/-- R208: a setting number appears twice. -/
def repeated : List Nat → Bool
  | [] => false
  | n :: ns => ns.contains n || repeated ns

/-- R208: whether any value is replaced. -/
def anyClamped (pairs : List (Nat × Nat)) : Bool := pairs.any fun p => clampSetting p.1 p.2 != p.2

/-- R208. -/
def configBody (port : PortId) (pairs : List (Nat × Nat)) (s : State) : State × Answer :=
  if pairs.any (fun p => badPair p.1 p.2) || repeated (pairs.map (·.1)) then only s (refuse .badArgument)
  else if !hasRight port .system s then only s (refuse .notPermitted)
  else (pairs.foldl loadSetting s, acceptOr (anyClamped pairs))

def execConfig (port : PortId) (tag : Nat) (pairs : List (Nat × Nat)) (s : State) : Out :=
  serve port tag 5 (.config port tag pairs) (configBody port pairs) s

/-- R209. -/
def settingReadBody (port : PortId) (first count : Nat) (s : State) : State × Answer :=
  if !between 1 60 first || !between 1 19 count || decide (60 < first + count - 1) then only s (refuse .badArgument)
  else if !s.ports[port].rights.toList.any id then only s (refuse .notPermitted)
  else only s { outcome := .accepted, fields := (List.range count).map fun i => f3 (settingValue (first + i) s) }

def execSettingRead (port : PortId) (tag first count : Nat) (s : State) : Out :=
  serve port tag 6 (.settingRead port tag first count) (settingReadBody port first count) s

end Sys2Proof.Machine
end

