-- ==== Sys2Proof/Machine/LevelRequests.lean ====
section
/-! DEFINITION. Requests 7 to 15: levels, mutes, snapshots, recalls and recall-safe flags (01, 02). -/

namespace Sys2Proof.Machine

/-- R18, R19, R28: a level set carried out. -/
def setLevelTo (port : PortId) (t : Target) (code time : Nat) (s : State) : State :=
  if time = 0 then snap t (fineOfCode (clampCode code)) s
  else (createSingle t (fineOfCode (clampCode code)) (clampTime time) (.port port) s).1

/-- R18. -/
def setLevelBody (port : PortId) (target : RawTarget) (code time : Nat) (s : State) : State × Answer :=
  match targetOf target with
  | none => only s (refuse .badArgument)
  | some t =>
    if !settable t then only s (refuse .badArgument)
    else if !targetRight port t s then only s (refuse .notPermitted)
    else (setLevelTo port t code time s, acceptOr (codeReplaced code || timeReplaced time))

def execSetLevel (port : PortId) (tag : Nat) (target : RawTarget) (code time : Nat) (s : State) : Out :=
  serveFinish port tag 7 (.setLevel port tag target code time) (setLevelBody port target code time) s

/-- The fields of READ LEVEL that only a MASTER has (R22). -/
def masterFields (s : State) : Target → List Field
  | .master m => fb s.mix.mute[m] :: match foldbackOf m with
    | some f => [f2 s.mix.backoff[f], f2 s.mix.duck[f],
                 f2 (effective s.mix.master[m] s.mix.backoff[f] s.mix.duck[f])]
    | none => []
  | _ => []

/-- R22. -/
def levelFields (t : Target) (s : State) : List Field :=
  [f2 (levelOf t s), f1 (levelOf t s / 16), f3 (fineGain (levelOf t s)), fb (driven t s)] ++ masterFields s t

def readLevelBody (port : PortId) (target : RawTarget) (s : State) : State × Answer :=
  match targetOf target with
  | none => only s (refuse .badArgument)
  | some t =>
    if !targetRight port t s then only s (refuse .notPermitted)
    else only s { outcome := .accepted, fields := levelFields t s }

def execReadLevel (port : PortId) (tag : Nat) (target : RawTarget) (s : State) : Out :=
  serve port tag 8 (.readLevel port tag target) (readLevelBody port target) s

/-- R20. -/
def muteBody (port : PortId) (mix setting : Nat) (s : State) : State × Answer :=
  match idx1 24 mix, onOff setting with
  | some m, some on =>
    if !hasRight port .mix s then only s (refuse .notPermitted)
    else if unmuteBarred m on s then only s (refuse .alarm)
    else (setMute m on s, accept)
  | _, _ => only s (refuse .badArgument)

def execMute (port : PortId) (tag mix setting : Nat) (s : State) : Out :=
  serve port tag 9 (.mute port tag mix setting) (muteBody port mix setting) s

def setSnapshot (n : Fin 128) (sn : Option Snapshot) (s : State) : State :=
  modFades (fun f => { f with snaps := upd f.snaps n sn }) s

/-- R43. -/
def storeBody (port : PortId) (snapshot mix : Nat) (s : State) : State × Answer :=
  match idx1 128 snapshot, idx1 24 mix with
  | some n, some m =>
    if !hasRight port .mix s then only s (refuse .notPermitted)
    else (setSnapshot n (some { mix := m, levels := mixLevels m s }) s, accept)
  | _, _ => only s (refuse .badArgument)

def execStore (port : PortId) (tag snapshot mix : Nat) (s : State) : Out :=
  serve port tag 10 (.store port tag snapshot mix) (storeBody port snapshot mix) s

/-- R44. -/
def clearBody (port : PortId) (snapshot : Nat) (s : State) : State × Answer :=
  match idx1 128 snapshot with
  | some n =>
    if !hasRight port .mix s then only s (refuse .notPermitted) else (setSnapshot n none s, accept)
  | none => only s (refuse .badArgument)

def execClear (port : PortId) (tag snapshot : Nat) (s : State) : Out :=
  serve port tag 11 (.clear port tag snapshot) (clearBody port snapshot) s

/-- R45: the reply's fields. -/
def snapshotFields (sn : Option Snapshot) (first count : Nat) : List Field :=
  f1 (Config.snapshotCode sn.isSome) :: match sn with
    | none => []
    | some x => f1 (x.mix.val + 1) :: ((x.levels.toList.drop (first - 1)).take count).map f2

/-- R45. -/
def snapshotReadBody (port : PortId) (snapshot first count : Nat) (s : State) : State × Answer :=
  match idx1 128 snapshot with
  | none => only s (refuse .badArgument)
  | some n =>
    if !between 1 97 first || !between 1 24 count || decide (97 < first + count - 1) then
      only s (refuse .badArgument)
    else if !hasRight port .mix s then only s (refuse .notPermitted)
    else only s { outcome := .accepted, fields := snapshotFields s.fades.snaps[n] first count }

def execSnapshotRead (port : PortId) (tag snapshot first count : Nat) (s : State) : Out :=
  serve port tag 12 (.snapshotRead port tag snapshot first count) (snapshotReadBody port snapshot first count) s

/-- R46. -/
def recallBody (port : PortId) (mix snapshot time : Nat) (s : State) : State × Answer :=
  match idx1 24 mix, idx1 128 snapshot with
  | some m, some n =>
    if !hasRight port .mix s then only s (refuse .notPermitted)
    else match s.fades.snaps[n] with
      | none => only s (refuse .noSuch)
      | some sn => ((recallMix m n sn.levels (clampTime time) (.port port) s).1, acceptOr (timeReplaced time))
  | _, _ => only s (refuse .badArgument)

def execRecall (port : PortId) (tag mix snapshot time : Nat) (s : State) : Out :=
  serveFinish port tag 13 (.recall port tag mix snapshot time) (recallBody port mix snapshot time) s

def setSafeFlag (m : MixId) (x : SourceId) (on : Bool) (s : State) : State :=
  modFades (fun f => { f with safe := upd f.safe m (upd f.safe[m] x on) }) s

/-- R48. -/
def setSafeBody (port : PortId) (mix source setting : Nat) (s : State) : State × Answer :=
  match idx1 24 mix, idx1 96 source, onOff setting with
  | some m, some x, some on =>
    if !hasRight port .mix s then only s (refuse .notPermitted) else (setSafeFlag m x on s, accept)
  | _, _, _ => only s (refuse .badArgument)

def execSetSafe (port : PortId) (tag mix source setting : Nat) (s : State) : Out :=
  serve port tag 14 (.setSafe port tag mix source setting) (setSafeBody port mix source setting) s

/-- R48: the 96 flags of a mix, as a set in twelve characters (notes/assumptions/14.md). -/
def readSafeBody (port : PortId) (mix : Nat) (s : State) : State × Answer :=
  match idx1 24 mix with
  | none => only s (refuse .badArgument)
  | some m =>
    if !hasRight port .mix s then only s (refuse .notPermitted)
    else only s { outcome := .accepted, fields := [fset 12 s.fades.safe[m]] }

def execReadSafe (port : PortId) (tag mix : Nat) (s : State) : Out :=
  serve port tag 15 (.readSafe port tag mix) (readSafeBody port mix) s

end Sys2Proof.Machine
end

