-- ==== Sys2Proof/Machine/VoiceRequests.lean ====
section
/-! DEFINITION. Requests 16 to 21: the show card and the voices (03). -/

namespace Sys2Proof.Machine

/-- A reload is in progress (R57). -/
def reloading (s : State) : Bool := match s.card.job with
  | some j => j.reload
  | none => false

/-- R57. -/
def reloadBody (port : PortId) (s : State) : State × Answer :=
  if !hasRight port .system s then only s (refuse .notPermitted)
  else if s.card.state ≠ .mounted then only s (refuse .notMounted)
  else if !s.cues.running.isEmpty || reloading s then only s (refuse .inUse)
  else (startReload s, accept)

def execReloadShow (port : PortId) (tag : Nat) (s : State) : Out :=
  serveFinish port tag 16 (.reloadShow port tag) (reloadBody port) s

def clipFields (c : ClipEntry) : List Field :=
  [f1 c.channels, f4 c.length] ++ match c.loop with
    | some (a, b) => [f4 a, f4 b]
    | none => []

/-- CLIP READ (R60). -/
def clipReadBody (port : PortId) (clip : Nat) (s : State) : State × Answer :=
  if !between 1 1024 clip then only s (refuse .badArgument)
  else if !hasRight port .cue s && !hasRight port .edit s then only s (refuse .notPermitted)
  else if s.card.state ≠ .mounted then only s (refuse .notMounted)
  else match clipOf clip s with
    | none => only s (refuse .noSuch)
    | some c => only s { outcome := .accepted, fields := clipFields c }

def execClipRead (port : PortId) (tag clip : Nat) (s : State) : Out :=
  serve port tag 17 (.clipRead port tag clip) (clipReadBody port clip) s

/-- R77, PLAY. -/
def playBody (port : PortId) (clip vtag code fadeIn loop : Nat) (s : State) : State × Answer :=
  if !between 1 1024 clip || vtag == 0 then only s (refuse .badArgument)
  else if !hasRight port .cue s then only s (refuse .notPermitted)
  else if s.voices.alarm.standing then only s (refuse .alarm)
  else match playTest clip (openVoice s) s with
    | .notMounted => only s (refuse .notMounted)
    | .noSuchClip => only s (refuse .noSuch)
    | .noVoice | .noBuffer => only s (refuse .full)
    | .start v info =>
      ((startLevel v (clampCode code) (clampTime fadeIn) (.port port)
          (startVoice v clip info vtag (yesNo loop) (.port port) 0 s)).1,
       acceptOr (codeReplaced code || timeReplaced fadeIn) [voiceCode v])

def execPlay (port : PortId) (tag clip vtag code fadeIn loop : Nat) (s : State) : Out :=
  serveFinish port tag 18 (.play port tag clip vtag code fadeIn loop) (playBody port clip vtag code fadeIn loop) s

/-- R77, STOP. -/
def stopBody (port : PortId) (vtag time : Nat) (s : State) : State × Answer :=
  if vtag = 0 then only s (refuse .badArgument)
  else if !hasRight port .cue s then only s (refuse .notPermitted)
  else (stopTag vtag (clampTime time) s,
        acceptOr (timeReplaced time) [f1 (voicesWhere (matchesTag vtag) s).length])

def execStop (port : PortId) (tag vtag time : Nat) (s : State) : Out :=
  serveFinish port tag 19 (.stop port tag vtag time) (stopBody port vtag time) s

/-- R77, RELEASE. -/
def releaseBody (port : PortId) (vtag : Nat) (s : State) : State × Answer :=
  if vtag = 0 then only s (refuse .badArgument)
  else if !hasRight port .cue s then only s (refuse .notPermitted)
  else (releaseTag vtag s, { outcome := .accepted, fields := [f1 (voicesWhere (releasable vtag) s).length] })

def execRelease (port : PortId) (tag vtag : Nat) (s : State) : Out :=
  serveFinish port tag 20 (.release port tag vtag) (releaseBody port vtag) s

/-- R77, VOICE READ; an absent tag takes no character (notes/assumptions/14.md). -/
def voiceFields (r : Voice) : List Field :=
  [f1 r.state.code, f2 r.clip] ++ (match r.tag with
    | some t => [f1 t]
    | none => [])
    ++ [f4 r.pos, fb r.looping, f2 r.level, f1 (r.ring.filter fun x => x.state == .filled).length]
    ++ voiceOrigin r.origin

def voiceReadBody (port : PortId) (voice : Nat) (s : State) : State × Answer :=
  match idx1 16 voice with
  | none => only s (refuse .badArgument)
  | some v =>
    if !hasRight port .cue s && !hasRight port .mix s then only s (refuse .notPermitted)
    else only s { outcome := .accepted, fields := voiceFields s.voices.tab[v] }

def execVoiceRead (port : PortId) (tag voice : Nat) (s : State) : Out :=
  serve port tag 21 (.voiceRead port tag voice) (voiceReadBody port voice) s

end Sys2Proof.Machine
end

