-- ==== Sys2Proof/Machine/CueRequests.lean ====
section
/-! DEFINITION. Requests 22 to 34: cue edits and reads (04), authority, standing cue, GO and the stops (05). -/

namespace Sys2Proof.Machine

/-! ### Edits -/

def setDraft (p : PortId) (d : Option Draft) (s : State) : State :=
  modCues (fun c => { c with drafts := upd c.drafts p d }) s

abbrev draftRoom : Nat := 32

/-- R86. -/
def cueOpenBody (port : PortId) (number prewait mode delay : Nat) (label : List Nat) (copy : Nat) (s : State) :
    State × Answer :=
  match followOf mode delay with
  | none => only s (refuse .badArgument)
  | some f =>
    if !between 1 9999 number || !labelOk label then only s (refuse .badArgument)
    else if !hasRight port .edit s then only s (refuse .notPermitted)
    else
      let replaced := timeReplaced prewait || delayReplaced mode delay
      let opened (as : List CueAction) : State × Answer :=
        (setDraft port (some
          { cue := { number := number, label := label, prewait := clampTime prewait, follow := f, actions := as }
            replaced := replaced }) s, acceptOr replaced)
      if yesNo copy then match cueOf number s with
        | none => only s (refuse .noSuch)
        | some c => opened c.actions
      else opened []

def execCueOpen (port : PortId) (tag number prewait mode delay : Nat) (label : List Nat) (copy : Nat) (s : State) :
    Out :=
  serve port tag 22 (.cueOpen port tag number prewait mode delay label copy)
    (cueOpenBody port number prewait mode delay label copy) s

/-- R87, CUE ADD. -/
def cueAddBody (port : PortId) (offset : Nat) (raw : RawAction) (s : State) : State × Answer :=
  match actionOf raw with
  | none => only s (refuse .badArgument)
  | some (a, clamped) =>
    if !hasRight port .edit s then only s (refuse .notPermitted)
    else match s.cues.drafts[port] with
      | none => only s (refuse .noSuch)
      | some d =>
        if draftRoom ≤ d.cue.actions.length then only s (refuse .full)
        else
          let replaced := clamped || timeReplaced offset
          let placed := placeAction { offset := clampTime offset, act := a } d.cue.actions
          (setDraft port (some { cue := { d.cue with actions := placed.1 }, replaced := d.replaced || replaced }) s,
           acceptOr replaced [f1 placed.2])

def execCueAdd (port : PortId) (tag offset : Nat) (action : RawAction) (s : State) : Out :=
  serve port tag 23 (.cueAdd port tag offset action) (cueAddBody port offset action) s

/-- R87, CUE DROP. -/
def cueDropBody (port : PortId) (position : Nat) (s : State) : State × Answer :=
  if !between 1 32 position then only s (refuse .badArgument)
  else if !hasRight port .edit s then only s (refuse .notPermitted)
  else match s.cues.drafts[port] with
    | none => only s (refuse .noSuch)
    | some d =>
      if d.cue.actions.length < position then only s (refuse .noSuch)
      else (setDraft port (some { d with cue := { d.cue with
              actions := d.cue.actions.eraseIdx (position - 1) } }) s, accept)

def execCueDrop (port : PortId) (tag position : Nat) (s : State) : Out :=
  serve port tag 24 (.cueDrop port tag position) (cueDropBody port position) s

/-- R88: a cue entered in its place, or in place of the cue of its number. -/
def putCue (c : Cue) : List Cue → List Cue
  | [] => [c]
  | d :: ds =>
    if c.number < d.number then c :: d :: ds
    else if c.number = d.number then c :: ds
    else d :: putCue c ds

/-- The list without the cue of a number. -/
def withoutCue (n : Nat) (l : List Cue) : List Cue := l.filter fun c => c.number ≠ n

/-- R88. -/
def cuePutBody (port : PortId) (s : State) : State × Answer :=
  if !hasRight port .edit s then only s (refuse .notPermitted)
  else match s.cues.drafts[port] with
    | none => only s (refuse .noSuch)
    | some d =>
      let l := s.cues.list
      let n := d.cue.number
      if d.cue.actions.isEmpty then only s (refuse .badArgument)
      else if running n s then only s (refuse .inUse)
      else if (cueIn n l).isNone && decide (listRoom ≤ l.length) then only s (refuse .noRoom)
      else if poolRoom < poolUse (withoutCue n l) + d.cue.actions.length then only s (refuse .noRoom)
      else
        let s1 := setDraft port none (modCues (fun c => { c with list := putCue d.cue c.list }) s)
        (s1, acceptOr d.replaced [f2 n, f2 (poolRoom - poolUse s1.cues.list)])

def execCuePut (port : PortId) (tag : Nat) (s : State) : Out :=
  serve port tag 25 (.cuePut port tag) (cuePutBody port) s

/-- R90: the cue removed; the standing cue moves on if it was the one. -/
def deleteCue (n : Nat) (s : State) : State :=
  modCues (fun c => { c with
    list := withoutCue n c.list
    standing := if c.standing = some n then cueAfter n c.list else c.standing }) s

/-- R90. -/
def cueDeleteBody (port : PortId) (number : Nat) (s : State) : State × Answer :=
  if !between 1 9999 number then only s (refuse .badArgument)
  else if !hasRight port .edit s then only s (refuse .notPermitted)
  else if (cueOf number s).isNone then only s (refuse .noSuch)
  else if running number s then only s (refuse .inUse)
  else
    let s1 := deleteCue number s
    (s1, { outcome := .accepted, fields := [standingCode s1.cues.standing] })

def execCueDelete (port : PortId) (tag number : Nat) (s : State) : Out :=
  serve port tag 26 (.cueDelete port tag number) (cueDeleteBody port number) s

/-! ### CUE READ (R91) -/

/-- The arguments of a stored action, coded as CUE ADD carries them. -/
def argFields : Action → List Field
  | .play clip tag code fadeIn loop => [f2 clip, f1 tag, f1 code, f3 fadeIn, fb loop]
  | .stop tag time => [f1 tag, f3 time]
  | .release tag => [f1 tag]
  | .level t code time => fcueTarget t ++ [f1 code, f3 time]
  | .recall m n time => [f1 (m.val + 1), f1 (n.val + 1), f3 time]
  | .mute m on => [f1 (m.val + 1), fb on]
  | .page zs clip prio chime all re => [fset 2 zs, f2 clip, f1 prio, fb chime, fb (!all), fb re]
  | .lamp z st => [zoneCode z, f1 (lampCode st)]

def followFields : Follow → List Field
  | .none => [f1 0]
  | .continue d => [f1 1, f3 d]
  | .follow => [f1 2]

/-- Item 0: the header; item `k`: the action at position `k`; none above the action count. -/
def cueItem (c : Cue) (item : Nat) (s : State) : Option (List Field) :=
  if item = 0 then
    some ([f2 c.number, .text c.label, f3 c.prewait] ++ followFields c.follow
      ++ [f1 c.actions.length, fb (s.cues.standing == some c.number), fb (running c.number s)])
  else (c.actions[item - 1]?).map fun a => [f2 c.number, f1 item, f1 a.act.kind, f3 a.offset] ++ argFields a.act

/-- EXACT is 0, NEXT is 1. -/
def chosenCue (next : Bool) (number : Nat) (s : State) : Option Cue :=
  if next then s.cues.list.find? fun c => decide (number < c.number) else cueOf number s

def cueReadBody (port : PortId) (selector number item : Nat) (s : State) : State × Answer :=
  match onOff selector with
  | none => only s (refuse .badArgument)
  | some next =>
    if decide (32 < item) || !between (if next then 0 else 1) 9999 number then only s (refuse .badArgument)
    else if !hasRight port .cue s && !hasRight port .edit s then only s (refuse .notPermitted)
    else match (chosenCue next number s).bind fun c => cueItem c item s with
      | none => only s (refuse .noSuch)
      | some fs => only s { outcome := .accepted, fields := fs }

def execCueRead (port : PortId) (tag selector number item : Nat) (s : State) : Out :=
  serve port tag 27 (.cueRead port tag selector number item) (cueReadBody port selector number item) s

/-! ### Authority and the standing cue -/

/-- R95. -/
def takeGoBody (port : PortId) (force : Nat) (s : State) : State × Answer :=
  if !hasRight port .cue s then only s (refuse .notPermitted)
  else match s.cues.holder with
    | none => (moveHolder (some port) .taken s, { outcome := .accepted, fields := [fholder (some port)] })
    | some q =>
      if q = port then only s { outcome := .accepted, fields := [fholder (some port)] }
      else if yesNo force && hasRight port .system s then
        (moveHolder (some port) .forced s, { outcome := .accepted, fields := [fholder (some port)] })
      else only s { outcome := .held, fields := [fholder (some q)] }

def execTakeGo (port : PortId) (tag force : Nat) (s : State) : Out :=
  serve port tag 28 (.takeGo port tag force) (takeGoBody port force) s

/-- R96. -/
def releaseGoBody (port : PortId) (s : State) : State × Answer :=
  if s.cues.holder = some port then (moveHolder none .released s, accept) else only s (refuse .notHolder)

def execReleaseGo (port : PortId) (tag : Nat) (s : State) : Out :=
  serve port tag 29 (.releaseGo port tag) (releaseGoBody port) s

def setStanding (o : Option Nat) (s : State) : State := modCues (fun c => { c with standing := o }) s

/-- R100. -/
def standbyBody (port : PortId) (number : Nat) (s : State) : State × Answer :=
  if !between 1 9999 number then only s (refuse .badArgument)
  else if !hasRight port .cue s then only s (refuse .notPermitted)
  else if s.cues.holder ≠ some port then only s (refuse .notHolder)
  else if (cueOf number s).isNone then only s (refuse .noSuch)
  else (setStanding (some number) s, { outcome := .accepted, fields := [f2 number] })

def execStandby (port : PortId) (tag number : Nat) (s : State) : Out :=
  serve port tag 30 (.standby port tag number) (standbyBody port number) s

/-- R101: where BACK goes: the last cue from END, else the cue of the next lower number; none at the start. -/
def backTo (s : State) : Option Nat := match s.cues.standing with
  | none => (s.cues.list.getLast?).map (·.number)
  | some n => cueBefore n s.cues.list

/-- R101. A refusal AT_START carries no standing cue (notes/assumptions/53.md). -/
def backBody (port : PortId) (s : State) : State × Answer :=
  if !hasRight port .cue s then only s (refuse .notPermitted)
  else if s.cues.holder ≠ some port then only s (refuse .notHolder)
  else match backTo s with
    | none => only s (refuse .atStart)
    | some n => (setStanding (some n) s, { outcome := .accepted, fields := [f2 n] })

def execBack (port : PortId) (tag : Nat) (s : State) : Out := serve port tag 31 (.back port tag) (backBody port) s

/-! ### GO and the stops -/

/-- R99: the guard started by an accepted GO; with GO GUARD 0 it is not. -/
def startGuard (s : State) : State :=
  if s.cues.goGuard = 0 then s else modCues (fun c => { c with guard := some (afterMs c.goGuard) }) s

/-- R102. -/
def goBody (port : PortId) (s : State) : State × Answer :=
  if !hasRight port .cue s then only s (refuse .notPermitted)
  else if s.cues.alarm.standing then only s (refuse .alarm)
  else if s.cues.holder ≠ some port then only s (refuse .notHolder)
  else if s.cues.guard.isSome then only s (refuse .goGuard)
  else match s.cues.standing with
    | none => only s (refuse .atEnd)
    | some n =>
      if running n s then only s (refuse .inUse)
      else if runRoom ≤ s.cues.running.length then only s (refuse .full)
      else
        let s1 := startGuard (fire n (some port) s)
        (s1, { outcome := .accepted, fields := [f2 n, standingCode s1.cues.standing] })

def execGo (port : PortId) (tag : Nat) (s : State) : Out := serveFinish port tag 32 (.go port tag) (goBody port) s

/-- R116. -/
def stopAllBody (port : PortId) (s : State) : State × Answer :=
  if !hasRight port .cue s then only s (refuse .notPermitted)
  else
    let r := stopAll s
    (r.1, { outcome := .accepted, fields := [f1 r.2.1, f1 r.2.2] })

def execStopAll (port : PortId) (tag : Nat) (s : State) : Out :=
  serveFinish port tag 33 (.stopAll port tag) (stopAllBody port) s

/-- R117. -/
def showResetBody (port : PortId) (s : State) : State × Answer :=
  if !hasRight port .system s then only s (refuse .notPermitted)
  else
    let s1 := showReset s
    (s1, { outcome := .accepted, fields := [standingCode s1.cues.standing] })

def execShowReset (port : PortId) (tag : Nat) (s : State) : Out :=
  serveFinish port tag 34 (.showReset port tag) (showResetBody port) s

end Sys2Proof.Machine
end

