-- ==== Sys2Proof/Machine/HouseRequests.lean ====
section
/-! DEFINITION. Requests 35 to 49: talk (06), zones and pages (07), lines and lamps (08), ALARM RESET (09). -/

namespace Sys2Proof.Machine

/-! ### Talk -/

/-- MIX or PAGE rights (R128, R129). -/
def talkRight (p : PortId) (s : State) : Bool := hasRight p .mix s || hasRight p .page s

/-- R128. -/
def talkOnBody (port : PortId) (mixes : Nat) (s : State) : State × Answer :=
  if mixes = 0 ∨ 4096 ≤ mixes then only s (refuse .badArgument)
  else if !talkRight port s then only s (refuse .notPermitted)
  else if s.ports[port].pageMic = 0 then only s (refuse .noSuch)
  else (modMix (fun e => { e with talk := upd e.talk port (some (setOfBits 12 mixes)) }) s, accept)

def execTalkOn (port : PortId) (tag mixes : Nat) (s : State) : Out :=
  serve port tag 35 (.talkOn port tag mixes) (talkOnBody port mixes) s

/-- R129. -/
def talkOffBody (port : PortId) (s : State) : State × Answer := (endTalk port s, accept)

def execTalkOff (port : PortId) (tag : Nat) (s : State) : Out :=
  serve port tag 36 (.talkOff port tag) (talkOffBody port) s

/-- R129. -/
def talkLevelBody (port : PortId) (code : Nat) (s : State) : State × Answer :=
  if !talkRight port s then only s (refuse .notPermitted)
  else (modPort port (fun r => { r with talkLevel := clampCode code }) s, acceptOr (codeReplaced code))

def execTalkLevel (port : PortId) (tag code : Nat) (s : State) : Out :=
  serve port tag 37 (.talkLevel port tag code) (talkLevelBody port code) s

/-! ### Zones and pages -/

/-- R138: the feed and page level of a zone written, each where it is not UNCHANGED (feed 5). -/
def writeZone (z : ZoneId) (feed : Nat) (change : Bool) (code : Nat) (s : State) : State :=
  modZone z (fun r => { r with
    feed := if feed = 5 then r.feed else feedOf feed
    pageLevel := if change then clampCode code else r.pageLevel }) s

/-- R138. -/
def zoneSetBody (port : PortId) (zone feed change code : Nat) (s : State) : State × Answer :=
  match idx1 16 zone, onOff change with
  | some z, some ch =>
    if 5 < feed then only s (refuse .badArgument)
    else if !talkRight port s then only s (refuse .notPermitted)
    else (writeZone z feed ch code s, acceptOr (ch && codeReplaced code))
  | _, _ => only s (refuse .badArgument)

def execZoneSet (port : PortId) (tag zone feed change code : Nat) (s : State) : Out :=
  serve port tag 38 (.zoneSet port tag zone feed change code) (zoneSetBody port zone feed change code) s

/-- The source of a PAGE request once its form is checked: LIVE (none) or CLIP with its number (R156). -/
def sourceKind (source clip : Nat) (re : Bool) : Option (Option Nat) := match onOff source with
  | some true => if between 1 1024 clip then some (some clip) else none
  | some false => if re then none else some none
  | none => none

/-- R156: a PAGE request whose form has passed. -/
def pageMade (port : PortId) (zs : Vector Bool 16) (clip : Option Nat) (priority : Nat) (chime all re : Bool)
    (s : State) : State × Answer :=
  if !hasRight port .page s then only s (refuse .notPermitted)
  else
    let source : Option PageSource := match clip with
      | some n => some (.clip n)
      | none => (idx1 64 s.ports[port].pageMic).map .live
    match source with
    | none => only s (refuse .noSuch)
    | some src =>
      if !pageFits s then only s (refuse .full)
      else
        let s1 := createEvent { origin := .port port, prio := priority, zones := zs, all := all, source := src
                                chime := chime, restartable := re } s
        let id := s1.paging.lastId
        (s1, { outcome := .accepted
               fields := [f1 id, f1 (((pageOf id s1).map fun p => p.state.code).getD 0)] })

/-- R156. -/
def pageBody (port : PortId) (zones source clip priority chime policy restartable : Nat) (s : State) :
    State × Answer :=
  match zoneSetOf zones, onOff chime, onOff policy, onOff restartable with
  | some zs, some ch, some pol, some re => match sourceKind source clip re with
    | some c =>
      if between 1 3 priority then pageMade port zs c priority ch (!pol) re s else only s (refuse .badArgument)
    | none => only s (refuse .badArgument)
  | _, _, _, _ => only s (refuse .badArgument)

def execPage (port : PortId) (tag zones source clip priority chime policy restartable : Nat) (s : State) : Out :=
  serve port tag 39 (.page port tag zones source clip priority chime policy restartable)
    (pageBody port zones source clip priority chime policy restartable) s

/-- R157: whether a port may end a page. -/
def mayEnd (port : PortId) (p : Page) (s : State) : Bool := match p.origin with
  | .alarm => false
  | .port q => q == port
  | .cue _ => hasRight port .page s

/-- R157: a page ended by request: CANCELLED from PENDING, else the outcome given. -/
def endByRequest (o : PageOutcome) (p : Page) (s : State) : State :=
  pagingEvent (fun s => endPage (if p.state = .pending then .cancelled else o) s p.id) s

/-- R157. -/
def pageEndBody (o : PageOutcome) (port : PortId) (id : Nat) (s : State) : State × Answer :=
  if !between 1 255 id then only s (refuse .badArgument)
  else match pageOf id s with
    | none => only s (refuse .noSuch)
    | some p =>
      if !mayEnd port p s then only s (refuse .notPermitted)
      else if p.state = .ended then only s (refuse .ended)
      else (endByRequest o p s, accept)

def execPageEnd (port : PortId) (tag page : Nat) (s : State) : Out :=
  serve port tag 40 (.pageEnd port tag page) (pageEndBody .ended port page) s

def execPageCancel (port : PortId) (tag page : Nat) (s : State) : Out :=
  serve port tag 41 (.pageCancel port tag page) (pageEndBody .cancelled port page) s

/-- PAGE or STATION rights (R163). -/
def pageReadRight (p : PortId) (s : State) : Bool := hasRight p .page s || hasRight p .station s

/-- R163. -/
def pageReadBody (port : PortId) (id : Nat) (s : State) : State × Answer :=
  if !between 1 255 id then only s (refuse .badArgument)
  else if !pageReadRight port s then only s (refuse .notPermitted)
  else match pageOf id s with
    | none => only s (refuse .noSuch)
    | some p => only s { outcome := .accepted, fields := pageFields p ++ (match p.timer with
        | some t => [f3 (msLeft (some t))]
        | none => []) }

def execPageRead (port : PortId) (tag page : Nat) (s : State) : Out :=
  serve port tag 42 (.pageRead port tag page) (pageReadBody port page) s

/-- R163. -/
def pageListBody (port : PortId) (s : State) : State × Answer :=
  if !pageReadRight port s then only s (refuse .notPermitted)
  else only s { outcome := .accepted,
                fields := s.paging.pages.flatMap fun p => [f1 p.id, f1 p.prio, f1 p.state.code] }

def execPageList (port : PortId) (tag : Nat) (s : State) : Out :=
  serve port tag 43 (.pageList port tag) (pageListBody port) s

/-- A value that may be none: none takes no character (notes/assumptions/14.md). -/
def maybe1 : Option Nat → List Field
  | some v => [f1 v]
  | none => []

/-- R163: the fields of ZONE READ. -/
def zoneFields (r : Zone) : List Field :=
  [f1 (feedCode r.feed), f2 r.prog, f2 r.duck, f1 r.pageLevel, f1 r.cap, f1 r.service.code] ++ maybe1 r.carried
    ++ maybe1 r.prio ++ (match r.gapTimer with
      | some t => [f3 (msLeft (some t))]
      | none => []) ++ [f1 (lampCode r.lamp)]

def zoneReadBody (port : PortId) (zone : Nat) (s : State) : State × Answer :=
  match idx1 16 zone with
  | none => only s (refuse .badArgument)
  | some z =>
    if !pageReadRight port s && !hasRight port .mix s then only s (refuse .notPermitted)
    else only s { outcome := .accepted, fields := zoneFields s.paging.zones[z] }

def execZoneRead (port : PortId) (tag zone : Nat) (s : State) : Out :=
  serve port tag 44 (.zoneRead port tag zone) (zoneReadBody port zone) s

/-! ### Lines -/

/-- R167. -/
def linePowerBody (port : PortId) (line setting : Nat) (s : State) : State × Answer :=
  match idx1 16 line, onOff setting with
  | some l, some on =>
    if !hasRight port .station s then only s (refuse .notPermitted)
    else
      let s1 := setPower l on s
      (s1, { outcome := .accepted, fields := [f1 s1.lines.tab[l].power.code] })
  | _, _ => only s (refuse .badArgument)

def execLinePower (port : PortId) (tag line setting : Nat) (s : State) : Out :=
  serve port tag 45 (.linePower port tag line setting) (linePowerBody port line setting) s

/-- SENT 0, HELD FOR LINK 1 (R212). -/
def lampReply (z : ZoneId) (s : State) : Field := f1 (if s.lines.tab[z].link = .up then 0 else 1)

/-- R179. -/
def lampBody (port : PortId) (zone state : Nat) (s : State) : State × Answer :=
  match idx1 16 zone, lampOf state with
  | some z, some st =>
    if !hasRight port .station s then only s (refuse .notPermitted)
    else (commandLamp z st (.port port) s, { outcome := .accepted, fields := [lampReply z s] })
  | _, _ => only s (refuse .badArgument)

def execLamp (port : PortId) (tag zone state : Nat) (s : State) : Out :=
  serve port tag 46 (.lamp port tag zone state) (lampBody port zone state) s

/-- R180. -/
def zoneCapBody (port : PortId) (zone code : Nat) (s : State) : State × Answer :=
  match idx1 16 zone with
  | none => only s (refuse .badArgument)
  | some z =>
    if !hasRight port .station s then only s (refuse .notPermitted)
    else (commandCap z (clampCode code) s, acceptOr (codeReplaced code))

def execZoneCap (port : PortId) (tag zone code : Nat) (s : State) : Out :=
  serve port tag 47 (.zoneCap port tag zone code) (zoneCapBody port zone code) s

/-- A command as LINE READ carries it: LAMP 1 or CAP 2 as in the control slot, then its contents
(notes/assumptions/13.md). -/
def cmdFields : LineCmd → List Field
  | .lamp st o => [f1 1, f1 (lampCode st)] ++ lampOrigin o
  | .cap c => [f1 2, f1 c]

/-- R183: the fields of LINE READ, the sequence numbers, runs and age in one character each
(notes/assumptions/14.md). -/
def lineFields (r : Line) : List Field :=
  [f1 r.power.code, f1 (presenceCode r.present), f1 r.link.code, f1 r.good, f1 r.bad] ++ r.queue.flatMap cmdFields
    ++ (match r.out with
      | some o => cmdFields o.cmd ++ [f1 o.seq, f1 o.age]
      | none => []) ++ [f1 r.nextSeq, fb r.button]

def lineReadBody (port : PortId) (line : Nat) (s : State) : State × Answer :=
  match idx1 16 line with
  | none => only s (refuse .badArgument)
  | some l =>
    if !pageReadRight port s then only s (refuse .notPermitted)
    else only s { outcome := .accepted, fields := lineFields s.lines.tab[l] }

def execLineRead (port : PortId) (tag line : Nat) (s : State) : Out :=
  serve port tag 48 (.lineRead port tag line) (lineReadBody port line) s

/-! ### ALARM RESET (R191) -/

def alarmResetBody (port : PortId) (s : State) : State × Answer :=
  if !hasRight port .system s then only s (refuse .notPermitted)
  else match s.alarm.state with
    | .alarm => only s (refuse .active)
    | .alarmHeld => (handAlarm .return (alarmMove .normal none .reset [fport port] s), accept)
    | .normal | .qualifying => only s accept

def execAlarmReset (port : PortId) (tag : Nat) (s : State) : Out :=
  serve port tag 49 (.alarmReset port tag) (alarmResetBody port) s

end Sys2Proof.Machine
end

