-- ==== Sys2Proof/Machine/Events.lean ====
section
/-! DEFINITION. The events of the part: reset, the word clock, the alarm contact, the card, the cue engine's clocks and
actions, paging, the lines, the ports, and the hand-offs of the alarm. An event that is not due changes nothing
(notes/assumptions/2.md). -/

namespace Sys2Proof.Machine

/-- The answer of an event: its effect where it is due, else no change. -/
def whenDue (due : Bool) (s t : State) : Out := .next (if due then t else s)

/-! ### Reset and the word clock -/

/-- R24, R49, R78, R93, R121, R137, R165, R185, R193, R211: every block in its reset state, with the inputs that stand
when RESET is released: a card showing is taken as inserted at once, a port with PRDY active enters UP at once. The
commands waiting outside the part stay. -/
def resetWith (pins : ResetPins) (s : State) : State :=
  let s1 : State := { State.reset with
    pending := s.pending
    ports := Vector.ofFn fun p =>
      let r : PortRecord := { State.Reset.port p with cts := pins.cts[p] }
      if pins.prdy[p] then portUp r else r }
  if pins.card then finish (startMount (modCard (fun c => { c with showing := true }) s1)) else s1

def execPowerOnReset (pins : ResetPins) (s : State) : Out := .next (resetWith pins s)

/-- R6: a sample period; the next one waits until a frame event raised has been taken (notes/assumptions/6.md). -/
def execSampleComputation (s : State) : Out := whenDue (!s.mix.frameDue) s (samplePeriod s)

/-- R11. -/
def execFrameEvent (s : State) : Out := whenDue s.mix.frameDue s (frame s)

/-- R13. -/
def execLinkFrame (link : LinkId) (words : Option (Vector Word24 16)) (s : State) : Out :=
  .next (linkFrame link words s)

/-! ### The alarm input (R186, R187) -/

/-- The contact reading. -/
def takeReading (b : Bool) (s : State) : State := { s with alarm := { s.alarm with last := some b } }

/-- R187: an assertion. -/
def asserted (s : State) : State := match s.alarm.state with
  | .normal => alarmMove .qualifying (some (afterMs 200)) .asserted [] s
  | .alarmHeld => enterAlarm .reAsserted s
  | .qualifying | .alarm => s

/-- R187: a release. -/
def released (s : State) : State := match s.alarm.state with
  | .qualifying => alarmMove .normal none .released [] s
  | .alarm => alarmMove .alarmHeld none .released [] s
  | .normal | .alarmHeld => s

def execContactAssertion (s : State) : Out :=
  whenDue (s.alarm.last != some true) s (asserted (takeReading true s))

/-- A first reading of RELEASED is no release (R186). -/
def execContactRelease (s : State) : Out :=
  .next (if s.alarm.last = some true then released (takeReading false s) else takeReading false s)

/-- R187, R188: the qualification timer expires. -/
def execQualificationExpiry (s : State) : Out :=
  whenDue (s.alarm.state == .qualifying && s.alarm.timer == some 0) s
    (enterAlarm .qualified s)

/-! ### The card (R50-R63, R92) -/

/-- R50: the contact shows a card. -/
def execCardDetect (s : State) : Out :=
  whenDue (s.card.state == .absent && !s.card.showing) s
    (modCard (fun c => { c with showing := true, insertTimer := some (afterMs 250) }) s)

/-- R50: the contact shows no card before the insertion timer has expired. -/
def execCardLeavingContact (s : State) : Out :=
  whenDue (s.card.state == .absent && s.card.showing) s
    (modCard (fun c => { c with showing := false, insertTimer := none }) s)

def execInsertionTimerExpiry (s : State) : Out :=
  whenDue (s.card.state == .absent && s.card.insertTimer == some 0) s (finish (startMount s))

/-- R54. -/
def execCardRemoval (s : State) : Out := whenDue (s.card.state != .absent) s (finish (removeCard s))

/-- The read in flight ends, when it has that number: a later answer of an aborted read is discarded (R63). -/
def readEnds (n : Nat) (got : CardPage ⊕ Bool) (s : State) : Out := match readNumbered n s with
  | some r => .next (finish (readDone r got s))
  | none => .next s

def execCardReadComplete (n : Nat) (page : CardPage) (s : State) : Out := readEnds n (.inl page) s

def execCardReadError (n : Nat) (s : State) : Out := readEnds n (.inr false) s

/-- R63: 50 ms after the reader took the read. -/
def execCardReadTimeout (s : State) : Out := match s.card.reader with
  | some r => whenDue (decide (afterMs 50 ≤ r.age)) s (finish (readDone r (.inr true) s))
  | none => .next s

/-- R92, R52, R58. -/
def execShowAreaOffer (s : State) : Out := match s.card.job with
  | some j => match j.offer with
    | some a => .next (finish (takeOffer j a s))
    | none => .next s
  | none => .next s

/-! ### The cue engine's clocks (R106-R112, R99) -/

def execPrewaitEnd (cue : Nat) (s : State) : Out := match cueOf cue s with
  | some c => whenDue (prewaitDue cue s) s (finish (activate fire c s))
  | none => .next s

def execActionDue (cue : Nat) (s : State) : Out := match cueOf cue s with
  | some c => whenDue (actionDue cue s) s (finish (issueMany fire c 1 s))
  | none => .next s

def execContinueDue (cue : Nat) (s : State) : Out :=
  whenDue (continueDue cue s) s (finish (takeContinue fire cue s))

/-- R99. -/
def execGuardExpiry (s : State) : Out :=
  whenDue (s.cues.guard == some 0) s (modCues (fun c => { c with guard := none }) s)

/-! ### Cue actions as their blocks take them (R108). Each is the next action of an entry in ACTIVE. -/

def execPlayAction (cue pos clip tag code fadeIn : Nat) (loop : Bool) (s : State) : Out :=
  .next (finish (issueGiven cue pos (.play clip tag code fadeIn loop) s))

def execStopAction (cue pos tag time : Nat) (s : State) : Out := .next (finish (issueGiven cue pos (.stop tag time) s))

def execReleaseAction (cue pos tag : Nat) (s : State) : Out := .next (finish (issueGiven cue pos (.release tag) s))

def execLevelAction (cue pos : Nat) (target : CueTarget) (code time : Nat) (s : State) : Out :=
  .next (finish (issueGiven cue pos (.level target code time) s))

def execRecallAction (cue pos : Nat) (m : MixId) (snapshot : Fin 128) (time : Nat) (s : State) : Out :=
  .next (finish (issueGiven cue pos (.recall m snapshot time) s))

def execMuteAction (cue pos : Nat) (m : MixId) (on : Bool) (s : State) : Out :=
  .next (finish (issueGiven cue pos (.mute m on) s))

def execPageAction (cue pos : Nat) (zones : Vector Bool 16) (clip priority : Nat) (chime all restartable : Bool)
    (s : State) : Out :=
  .next (finish (issueGiven cue pos (.page zones clip priority chime all restartable) s))

def execLampAction (cue pos : Nat) (z : ZoneId) (st : Lamp) (s : State) : Out :=
  .next (finish (issueGiven cue pos (.lamp z st) s))

/-! ### Paging (R75, R76, R144, R145, R152, R154) -/

/-- The voices' hand-offs with the one at the head taken. -/
def dropAsk (s : State) : State := modVoices (fun u => { u with pagingIn := u.pagingIn.tail }) s

/-- R76. -/
def execPagingPlay (s : State) : Out := match s.voices.pagingIn.head? with
  | some (.play token clip) => .next (finish (pagingEvent (takePlay token clip) (dropAsk s)))
  | _ => .next s

/-- R75: V16 stopped at once, PAGING. A stop of the unit's own play passes over a cue or port voice, and a stop that
frees V16 passes over the paging voice (notes/assumptions/18.md). -/
def stopV16 (own : Bool) (s : State) : State :=
  if (s.voices.tab[pagingVoice].origin == some .paging) == own then endVoice pagingVoice .paging s else s

def execPagingStop (s : State) : Out := match s.voices.pagingIn.head? with
  | some .stopOwn => .next (finish (stopV16 true (dropAsk s)))
  | some .freeV16 => .next (finish (stopV16 false (dropAsk s)))
  | _ => .next s

/-- R154. -/
def execPagingVoiceReport (s : State) : Out := match s.paging.voiceIn with
  | r :: rs => .next (finish (pagingEvent (takeReport r) (modPaging (fun u => { u with voiceIn := rs }) s)))
  | [] => .next s

/-- R144. -/
def execGapExpiry (z : ZoneId) (s : State) : Out :=
  whenDue (s.paging.zones[z].service == .gap && s.paging.zones[z].gapTimer == some 0) s
    (finish (pagingEvent (gapExpired z) s))

/-- A page in a state whose phase timer has expired. -/
def phaseDue (id : Nat) (st : PageState) (s : State) : Bool := match pageOf id s with
  | some p => p.state == st && p.timer == some 0
  | none => false

/-- R152: the chime timer expires. -/
def execChimeExpiry (id : Nat) (s : State) : Out :=
  whenDue (phaseDue id .chiming s) s (finish (pagingEvent (fun s => enterSpeaking s id) s))

/-- R152: the live maximum expires. -/
def execLiveMaxExpiry (id : Nat) (s : State) : Out :=
  whenDue (phaseDue id .speaking s) s (finish (pagingEvent (fun s => endPage .timeLimit s id) s))

/-- The first hand-off of a zone's link. -/
def linkHandOff (z : ZoneId) (s : State) : Option (ZoneId × Bool) := s.paging.linkIn.find? fun x => x.1 == z

def dropLink (x : ZoneId × Bool) (s : State) : State := modPaging (fun u => { u with linkIn := u.linkIn.erase x }) s

/-- R145. -/
def execZoneLinkLeft (z : ZoneId) (s : State) : Out :=
  whenDue (linkHandOff z s == some (z, false)) s (finish (pagingEvent (linkLeft z) (dropLink (z, false) s)))

/-- R145. -/
def execZoneLinkEntered (z : ZoneId) (s : State) : Out :=
  whenDue (linkHandOff z s == some (z, true)) s (finish (pagingEvent (linkEntered z) (dropLink (z, true) s)))

/-! ### Lines (R166, R168, R170) -/

/-- R169, R170: the lines in ascending number (notes/assumptions/54.md). -/
def execLineFrameEvent (up : Vector (List UpFrame) 16) (s : State) : Out :=
  whenDue (decide (0 < s.lines.due)) s
    ((List.finRange 16).foldl (lineFrame up) (modLines (fun u => { u with due := u.due - 1 }) s))

/-- R166. -/
def execLineOverload (l : ZoneId) (s : State) : Out :=
  whenDue (s.lines.tab[l].power == .on) s (powerDown l .fault .overload s)

/-- R168. -/
def execPresenceReport (l : ZoneId) (present : Bool) (s : State) : Out := .next (presence l present s)

/-! ### Ports (R194-R201, R210) -/

def execPortUp (p : PortId) (s : State) : Out := whenDue (!s.ports[p].up) s (modPort p portUp s)

/-- R210. -/
def execPortDown (p : PortId) (s : State) : Out := whenDue s.ports[p].up s (handDown p (modPort p portDown s))

/-- A port-down that a block has been handed comes after the requests that the port handed over before it
(notes/assumptions/49.md). -/
def downDue (p : PortId) (inbox : List PortId) (s : State) : Bool := inbox.contains p && s.ports[p].taken.isEmpty

/-- R96, R92. -/
def execPortDownCueEngine (p : PortId) (s : State) : Out :=
  whenDue (downDue p s.cues.downIn s) s
    (cuesPortDown p (modCues (fun c => { c with downIn := c.downIn.erase p }) s))

/-- R159: the live pages of a port end. -/
def endLivePages (p : PortId) (s : State) : State :=
  let own (q : Page) : Bool := q.state != .ended && q.origin == .port p && !isClip q
  ((s.paging.pages.filter own).map (·.id)).foldl (endPage .portDown) s

def execPortDownPaging (p : PortId) (s : State) : Out :=
  whenDue (downDue p s.paging.downIn s) s
    (pagingEvent (endLivePages p) (modPaging (fun u => { u with downIn := u.downIn.erase p }) s))

/-- R130. -/
def execPortDownMix (p : PortId) (s : State) : Out :=
  whenDue (downDue p s.mix.downIn s) s (endTalk p (modMix (fun e => { e with downIn := e.downIn.erase p }) s))

/-- R196. -/
def execCharacterReceived (p : PortId) (rx : RxBits) (s : State) : Out := .next (modPort p (receive rx) s)

/-- R198. -/
def execAssemblerEntry (p : PortId) (s : State) : Out := .next (modPort p assemble s)

/-- R200. -/
def execRequestTaken (p : PortId) (s : State) : Out := .next (modPort p (takeRequest p) s)

/-- R201. -/
def execTransmitStart (p : PortId) (s : State) : Out := .next (modPort p transmitStart s)

/-- R201, R199. -/
def execTransmitEnd (p : PortId) (s : State) : Out := .next (modPort p transmitEnd s)

/-- R201. -/
def execCtsChange (p : PortId) (active : Bool) (begun : Nat) (s : State) : Out :=
  .next (modPort p (ctsChange active begun) s)

/-! ### The alarm taken by each block (R188, R189, R191) -/

/-- R118. -/
def execAlarmEntryCueEngine (s : State) : Out := match takeAlarm .entry s.cues.alarm with
  | some v => .next (finish (emptyRunning .alarm (modCues (fun c => { c with alarm := v }) s)))
  | none => .next s

/-- R39. -/
def execAlarmEntryFadeUnit (s : State) : Out := match takeAlarm .entry s.fades.alarm with
  | some v => .next (finish (fadesEntry (modFades (fun f => { f with alarm := v }) s)))
  | none => .next s

/-- R75. -/
def execAlarmEntryVoices (s : State) : Out := match takeAlarm .entry s.voices.alarm with
  | some v => .next (finish (voicesEntry (modVoices (fun u => { u with alarm := v }) s)))
  | none => .next s

/-- R23. -/
def execAlarmEntryMixEngine (s : State) : Out := match takeAlarm .entry s.mix.alarm with
  | some v => .next (mixEntry (modMix (fun e => { e with alarm := v }) s))
  | none => .next s

/-- R160. -/
def execAlarmEntryPaging (s : State) : Out := match takeAlarm .entry s.paging.alarm with
  | some v => .next (finish (pagingEntry (modPaging (fun u => { u with alarm := v }) s)))
  | none => .next s

/-- R161. -/
def execAlarmReturnPaging (s : State) : Out := match takeAlarm .return s.paging.alarm with
  | some v => .next (pagingReturn (modPaging (fun u => { u with alarm := v }) s))
  | none => .next s

/-- The alarm state a block holds. -/
def alarmOf (b : AlarmBlock) (s : State) : AlarmView := match b with
  | .cueEngine => s.cues.alarm
  | .fadeUnit => s.fades.alarm
  | .voices => s.voices.alarm
  | .mixEngine => s.mix.alarm

def setAlarmOf (b : AlarmBlock) (v : AlarmView) (s : State) : State := match b with
  | .cueEngine => modCues (fun c => { c with alarm := v }) s
  | .fadeUnit => modFades (fun f => { f with alarm := v }) s
  | .voices => modVoices (fun u => { u with alarm := v }) s
  | .mixEngine => modMix (fun e => { e with alarm := v }) s

/-- R191: the block changes nothing but the alarm state it holds. -/
def execAlarmReturn (b : AlarmBlock) (s : State) : Out := match takeAlarm .return (alarmOf b s) with
  | some v => .next (setAlarmOf b v s)
  | none => .next s

end Sys2Proof.Machine
end

