-- ==== Sys2Proof/Machine/Dispatch.lean ====
section
/-! DEFINITION. One arm for each command: a direct call of its meaning. -/

namespace Sys2Proof.Machine

def exec (i : Instr) (s : State) : Host.Outcome State Fault Refusal :=
  match i with
  | .powerOnReset pins => Sys2Proof.Machine.execPowerOnReset pins s
  | .sampleComputation => Sys2Proof.Machine.execSampleComputation s
  | .contactAssertion => Sys2Proof.Machine.execContactAssertion s
  | .contactRelease => Sys2Proof.Machine.execContactRelease s
  | .qualificationExpiry => Sys2Proof.Machine.execQualificationExpiry s
  | .frameEvent => Sys2Proof.Machine.execFrameEvent s
  | .linkFrame link frame => Sys2Proof.Machine.execLinkFrame link frame s
  | .cardDetect => Sys2Proof.Machine.execCardDetect s
  | .insertionTimerExpiry => Sys2Proof.Machine.execInsertionTimerExpiry s
  | .cardRemoval => Sys2Proof.Machine.execCardRemoval s
  | .cardReadComplete read page => Sys2Proof.Machine.execCardReadComplete read page s
  | .cardReadError read => Sys2Proof.Machine.execCardReadError read s
  | .cardReadTimeout => Sys2Proof.Machine.execCardReadTimeout s
  | .showAreaOffer => Sys2Proof.Machine.execShowAreaOffer s
  | .prewaitEnd cue => Sys2Proof.Machine.execPrewaitEnd cue s
  | .actionDue cue => Sys2Proof.Machine.execActionDue cue s
  | .continueDue cue => Sys2Proof.Machine.execContinueDue cue s
  | .guardExpiry => Sys2Proof.Machine.execGuardExpiry s
  | .playAction cue pos clip tag code fadeIn loop => Sys2Proof.Machine.execPlayAction cue pos clip tag code fadeIn loop s
  | .stopAction cue pos tag time => Sys2Proof.Machine.execStopAction cue pos tag time s
  | .releaseAction cue pos tag => Sys2Proof.Machine.execReleaseAction cue pos tag s
  | .levelAction cue pos target code time => Sys2Proof.Machine.execLevelAction cue pos target code time s
  | .recallAction cue pos mix snapshot time => Sys2Proof.Machine.execRecallAction cue pos mix snapshot time s
  | .muteAction cue pos mix on => Sys2Proof.Machine.execMuteAction cue pos mix on s
  | .pageAction cue pos zones clip priority chime all restartable => Sys2Proof.Machine.execPageAction cue pos zones clip priority chime all restartable s
  | .lampAction cue pos zone lamp => Sys2Proof.Machine.execLampAction cue pos zone lamp s
  | .pagingPlay => Sys2Proof.Machine.execPagingPlay s
  | .pagingStop => Sys2Proof.Machine.execPagingStop s
  | .pagingVoiceReport => Sys2Proof.Machine.execPagingVoiceReport s
  | .gapExpiry zone => Sys2Proof.Machine.execGapExpiry zone s
  | .chimeExpiry page => Sys2Proof.Machine.execChimeExpiry page s
  | .liveMaxExpiry page => Sys2Proof.Machine.execLiveMaxExpiry page s
  | .zoneLinkLeft zone => Sys2Proof.Machine.execZoneLinkLeft zone s
  | .zoneLinkEntered zone => Sys2Proof.Machine.execZoneLinkEntered zone s
  | .lineFrameEvent up => Sys2Proof.Machine.execLineFrameEvent up s
  | .lineOverload line => Sys2Proof.Machine.execLineOverload line s
  | .presenceReport line present => Sys2Proof.Machine.execPresenceReport line present s
  | .portUp port => Sys2Proof.Machine.execPortUp port s
  | .portDown port => Sys2Proof.Machine.execPortDown port s
  | .portDownCueEngine port => Sys2Proof.Machine.execPortDownCueEngine port s
  | .portDownPaging port => Sys2Proof.Machine.execPortDownPaging port s
  | .portDownMix port => Sys2Proof.Machine.execPortDownMix port s
  | .characterReceived port rx => Sys2Proof.Machine.execCharacterReceived port rx s
  | .assemblerEntry port => Sys2Proof.Machine.execAssemblerEntry port s
  | .requestTaken port => Sys2Proof.Machine.execRequestTaken port s
  | .transmitStart port => Sys2Proof.Machine.execTransmitStart port s
  | .transmitEnd port => Sys2Proof.Machine.execTransmitEnd port s
  | .ctsChange port active begun => Sys2Proof.Machine.execCtsChange port active begun s
  | .alarmEntryCueEngine => Sys2Proof.Machine.execAlarmEntryCueEngine s
  | .alarmEntryFadeUnit => Sys2Proof.Machine.execAlarmEntryFadeUnit s
  | .alarmEntryVoices => Sys2Proof.Machine.execAlarmEntryVoices s
  | .alarmEntryMixEngine => Sys2Proof.Machine.execAlarmEntryMixEngine s
  | .alarmEntryPaging => Sys2Proof.Machine.execAlarmEntryPaging s
  | .alarmReturnPaging => Sys2Proof.Machine.execAlarmReturnPaging s
  | .alarmReturn block => Sys2Proof.Machine.execAlarmReturn block s
  | .status port tag sect first => Sys2Proof.Machine.execStatus port tag sect first s
  | .subscribe port tag classes => Sys2Proof.Machine.execSubscribe port tag classes s
  | .clearErrors port tag => Sys2Proof.Machine.execClearErrors port tag s
  | .setRights port tag named rights => Sys2Proof.Machine.execSetRights port tag named rights s
  | .config port tag pairs => Sys2Proof.Machine.execConfig port tag pairs s
  | .settingRead port tag first count => Sys2Proof.Machine.execSettingRead port tag first count s
  | .setLevel port tag target code time => Sys2Proof.Machine.execSetLevel port tag target code time s
  | .readLevel port tag target => Sys2Proof.Machine.execReadLevel port tag target s
  | .mute port tag mix setting => Sys2Proof.Machine.execMute port tag mix setting s
  | .store port tag snapshot mix => Sys2Proof.Machine.execStore port tag snapshot mix s
  | .clear port tag snapshot => Sys2Proof.Machine.execClear port tag snapshot s
  | .snapshotRead port tag snapshot first count => Sys2Proof.Machine.execSnapshotRead port tag snapshot first count s
  | .recall port tag mix snapshot time => Sys2Proof.Machine.execRecall port tag mix snapshot time s
  | .setSafe port tag mix source setting => Sys2Proof.Machine.execSetSafe port tag mix source setting s
  | .readSafe port tag mix => Sys2Proof.Machine.execReadSafe port tag mix s
  | .reloadShow port tag => Sys2Proof.Machine.execReloadShow port tag s
  | .clipRead port tag clip => Sys2Proof.Machine.execClipRead port tag clip s
  | .play port tag clip vtag code fadeIn loop => Sys2Proof.Machine.execPlay port tag clip vtag code fadeIn loop s
  | .stop port tag vtag time => Sys2Proof.Machine.execStop port tag vtag time s
  | .release port tag vtag => Sys2Proof.Machine.execRelease port tag vtag s
  | .voiceRead port tag voice => Sys2Proof.Machine.execVoiceRead port tag voice s
  | .cueOpen port tag number prewait mode delay label copy => Sys2Proof.Machine.execCueOpen port tag number prewait mode delay label copy s
  | .cueAdd port tag offset action => Sys2Proof.Machine.execCueAdd port tag offset action s
  | .cueDrop port tag position => Sys2Proof.Machine.execCueDrop port tag position s
  | .cuePut port tag => Sys2Proof.Machine.execCuePut port tag s
  | .cueDelete port tag number => Sys2Proof.Machine.execCueDelete port tag number s
  | .cueRead port tag selector number item => Sys2Proof.Machine.execCueRead port tag selector number item s
  | .takeGo port tag force => Sys2Proof.Machine.execTakeGo port tag force s
  | .releaseGo port tag => Sys2Proof.Machine.execReleaseGo port tag s
  | .standby port tag number => Sys2Proof.Machine.execStandby port tag number s
  | .back port tag => Sys2Proof.Machine.execBack port tag s
  | .go port tag => Sys2Proof.Machine.execGo port tag s
  | .stopAll port tag => Sys2Proof.Machine.execStopAll port tag s
  | .showReset port tag => Sys2Proof.Machine.execShowReset port tag s
  | .talkOn port tag mixes => Sys2Proof.Machine.execTalkOn port tag mixes s
  | .talkOff port tag => Sys2Proof.Machine.execTalkOff port tag s
  | .talkLevel port tag code => Sys2Proof.Machine.execTalkLevel port tag code s
  | .zoneSet port tag zone feed change code => Sys2Proof.Machine.execZoneSet port tag zone feed change code s
  | .page port tag zones source clip priority chime policy restartable => Sys2Proof.Machine.execPage port tag zones source clip priority chime policy restartable s
  | .pageEnd port tag page => Sys2Proof.Machine.execPageEnd port tag page s
  | .pageCancel port tag page => Sys2Proof.Machine.execPageCancel port tag page s
  | .pageRead port tag page => Sys2Proof.Machine.execPageRead port tag page s
  | .pageList port tag => Sys2Proof.Machine.execPageList port tag s
  | .zoneRead port tag zone => Sys2Proof.Machine.execZoneRead port tag zone s
  | .linePower port tag line setting => Sys2Proof.Machine.execLinePower port tag line setting s
  | .lamp port tag zone state => Sys2Proof.Machine.execLamp port tag zone state s
  | .zoneCap port tag zone code => Sys2Proof.Machine.execZoneCap port tag zone code s
  | .lineRead port tag line => Sys2Proof.Machine.execLineRead port tag line s
  | .alarmReset port tag => Sys2Proof.Machine.execAlarmReset port tag s
  | .cardLeavingContact => Sys2Proof.Machine.execCardLeavingContact s

end Sys2Proof.Machine
end

