-- ==== Sys2Proof/Safety.lean ====
section
/-! DEFINITION. What stays true of a run, in the terms the statements use: the limits that the spec puts on the lists,
queues and pools of the part, and the laws that its blocks keep between them. And what notices carry, written from the
spec's own lists of fields. -/

namespace Sys2Proof.Machine

/-- Whether a step answers a next state, for statements of the form: after any step. -/
def StepsTo (s t : State) : Prop := step s = .next t

/-- R25: the fade table holds at most 64 records. -/
def FadeLimit (s : State) : Prop := s.fades.table.length ≤ fadeRoom

/-- R25: each level target is driven by at most one record. -/
def DrivenOnce (s : State) : Prop := ∀ t : Target, (s.fades.table.filter (drives t)).length ≤ 1

/-- R73, R74: a voice stop's record is on the level of the voice it stops, which is STOPPING; no record is on the level
of a voice that is IDLE or DRAINING. -/
def VoiceFadeLaw (s : State) : Prop :=
  (∀ r ∈ s.fades.table, ∀ v, r.origin = .voiceStop v →
    drives (.voice v) r = true ∧ isSingle r = true ∧ s.voices.tab[v].state = .stopping)
  ∧ ∀ v : VoiceId, s.voices.tab[v].state = .idle ∨ s.voices.tab[v].state = .draining → driven (.voice v) s = false

/-- R30, R141: a record on a zone's duck level is the paging unit's. -/
def DuckLaw (s : State) : Prop :=
  ∀ r ∈ s.fades.table, ∀ z : ZoneId, drives (.zoneDuck z) r = true → ∃ y, r.origin = .paging y

/-- R111: no entry in SETTLING waits for nothing. -/
def NoneSettled (s : State) : Prop := ∀ e ∈ s.cues.running, e.state = .settling → settled e = false

/-- R1: the level code an action carries, if any, is at most 240. -/
def ActionCodes : Action → Prop
  | .play _ _ code _ _ => code ≤ maxCode
  | .level _ code _ => code ≤ maxCode
  | _ => True

/-- R1: the level codes of a cue. -/
def CueCodes (c : Cue) : Prop := ∀ a ∈ c.actions, ActionCodes a.act

/-- R2: the levels a fade record starts from and goes to. -/
def FadeLevels (r : FadeRecord) : Prop := match r.body with
  | .single _ a b => a ≤ maxFine ∧ b ≤ maxFine
  | .mix _ _ a b _ => ∀ i : Fin 97, a[i] ≤ maxFine ∧ b[i] ≤ maxFine

/-- R2: the levels of snapshots. -/
def SnapLevels (v : Vector (Option Snapshot) 128) : Prop :=
  ∀ (n : Fin 128) (sn : Snapshot), v[n] = some sn → ∀ i : Fin 97, sn.levels[i] ≤ maxFine

/-- R1: the level cap a line command carries, if any. -/
def CapCode : LineCmd → Prop
  | .cap code => code ≤ maxCode
  | .lamp .. => True

/-- R1, R2, R126: wherever the part holds a level, a fine level is at most 3840 and a level code at most 240; a backoff is
at most 192. -/
def LevelLaw (s : State) : Prop :=
  (∀ t : Target, levelOf t s ≤ maxFine)
  ∧ (∀ f : FoldbackId, s.mix.backoff[f] ≤ 192 ∧ s.mix.duck[f] ≤ maxFine)
  ∧ (∀ r ∈ s.fades.table, FadeLevels r) ∧ SnapLevels s.fades.snaps
  ∧ (∀ c ∈ s.cues.list, CueCodes c) ∧ (∀ (p : PortId) (d : Draft), s.cues.drafts[p] = some d → CueCodes d.cue)
  ∧ (∀ (j : LoadJob) (a : ShowArea), s.card.job = some j → j.offer = some a →
      SnapLevels a.snaps ∧ ∀ c ∈ a.cues, CueCodes c)
  ∧ (∀ z : ZoneId, s.paging.zones[z].pageLevel ≤ maxCode ∧ s.paging.zones[z].cap ≤ maxCode)
  ∧ s.paging.duckDepth ≤ maxCode ∧ s.mix.talkDepth ≤ maxCode ∧ (∀ p : PortId, s.ports[p].talkLevel ≤ maxCode)
  ∧ ∀ l : ZoneId, (∀ c ∈ s.lines.tab[l].queue, CapCode c) ∧ ∀ o : Outstanding, s.lines.tab[l].out = some o → CapCode o.cmd

/-- R83: the priority a PAGE action carries is at most 3. -/
def ActionPriority : Action → Prop
  | .page _ _ prio _ _ _ => prio ≤ 3
  | _ => True

/-- R83: the priorities of a cue's PAGE actions. -/
def CuePriorities (c : Cue) : Prop := ∀ a ∈ c.actions, ActionPriority a.act

/-- R146, R156, R160, R83, R55: every listed page, and every PAGE action that could make one, has a priority of at most 3. -/
def PagePriorityLaw (s : State) : Prop :=
  (∀ q ∈ s.paging.pages, q.prio ≤ 3)
  ∧ (∀ c ∈ s.cues.list, CuePriorities c)
  ∧ (∀ (p : PortId) (d : Draft), s.cues.drafts[p] = some d → CuePriorities d.cue)
  ∧ ∀ (j : LoadJob) (a : ShowArea), s.card.job = some j → j.offer = some a → ∀ c ∈ a.cues, CuePriorities c

/-- R79: the cue numbers ascend and the standing cue is in the list; a show area on offer has ascending numbers (R55). -/
def CueListLaw (s : State) : Prop :=
  ascending s.cues.list = true ∧ (∀ n, s.cues.standing = some n → (cueOf n s).isSome)
  ∧ ∀ (j : LoadJob) (a : ShowArea), s.card.job = some j → j.offer = some a → ascending a.cues = true

/-- R105: the running list holds at most 16 entries. -/
def RunLimit (s : State) : Prop := s.cues.running.length ≤ runRoom

/-- R146: the page list holds at most 16 records. -/
def PageLimit (s : State) : Prop := s.paging.pages.length ≤ pageRoom

/-- The pages in the rings of all voices. -/
def ringPages (s : State) : Nat := ((List.finRange 16).map fun v => s.voices.tab[v].ring.length).sum

/-- R61: the free pages and the quotas total 48, and an IDLE voice holds none. -/
def PoolLaw (s : State) : Prop :=
  s.voices.free + ringPages s = 48 ∧ ∀ v : VoiceId, s.voices.tab[v].state = .idle → s.voices.tab[v].ring = []

/-- The requests of a port that have been answered. -/
def answeredCount (r : PortRecord) : Nat := (r.reqs.filter fun q => q.state == .answered).length

/-- The replies of a port that wait or are being sent. -/
def replyCount (r : PortRecord) : Nat := r.replies.length + (match r.tx with
  | some t => t.reply.toNat
  | none => 0)

/-- R197, R199, R202: the limits of a port's queues. -/
def PortLimits (r : PortRecord) : Prop :=
  r.fifo.length ≤ fifoRoom ∧ r.reqs.length ≤ requestRoom ∧ replyCount r ≤ answeredCount r ∧ r.notices.length ≤ 16

def PortsLimited (s : State) : Prop := ∀ p : PortId, PortLimits s.ports[p]

/-- R206: at least one control port holds SYSTEM rights. -/
def SystemHeld (s : State) : Prop := someSystem s = true

/-- R188: while the mix engine holds ALARM or ALARM HELD, every auditorium and foldback mix is muted. -/
def AlarmMutes (s : State) : Prop := s.mix.alarm.standing = true → ∀ m : MixId, m.val < 20 → s.mix.mute[m] = true

/-- R202: the ports once a notice has been sent to every one subscribed to its class. -/
def afterNotice (cls : NoticeClass) (kind : Nat) (fields : List Field) (ports : Vector PortRecord 3) :
    Vector PortRecord 3 :=
  vmapi (fun _ r => if r.subs[cls.idx] then enqueueNotice { cls := cls, kind := kind, fields := fields } r else r) ports

/-- 10.12: the origin of a voice, three characters; of one that has played nothing, zeros (notes/assumptions/10.md). -/
def statedVoiceOrigin : Option VoiceOrigin → List Field
  | none => [f1 0, f2 0]
  | some (.port p) => [f1 p.val, f2 0]
  | some (.entry n) => [f1 3, f2 n]
  | some .paging => [f1 8, f2 0]

/-- R74, R77: what VOICE ENDED carries, its reason by its code (10.12). -/
def statedVoiceEnd (v : VoiceId) (r : Voice) (reason : Nat) : List Field :=
  [f1 (v.val + 1), f2 r.clip, f1 r.startTag] ++ statedVoiceOrigin r.origin ++ [f1 reason]

/-- R162, 10.12: what PAGE STATE carries, the play state for CLIP pages and the outcome where the page has one. -/
def statedPage (q : Page) : List Field :=
  [f1 q.id] ++ (match q.origin with
    | .port p => [f1 p.val, f2 0]
    | .cue n => [f1 3, f2 n]
    | .alarm => [f1 5, f2 0])
  ++ [f1 q.prio] ++ (match q.source with
    | .live ch => [f1 0, f2 (ch.val + 1), f1 q.state.code]
    | .clip n => [f1 1, f2 n, f1 q.state.code, f1 q.play.code]
    | .none => [f1 2, f2 0, f1 q.state.code])
  ++ ((List.finRange 16).flatMap fun z => match q.wanted[z] with
    | some w => [f1 (z.val + 1), f1 w.code]
    | none => [])
  ++ match q.outcome with
    | some o => [f1 o.code]
    | none => []

/-- R62, R59: what the card reader, free in `s` with these entries in the fetch queue, has in flight in `t`. Of an entry and
a load page that both wait it takes the kind that did not go last; an entry asks for the clip's start page and the clip page
together. Nothing else of the card unit moves. -/
def ReaderTakes (queue : List FetchEntry) (s t : State) : Prop :=
  let load := s.card.job.bind fun j => j.todo.head?
  (queue = [] → load = none → t.card.reader = none ∧ t.card.queue = [] ∧ t.card.job = s.card.job)
  ∧ (∀ (e : FetchEntry) (rest : List FetchEntry), queue = e :: rest → load = none ∨ s.card.lastWasVoice = false →
      t.card.queue = rest ∧ t.card.job = s.card.job ∧ t.card.lastWasVoice = true
      ∧ t.card.reader = some {
          job := .voice e.voice e.slot e.page, page := s.voices.tab[e.voice].info.start + e.page
          number := s.card.readNumber + 1, age := 0 })
  ∧ (∀ (j : LoadJob) (l : LoadPage) (rest : List LoadPage), s.card.job = some j → j.todo = l :: rest →
      queue = [] ∨ s.card.lastWasVoice = true →
      t.card.queue = queue ∧ t.card.job = some { j with todo := rest } ∧ t.card.lastWasVoice = false
      ∧ t.card.reader = some {
          job := .load l, number := s.card.readNumber + 1, age := 0
          page := match l with
            | .header => 0
            | .directory n => n
            | .showArea n => n })
  ∧ t.card = { s.card with
      reader := t.card.reader, lastWasVoice := t.card.lastWasVoice, readNumber := t.card.readNumber
      queue := t.card.queue, job := t.card.job }

/-- A read that nothing wants, of slot `k` of voice `v`, which holds `x`: its voice is DRAINING (R74), or a release has marked
the slot stale (R70). -/
def Unwanted (v : VoiceId) (k : Nat) (x : Slot) (s : State) : Prop :=
  s.voices.tab[v].ring[k]? = some x ∧ (∀ e ∈ s.card.queue, e.voice = v → e.slot ≠ k)
  ∧ (s.voices.tab[v].state = .draining ∨ x.stale = true ∧ (s.voices.tab[v].state = .priming
      ∨ s.voices.tab[v].state = .playing ∨ s.voices.tab[v].state = .stopping))

/-- R62, R63, R70, R74: what the end of an unwanted read does, whether its page arrives or it fails. A DRAINING voice becomes
IDLE and its quota returns, and the paging unit is told of V16. A stale slot is EMPTY, its words dropped, and is asked for
again with the page kept for it, if any; its voice stands. Nothing is told to a port, and the reader goes on. -/
def UnwantedReadEnds (v : VoiceId) (k : Nat) (x : Slot) (s t : State) : Prop :=
  let r := s.voices.tab[v]
  let r' := t.voices.tab[v]
  (r.state = .draining →
    r' = { r with state := .idle, ring := [], nextFetch := none } ∧ t.voices.free = s.voices.free + r.ring.length
    ∧ t.paging.voiceIn = s.paging.voiceIn ++ (if v = 15 then [.idle] else []) ∧ ReaderTakes s.card.queue s t)
  ∧ (r.state ≠ .draining →
    r' = { r with ring := r'.ring } ∧ t.voices.free = s.voices.free ∧ t.paging = s.paging
    ∧ r'.ring.length = r.ring.length
    ∧ (∀ i, i ≠ k → (r'.ring[i]?).map (fun y => { y with state := .empty })
        = (r.ring[i]?).map fun y => { y with state := .empty })
    ∧ (x.again = none → ReaderTakes s.card.queue s t ∧ r'.ring[k]? = some {
        state := .empty, page := 0, wraps := 0, stale := false, again := none, words := [] })
    ∧ ∀ p, x.again = some p → ReaderTakes (s.card.queue ++ [{ voice := v, slot := k, page := p }]) s t
      ∧ r'.ring[k]? = some {
        state := if (t.card.reader.map (·.job)) = some (.voice v k p) then .inFlight else .requested
        page := p, wraps := 0, stale := false, again := none, words := [] })
  ∧ (∀ u : VoiceId, u ≠ v → t.voices.tab[u] = { s.voices.tab[u] with ring := t.voices.tab[u].ring })
  ∧ t = { s with
      card := t.card, voices := { s.voices with free := t.voices.free, tab := t.voices.tab }
      paging := { s.paging with voiceIn := t.paging.voiceIn } }

/-- R62: `t` is `s` but for the read that a free card reader takes next: the read, what it is taken from, and the state of
the slot it is for. With a read in flight nothing differs. -/
def OnlyReads (s t : State) : Prop :=
  (s.card.reader.isSome = true → t = s)
  ∧ t = { s with
      card := { s.card with
        reader := t.card.reader, lastWasVoice := t.card.lastWasVoice, readNumber := t.card.readNumber
        queue := t.card.queue, job := t.card.job }
      voices := { s.voices with tab := t.voices.tab } }
  ∧ ∀ v : VoiceId, t.voices.tab[v] = { s.voices.tab[v] with ring := t.voices.tab[v].ring }

end Sys2Proof.Machine
end

