-- ==== Sys2Proof/Certificates/Slice0/Obligations.lean ====
section
/-! DEFINITION. The statements for the provers. Each speaks of `exec` or `step` as the host runs it; a request stands
handed to its owner when `handed` says so, and `answer` is the reply's joining of the reply queue (R200). -/

open Sys2Proof Sys2Proof.Machine

/-! ### The queue and reset -/

/-- A step carries out the command at the front of the queue on the state with the rest of the queue; with no command
waiting the part idles (the model's choice, notes/assumptions/5.md). -/
def Obligations.StepRunsFrontCommand : Prop :=
  (∀ (c : Instr) (cs : List Instr) (s : State), step { s with pending := c :: cs } = exec c { s with pending := cs })
  ∧ ∀ s : State, s.pending = [] → step s = .next s

/-- The values that R24, R49, R78, R93, R121, R137, R165, R185, R193 and R211 give for power-on reset, with the rights of
10.8. -/
def Obligations.ResetValues : Prop :=
  let s := State.reset
  ((∀ (m : MixId) (x : SourceId), s.mix.xpt[m][x] = 0 ∧ s.fades.safe[m][x] = false)
    ∧ (∀ m : MixId, s.mix.master[m] = 3456 ∧ s.mix.mute[m] = true ∧ s.mix.clip[m] = false)
    ∧ (∀ f : FoldbackId, s.mix.backoff[f] = 0 ∧ s.mix.duck[f] = 0 ∧ s.mix.ceiling[f] = 4194304
        ∧ s.mix.clampMark[f] = false)
    ∧ s.mix.talkDepth = 12 ∧ s.mix.sampleCount = 0 ∧ (∀ p : PortId, s.mix.talk[p] = none)
    ∧ (∀ k : LinkId, s.mix.links[k].locked = false ∧ s.mix.links[k].run = 0))
  ∧ (s.fades.table = [] ∧ ∀ n : Fin 128, s.fades.snaps[n] = none)
  ∧ (s.card.state = .absent ∧ s.card.showLoaded = false ∧ s.card.insertTimer = none ∧ s.card.dir = []
    ∧ s.card.reader = none ∧ s.card.lastWasVoice = true ∧ s.card.queue = [] ∧ s.card.job = none)
  ∧ (s.voices.free = 48 ∧ ∀ v : VoiceId, s.voices.tab[v].state = .idle ∧ s.voices.tab[v].tag = none
    ∧ s.voices.tab[v].looping = false ∧ s.voices.tab[v].level = 3456 ∧ s.voices.tab[v].ring = [])
  ∧ (s.cues.list = [] ∧ s.cues.standing = none ∧ s.cues.running = [] ∧ s.cues.holder = none ∧ s.cues.guard = none
    ∧ s.cues.goGuard = 300 ∧ s.cues.panicFade = 2000 ∧ ∀ p : PortId, s.cues.drafts[p] = none)
  ∧ (s.paging.pages = [] ∧ s.paging.lastId = 0 ∧ s.paging.holder = none ∧ s.paging.reserve = true
    ∧ s.paging.duckDepth = 168 ∧ s.paging.duckAttack = 100 ∧ s.paging.duckRelease = 500 ∧ s.paging.gap = 500
    ∧ s.paging.liveMax = 60000 ∧ s.paging.evac = 0
    ∧ ∀ z : ZoneId, s.paging.zones[z] =
        { feed := some 0, prog := 3456, duck := 3456, pageLevel := 216, cap := 216, service := .free, carried := none
          prio := none, gapTimer := none, clip := false, lamp := .off })
  ∧ (s.lines.count = 0 ∧ ∀ l : ZoneId, s.lines.tab[l].power = .off ∧ s.lines.tab[l].present = false
    ∧ s.lines.tab[l].link = .down ∧ s.lines.tab[l].good = 0 ∧ s.lines.tab[l].bad = 0 ∧ s.lines.tab[l].queue = []
    ∧ s.lines.tab[l].out = none ∧ s.lines.tab[l].nextSeq = 0 ∧ s.lines.tab[l].button = false)
  ∧ (s.alarm.state = .normal ∧ s.alarm.timer = none ∧ s.alarm.last = none)
  ∧ (∀ p : PortId, s.ports[p].up = false ∧ s.ports[p].fifo = [] ∧ s.ports[p].loss = false ∧ s.ports[p].asm = none
    ∧ s.ports[p].reqs = [] ∧ s.ports[p].replies = [] ∧ s.ports[p].notices = [] ∧ s.ports[p].lost = false
    ∧ s.ports[p].tx = none ∧ s.ports[p].errs = { parity := false, framing := false, overrun := false, malformed := false }
    ∧ s.ports[p].subs = Vector.replicate 7 false ∧ s.ports[p].pageMic = 0 ∧ s.ports[p].talkLevel = 216)
  ∧ ∀ p : PortId, s.ports[p].rights = [
      #v[true, true, true, false, false, true], #v[true, false, false, true, true, true],
      #v[false, false, true, true, false, false]].getD p.val (Vector.replicate 6 false)

/-- POWER_ON_RESET completes in every state: the reset state, each port UP where its PRDY is active; a card showing is
taken as inserted at once, and its header is being read. The commands that wait stay (the model's choice,
notes/assumptions/9.md). -/
def Obligations.PowerOnResetCompletes : Prop :=
  ∀ (pins : ResetPins) (s : State),
    (pins.card = false → exec (.powerOnReset pins) s = .next { State.reset with
      pending := s.pending
      ports := Vector.ofFn fun p => { State.Reset.port p with
        up := pins.prdy[p], prdy := pins.prdy[p], cts := pins.cts[p] } })
    ∧ (pins.card = true → ∃ t, exec (.powerOnReset pins) s = .next t ∧ t.pending = s.pending
      ∧ t.mix = State.reset.mix ∧ t.fades = State.reset.fades ∧ t.voices = State.reset.voices
      ∧ t.cues = State.reset.cues ∧ t.paging = State.reset.paging ∧ t.lines = State.reset.lines
      ∧ t.alarm = State.reset.alarm ∧ t.card.showing = true ∧ t.card.state = .mounting
      ∧ t.card.reader = some { job := .load .header, page := 0, number := 1, age := 0 }
      ∧ ∀ p : PortId, t.ports[p].up = pins.prdy[p])

/-! ### The arithmetic of levels -/

/-- R3, R4, R5: the gain word of a level code, that of a fine level, and its application to a sample. -/
def Obligations.GainLaws : Prop :=
  (codeGain 0 = 0
    ∧ (∀ q k : Nat, k < 12 → 1 ≤ 12 * q + k → 12 * q + k ≤ 240 →
        let m := [16384, 17358, 18390, 19484, 20643, 21870, 23170, 24548, 26008, 27554, 29193, 30929].getD k 0
        codeGain (12 * q + k) = if 18 ≤ q then m * 2 ^ (q - 18) else m / 2 ^ (18 - q))
    ∧ (∀ c < 48, codeGain c = 0) ∧ codeGain 48 = 1 ∧ codeGain 216 = 16384 ∧ codeGain 240 = 65536)
  ∧ (fineGain 3840 = 65536
    ∧ (∀ f < 3840, fineGain f =
        codeGain (f / 16) + (codeGain (f / 16 + 1) - codeGain (f / 16)) * (f % 16) / 16)
    ∧ (∀ c ≤ 240, fineGain (16 * c) = codeGain c)
    ∧ (∀ f ≤ 3840, fineGain f = 0 ↔ f < 768) ∧ fineGain 768 = 1)
  ∧ (∀ (g : Nat) (x : Sample), 16384 * applyGain g x ≤ x * g + 8192 ∧ x * g + 8192 < 16384 * (applyGain g x + 1))
  ∧ (∀ x : Sample, applyGain 16384 x = x) ∧ ∀ x : Sample, applyGain 0 x = 0

/-! ### The mix engine -/

/-- SAMPLE_COMPUTATION completes, and each auditorium mix and relay feed is what R7 and R8 give; its clip flag is set
when the sample was saturated and held otherwise. Channel j of SAIn is the source S(16n + j). Every timer that runs counts one
sample period, the line unit's count falls due at every 48th (R169), and the clocks of running entries and of the read in
flight gain one. With no cue running every level and setting stands, and so do mutes, snapshots, cue list and inputs; a voice,
a zone, a page, a line and a port keep all but what the words of the frame name. The wait for a frame event raised
(notes/assumptions/6.md), the first contact reading (notes/assumptions/29.md) and the end of what comes together with a line
frame event (notes/assumptions/48.md) are the model's choice. -/
def Obligations.SampleComputationMixes : Prop :=
  let less : Option Nat → Option Nat := fun o => o.map fun k => k - 1
  ∀ s : State, (∀ (n : LinkId) (j : Fin 16), (sources s)[16 * n.val + j.val]'(by omega) = s.mix.links[n].words[j])
    ∧ (s.mix.frameDue = false → ∃ t, exec .sampleComputation s = .next t
    ∧ (∀ m : MixId, m.val < 8 ∨ 20 ≤ m.val →
        let x := applyGain (fineGain s.mix.master[m])
          ((List.finRange 96).map fun i => applyGain (fineGain s.mix.xpt[m][i]) (sources s)[i]).sum
        let y := if x < -8388608 then -8388608 else if 8388607 < x then 8388607 else x
        t.mix.out[m] = (if s.mix.mute[m] then 0 else y)
        ∧ t.mix.clip[m] = (s.mix.clip[m] || (!s.mix.mute[m] && decide (x < -8388608 ∨ 8388607 < x))))
    ∧ t.mix.sampleCount = (if 47 ≤ s.mix.sampleCount then 0 else s.mix.sampleCount + 1)
    ∧ t.mix.frameDue = decide (47 ≤ s.mix.sampleCount)
    ∧ t.lines.count = (if 47 ≤ s.lines.count then 0 else s.lines.count + 1)
    ∧ t.lines.due = s.lines.due + (if 47 ≤ s.lines.count then 1 else 0)
    ∧ t.alarm = { s.alarm with timer := less s.alarm.timer, last := some (s.alarm.last.getD false) }
    ∧ t.cues.guard = less s.cues.guard ∧ t.card.insertTimer = less s.card.insertTimer
    ∧ (∀ r, s.card.reader = some r → t.card.reader = some { r with age := r.age + 1 })
    ∧ (NoneSettled s → (∀ v : VoiceId, s.voices.tab[v].state ≠ .playing ∧ s.voices.tab[v].state ≠ .stopping) →
      t.cues = { s.cues with
        guard := less s.cues.guard, running := s.cues.running.map fun e => { e with clock := e.clock + 1 } })
    ∧ (s.cues.running = [] → t = { s with
        mix := { s.mix with
          out := t.mix.out, clip := t.mix.clip, clampMark := t.mix.clampMark, sampleCount := t.mix.sampleCount
          frameDue := t.mix.frameDue }
        fades := { s.fades with table := t.fades.table }
        cues := { s.cues with guard := t.cues.guard }
        card := t.card, voices := { s.voices with free := t.voices.free, tab := t.voices.tab }
        paging := { s.paging with zones := t.paging.zones, pages := t.paging.pages, voiceIn := t.paging.voiceIn }
        lines := t.lines, alarm := t.alarm, ports := t.ports }
      ∧ (∀ v : VoiceId, t.voices.tab[v].level = s.voices.tab[v].level)
      ∧ (∀ z : ZoneId, t.paging.zones[z] = { s.paging.zones[z] with
          clip := t.paging.zones[z].clip, gapTimer := less s.paging.zones[z].gapTimer })
      ∧ t.paging.pages = (s.paging.pages.map fun q => { q with
          timer := less q.timer
          chimePos := if q.state = .chiming then min (q.chimePos + 1) 28800 else q.chimePos })
      ∧ (∀ l : ZoneId, t.lines.tab[l] = { s.lines.tab[l] with samples := t.lines.tab[l].samples, together := .nothing })
      ∧ ∀ p : PortId, t.ports[p] = { s.ports[p] with notices := t.ports[p].notices, lost := t.ports[p].lost }))

/-- R124, R125, R131: a foldback mix at a sample period: effective master, talk terms, mute, clamp at the ceiling. The
talk term of a port whose record covers the mix is its PAGE MIC channel at its TALK LEVEL. -/
def Obligations.SampleComputationFoldback : Prop :=
  ∀ s : State, s.mix.frameDue = false → ∃ t, exec .sampleComputation s = .next t
    ∧ ∀ f : FoldbackId,
        let m : MixId := ⟨f.val + 8, by omega⟩
        let sum := ((List.finRange 96).map fun i => applyGain (fineGain s.mix.xpt[m][i]) (sources s)[i]).sum
        let covers := fun p : PortId => ((s.mix.talk[p]).map fun set => set[f]).getD false
        let talk := fun p : PortId =>
          if h : 1 ≤ s.ports[p].pageMic ∧ s.ports[p].pageMic ≤ 64 then
            if covers p then applyGain (codeGain s.ports[p].talkLevel) ((sources s)[s.ports[p].pageMic - 1]'(by omega))
            else 0
          else 0
        let x := applyGain (fineGain (s.mix.master[m] - s.mix.backoff[f] - s.mix.duck[f])) sum + (talk 0 + talk 1 + talk 2)
        let c : Int := s.mix.ceiling[f]
        let hit := !s.mix.mute[m] && decide (x < -c ∨ c < x)
        t.mix.out[m] = (if s.mix.mute[m] then 0 else if x < -c then -c else if c < x then c else x)
        ∧ t.mix.clip[m] = (s.mix.clip[m] || hit) ∧ t.mix.clampMark[f] = (s.mix.clampMark[f] || hit)
        ∧ (t.mix.out[m] ≤ c ∧ -c ≤ t.mix.out[m])

/-- R139, R140, R152: a zone's output sample, handed to its line at every sample period: its feed, or 0 with feed NONE, at
programme level and duck, and the term of the page it carries, saturated with the zone's clip flag set. -/
def Obligations.SampleComputationZones : Prop :=
  ∀ (s : State) (z : ZoneId), s.mix.frameDue = false → ∃ t, exec .sampleComputation s = .next t ∧
    let r := s.paging.zones[z]
    let gives := fun x : Sample =>
      t.lines.tab[z].samples = s.lines.tab[z].samples ++
        [if x < -8388608 then -8388608 else if 8388607 < x then 8388607 else x]
      ∧ t.paging.zones[z].clip = (r.clip || decide (x < -8388608 ∨ 8388607 < x))
    let feed : Sample := match r.feed with
      | none => 0
      | some k => t.mix.out[20 + k.val]
    let ducked := applyGain (fineGain r.duck) (applyGain (fineGain r.prog) feed)
    let adds := fun term : Sample => gives (ducked + applyGain (codeGain r.pageLevel) term)
    (r.service ≠ .carrying → gives ducked)
    ∧ ∀ (id : Nat) (q : Page), r.service = .carrying → r.carried = some id → pageOf id s = some q →
      (q.state = .chiming →
        let i : Nat := q.chimePos
        let w : Int := if i < 14400 then 60 else 80
        let u : Int := (i : Int) % w
        let h : Int := (i : Int) % 14400
        let a : Int := (4 * u - 2 * w).natAbs
        adds (if 28800 ≤ i then 0 else Int.tdiv (4194304 * (a - w) * (14400 - h)) (w * 14400))
        ∧ (s.cues.running = [] → (pageOf id t).map (·.chimePos) = some (min (i + 1) 28800)))
      ∧ (q.state = .speaking →
        (∀ ch : Fin 64, q.source = .live ch → adds ((sources s)[ch.val]))
        ∧ (∀ n : Nat, q.source = .clip n →
            adds (if q.play = .priming ∨ q.play = .playing then ((sources s)[94] + (sources s)[95]) / 2 else 0))
        ∧ (q.source = .none → adds 0))
      ∧ (q.state = .pending ∨ q.state = .ended → gives ducked)

/-- R66, R68, R69, R72, R74: a voice at a sample period, with no cue running. IDLE, PRIMING and DRAINING voices deliver 0. A
PLAYING or STOPPING one delivers its frame at its level, and its position moves on: to the next frame, at loop end back
to loop start, or past the last frame to its end; it leaves a slot at a page's end and at a wrap, and asks for the next
page of the play order. Where the slot is not FILLED it delivers 0 and waits, and the first such wait of a play is told. An
end at the last frame is told VOICE ENDED, CLIP END. When an underrun is judged (notes/assumptions/27.md), and the four
characters of the position in VOICE UNDERRUN (notes/assumptions/14.md), are the model's. -/
def Obligations.VoicesAtSamplePeriod : Prop :=
  ∀ (s : State) (v : VoiceId), s.mix.frameDue = false → s.cues.running = [] → ∃ t, exec .sampleComputation s = .next t ∧
    let r := s.voices.tab[v]
    let r' := t.voices.tab[v]
    let left : Sample := (sources s)[64 + 2 * v.val]'(by omega)
    let right : Sample := (sources s)[65 + 2 * v.val]'(by omega)
    let active := fun q : Voice => q.state = .playing ∨ q.state = .stopping
    let heard := fun w : Word24 =>
      let y := applyGain (fineGain r.level) w.toInt
      if y < -8388608 then -8388608 else if 8388607 < y then 8388607 else y
    let frames : Nat := if r.info.channels = 2 then 512 else 1024
    (¬active r → left = 0 ∧ right = 0 ∧ r'.pos = r.pos ∧ r'.state = r.state)
    ∧ (active r → (∀ x, r.ring[r.cur]? = some x → x.state ≠ .filled) →
        left = 0 ∧ right = 0 ∧ r'.pos = r.pos ∧ r'.cur = r.cur ∧ r'.state = r.state ∧ r'.underrun = true
        ∧ ((∀ u : VoiceId, u ≠ v → ¬active s.voices.tab[u]) →
            t.ports = if r.underrun then s.ports else vmapi (fun _ q => if q.subs[(2 : Fin 7)] then enqueueNotice
              { cls := .voice, kind := 3, fields := [f1 (v.val + 1), f2 r.clip, f4 r.pos] } q else q) s.ports))
    ∧ ∀ x : Slot, active r → r.ring[r.cur]? = some x → x.state = .filled →
      let i := r.pos % frames
      let stays := fun pos : Nat => r'.state = r.state ∧ r'.pos = pos ∧ r'.cur = r.cur
      let leaves := fun pos : Nat => r'.state = r.state ∧ r'.pos = pos ∧ r'.cur = (r.cur + 1) % r.ring.length
        ∧ (∀ p w, r.nextFetch = some (p, w) → ∃ y, r'.ring[r.cur]? = some y ∧ y.page = p
            ∧ (y.state = .requested ∨ y.state = .inFlight))
        ∧ (r.nextFetch = none → s.card.reader.isSome = true → (r'.ring[r.cur]?).map (·.state) = some .empty)
      (r.info.channels = 2 → left = heard (x.words.getD (2 * i) 0) ∧ right = heard (x.words.getD (2 * i + 1) 0))
      ∧ (r.info.channels ≠ 2 → left = heard (x.words.getD i 0) ∧ right = left)
      ∧ (∀ ls le : Nat, r.looping = true → r.info.loop = some (ls, le) →
          (r.pos + 1 = le → leaves ls)
          ∧ (r.pos + 1 ≠ le → (r.pos + 1) % frames = 0 → leaves (r.pos + 1))
          ∧ (r.pos + 1 ≠ le → (r.pos + 1) % frames ≠ 0 → stays (r.pos + 1)))
      ∧ (r.looping = false →
          (r.pos + 1 < r.info.length → (r.pos + 1) % frames = 0 → leaves (r.pos + 1))
          ∧ (r.pos + 1 < r.info.length → (r.pos + 1) % frames ≠ 0 → stays (r.pos + 1))
          ∧ (r.info.length ≤ r.pos + 1 → (r'.state = .idle ∨ r'.state = .draining) ∧ r'.tag = none
            ∧ ((∀ u : VoiceId, u ≠ v → ¬active s.voices.tab[u]) →
                (∀ q ∈ s.fades.table, drives (.voice v) q = true → ∀ p, q.origin ≠ .port p) →
                t.ports = afterNotice .voice 2 (statedVoiceEnd v r 0) s.ports)))

/-- R17: the output links. -/
def Obligations.OutputLinks : Prop :=
  ∀ (s : State) (i : Fin 16),
    (outputSlots false s)[i] = s.mix.out[i.val]
    ∧ (∀ h : i.val < 12, (outputSlots true s)[i] = s.mix.out[8 + i.val]) ∧ (12 ≤ i.val → (outputSlots true s)[i] = 0)

/-- R13 to R15: LINK_FRAME completes in every state, moves lock state and run count by the table, and delivers the
frame's words only from a LOCKED link; INPUT LINK is sent exactly on a change of the lock state. The code of the lock state and
the size of the link number in that notice are the model's (notes/assumptions/13.md, notes/assumptions/14.md). -/
def Obligations.LinkFrameMoves : Prop :=
  ∀ (k : LinkId) (fr : Option (Vector Word24 16)) (s : State), ∃ t, exec (.linkFrame k fr) s = .next t
    ∧ (let l := s.mix.links[k]
       let l' := t.mix.links[k]
       (l.locked = false → fr.isSome → l.run < 47 → l'.locked = false ∧ l'.run = l.run + 1)
       ∧ (l.locked = false → fr.isSome → l.run = 47 → l'.locked = true ∧ l'.run = 0)
       ∧ (l.locked = false → fr = none → l'.locked = false ∧ l'.run = 0)
       ∧ (l.locked = true → fr.isSome → l'.locked = true ∧ l'.run = 0)
       ∧ (l.locked = true → fr = none → l.run < 3 → l'.locked = true ∧ l'.run = l.run + 1)
       ∧ (l.locked = true → fr = none → l.run = 3 → l'.locked = false ∧ l'.run = 0)
       ∧ (∀ w, fr = some w → l'.locked = true → ∀ i : Fin 16, l'.words[i] = w[i].toInt)
       ∧ (fr = none ∨ l'.locked = false → l'.words = Vector.replicate 16 0)
       ∧ t.ports = (if l.locked = l'.locked then s.ports else
           vmapi (fun _ r => if r.subs[(1 : Fin 7)] then
             enqueueNotice { cls := .mix, kind := 2, fields := [f1 k.val, f1 l'.locked.toNat] } r else r) s.ports))
    ∧ (∀ j : LinkId, j ≠ k → t.mix.links[j] = s.mix.links[j])
    ∧ t = { s with mix := { s.mix with links := t.mix.links }, ports := t.ports }
    ∧ State.reset.mix.links[k].locked = false ∧ State.reset.mix.links[k].run = 0

/-- R126, R132: what every foldback mix does at a frame event, whatever its mute: the backoff, the clamp mark and the talk
duck. With no cue running the rest of the part keeps all but what fades write and their endings touch: levels, the voices
they stop, the reader's next read, and notices. -/
def Obligations.FoldbackAtFrameEvent : Prop :=
  ∀ s : State, s.mix.frameDue = true → ∃ t, exec .frameEvent s = .next t ∧ t.mix.frameDue = false
    ∧ (∀ f : FoldbackId,
        let b := s.mix.backoff[f]
        let d := s.mix.duck[f]
        let covered := ∃ p : PortId, ∃ set, s.mix.talk[p] = some set ∧ set[f] = true
        t.mix.backoff[f] = (if s.mix.clampMark[f] then (if 192 < b + 4 then 192 else b + 4) else b - 1)
        ∧ t.mix.clampMark[f] = false
        ∧ ∀ target : Nat, (covered → target = s.mix.talkDepth * 16) → (¬covered → target = 0) →
            t.mix.duck[f] = if d < target then min (d + 16) target else if target < d then max (d - 16) target else d)
    ∧ (s.cues.running = [] → (t = { s with
        mix := { s.mix with
          xpt := t.mix.xpt, master := t.mix.master, frameDue := false, backoff := t.mix.backoff
          clampMark := t.mix.clampMark, duck := t.mix.duck }
        fades := { s.fades with table := t.fades.table }
        card := { s.card with
          reader := t.card.reader, lastWasVoice := t.card.lastWasVoice, readNumber := t.card.readNumber
          queue := t.card.queue, job := t.card.job }
        voices := { s.voices with free := t.voices.free, tab := t.voices.tab }
        paging := { s.paging with zones := t.paging.zones, voiceIn := t.paging.voiceIn }, ports := t.ports })
      ∧ (∀ z : ZoneId, t.paging.zones[z] = { s.paging.zones[z] with
          prog := t.paging.zones[z].prog, duck := t.paging.zones[z].duck })
      ∧ ∀ p : PortId, t.ports[p] = { s.ports[p] with notices := t.ports[p].notices, lost := t.ports[p].lost })

/-! ### Fades, levels and snapshots -/

/-- R31, R32, R26, R110, R111, R113, R114: a record alone in the table, at a frame event. Below its duration it writes its
position to what it drives and stays; at its duration it writes its end levels, leaves, and a port that made it is sent
FADE DONE. A SINGLE record drives its target, a MIX record the engaged targets of its mix. No other level moves. A record of
the one running entry lowers its outstanding count as it completes; an entry in SETTLING that then waits for nothing is
removed with CUE COMPLETE, and a FOLLOW is taken: abandoned AT END or STANDING MOVED, or the standing cue fired. The codes of
CUE COMPLETE's ending and of FOLLOW ABANDONED's reasons (notes/assumptions/13.md), and of END in CUE FIRED
(notes/assumptions/45.md), are the model's. -/
def Obligations.OneFadeAtFrameEvent : Prop :=
  (∀ s : State, s.mix.frameDue = true → s.cues.running = [] →
    (∀ (g : Target) (a b dur n : Nat) (o : FadeOrigin),
      s.fades.table = [{ body := .single g a b, dur := dur, n := n, origin := o }] →
      ∃ t, exec .frameEvent s = .next t
        ∧ (n + 1 < dur → t.fades.table = [{ body := .single g a b, dur := dur, n := n + 1, origin := o }]
            ∧ levelOf g t = ((a : Int) + Int.tdiv (((b : Int) - a) * ((n + 1 : Nat) : Int)) dur).toNat
            ∧ t.ports = s.ports)
        ∧ (dur ≤ n + 1 → t.fades.table = [] ∧ levelOf g t = b
            ∧ ∀ p : PortId, o = .port p → t.ports[p] =
                enqueueNotice { cls := .mix, kind := 1, fields := f1 0 :: ftarget g ++ [f1 0, f2 b] } s.ports[p])
        ∧ (∀ u : Target, u ≠ g → levelOf u t = levelOf u s)
        ∧ t = { s with
            mix := t.mix, fades := { s.fades with table := t.fades.table }, card := t.card, voices := t.voices
            paging := t.paging, ports := t.ports })
    ∧ ∀ (m : MixId) (sn : Fin 128) (a b : Vector Nat 97) (engaged : Vector Bool 97) (dur n : Nat) (p : PortId),
      s.fades.table = [{ body := .mix m sn a b engaged, dur := dur, n := n, origin := .port p }] →
      let moved := fun (on : Bool) (f0 f1 old : Nat) =>
        if on then
          if dur ≤ n + 1 then f1 else ((f0 : Int) + Int.tdiv (((f1 : Int) - f0) * ((n + 1 : Nat) : Int)) dur).toNat
        else old
      ∃ t, exec .frameEvent s = .next t
        ∧ (∀ x : SourceId, levelOf (.crosspoint m x) t =
            moved engaged[x.val] a[x.val] b[x.val] (levelOf (.crosspoint m x) s))
        ∧ levelOf (.master m) t = moved engaged[96] a[96] b[96] (levelOf (.master m) s)
        ∧ (n + 1 < dur → t.ports = s.ports
            ∧ t.fades.table = [{ body := .mix m sn a b engaged, dur := dur, n := n + 1, origin := .port p }])
        ∧ (dur ≤ n + 1 → t.fades.table = [] ∧ t.ports[p] = enqueueNotice
            { cls := .mix, kind := 1
              fields := [f1 1, f1 (m.val + 1), f1 (sn.val + 1), f1 0, f2 (levelOf (.master m) t)] } s.ports[p])
        ∧ (∀ u : Target, (∀ x, u ≠ .crosspoint m x) → u ≠ .master m → levelOf u t = levelOf u s)
        ∧ t = { s with
            mix := t.mix, fades := { s.fades with table := t.fades.table }, card := t.card, voices := t.voices
            ports := t.ports })
  ∧ ∀ (s : State) (e : RunEntry) (c : Cue) (g : Target) (a b dur n : Nat), s.mix.frameDue = true →
    s.cues.running = [e] → cueOf e.cue s = some c → 0 < e.out →
    s.fades.table = [{ body := .single g a b, dur := dur, n := n, origin := .entry e.cue }] →
    let told : List (Nat × List Field) → Vector PortRecord 3 := fun ns => vmapi (fun _ r => if r.subs[(0 : Fin 7)] then
      ns.foldl (fun r x => enqueueNotice { cls := .cue, kind := x.1, fields := x.2 } r) r else r) s.ports
    let completed : Nat × List Field := (2, [f2 e.cue, f1 0, f1 e.issued, f1 e.snapped, f1 e.failed])
    let moves := fun (table : List FadeRecord) (level : Nat) (cues : CueEngine) (ports : Vector PortRecord 3) =>
      ∃ t, exec .frameEvent s = .next t ∧ t.fades.table = table ∧ levelOf g t = level ∧ t.cues = cues ∧ t.ports = ports
        ∧ (∀ u : Target, u ≠ g → levelOf u t = levelOf u s)
        ∧ t = { s with
            mix := { s.mix with
              xpt := t.mix.xpt, master := t.mix.master, frameDue := false, backoff := t.mix.backoff
              clampMark := t.mix.clampMark, duck := t.mix.duck }
            fades := { s.fades with table := t.fades.table }
            card := { s.card with
              reader := t.card.reader, lastWasVoice := t.card.lastWasVoice, readNumber := t.card.readNumber
              queue := t.card.queue, job := t.card.job }
            voices := { s.voices with tab := t.voices.tab }, cues := t.cues
            paging := { s.paging with zones := t.paging.zones }, ports := t.ports }
    (n + 1 < dur → moves [{ body := .single g a b, dur := dur, n := n + 1, origin := .entry e.cue }]
      ((a : Int) + Int.tdiv (((b : Int) - a) * ((n + 1 : Nat) : Int)) dur).toNat s.cues s.ports)
    ∧ (dur ≤ n + 1 → e.state ≠ .settling ∨ 1 < e.out ∨ e.cont = some true →
      moves [] b { s.cues with running := [{ e with out := e.out - 1 }] } s.ports)
    ∧ (dur ≤ n + 1 → e.state = .settling → e.out = 1 → e.cont ≠ some true →
      (c.follow ≠ .follow → moves [] b { s.cues with running := [] } (told [completed]))
      ∧ (c.follow = .follow → cueAfter e.cue s.cues.list = none →
        moves [] b { s.cues with running := [] } (told [completed, (3, [f2 e.cue, f1 0])]))
      ∧ ∀ m : Nat, c.follow = .follow → cueAfter e.cue s.cues.list = some m →
        (s.cues.standing ≠ some m →
          moves [] b { s.cues with running := [] } (told [completed, (3, [f2 e.cue, f2 m, f1 1])]))
        ∧ ∀ c' : Cue, s.cues.standing = some m → cueOf m s = some c' → 0 < c'.prewait → c'.follow = .none →
          moves [] b
            { s.cues with
              standing := cueAfter m s.cues.list
              running := [{ cue := m, state := .prewait, clock := 0, next := 1, out := 0, cont := none, origin := none
                            issued := 0, snapped := 0, failed := 0 }] }
            (told [completed,
              (1, [f2 m, .text c'.label, f1 4, f2 0, f2 ((cueAfter m s.cues.list).getD 0)])]))

/-- R18, R19, R27, R28, R34, R36: SET LEVEL completes for every target it may name, with no cue running: with time 0 the
level is written and nothing drives it; above 0, with room in the table, a record is entered from the present level. A
record that drove the target is taken over: a SINGLE record leaves and its port is told TAKEN OVER, a MIX record that
drives more loses the target alone. With a full table the level is written at once and the port told SNAPPED. The reply is
CLAMPED exactly when the code or the time was replaced. What the stop of a voice by a displaced record, and the reader's
next read, may touch is named in the frame; every other block keeps its state. -/
def Obligations.SetLevelCompletes : Prop :=
  ∀ (p : PortId) (tag : Nat) (raw : RawTarget) (g : Target) (code time : Nat) (s : State),
    handed p (.setLevel p tag raw code time) s = true → targetOf raw = some g → settable g = true →
    targetRight p g s = true → s.cues.running = [] →
    let fine := 16 * min code 240
    let made : List FadeRecord := if time = 0 then [] else
      [{ body := .single g (levelOf g s) fine, dur := min time 600000, n := 0, origin := .port p }]
    ∃ t, exec (.setLevel p tag raw code time) s = .next t
      ∧ t.ports[p].replies = s.ports[p].replies ++ [{
          tag := tag, kind := 7, fields := []
          outcome := if 240 < code ∨ 600000 < time then .clamped else .accepted }]
      ∧ (time = 0 → levelOf g t = fine ∧ driven g t = false)
      ∧ (time ≠ 0 → driven g s = false → s.fades.table.length < 64 →
          levelOf g t = levelOf g s ∧ t.fades.table = s.fades.table ++ made)
      ∧ (time ≠ 0 → driven g s = false → 64 ≤ s.fades.table.length →
          levelOf g t = fine ∧ t.fades.table = s.fades.table
          ∧ t.ports[p].notices = (enqueueNotice
              { cls := .mix, kind := 1, fields := f1 0 :: ftarget g ++ [f1 3, f2 fine] } s.ports[p]).notices)
      ∧ (∀ (before after : List FadeRecord) (a b d n : Nat) (q : PortId),
          s.fades.table = before ++ { body := .single g a b, dur := d, n := n, origin := .port q } :: after →
          (∀ r ∈ before ++ after, drives g r = false) → (before ++ after).length < 64 →
          t.fades.table = before ++ after ++ made ∧ t.ports[q].notices = (enqueueNotice
            { cls := .mix, kind := 1, fields := f1 0 :: ftarget g ++ [f1 1, f2 (levelOf g s)] } s.ports[q]).notices)
      ∧ (∀ (before after : List FadeRecord) (m : MixId) (sn : Fin 128) (a b : Vector Nat 97) (engaged : Vector Bool 97)
          (i j : Fin 97) (d n : Nat) (q : PortId),
          s.fades.table = before ++ { body := .mix m sn a b engaged, dur := d, n := n, origin := .port q } :: after →
          placeIn m g = some i → engaged[i] = true → engaged[j] = true → j ≠ i →
          (∀ r ∈ before ++ after, drives g r = false) → (before ++ after).length < 63 →
          t.fades.table = before ++
            { body := .mix m sn a b (upd engaged i false), dur := d, n := n, origin := .port q } :: after ++ made
          ∧ ∀ k : PortId, t.ports[k].notices = s.ports[k].notices)
      ∧ (∀ u : Target, u ≠ g → levelOf u t = levelOf u s)
      ∧ (∀ z : ZoneId, t.paging.zones[z] = { s.paging.zones[z] with prog := t.paging.zones[z].prog })
      ∧ (∀ k : PortId, t.ports[k] = { s.ports[k] with
          reqs := t.ports[k].reqs, replies := t.ports[k].replies, notices := t.ports[k].notices, lost := t.ports[k].lost })
      ∧ t = { s with
          mix := { s.mix with xpt := t.mix.xpt, master := t.mix.master }
          fades := { s.fades with table := t.fades.table }
          card := { s.card with
            reader := t.card.reader, lastWasVoice := t.card.lastWasVoice, readNumber := t.card.readNumber
            queue := t.card.queue, job := t.card.job }
          voices := { s.voices with free := t.voices.free, tab := t.voices.tab }
          paging := { s.paging with zones := t.paging.zones, voiceIn := t.paging.voiceIn }
          ports := t.ports }

/-- R20: MUTE: its refusals in the order of their tests, and the one flag it writes. -/
def Obligations.MuteLaw : Prop :=
  ∀ (p : PortId) (tag mix setting : Nat) (s : State),
    let i := Instr.mute p tag mix setting
    handed p i s = true →
    (mix < 1 ∨ 24 < mix ∨ 1 < setting → exec i s = .next (answer p tag 9 i { outcome := .badArgument } s))
    ∧ ∀ (m : MixId) (on : Bool), mix = m.val + 1 → setting = on.toNat →
      (hasRight p .mix s = false → exec i s = .next (answer p tag 9 i { outcome := .notPermitted } s))
      ∧ (hasRight p .mix s = true → on = false → m.val < 20 → s.mix.alarm.standing = true →
          exec i s = .next (answer p tag 9 i { outcome := .alarm } s))
      ∧ (hasRight p .mix s = true → on = true ∨ 20 ≤ m.val ∨ s.mix.alarm.standing = false →
          exec i s = .next (answer p tag 9 i { outcome := .accepted }
            { s with mix := { s.mix with mute := upd s.mix.mute m on } }))

/-- R43: STORE: its refusals, and the snapshot it writes: the mix and its 97 present levels, and nothing else; a cue that
recalls that snapshot then recalls the new contents. -/
def Obligations.StoreLaw : Prop :=
  ∀ (p : PortId) (tag number mix : Nat) (s : State),
    let i := Instr.store p tag number mix
    handed p i s = true →
    (number < 1 ∨ 128 < number ∨ mix < 1 ∨ 24 < mix →
      exec i s = .next (answer p tag 10 i { outcome := .badArgument } s))
    ∧ ∀ (n : Fin 128) (m : MixId), number = n.val + 1 → mix = m.val + 1 →
      (hasRight p .mix s = false → exec i s = .next (answer p tag 10 i { outcome := .notPermitted } s))
      ∧ (hasRight p .mix s = true → ∃ levels : Vector Nat 97,
          (∀ x : SourceId, levels[x.val] = s.mix.xpt[m][x]) ∧ levels[96] = s.mix.master[m]
          ∧ ∃ t, exec i s = .next t ∧ t = answer p tag 10 i { outcome := .accepted }
              { s with fades := { s.fades with snaps := upd s.fades.snaps n (some { mix := m, levels := levels }) } }
            ∧ ∀ (cue : Nat) (m' : MixId), levelOf (.master m') (perform cue (.recall m' n 0) t).1 = levels[96])

/-- R44: CLEAR: its refusals, the snapshot it makes EMPTY and nothing else, and what a RECALL action finds then. -/
def Obligations.ClearLaw : Prop :=
  ∀ (p : PortId) (tag number : Nat) (s : State),
    let i := Instr.clear p tag number
    handed p i s = true →
    (number < 1 ∨ 128 < number → exec i s = .next (answer p tag 11 i { outcome := .badArgument } s))
    ∧ ∀ n : Fin 128, number = n.val + 1 →
      (hasRight p .mix s = false → exec i s = .next (answer p tag 11 i { outcome := .notPermitted } s))
      ∧ (hasRight p .mix s = true → ∃ t, exec i s = .next t
          ∧ t = answer p tag 11 i { outcome := .accepted }
            { s with fades := { s.fades with snaps := upd s.fades.snaps n none } }
          ∧ ∀ (cue : Nat) (m : MixId) (time : Nat),
              perform cue (.recall m n time) t = (t, { result := .emptySnapshot }))

/-- R46, R35, R48: a RECALL with no cue running. A snap recall writes the snapshot to the master and to every crosspoint
that is not recall-safe; a safe crosspoint and the other mixes keep their levels. With a time above 0, room in the table
and stop records only where they belong, the records that drive an engaged target and those of the mix leave, told TAKEN
OVER, and a MIX record from the present levels is entered. SET SAFE changes the one flag. -/
def Obligations.RecallAndSafe : Prop :=
  ∀ (p : PortId) (tag : Nat) (m : MixId) (s : State), hasRight p .mix s = true →
    (∀ (n : Fin 128) (sn : Snapshot),
      let i := Instr.recall p tag (m.val + 1) (n.val + 1) 0
      handed p i s = true → s.fades.snaps[n] = some sn → s.cues.running = [] →
      ∃ t, exec i s = .next t ∧ levelOf (.master m) t = sn.levels[96]
        ∧ (∀ x : SourceId, levelOf (.crosspoint m x) t =
            if s.fades.safe[m][x] then levelOf (.crosspoint m x) s else sn.levels[x.val])
        ∧ (∀ m' : MixId, m' ≠ m → levelOf (.master m') t = levelOf (.master m') s
          ∧ ∀ x : SourceId, levelOf (.crosspoint m' x) t = levelOf (.crosspoint m' x) s)
        ∧ t = { s with
            mix := { s.mix with xpt := t.mix.xpt, master := t.mix.master }
            fades := { s.fades with table := t.fades.table }
            card := t.card, voices := t.voices, paging := t.paging, ports := t.ports }
        ∧ t.ports[p].replies =
            s.ports[p].replies ++ [{ tag := tag, kind := 13, outcome := .accepted, fields := [] }])
    ∧ (∀ (n : Fin 128) (sn : Snapshot) (time : Nat),
      let i := Instr.recall p tag (m.val + 1) (n.val + 1) time
      let stays := s.fades.table.filter fun r => match r.body with
        | .single u _ _ => u != .master m && (List.finRange 96).all fun x => u != .crosspoint m x || s.fades.safe[m][x]
        | .mix m' _ _ _ _ => m' != m
      handed p i s = true → s.fades.snaps[n] = some sn → s.cues.running = [] → VoiceFadeLaw s →
      0 < time → stays.length < 64 →
      ∃ t, exec i s = .next t
        ∧ (∃ starts engaged, t.fades.table = stays ++ [{
              body := .mix m n starts sn.levels engaged, dur := min time 600000, n := 0, origin := .port p }]
            ∧ starts[96] = s.mix.master[m] ∧ engaged[96] = true
            ∧ ∀ x : SourceId, starts[x.val] = s.mix.xpt[m][x] ∧ engaged[x.val] = !s.fades.safe[m][x])
        ∧ (∀ u : Target, levelOf u t = levelOf u s)
        ∧ (∀ (a b d k : Nat) (q : PortId),
            s.fades.table = [{ body := .single (.master m) a b, dur := d, n := k, origin := .port q }] →
            t.ports[q].notices = (enqueueNotice
              { cls := .mix, kind := 1, fields := f1 0 :: ftarget (.master m) ++ [f1 1, f2 s.mix.master[m]] }
              s.ports[q]).notices)
        ∧ t = { s with
            fades := { s.fades with table := t.fades.table }, card := t.card, voices := t.voices, ports := t.ports }
        ∧ t.ports[p].replies = s.ports[p].replies ++ [{
            tag := tag, kind := 13, fields := [], outcome := if 600000 < time then .clamped else .accepted }])
    ∧ ∀ (x : SourceId) (on : Bool),
      let i := Instr.setSafe p tag (m.val + 1) (x.val + 1) on.toNat
      handed p i s = true → exec i s = .next (answer p tag 14 i { outcome := .accepted }
        { s with fades := { s.fades with safe := upd s.fades.safe m (upd s.fades.safe[m] x on) } })

/-- READ LEVEL, SNAPSHOT READ, READ SAFE and CLIP READ answer ACCEPTED with the fields their rules list (R22, R45, R48,
R60) and change nothing but their port's request and reply. The sizes of a clip's length, of a safe set and of the levels
of a foldback mix are the model's (notes/assumptions/14.md), and so is the free character of a snapshot's state
(notes/assumptions/12.md). -/
def Obligations.LevelReadsComplete : Prop :=
  ∀ (p : PortId) (tag : Nat) (s : State),
    (∀ (raw : RawTarget) (g : Target), handed p (.readLevel p tag raw) s = true → targetOf raw = some g →
      targetRight p g s = true →
      let more : List Field := match g with
        | .master m => fb s.mix.mute[m] ::
          if h : 8 ≤ m.val ∧ m.val < 20 then
            let b := s.mix.backoff[m.val - 8]'(by omega)
            let d := s.mix.duck[m.val - 8]'(by omega)
            [f2 b, f2 d, f2 (s.mix.master[m] - b - d)]
          else []
        | _ => []
      exec (.readLevel p tag raw) s =
        .next (answer p tag 8 (.readLevel p tag raw) {
          outcome := .accepted
          fields := [f2 (levelOf g s), f1 (levelOf g s / 16), f3 (fineGain (levelOf g s)), fb (driven g s)] ++ more } s))
    ∧ (∀ (n : Fin 128) (first count : Nat), handed p (.snapshotRead p tag (n.val + 1) first count) s = true →
      1 ≤ first → 1 ≤ count → count ≤ 24 → first + count - 1 ≤ 97 → hasRight p .mix s = true →
      let i := Instr.snapshotRead p tag (n.val + 1) first count
      (s.fades.snaps[n] = none → exec i s =
        .next (answer p tag 12 i { outcome := .accepted, fields := [f1 (Config.snapshotCode false)] } s))
      ∧ ∀ sn : Snapshot, s.fades.snaps[n] = some sn → ∃ fs : List Field, fs.length = count
        ∧ (∀ k < count, ∀ h : first - 1 + k < 97, fs[k]? = some (f2 (sn.levels[first - 1 + k])))
        ∧ exec i s = .next (answer p tag 12 i
          { outcome := .accepted, fields := [f1 (Config.snapshotCode true), f1 (sn.mix.val + 1)] ++ fs } s))
    ∧ (∀ m : MixId, handed p (.readSafe p tag (m.val + 1)) s = true → hasRight p .mix s = true →
      exec (.readSafe p tag (m.val + 1)) s = .next (answer p tag 15 (.readSafe p tag (m.val + 1))
        { outcome := .accepted, fields := [fset 12 s.fades.safe[m]] } s))
    ∧ (∀ (clip : Nat) (c : ClipEntry), handed p (.clipRead p tag clip) s = true → 1 ≤ clip → clip ≤ 1024 →
      hasRight p .cue s = true ∨ hasRight p .edit s = true → s.card.state = .mounted → clipOf clip s = some c →
      exec (.clipRead p tag clip) s = .next (answer p tag 17 (.clipRead p tag clip) {
        outcome := .accepted
        fields := [f1 c.channels, f4 c.length] ++ (match c.loop with
          | some (a, b) => [f4 a, f4 b]
          | none => []) } s))

/-- VOICE READ, CUE READ of a header or an action, EXACT or NEXT, PAGE READ, PAGE LIST, ZONE READ, LINE READ, SETTING READ
and STATUS (R77, R91, R163, R183, R209, R207) answer ACCEPTED with the contents their rules list and change nothing but their
port's request and reply; a FLAGS reply also clears the clip flags. The free character of the last contact reading
(notes/assumptions/12.md), the codes of lock, presence, line commands, selector and policy (notes/assumptions/13.md), the
origin of a voice that has played nothing (notes/assumptions/10.md), the sizes of notes/assumptions/14.md and a time left
rounded up (notes/assumptions/25.md) are the model's. -/
def Obligations.OtherReadsComplete : Prop :=
  ∀ (p : PortId) (tag : Nat) (s : State),
    (∀ v : VoiceId, handed p (.voiceRead p tag (v.val + 1)) s = true →
      hasRight p .cue s = true ∨ hasRight p .mix s = true →
      exec (.voiceRead p tag (v.val + 1)) s = .next (answer p tag 21 (.voiceRead p tag (v.val + 1))
        { outcome := .accepted
          fields := [f1 s.voices.tab[v].state.code, f2 s.voices.tab[v].clip] ++ (match s.voices.tab[v].tag with
              | some k => [f1 k]
              | none => [])
            ++ [f4 s.voices.tab[v].pos, f1 s.voices.tab[v].looping.toNat, f2 s.voices.tab[v].level,
              f1 (s.voices.tab[v].ring.filter fun x => x.state == .filled).length]
            ++ statedVoiceOrigin s.voices.tab[v].origin } s))
    ∧ (∀ (selector number item : Nat) (c : Cue),
      let i := Instr.cueRead p tag selector number item
      handed p i s = true → hasRight p .cue s = true ∨ hasRight p .edit s = true →
      (selector = 0 ∧ 1 ≤ number ∧ number ≤ 9999 ∧ cueOf number s = some c)
        ∨ (selector = 1 ∧ number ≤ 9999 ∧ ∃ before after, s.cues.list = before ++ c :: after
          ∧ (∀ d ∈ before, d.number ≤ number) ∧ number < c.number) →
      (item = 0 → exec i s = .next (answer p tag 27 i
        { outcome := .accepted
          fields := [f2 c.number, .text c.label, f3 c.prewait] ++ (match c.follow with
              | .none => [f1 0]
              | .continue d => [f1 1, f3 d]
              | .follow => [f1 2])
            ++ [f1 c.actions.length, fb (s.cues.standing == some c.number), fb (running c.number s)] } s))
      ∧ (item ≤ 32 → c.actions.length < item → exec i s = .next (answer p tag 27 i { outcome := .noSuch } s))
      ∧ ∀ (off : Nat) (a : Action), 1 ≤ item → item ≤ 32 → c.actions[item - 1]? = some { offset := off, act := a } →
        exec i s = .next (answer p tag 27 i
          { outcome := .accepted
            fields := [f2 c.number, f1 item] ++ (match a with
              | .play clip vtag code fadeIn loop =>
                [f1 0, f3 off, f2 clip, f1 vtag, f1 code, f3 fadeIn, f1 loop.toNat]
              | .stop vtag time => [f1 1, f3 off, f1 vtag, f3 time]
              | .release vtag => [f1 2, f3 off, f1 vtag]
              | .level k code time => [f1 3, f3 off] ++ (match k with
                  | .crosspoint m x => [f1 0, f1 (m.val + 1), f1 (x.val + 1)]
                  | .master m => [f1 1, f1 (m.val + 1), f1 0]
                  | .zoneProgramme z => [f1 2, f1 (z.val + 1), f1 0]
                  | .voices vtag => [f1 5, f1 vtag, f1 0]) ++ [f1 code, f3 time]
              | .recall m n time => [f1 4, f3 off, f1 (m.val + 1), f1 (n.val + 1), f3 time]
              | .mute m on => [f1 5, f3 off, f1 (m.val + 1), f1 on.toNat]
              | .page zones clip prio chime all re =>
                [f1 6, f3 off, fset 2 zones, f2 clip, f1 prio, f1 chime.toNat, f1 (!all).toNat, f1 re.toNat]
              | .lamp z st => [f1 7, f3 off, f1 (z.val + 1), f1 (lampCode st)]) } s))
    ∧ (∀ (id : Nat) (q : Page), handed p (.pageRead p tag id) s = true → 1 ≤ id → id ≤ 255 →
      hasRight p .page s = true ∨ hasRight p .station s = true → pageOf id s = some q →
      exec (.pageRead p tag id) s = .next (answer p tag 42 (.pageRead p tag id)
        { outcome := .accepted
          fields := statedPage q ++ (match q.timer with
            | some k => [f3 ((k + 47) / 48)]
            | none => []) } s))
    ∧ (handed p (.pageList p tag) s = true → hasRight p .page s = true ∨ hasRight p .station s = true →
      exec (.pageList p tag) s = .next (answer p tag 43 (.pageList p tag) {
        outcome := .accepted
        fields := s.paging.pages.flatMap fun q => [f1 q.id, f1 q.prio, f1 q.state.code] } s))
    ∧ (∀ z : ZoneId, handed p (.zoneRead p tag (z.val + 1)) s = true →
      hasRight p .page s = true ∨ hasRight p .station s = true ∨ hasRight p .mix s = true →
      exec (.zoneRead p tag (z.val + 1)) s = .next (answer p tag 44 (.zoneRead p tag (z.val + 1))
        { outcome := .accepted
          fields := [f1 (match s.paging.zones[z].feed with
                | none => 0
                | some k => k.val + 1), f2 s.paging.zones[z].prog, f2 s.paging.zones[z].duck,
              f1 s.paging.zones[z].pageLevel, f1 s.paging.zones[z].cap, f1 s.paging.zones[z].service.code]
            ++ (match s.paging.zones[z].carried with
              | some id => [f1 id]
              | none => [])
            ++ (match s.paging.zones[z].prio with
              | some k => [f1 k]
              | none => [])
            ++ (match s.paging.zones[z].gapTimer with
              | some k => [f3 ((k + 47) / 48)]
              | none => [])
            ++ [f1 (lampCode s.paging.zones[z].lamp)] } s))
    ∧ (∀ l : ZoneId, handed p (.lineRead p tag (l.val + 1)) s = true →
      hasRight p .page s = true ∨ hasRight p .station s = true →
      exec (.lineRead p tag (l.val + 1)) s = .next (answer p tag 48 (.lineRead p tag (l.val + 1))
        { outcome := .accepted
          fields :=
            let command : LineCmd → List Field := fun c => match c with
              | .cap k => [f1 2, f1 k]
              | .lamp st o => [f1 1, f1 (lampCode st)] ++ (match o with
                | .port q => [f1 q.val, f2 0]
                | .cue n => [f1 3, f2 n]
                | .button => [f1 6, f2 0]
                | .refresh => [f1 7, f2 0])
            [f1 s.lines.tab[l].power.code, f1 (if s.lines.tab[l].present then 0 else 1), f1 s.lines.tab[l].link.code,
              f1 s.lines.tab[l].good, f1 s.lines.tab[l].bad]
            ++ s.lines.tab[l].queue.flatMap command
            ++ (match s.lines.tab[l].out with
              | some o => command o.cmd ++ [f1 o.seq, f1 o.age]
              | none => [])
            ++ [f1 s.lines.tab[l].nextSeq, f1 s.lines.tab[l].button.toNat] } s))
    ∧ (∀ first count : Nat, handed p (.settingRead p tag first count) s = true → 1 ≤ first → 1 ≤ count → count ≤ 19 →
      first + count - 1 ≤ 60 → (∃ r : Right, hasRight p r s = true) →
      exec (.settingRead p tag first count) s = .next (answer p tag 6 (.settingRead p tag first count)
        { outcome := .accepted, fields := (List.range count).map fun i => f3 (settingValue (first + i) s) } s))
    ∧ ∀ sect first : Nat,
      let i := Instr.status p tag sect first
      let carries : List Field → Prop := fun fs => exec i s = .next (answer p tag 1 i { outcome := .accepted, fields := fs } s)
      handed p i s = true →
      (sect = 1 → carries [
        f1 s.alarm.state.code, f1 (Config.contactCode s.alarm.last),
        f3 (match s.alarm.state, s.alarm.timer with
          | .qualifying, some k => (k + 47) / 48
          | _, _ => 0),
        f1 (match s.cues.holder with
          | some q => q.val + 1
          | none => 0),
        f1 s.cues.guard.isSome.toNat, f2 (s.cues.standing.getD 0), f2 s.cues.list.length,
        f2 (s.cues.list.map fun c => c.actions.length).sum, f1 s.cues.running.length, f1 s.fades.table.length,
        f1 s.voices.free, f1 s.card.state.code, f1 s.card.showLoaded.toNat,
        f1 ((s.card.job.map (·.reload)).getD false).toNat])
      ∧ (sect = 2 → ∃ zones : Vector Bool 16, (∀ z : ZoneId, zones[z] = s.paging.zones[z].clip)
        ∧ exec i s = .next (answer p tag 1 i
          { outcome := .accepted
            fields := [fset 3 s.mix.clip, fset 2 zones]
              ++ (List.finRange 4).map fun k => f1 s.mix.links[k].locked.toNat }
          { s with
            mix := { s.mix with clip := Vector.replicate 24 false }
            paging := { s.paging with zones := vmapi (fun _ z => { z with clip := false }) s.paging.zones } }))
      ∧ (sect = 3 → carries ((List.finRange 16).map fun v => f1 s.voices.tab[v].state.code))
      ∧ (sect = 4 → 1 ≤ first → first ≤ 16 → carries (f1 s.cues.running.length ::
          ((s.cues.running.drop (first - 1)).take 7).flatMap fun e =>
            [f2 e.cue, f1 e.state.code, f3 (min (e.clock / 48) 16777215), f1 e.next, f1 e.out]))
      ∧ (sect = 5 → carries ((List.finRange 16).flatMap fun l =>
          [f1 s.lines.tab[l].power.code, f1 s.lines.tab[l].link.code]))
      ∧ (sect = 6 → carries ((List.finRange 3).flatMap (fun q =>
          [f1 (if s.ports[q].up then 0 else 1), f1 s.ports[q].errs.bits, f1 s.ports[q].lost.toNat, fset 1 s.ports[q].subs,
           fset 1 s.ports[q].rights, fset 2 ((s.mix.talk[q]).getD (Vector.replicate 12 false))])
        ++ [f3 s.mix.talkDepth]))
      ∧ (sect < 1 ∨ 6 < sect ∨ (sect = 4 ∧ (first < 1 ∨ 16 < first)) →
        exec i s = .next (answer p tag 1 i { outcome := .badArgument } s))

/-! ### The card and the voices -/

/-- R50, R51, R53, R55, R58, R60, R62, R63: the contact and the insertion timer; then the pages of a mount or reload, read
one by one with no voice waiting and no cue running. A header that passes leads to the directory, and to the show area
where one is wanted; the last directory page of a mount without a show area completes it, each entry kept that passes the
tests of R60; the last show-area page offers a show area that passes its check. A header or show area that fails, a read
error and a timeout fail the mount, or end the reload with the card as it stands. What a card page carries
(notes/assumptions/8.md), and that of a directory whose pages give other than 1024 entries the missing ones are absent
(notes/assumptions/58.md) and those beyond not kept (notes/assumptions/33.md), are the model's. -/
def Obligations.CardInsertionAndLoads : Prop :=
  (∀ s : State, s.card.state = .absent →
    (s.card.showing = false → exec .cardDetect s =
      .next { s with card := { s.card with showing := true, insertTimer := some (48 * 250) } })
    ∧ (s.card.showing = true → exec .cardLeavingContact s =
      .next { s with card := { s.card with showing := false, insertTimer := none } })
    ∧ (s.card.insertTimer = some 0 → s.card.reader = none → s.card.queue = [] → s.cues.running = [] →
      ∃ t, exec .insertionTimerExpiry s = .next t ∧ t.card.state = .mounting ∧ t.card.insertTimer = none
        ∧ t.card.reader = some { job := .load .header, page := 0, number := s.card.readNumber + 1, age := 0 }
        ∧ t = { s with card := t.card, ports := t.ports }))
  ∧ ∀ (s : State) (which : LoadPage) (j : LoadJob) (page : CardPage) (n cardPage age : Nat),
    s.card.reader = some { job := .load which, page := cardPage, number := n, age := age } → s.card.job = some j →
    s.card.queue = [] → s.cues.running = [] →
    let told := fun (state : CardState) (event : Nat) (size : Nat) => vmapi (fun _ r => if r.subs[(2 : Fin 7)] then
      enqueueNotice { cls := .voice, kind := 5, fields := [f1 state.code, f1 event, f2 size] } r else r) s.ports
    let fails := fun (c : Instr) (event : Nat) => exec c s = .next (if j.reload then
        { s with
          card := { s.card with reader := none, job := none }, ports := told s.card.state 11 s.card.dir.length }
      else
        { s with
          card := { s.card with reader := none, job := none, state := .failed, dir := [] }
          ports := told .failed event 0 })
    let reads := fun (j' : LoadJob) (next : LoadPage) (at_ : Nat) (h : Option CardHeader) =>
      exec (.cardReadComplete n page) s = .next { s with card := { s.card with
        header := h, job := some j', lastWasVoice := false, readNumber := s.card.readNumber + 1
        reader := some { job := .load next, page := at_, number := s.card.readNumber + 1, age := 0 } } }
    (∀ h : CardHeader, which = .header → page.header = some h →
      (h.mark = true → h.dirFirst + h.dirCount ≤ h.pages → h.showFirst + h.showCount ≤ h.pages → 0 < h.dirCount →
        reads { j with todo :=
            ((List.range (h.dirCount - 1)).map fun k => LoadPage.directory (h.dirFirst + 1 + k))
              ++ (if j.withShow then (List.range h.showCount).map fun k => LoadPage.showArea (h.showFirst + k) else []) }
          (.directory h.dirFirst) h.dirFirst (some h))
      ∧ (h.mark = false ∨ h.pages < h.dirFirst + h.dirCount ∨ h.pages < h.showFirst + h.showCount →
        fails (.cardReadComplete n page) 3))
    ∧ (which = .header → page.header = none → fails (.cardReadComplete n page) 3)
    ∧ (∀ (k d : Nat) (rest : List LoadPage), which = .directory k → j.todo = .directory d :: rest →
        reads { j with todo := rest, clips := j.clips ++ page.clips } (.directory d) d s.card.header)
    ∧ (∀ (k d : Nat) (rest : List LoadPage), which = .directory k → j.todo = .showArea d :: rest →
        reads { j with todo := rest, clips := j.clips ++ page.clips } (.showArea d) d s.card.header)
    ∧ (∀ (k d : Nat) (rest : List LoadPage), which = .showArea k → j.todo = .showArea d :: rest →
        reads { j with todo := rest, items := j.items ++ page.items } (.showArea d) d s.card.header)
    ∧ (∀ (k : Nat) (h : CardHeader), which = .directory k → j.todo = [] → j.withShow = false → s.card.header = some h →
      ∃ t, exec (.cardReadComplete n page) s = .next t ∧ t.card.state = .mounted ∧ t.card.job = none
        ∧ t.card.reader = none ∧ t.ports = told .mounted 1 t.card.dir.length
        ∧ (∀ (c : Nat) (e : ClipEntry), (c, e) ∈ t.card.dir ↔ ∃ r : RawClip, 1 ≤ c ∧ c ≤ 1024
            ∧ (j.clips ++ page.clips)[c - 1]? = some r ∧ r.valid = true ∧ (r.channels = 1 ∨ r.channels = 2)
            ∧ 1 ≤ r.length ∧ r.length ≤ 2147483647
            ∧ (let frames := if r.channels = 2 then 512 else 1024
               r.start + (r.length + frames - 1) / frames ≤ h.pages)
            ∧ (r.loopFlag = true → r.loopStart < r.loopEnd ∧ r.loopEnd ≤ r.length)
            ∧ e = { channels := r.channels, start := r.start, length := r.length
                    loop := if r.loopFlag then some (r.loopStart, r.loopEnd) else none })
        ∧ t = { s with
            card := { s.card with
              state := t.card.state, job := t.card.job, reader := t.card.reader, dir := t.card.dir }
            ports := t.ports })
    ∧ (∀ k : Nat, which = .showArea k → j.todo = [] → j.withShow = true →
      (∀ a : ShowArea, checkArea (j.items ++ page.items) = some a → exec (.cardReadComplete n page) s = .next
        { s with card := { s.card with
            reader := none, job := some { j with items := j.items ++ page.items, offer := some a } } })
      ∧ (checkArea (j.items ++ page.items) = none → fails (.cardReadComplete n page) 6)
      ∧ ((∃ c : RawCue, .cue c ∈ j.items ++ page.items ∧
            (c.number < 1 ∨ 9999 < c.number ∨ 24 < c.label.length ∨ 2 < c.mode ∨ c.actions = [] ∨ 32 < c.actions.length))
          ∨ (∃ (k m : Nat) (codes : List Nat), .snapshot k (some (m, codes)) ∈ j.items ++ page.items ∧ (m < 1 ∨ 24 < m)) →
          checkArea (j.items ++ page.items) = none))
    ∧ fails (.cardReadError n) 4
    ∧ (48 * 50 ≤ age → fails .cardReadTimeout 5)

/-- R54: removal of the card, with no cue running and no read of the card left: the card ABSENT, its directory and the
fetch queue empty, every voice IDLE, no record left on a voice's level; the show held in the part stays. -/
def Obligations.CardRemovalCompletes : Prop :=
  ∀ s : State, s.card.state ≠ .absent → s.cues.running = [] →
    ∃ t, exec .cardRemoval s = .next t ∧ t.card.state = .absent ∧ t.card.dir = [] ∧ t.card.queue = []
      ∧ t.card.reader = none ∧ t.card.job = none ∧ t.card.showLoaded = s.card.showLoaded
      ∧ (∀ v : VoiceId, t.voices.tab[v].state = .idle) ∧ (∀ v : VoiceId, driven (.voice v) t = false)
      ∧ t = { s with
          card := t.card, fades := { s.fades with table := t.fades.table }, voices := t.voices
          paging := { s.paging with voiceIn := t.paging.voiceIn }, ports := t.ports }

/-- R62, R67, R59, R70, R74: a voice's page arrives in its slot, which becomes FILLED; a PLAYING or STOPPING voice goes on, and
a PRIMING voice enters PLAYING, and is told of, exactly when it then has enough. A page that arrives for a DRAINING voice
makes it IDLE and its quota returns; one for a slot that a release has marked stale is dropped, and the slot is asked for
again with the page kept for it. The free reader takes the next read: of a fetch entry and a load page that both wait the
kind that did not go last; the card page a fetch entry asks for is the clip's start page and the clip page together. -/
def Obligations.VoicePageArrives : Prop :=
  ∀ (v : VoiceId) (k n clipPage cardPage age : Nat) (x : Slot) (page : CardPage) (s : State),
    s.card.reader = some { job := .voice v k clipPage, page := cardPage, number := n, age := age } →
    s.voices.tab[v].ring[k]? = some x → s.cues.running = [] →
    (∀ e ∈ s.card.queue, e.voice = v → e.slot ≠ k) →
    let r := s.voices.tab[v]
    let filled := { x with state := .filled, words := page.words }
    (x.stale = false → r.state = .playing ∨ r.state = .stopping →
      ∃ t, exec (.cardReadComplete n page) s = .next t
        ∧ t.voices.tab[v].ring[k]? = some filled ∧ t.voices.tab[v].state = r.state
        ∧ (∀ u : VoiceId, t.voices.tab[u] = { s.voices.tab[u] with ring := t.voices.tab[u].ring })
        ∧ ReaderTakes s.card.queue s t
        ∧ t = { s with card := t.card, voices := { s.voices with tab := t.voices.tab } })
    ∧ (x.stale = false → r.state = .priming →
      let have_ := ((r.ring.set k filled).filter fun y => y.state == .filled).length
      let pages := (r.info.length + (if r.info.channels = 2 then 512 else 1024) - 1) /
        (if r.info.channels = 2 then 512 else 1024)
      let enough := r.ring.length / 2 ≤ have_ ∨ (r.looping = false ∧ pages ≤ have_) ∨ r.ring.length ≤ have_
      ∃ t, exec (.cardReadComplete n page) s = .next t
        ∧ t.voices.tab[v].ring[k]? = some filled
        ∧ (enough → t.voices.tab[v].state = .playing
          ∧ t.ports = vmapi (fun _ q => if q.subs[(2 : Fin 7)] then enqueueNotice
              { cls := .voice, kind := 1
                fields := [f1 (v.val + 1), f2 r.clip, f1 (r.tag.getD 0)] ++ voiceOrigin r.origin } q else q) s.ports
          ∧ t.paging.voiceIn = s.paging.voiceIn ++ (if r.origin = some .paging then [.started r.token] else []))
        ∧ (¬enough → t.voices.tab[v].state = .priming ∧ t.ports = s.ports ∧ t.paging = s.paging)
        ∧ t.voices.tab[v] = { r with state := t.voices.tab[v].state, ring := t.voices.tab[v].ring }
        ∧ (∀ u : VoiceId, u ≠ v → t.voices.tab[u] = { s.voices.tab[u] with ring := t.voices.tab[u].ring })
        ∧ ReaderTakes s.card.queue s t
        ∧ t = { s with
            card := t.card, voices := { s.voices with tab := t.voices.tab }
            paging := { s.paging with voiceIn := t.paging.voiceIn }, ports := t.ports })
    ∧ (Unwanted v k x s → ∃ t, exec (.cardReadComplete n page) s = .next t ∧ UnwantedReadEnds v k x s t)

/-- R63, R74, R70: a read failure stops the voice it was for, told VOICE FAULT with the clip page and the cause; its pages
return to the pool, no record stays on its level, the paging unit is told of its own voice; the card state stays. A failed
read of a DRAINING voice makes it IDLE and its quota returns, and one of a stale slot has the slot asked for again with the
page kept for it; neither is told as a fault. The size of the clip page is the model's (notes/assumptions/14.md). -/
def Obligations.VoiceReadFails : Prop :=
  ∀ (v : VoiceId) (k n clipPage cardPage age : Nat) (x : Slot) (timeout : Bool) (s : State),
    s.card.reader = some { job := .voice v k clipPage, page := cardPage, number := n, age := age } →
    s.cues.running = [] → (timeout = true → 48 * 50 ≤ age) →
    let i := if timeout then Instr.cardReadTimeout else .cardReadError n
    (s.voices.tab[v].state = .priming ∨ s.voices.tab[v].state = .playing ∨ s.voices.tab[v].state = .stopping →
      s.voices.tab[v].ring[k]? = some x → x.stale = false →
      ∃ t, exec i s = .next t
        ∧ t.voices.tab[v].state = .idle ∧ t.voices.tab[v].ring = [] ∧ t.voices.tab[v].tag = none
        ∧ t.voices.free = s.voices.free + s.voices.tab[v].ring.length
        ∧ driven (.voice v) t = false ∧ t.card.state = s.card.state
        ∧ ReaderTakes (s.card.queue.filter fun e => e.voice ≠ v) s t
        ∧ (∀ u : VoiceId, u ≠ v → t.voices.tab[u] = { s.voices.tab[u] with ring := t.voices.tab[u].ring })
        ∧ (∀ q : PortId, t.ports[q] = { s.ports[q] with notices := t.ports[q].notices, lost := t.ports[q].lost })
        ∧ ((∀ r ∈ s.fades.table, drives (.voice v) r = true → ∀ q, r.origin ≠ .port q) →
          t.ports = vmapi (fun _ r => if r.subs[(2 : Fin 7)] then enqueueNotice
            { cls := .voice, kind := 4
              fields := [f1 (v.val + 1), f2 s.voices.tab[v].clip, f4 x.page, f1 timeout.toNat] } r else r) s.ports)
        ∧ t.paging.voiceIn = s.paging.voiceIn
            ++ (if s.voices.tab[v].origin = some .paging then [.ended s.voices.tab[v].token (.fault x.page timeout)] else [])
            ++ (if v = 15 then [.idle] else [])
        ∧ t = { s with
            card := t.card, fades := { s.fades with table := t.fades.table }, voices := t.voices
            paging := { s.paging with voiceIn := t.paging.voiceIn }, ports := t.ports })
    ∧ (Unwanted v k x s → ∃ t, exec i s = .next t ∧ UnwantedReadEnds v k x s t)

/-- R92, R52, R56, R57, R58, R184, R48: with no entry running the cue engine takes the show area of a mount or reload: the
list and the snapshots are replaced, the standing cue is the first cue, each setting named once holds its value brought
into range, and each line of the power set that was OFF is ON; a mount leaves the card MOUNTED, a reload clears the safe
flags and is told RELOADED. With an entry running it declines: all that stands, and a reload is told RELOAD ABANDONED.
RELOAD SHOW on a mounted card whose show area has a page to read starts a reload. That SHOW LOADED is set by a reload too
(notes/assumptions/31.md), and that a setting left out keeps its value (notes/assumptions/35.md), are the model's. -/
def Obligations.ShowAreaLoads : Prop :=
  ∀ s : State,
    let told := fun (ports : Vector PortRecord 3) (state : CardState) (event : Nat) =>
      vmapi (fun _ r => if r.subs[(2 : Fin 7)] then enqueueNotice
        { cls := .voice, kind := 5, fields := [f1 state.code, f1 event, f2 s.card.dir.length] } r else r) ports
    (∀ (j : LoadJob) (a : ShowArea), s.card.job = some j → j.offer = some a →
      (s.cues.running = [] → ∃ t, exec .showAreaOffer s = .next t ∧ t.cues.list = a.cues
        ∧ t.cues.standing = a.cues.head?.map (·.number) ∧ t.fades.snaps = a.snaps
        ∧ t.fades.safe = (if j.reload then Vector.replicate 24 (Vector.replicate 96 false) else s.fades.safe)
        ∧ t.card.state = (if j.reload then s.card.state else .mounted) ∧ t.card.showLoaded = true ∧ t.card.job = none
        ∧ (j.reload = true → t.card.dir = s.card.dir)
        ∧ ((a.settings.map (·.1)).Nodup →
            (∀ x ∈ a.settings, 1 ≤ x.1 → x.1 ≤ 60 →
              settingValue x.1 t = max (settingRange x.1).1 (min x.2 (settingRange x.1).2))
            ∧ ∀ n, 1 ≤ n → n ≤ 60 → (∀ x ∈ a.settings, x.1 ≠ n) → settingValue n t = settingValue n s)
        ∧ (∀ l : ZoneId, t.lines.tab[l] = if a.power[l] = true ∧ s.lines.tab[l].power = .off then
            { s.lines.tab[l] with power := .on, present := false, link := .down, nextSeq := 0, good := 0, bad := 0 }
            else s.lines.tab[l])
        ∧ (j.reload = true → (∀ l : ZoneId, a.power[l] = true → s.lines.tab[l].power ≠ .off) →
            ∀ p : PortId, t.ports[p].notices = (told s.ports s.card.state 9)[p].notices)
        ∧ t.cues.running = [] ∧ t.alarm = s.alarm ∧ t.fades.table = s.fades.table ∧ t.mix.xpt = s.mix.xpt
        ∧ t.mix.master = s.mix.master ∧ t.mix.mute = s.mix.mute)
      ∧ (s.cues.running ≠ [] → NoneSettled s →
        ∃ t, exec .showAreaOffer s = .next t ∧ t.cues = s.cues ∧ t.fades = s.fades
          ∧ t.card.state = (if j.reload then s.card.state else .mounted) ∧ t.card.showLoaded = s.card.showLoaded
          ∧ t.card.job = none
          ∧ (j.reload = true → t.card.dir = s.card.dir ∧ t.ports = told s.ports s.card.state 10)
          ∧ t = { s with card := t.card, voices := t.voices, ports := t.ports }))
    ∧ ∀ (p : PortId) (tag : Nat) (h : CardHeader),
      let i := Instr.reloadShow p tag
      handed p i s = true → hasRight p .system s = true → s.card.state = .mounted → s.cues.running = [] →
      s.card.job = none → s.card.header = some h → 0 < h.showCount →
      ∃ t, exec i s = .next t ∧ t.card.state = .mounted
        ∧ (∃ j, t.card.job = some j ∧ j.reload = true)
        ∧ t = { s with card := t.card, voices := t.voices, ports := t.ports }
        ∧ t.ports[p].replies =
            s.ports[p].replies ++ [{ tag := tag, kind := 16, outcome := .accepted, fields := [] }]

/-- R77, R64, R65: PLAY starts on the lowest open voice, an IDLE one, V16 only while PAGING RESERVE is OFF: PRIMING at frame
0, its quota of 2 pages mono or 4 stereo taken from the pool, the port as origin; the reply carries the voice. With no fade-in
the level is snapped; with one, and room in the table, it is 0 and a record takes it to the level asked for, and with a full
table it is snapped and the port told SNAPPED. -/
def Obligations.PlayStarts : Prop :=
  ∀ (p : PortId) (tag clip vtag code fadeIn loop : Nat) (v : VoiceId) (c : ClipEntry) (s : State),
    let i := Instr.play p tag clip vtag code fadeIn loop
    let fine := 16 * min code 240
    let pages := if c.channels = 2 then 4 else 2
    handed p i s = true → hasRight p .cue s = true →
    1 ≤ clip → clip ≤ 1024 → vtag ≠ 0 → loop ≤ 1 → s.voices.alarm.standing = false → s.card.state = .mounted →
    clipOf clip s = some c → s.voices.tab[v].state = .idle → (v = 15 → s.paging.reserve = false) →
    (∀ u : VoiceId, u < v → s.voices.tab[u].state ≠ .idle) → pages ≤ s.voices.free → s.cues.running = [] →
    VoiceFadeLaw s →
    ∃ t, exec i s = .next t
      ∧ t.voices.tab[v].state = .priming ∧ t.voices.tab[v].clip = clip ∧ t.voices.tab[v].info = c
      ∧ t.voices.tab[v].tag = some vtag ∧ t.voices.tab[v].startTag = vtag ∧ t.voices.tab[v].pos = 0
      ∧ t.voices.tab[v].looping = (loop == 1 && c.loop.isSome) ∧ t.voices.tab[v].origin = some (.port p)
      ∧ t.voices.tab[v].ring.length = pages
      ∧ t.voices.free = s.voices.free - pages
      ∧ (fadeIn = 0 → t.voices.tab[v].level = fine ∧ t.fades.table = s.fades.table)
      ∧ (fadeIn ≠ 0 → s.fades.table.length < 64 → t.voices.tab[v].level = 0
        ∧ t.fades.table = s.fades.table ++ [{
            body := .single (.voice v) 0 fine, dur := min fadeIn 600000, n := 0, origin := .port p }])
      ∧ (fadeIn ≠ 0 → 64 ≤ s.fades.table.length → t.voices.tab[v].level = fine ∧ t.fades.table = s.fades.table
        ∧ t.ports[p].notices = (enqueueNotice
            { cls := .mix, kind := 1, fields := f1 0 :: ftarget (.voice v) ++ [f1 3, f2 fine] } s.ports[p]).notices)
      ∧ (∀ u : VoiceId, u ≠ v → t.voices.tab[u].state = s.voices.tab[u].state
          ∧ t.voices.tab[u].level = s.voices.tab[u].level)
      ∧ t = { s with
          card := t.card, fades := { s.fades with table := t.fades.table }, voices := t.voices, ports := t.ports }
      ∧ t.ports[p].replies = s.ports[p].replies ++ [{
          tag := tag, kind := 18, fields := [f1 (v.val + 1)]
          outcome := if 240 < code ∨ 600000 < fadeIn then .clamped else .accepted }]

/-- R71, R74, R34: STOP of the one voice with its tag. PRIMING, with no read of the card left, it ends, told VOICE ENDED,
STOPPED, and its pages return; PLAYING, with room in the fade table, it enters STOPPING with its tag cleared and a stop fade to 0 from its
present level, and a fade that drove the level is taken over. STOP of several voices of one tag stops each, and the reply
counts them. -/
def Obligations.StopCompletes : Prop :=
  ∀ (p : PortId) (tag vtag time : Nat) (s : State),
    let i := Instr.stop p tag vtag time
    let replied := fun (t : State) (count : Nat) => t.ports[p].replies = s.ports[p].replies ++ [{
      tag := tag, kind := 19, fields := [f1 count], outcome := if 600000 < time then .clamped else .accepted }]
    handed p i s = true → hasRight p .cue s = true → vtag ≠ 0 → s.cues.running = [] →
    (∀ v : VoiceId, s.voices.tab[v].tag = some vtag → (∀ u : VoiceId, u ≠ v → s.voices.tab[u].tag ≠ some vtag) →
      let stop : FadeRecord := { body := .single (.voice v) s.voices.tab[v].level 0
                                 dur := min time 600000, n := 0, origin := .voiceStop v }
      (s.voices.tab[v].state = .priming → s.card.reader = none →
        ∃ t, exec i s = .next t ∧ t.voices.tab[v].state = .idle ∧ t.voices.tab[v].tag = none
          ∧ t.voices.free = s.voices.free + s.voices.tab[v].ring.length
          ∧ t.voices.tab[v].level = s.voices.tab[v].level
          ∧ ((∀ r ∈ s.fades.table, drives (.voice v) r = true → ∀ q, r.origin ≠ .port q) → ∀ q : PortId,
              t.ports[q].notices = (afterNotice .voice 2 (statedVoiceEnd v s.voices.tab[v] 1) s.ports)[q].notices)
          ∧ (∀ u : VoiceId, u ≠ v → t.voices.tab[u] = { s.voices.tab[u] with ring := t.voices.tab[u].ring })
          ∧ t = { s with
              card := t.card, fades := { s.fades with table := t.fades.table }, voices := t.voices
              paging := { s.paging with voiceIn := t.paging.voiceIn }, ports := t.ports }
          ∧ replied t 1)
      ∧ (s.voices.tab[v].state = .playing → s.fades.table.length < 64 → driven (.voice v) s = false →
        ∃ t, exec i s = .next t ∧ t.voices.tab[v].state = .stopping ∧ t.voices.tab[v].tag = none
          ∧ t.fades.table = s.fades.table ++ [stop]
          ∧ (∀ u : VoiceId, u ≠ v → t.voices.tab[u].state = s.voices.tab[u].state
            ∧ t.voices.tab[u].tag = s.voices.tab[u].tag)
          ∧ t = { s with
              card := t.card, fades := { s.fades with table := t.fades.table }, voices := t.voices, ports := t.ports }
          ∧ replied t 1)
      ∧ ∀ (before after : List FadeRecord) (a b d n : Nat) (q : PortId), s.voices.tab[v].state = .playing →
        s.fades.table = before ++ { body := .single (.voice v) a b, dur := d, n := n, origin := .port q } :: after →
        (∀ r ∈ before ++ after, drives (.voice v) r = false) → (before ++ after).length < 64 →
        ∃ t, exec i s = .next t ∧ t.voices.tab[v].state = .stopping ∧ t.voices.tab[v].tag = none
          ∧ t.fades.table = before ++ after ++ [stop]
          ∧ t.ports[q].notices = (enqueueNotice
              { cls := .mix, kind := 1, fields := f1 0 :: ftarget (.voice v) ++ [f1 1, f2 s.voices.tab[v].level] }
              s.ports[q]).notices
          ∧ t = { s with
              card := t.card, fades := { s.fades with table := t.fades.table }, voices := t.voices, ports := t.ports }
          ∧ replied t 1)
    ∧ (VoiceFadeLaw s → s.fades.table.length ≤ 48 →
      let stopped := (List.finRange 16).filter fun v => s.voices.tab[v].tag == some vtag
        && (s.voices.tab[v].state == .priming || s.voices.tab[v].state == .playing)
      ∃ t, exec i s = .next t
        ∧ (∀ v ∈ stopped, t.voices.tab[v].tag = none
          ∧ (s.voices.tab[v].state = .priming → t.voices.tab[v].state = .idle ∨ t.voices.tab[v].state = .draining)
          ∧ (s.voices.tab[v].state = .playing → t.voices.tab[v].state = .stopping
            ∧ { body := .single (.voice v) s.voices.tab[v].level 0
                dur := min time 600000, n := 0, origin := .voiceStop v } ∈ t.fades.table))
        ∧ (∀ v : VoiceId, v ∉ stopped → t.voices.tab[v] = { s.voices.tab[v] with ring := t.voices.tab[v].ring })
        ∧ replied t stopped.length
        ∧ t = { s with
            card := t.card, fades := { s.fades with table := t.fades.table }, voices := t.voices
            paging := { s.paging with voiceIn := t.paging.voiceIn }, ports := t.ports })

/-- R70: RELEASE disengages the loop of the voices that have its tag and moves no play position. Of a PLAYING voice of two
slots, the second asked for at or after a wrap, the page after the first slot's is asked for instead: at once where that
slot was FILLED or REQUESTED, once its read is done where it was IN FLIGHT, and nowhere where the clip has no more. -/
def Obligations.ReleaseDisengages : Prop :=
  ∀ (p : PortId) (tag vtag : Nat) (s : State), handed p (.release p tag vtag) s = true → hasRight p .cue s = true →
    vtag ≠ 0 → s.cues.running = [] → ∃ t, exec (.release p tag vtag) s = .next t
      ∧ t = { s with
          card := t.card, voices := t.voices, paging := { s.paging with voiceIn := t.paging.voiceIn }, ports := t.ports }
      ∧ (∀ v : VoiceId, t.voices.tab[v].pos = s.voices.tab[v].pos ∧ t.voices.tab[v].tag = s.voices.tab[v].tag
        ∧ t.voices.tab[v].looping = (s.voices.tab[v].looping && !(s.voices.tab[v].tag == some vtag
            && (s.voices.tab[v].state == .priming || s.voices.tab[v].state == .playing))))
      ∧ ∀ (v : VoiceId) (x y : Slot),
        let r := s.voices.tab[v]
        let r' := t.voices.tab[v]
        let frames := if r.info.channels = 2 then 512 else 1024
        let more := x.page + 1 < (r.info.length + frames - 1) / frames
        r.tag = some vtag → r.state = .playing → r.looping = true → r.cur = 0 → r.ring = [x, y] → x.wraps = 0 →
        x.state = .filled → x.stale = false → 0 < y.wraps → y.stale = false → s.card.reader.isSome = true →
        r'.ring[0]? = some x
        ∧ (y.state = .filled ∨ y.state = .requested →
          (more → r'.ring[1]? = some { state := .requested, page := x.page + 1, wraps := 0, stale := false, again := none
                                       words := [] }
            ∧ t.card.queue.filter (fun e => e.voice == v && e.slot == 1) = [{ voice := v, slot := 1, page := x.page + 1 }])
          ∧ (¬more → (r'.ring[1]?).map (·.state) = some .empty
            ∧ t.card.queue.filter (fun e => e.voice == v && e.slot == 1) = []))
        ∧ (y.state = .inFlight → r'.ring[1]? = some { y with
            stale := true, wraps := 0, again := if more then some (x.page + 1) else none })

/-! ### Cue edits -/

/-- R86, R87, R85: CUE OPEN makes the port's draft, new or a copy of the cue of its number; CUE ADD places an action after
every action of no greater offset; CUE DROP removes one. Each touches that draft alone. -/
def Obligations.CueDraftEdits : Prop :=
  ∀ (p : PortId) (tag : Nat) (s : State), hasRight p .edit s = true →
    (∀ (number prewait mode delay : Nat) (label : List Nat) (copy : Bool),
      let i := Instr.cueOpen p tag number prewait mode delay label copy.toNat
      let replaced := decide (600000 < prewait ∨ mode = 1 ∧ 600000 < delay)
      handed p i s = true → 1 ≤ number → number ≤ 9999 → label.length ≤ 24 → (∀ c ∈ label, 32 ≤ c ∧ c ≤ 126) →
      mode ≤ 2 →
      (copy = true → cueOf number s = none → exec i s = .next (answer p tag 22 i { outcome := .noSuch } s))
      ∧ ∀ as : List CueAction, (copy = false → as = []) →
        (copy = true → ∃ c, cueOf number s = some c ∧ as = c.actions) →
        exec i s = .next (answer p tag 22 i { outcome := if replaced then .clamped else .accepted }
          { s with cues := { s.cues with drafts := upd s.cues.drafts p (some
              { cue := { number := number, label := label, prewait := min prewait 600000, actions := as
                         follow := if mode = 0 then .none else if mode = 1 then .continue (min delay 600000) else .follow }
                replaced := replaced }) } }))
    ∧ (∀ (offset : Nat) (raw : RawAction) (a : Action) (clamped : Bool) (d : Draft),
      let i := Instr.cueAdd p tag offset raw
      let before := d.cue.actions.takeWhile fun b => decide (b.offset ≤ min offset 600000)
      let replaced := clamped || decide (600000 < offset)
      handed p i s = true → s.cues.drafts[p] = some d → d.cue.actions.length < 32 → actionOf raw = some (a, clamped) →
      exec i s = .next (answer p tag 23 i
        { outcome := if replaced then .clamped else .accepted, fields := [f1 (before.length + 1)] }
        { s with cues := { s.cues with drafts := upd s.cues.drafts p (some
            { cue := { d.cue with
                actions := before ++ { offset := min offset 600000, act := a } :: d.cue.actions.drop before.length }
              replaced := d.replaced || replaced }) } }))
    ∧ (∀ (position : Nat) (d : Draft),
      let i := Instr.cueDrop p tag position
      handed p i s = true → s.cues.drafts[p] = some d → 1 ≤ position → position ≤ 32 →
      position ≤ d.cue.actions.length →
      exec i s = .next (answer p tag 24 i { outcome := .accepted }
        { s with cues := { s.cues with drafts := upd s.cues.drafts p (some
            { d with cue := { d.cue with actions := d.cue.actions.eraseIdx (position - 1) } }) } }))

/-- R88, R89, R90: CUE PUT enters the draft's cue, new or in place of the cue of its number, moves no standing cue, and
keeps the list ascending; CUE DELETE removes a cue and moves the standing cue on only from the cue deleted. END as cue
number 0 in the reply of CUE DELETE is the model's (notes/assumptions/45.md). -/
def Obligations.CuePutAndDelete : Prop :=
  ∀ (p : PortId) (tag : Nat) (s : State), hasRight p .edit s = true →
    (∀ d : Draft,
      let i := Instr.cuePut p tag
      let n := d.cue.number
      handed p i s = true → s.cues.drafts[p] = some d → d.cue.actions ≠ [] → running n s = false →
      (cueOf n s).isSome ∨ s.cues.list.length < 1000 →
      poolUse (s.cues.list.filter fun c => c.number ≠ n) + d.cue.actions.length ≤ 8192 →
      ∃ t, exec i s = .next t ∧ cueOf n t = some d.cue ∧ (∀ m, m ≠ n → cueOf m t = cueOf m s)
        ∧ (ascending s.cues.list = true → ascending t.cues.list = true)
        ∧ t.cues = { s.cues with list := t.cues.list, drafts := upd s.cues.drafts p none }
        ∧ t = { s with cues := t.cues, ports := t.ports }
        ∧ t.ports[p].replies = s.ports[p].replies ++ [{
            tag := tag, kind := 25
            outcome := if d.replaced then .clamped else .accepted
            fields := [f2 n, f2 (8192 - poolUse t.cues.list)] }])
    ∧ (∀ n : Nat,
      let i := Instr.cueDelete p tag n
      handed p i s = true → 1 ≤ n → n ≤ 9999 → (cueOf n s).isSome → running n s = false →
      ∃ t, exec i s = .next t ∧ cueOf n t = none ∧ (∀ m, m ≠ n → cueOf m t = cueOf m s)
        ∧ t.cues = { s.cues with
            list := t.cues.list
            standing := if s.cues.standing = some n then cueAfter n s.cues.list else s.cues.standing }
        ∧ t = { s with cues := t.cues, ports := t.ports }
        ∧ t.ports[p].replies = s.ports[p].replies ++ [{
            tag := tag, kind := 26, outcome := .accepted
            fields := [f2 (t.cues.standing.getD 0)] }])

/-! ### Authority, the standing cue and running cues -/

/-- R95, R96, R97, R100: TAKE GO takes a free authority, keeps its own, is refused HELD, and moves another's by force with
SYSTEM, telling both ports; RELEASE GO and STANDBY are the holder's alone. The codes of AUTHORITY's causes are the model's
(notes/assumptions/13.md). -/
def Obligations.AuthorityAndStandby : Prop :=
  ∀ (p : PortId) (tag : Nat) (s : State),
    (∀ force : Bool,
      let i := Instr.takeGo p tag force.toNat
      let yes : Answer := { outcome := .accepted, fields := [f1 (p.val + 1)] }
      handed p i s = true →
      (hasRight p .cue s = false → exec i s = .next (answer p tag 28 i { outcome := .notPermitted } s))
      ∧ (hasRight p .cue s = true → s.cues.holder = none → exec i s = .next (answer p tag 28 i yes
        { s with
          cues := { s.cues with holder := some p }
          ports := vmapi (fun _ r => if r.subs[(0 : Fin 7)] then enqueueNotice
            { cls := .cue, kind := 5, fields := [f1 0, f1 (p.val + 1), f1 0] } r else r) s.ports }))
      ∧ (hasRight p .cue s = true → s.cues.holder = some p → exec i s = .next (answer p tag 28 i yes s))
      ∧ ∀ q : PortId, hasRight p .cue s = true → q ≠ p → s.cues.holder = some q →
        (force = true → hasRight p .system s = true → exec i s = .next (answer p tag 28 i yes
          { s with
            cues := { s.cues with holder := some p }
            ports := vmapi (fun k r => if r.subs[(0 : Fin 7)] || k == q || k == p then enqueueNotice
              { cls := .cue, kind := 5, fields := [f1 (q.val + 1), f1 (p.val + 1), f1 2] } r else r) s.ports }))
        ∧ (force = false ∨ hasRight p .system s = false →
          exec i s = .next (answer p tag 28 i { outcome := .held, fields := [f1 (q.val + 1)] } s)))
    ∧ (let i := Instr.releaseGo p tag
      handed p i s = true →
      (s.cues.holder = some p → exec i s = .next (answer p tag 29 i { outcome := .accepted }
        { s with
          cues := { s.cues with holder := none }
          ports := vmapi (fun _ r => if r.subs[(0 : Fin 7)] then enqueueNotice
            { cls := .cue, kind := 5, fields := [f1 (p.val + 1), f1 0, f1 1] } r else r) s.ports }))
      ∧ (s.cues.holder ≠ some p → exec i s = .next (answer p tag 29 i { outcome := .notHolder } s)))
    ∧ ∀ n : Nat,
      let i := Instr.standby p tag n
      let passes := 1 ≤ n ∧ n ≤ 9999 ∧ hasRight p .cue s = true
      handed p i s = true →
      (n < 1 ∨ 9999 < n → exec i s = .next (answer p tag 30 i { outcome := .badArgument } s))
      ∧ (1 ≤ n → n ≤ 9999 → hasRight p .cue s = false →
        exec i s = .next (answer p tag 30 i { outcome := .notPermitted } s))
      ∧ (passes → s.cues.holder ≠ some p → exec i s = .next (answer p tag 30 i { outcome := .notHolder } s))
      ∧ (passes → s.cues.holder = some p → cueOf n s = none →
        exec i s = .next (answer p tag 30 i { outcome := .noSuch } s))
      ∧ (passes → s.cues.holder = some p → (cueOf n s).isSome →
        exec i s = .next (answer p tag 30 i { outcome := .accepted, fields := [f2 n] }
          { s with cues := { s.cues with standing := some n } }))

/-- R101: BACK, over a cue list in ascending order that holds the standing cue (R79). A reply carries the standing cue
after the request where BACK is carried out; that a refusal AT_START carries none is the model's choice
(notes/assumptions/53.md). -/
def Obligations.BackLaw : Prop :=
  ∀ (p : PortId) (tag : Nat) (s : State),
    let i := Instr.back p tag
    handed p i s = true →
    (hasRight p .cue s = false → exec i s = .next (answer p tag 31 i { outcome := .notPermitted } s))
    ∧ (hasRight p .cue s = true → s.cues.holder ≠ some p →
        exec i s = .next (answer p tag 31 i { outcome := .notHolder } s))
    ∧ (hasRight p .cue s = true → s.cues.holder = some p →
        (s.cues.standing = none → s.cues.list = [] → exec i s = .next (answer p tag 31 i { outcome := .atStart } s))
        ∧ (∀ (cs : List Cue) (c : Cue), s.cues.standing = none → s.cues.list = cs ++ [c] →
            exec i s = .next (answer p tag 31 i { outcome := .accepted, fields := [f2 c.number] }
              { s with cues := { s.cues with standing := some c.number } }))
        ∧ (∀ (c : Cue) (cs : List Cue), s.cues.standing = some c.number → ascending s.cues.list = true →
            s.cues.list = c :: cs → exec i s = .next (answer p tag 31 i { outcome := .atStart } s))
        ∧ ∀ (cs ds : List Cue) (b c : Cue), s.cues.standing = some c.number → ascending s.cues.list = true →
            s.cues.list = cs ++ b :: c :: ds →
            exec i s = .next (answer p tag 31 i { outcome := .accepted, fields := [f2 b.number] }
              { s with cues := { s.cues with standing := some b.number } }))

/-- R102, R103, R99, R107, R111, R113, R114: a GO that passes fires the standing cue, told CUE FIRED, with the standing cue
one on and the guard started. A cue of pre-wait above 0 waits in PREWAIT at the tail; one of pre-wait 0 is ACTIVE at once,
issues its actions of offset 0, and with nothing outstanding is complete; a continue of delay 0 is taken at once, here
abandoned AT END. A GO that is refused changes nothing but the port's request and reply. In each case the card and the
voices are moved only by the reader's next read. The codes of CUE COMPLETE's ending and of AT END (notes/assumptions/13.md),
and END as cue number 0 (notes/assumptions/45.md), are the model's. -/
def Obligations.GoFires : Prop :=
  ∀ (p : PortId) (tag : Nat) (s : State),
    let i := Instr.go p tag
    handed p i s = true → NoneSettled s →
    (∀ (n : Nat) (c : Cue), hasRight p .cue s = true → s.cues.alarm.standing = false → s.cues.holder = some p →
      s.cues.guard = none → s.cues.standing = some n → cueOf n s = some c → running n s = false →
      s.cues.running.length < 16 →
      let after := cueAfter n s.cues.list
      let guard : Option Nat := if s.cues.goGuard = 0 then none else some (48 * s.cues.goGuard)
      let entry : Option Bool → RunEntry := fun cont =>
        { cue := n, state := .prewait, clock := 0, next := 1, out := 0, cont := cont, origin := some p, issued := 0
          snapped := 0, failed := 0 }
      let told : Nat → List Field → PortRecord → PortRecord := fun kind fields r =>
        if r.subs[(0 : Fin 7)] then enqueueNotice { cls := .cue, kind := kind, fields := fields } r else r
      let fired := told 1 [f2 n, .text c.label, f1 p.val, f2 0, f2 (after.getD 0)]
      let done : (PortRecord → PortRecord) → (State → State) → Prop := fun notices effect =>
        ∃ t, exec i s = .next t ∧ OnlyReads (answer p tag 32 i
          { outcome := .accepted, fields := [f2 n, f2 (after.getD 0)] }
          (effect { s with ports := vmapi (fun _ r => notices r) s.ports })) t
      (0 < c.prewait → c.follow ≠ .continue 0 → done fired fun u => { u with cues := { u.cues with
          running := u.cues.running ++ [entry (if c.follow = .none ∨ c.follow = .follow then none else some true)]
          standing := after, guard := guard } })
      ∧ (0 < c.prewait → c.follow = .continue 0 → after = none →
          done (fun r => told 3 [f2 n, f1 0] (fired r)) fun u => { u with cues := { u.cues with
            running := u.cues.running ++ [entry (some false)], standing := none, guard := guard } })
      ∧ ∀ m : MixId, c.prewait = 0 → c.follow = .none → c.actions = [{ offset := 0, act := .mute m true }] →
          done (fun r => told 2 [f2 n, f1 0, f1 1, f1 0, f1 0] (fired r)) fun u => { u with
            mix := { u.mix with mute := upd u.mix.mute m true }
            cues := { u.cues with standing := after, guard := guard } })
    ∧ ∀ o : ReqOutcome,
      (o = .notPermitted ∧ hasRight p .cue s = false)
        ∨ (hasRight p .cue s = true ∧ o = .alarm ∧ s.cues.alarm.standing = true)
        ∨ (hasRight p .cue s = true ∧ s.cues.alarm.standing = false ∧ o = .notHolder ∧ s.cues.holder ≠ some p)
        ∨ (hasRight p .cue s = true ∧ s.cues.alarm.standing = false ∧ s.cues.holder = some p
          ∧ ((o = .goGuard ∧ s.cues.guard.isSome)
            ∨ (o = .atEnd ∧ s.cues.guard = none ∧ s.cues.standing = none)
            ∨ ∃ n, s.cues.guard = none ∧ s.cues.standing = some n
              ∧ ((o = .inUse ∧ running n s = true)
                ∨ (o = .full ∧ running n s = false ∧ 16 ≤ s.cues.running.length)))) →
      ∃ t, exec i s = .next t ∧ OnlyReads (answer p tag 32 i { outcome := o } s) t

/-- R116, R117: STOP ALL and SHOW RESET empty the running list. STOP ALL removes the cues' fades and stops every voice
that is not the paging unit's: PRIMING it ends, PLAYING it gets a stop fade over PANIC FADE from its present level; the
other records stay. SHOW RESET removes every fade but the paging unit's, ends those voices, clears the guard and sets the
standing cue to the first cue. Each entry is told CUE COMPLETE, STOPPED or RESET, in firing order, and then a voice that ends
VOICE ENDED. The codes of those endings (notes/assumptions/13.md), and END as cue number 0 (notes/assumptions/45.md), are the
model's. -/
def Obligations.StopAllAndShowReset : Prop :=
  ∀ (p : PortId) (tag : Nat) (s : State),
    let completed : Nat → Vector PortRecord 3 := fun ending => s.cues.running.foldl (fun ports e =>
      afterNotice .cue 2 [f2 e.cue, f1 ending, f1 e.issued, f1 e.snapped, f1 e.failed] ports) s.ports
    let untold : VoiceId → Prop := fun v => ∀ r ∈ s.fades.table, drives (.voice v) r = true → ∀ q, r.origin ≠ .port q
    (let i := Instr.stopAll p tag
     let stopped := (List.finRange 16).filter fun v =>
       (s.voices.tab[v].state == .priming || s.voices.tab[v].state == .playing) && s.voices.tab[v].origin != some .paging
     handed p i s = true → hasRight p .cue s = true →
     ∃ t, exec i s = .next t ∧ t.cues = { s.cues with running := [] }
       ∧ (∀ r ∈ t.fades.table, ∀ n, r.origin ≠ .entry n)
       ∧ (∀ v ∈ stopped, t.voices.tab[v].state ≠ .priming ∧ t.voices.tab[v].state ≠ .playing)
       ∧ (VoiceFadeLaw s → s.fades.table.length ≤ 48 →
         (∀ v ∈ stopped, s.voices.tab[v].state = .playing → t.voices.tab[v].state = .stopping)
         ∧ (∀ u : Target, levelOf u t = levelOf u s)
         ∧ ∀ r : FadeRecord, r ∈ t.fades.table ↔
             (r ∈ s.fades.table ∧ (∀ n, r.origin ≠ .entry n) ∧ ∀ v ∈ stopped, drives (.voice v) r = false)
             ∨ ∃ v ∈ stopped, s.voices.tab[v].state = .playing
               ∧ r = { body := .single (.voice v) s.voices.tab[v].level 0
                       dur := s.cues.panicFade, n := 0, origin := .voiceStop v })
       ∧ t = { s with
           card := t.card, fades := { s.fades with table := t.fades.table }, voices := t.voices, cues := t.cues
           paging := { s.paging with voiceIn := t.paging.voiceIn }, ports := t.ports }
       ∧ t.ports[p].replies = s.ports[p].replies ++ [{
           tag := tag, kind := 33, outcome := .accepted
           fields := [f1 s.cues.running.length, f1 stopped.length] }]
       ∧ (stopped = [] → ∀ q : PortId, t.ports[q].notices = (completed 1)[q].notices)
       ∧ ∀ v : VoiceId, stopped = [v] → s.voices.tab[v].state = .priming → untold v → ∀ q : PortId,
           t.ports[q].notices = (afterNotice .voice 2 (statedVoiceEnd v s.voices.tab[v] 1) (completed 1))[q].notices)
    ∧ (let i := Instr.showReset p tag
       let first := s.cues.list.head?.map (·.number)
       handed p i s = true → hasRight p .system s = true →
       ∃ t, exec i s = .next t ∧ t.cues = { s.cues with running := [], guard := none, standing := first }
         ∧ (∀ r ∈ t.fades.table, ∃ z, r.origin = .paging z)
         ∧ (∀ r ∈ s.fades.table, ∀ z y a b, r.origin = .paging z → r.body = .single (.zoneDuck y) a b →
             r ∈ t.fades.table)
         ∧ (∀ v : VoiceId, s.voices.tab[v].origin ≠ some .paging →
             t.voices.tab[v].state = .idle ∨ t.voices.tab[v].state = .draining)
         ∧ t = { s with
             card := t.card, fades := { s.fades with table := t.fades.table }, voices := t.voices, cues := t.cues
             paging := { s.paging with voiceIn := t.paging.voiceIn }, ports := t.ports }
         ∧ t.ports[p].replies = s.ports[p].replies ++ [{
             tag := tag, kind := 34, outcome := .accepted
             fields := [f2 (first.getD 0)] }]
         ∧ (let rests : VoiceId → Prop := fun u =>
              s.voices.tab[u].state = .idle ∨ s.voices.tab[u].state = .draining ∨ s.voices.tab[u].origin = some .paging
            (∀ r ∈ s.fades.table, ∀ q, r.origin ≠ .port q) → (∀ r ∈ s.fades.table, ∀ v, r.origin ≠ .voiceStop v) →
            ((∀ u, rests u) → ∀ q : PortId, t.ports[q].notices = (completed 2)[q].notices)
            ∧ ∀ v : VoiceId, ¬rests v → (∀ u, u ≠ v → rests u) → ∀ q : PortId,
              t.ports[q].notices = (afterNotice .voice 2 (statedVoiceEnd v s.voices.tab[v] 2) (completed 2))[q].notices))

/-- R107, R108, R112, R114, R99: the clocks of a running entry that is alone in the running list. PREWAIT ends at the
pre-wait; an action of the list comes due and is issued and counted; a continue fires the standing cue, or is abandoned
AT END; the guard's expiry clears the guard. That PREWAIT_END and ACTION_DUE do nothing before they are due is the
model's choice (notes/assumptions/2.md); END as cue number 0 in CUE FIRED (notes/assumptions/45.md) and the code of AT END
(notes/assumptions/13.md) are its reading. -/
def Obligations.CueClocks : Prop :=
  ∀ s : State,
    (∀ (e : RunEntry) (c : Cue) (a : CueAction) (as : List CueAction), s.cues.running = [e] → cueOf e.cue s = some c →
      e.state = .prewait → e.next = 1 → c.actions = a :: as → 0 < a.offset →
      (e.clock < 48 * c.prewait → exec (.prewaitEnd e.cue) s = .next s)
      ∧ (48 * c.prewait ≤ e.clock → ∃ t, exec (.prewaitEnd e.cue) s = .next t
          ∧ OnlyReads { s with cues := { s.cues with running := [{ e with state := .active }] } } t))
    ∧ (∀ (e : RunEntry) (c : Cue) (off : Nat) (m : MixId), s.cues.running = [e] → cueOf e.cue s = some c →
      e.state = .active → c.actions[e.next - 1]? = some { offset := off, act := .mute m true } →
      e.next < c.actions.length → 1 ≤ e.next →
      (e.clock < 48 * (c.prewait + off) → exec (.actionDue e.cue) s = .next s)
      ∧ (48 * (c.prewait + off) ≤ e.clock → ∃ t, exec (.actionDue e.cue) s = .next t
          ∧ OnlyReads { s with
              mix := { s.mix with mute := upd s.mix.mute m true }
              cues := { s.cues with running := [{ e with next := e.next + 1, issued := e.issued + 1 }] } } t))
    ∧ (∀ (e : RunEntry) (c : Cue) (d : Nat), s.cues.running = [e] → cueOf e.cue s = some c →
      e.state ≠ .settling → c.follow = .continue d → e.cont = some true → 48 * d ≤ e.clock →
      (cueAfter e.cue s.cues.list = none → ∃ t, exec (.continueDue e.cue) s = .next t
        ∧ OnlyReads { s with
            cues := { s.cues with running := [{ e with cont := some false }] }
            ports := vmapi (fun _ r => if r.subs[(0 : Fin 7)] then
              enqueueNotice { cls := .cue, kind := 3, fields := [f2 e.cue, f1 0] } r else r) s.ports } t)
      ∧ ∀ (n : Nat) (c' : Cue), cueAfter e.cue s.cues.list = some n → s.cues.standing = some n →
        cueOf n s = some c' → 0 < c'.prewait → c'.follow = .none →
        ∃ t, exec (.continueDue e.cue) s = .next t
          ∧ OnlyReads { s with
              cues := { s.cues with
                standing := cueAfter n s.cues.list
                running := [{ e with cont := some false },
                  { cue := n, state := .prewait, clock := 0, next := 1, out := 0, cont := none, origin := none
                    issued := 0, snapped := 0, failed := 0 }] }
              ports := vmapi (fun _ r => if r.subs[(0 : Fin 7)] then enqueueNotice
                { cls := .cue, kind := 1, fields := [f2 n, .text c'.label, f1 4, f2 0,
                    f2 ((cueAfter n s.cues.list).getD 0)] } r else r) s.ports } t)
    ∧ (s.cues.guard = some 0 → exec .guardExpiry s = .next { s with cues := { s.cues with guard := none } })

/-- R108, R109 with R19, R21, R29, R34, R36, R47, R35, R179: a MUTE, LEVEL, RECALL or LAMP action, due and stored at the
position named, of the one running entry, which has a later action left, as its block takes it: its effect, and the
entry's counts. A fade counts as outstanding; one that finds the table full is written at once and told SNAPPED; a record
of a port that drove the target leaves, told TAKEN OVER; an unmute that the alarm bars, and a recall of an EMPTY snapshot,
fail and are told. A lamp joins the queue of a link in UP, and leaves the outstanding command as it is; where
the line frame event just before read an echo and nothing is queued or out, it goes out with that event, and OFF replaces the
ON of an acknowledge that went out there (R182; what comes together is the model's choice, notes/assumptions/48.md, the code
of REPLACED its reading, notes/assumptions/13.md). -/
def Obligations.LevelCueActions : Prop :=
  ∀ (s : State) (e : RunEntry) (c : Cue), s.cues.running = [e] → cueOf e.cue s = some c → e.state = .active →
    1 ≤ e.next → e.next < c.actions.length →
    let due : Action → Prop := fun a => ∃ off, c.actions[e.next - 1]? = some { offset := off, act := a }
      ∧ 48 * (c.prewait + off) ≤ e.clock
    let counts : Nat → Nat → Nat → CueEngine := fun out snapped failed => { s.cues with running := [{ e with
      next := e.next + 1, issued := e.issued + 1, out := e.out + out, snapped := e.snapped + snapped
      failed := e.failed + failed }] }
    let told : Nat → Nat → Vector PortRecord 3 := fun kind result => vmapi (fun _ r => if r.subs[(0 : Fin 7)] then
      enqueueNotice { cls := .cue, kind := 4, fields := [f2 e.cue, f1 e.next, f1 kind, f1 result] } r else r) s.ports
    (∀ (m : MixId) (on : Bool), due (.mute m on) → ∃ t, exec (.muteAction e.cue e.next m on) s = .next t
      ∧ (on = true ∨ 20 ≤ m.val ∨ s.mix.alarm.standing = false →
          OnlyReads { s with mix := { s.mix with mute := upd s.mix.mute m on }, cues := counts 0 0 0 } t)
      ∧ (on = false → m.val < 20 → s.mix.alarm.standing = true →
          OnlyReads { s with cues := counts 0 0 1, ports := told 5 8 } t))
    ∧ (∀ (k : CueTarget) (g : Target) (code time : Nat), due (.level k code time) →
      (∃ m x, k = .crosspoint m x ∧ g = .crosspoint m x) ∨ (∃ m, k = .master m ∧ g = .master m)
        ∨ (∃ z, k = .zoneProgramme z ∧ g = .zoneProgramme z) →
      let made : List FadeRecord := if time = 0 then [] else
        [{ body := .single g (levelOf g s) (16 * code), dur := time, n := 0, origin := .entry e.cue }]
      ∃ t, exec (.levelAction e.cue e.next k code time) s = .next t
        ∧ (∀ u : Target, u ≠ g → levelOf u t = levelOf u s)
        ∧ (∀ z : ZoneId, t.paging.zones[z] = { s.paging.zones[z] with prog := t.paging.zones[z].prog })
        ∧ (driven g s = false → OnlyReads { s with
            mix := { s.mix with xpt := t.mix.xpt, master := t.mix.master }
            fades := { s.fades with table := t.fades.table }, cues := t.cues
            paging := { s.paging with zones := t.paging.zones }, ports := t.ports } t)
        ∧ (driven g s = false → time = 0 → levelOf g t = 16 * code ∧ t.fades.table = s.fades.table
          ∧ t.cues = counts 0 0 0 ∧ t.ports = s.ports)
        ∧ (driven g s = false → time ≠ 0 → s.fades.table.length < 64 → levelOf g t = levelOf g s
          ∧ t.fades.table = s.fades.table ++ made ∧ t.cues = counts 1 0 0 ∧ t.ports = s.ports)
        ∧ (driven g s = false → time ≠ 0 → 64 ≤ s.fades.table.length → levelOf g t = 16 * code
          ∧ t.fades.table = s.fades.table ∧ t.cues = counts 0 1 0 ∧ t.ports = told 3 1)
        ∧ ∀ (before after : List FadeRecord) (a b d n : Nat) (q : PortId),
          s.fades.table = before ++ { body := .single g a b, dur := d, n := n, origin := .port q } :: after →
          (∀ r ∈ before ++ after, drives g r = false) → (before ++ after).length < 64 →
          t.fades.table = before ++ after ++ made
          ∧ levelOf g t = (if time = 0 then 16 * code else levelOf g s)
          ∧ t.cues = counts (if time = 0 then 0 else 1) 0 0
          ∧ t.ports = upd s.ports q (enqueueNotice
              { cls := .mix, kind := 1, fields := f1 0 :: ftarget g ++ [f1 1, f2 (levelOf g s)] } s.ports[q]))
    ∧ (∀ (vtag code : Nat), due (.level (.voices vtag) code 0) → (∀ v : VoiceId, driven (.voice v) s = false) →
      ∃ t, exec (.levelAction e.cue e.next (.voices vtag) code 0) s = .next t
        ∧ t = { s with card := t.card, voices := { s.voices with tab := t.voices.tab }, cues := counts 0 0 0 }
        ∧ ∀ v : VoiceId, t.voices.tab[v] = { s.voices.tab[v] with
            ring := t.voices.tab[v].ring
            level := if (s.voices.tab[v].state = .priming ∨ s.voices.tab[v].state = .playing)
              ∧ s.voices.tab[v].tag = some vtag then 16 * code else s.voices.tab[v].level })
    ∧ (∀ (m : MixId) (n : Fin 128) (time : Nat) (sn : Snapshot), due (.recall m n time) →
      s.fades.snaps[n] = some sn → s.fades.table = [] → ∃ t, exec (.recallAction e.cue e.next m n time) s = .next t
        ∧ (0 < time → OnlyReads { s with
            fades := { s.fades with table := t.fades.table }, cues := counts 1 0 0 } t
          ∧ ∃ starts engaged, t.fades.table = [{
              body := .mix m n starts sn.levels engaged, dur := time, n := 0, origin := .entry e.cue }]
            ∧ starts[96] = s.mix.master[m] ∧ engaged[96] = true
            ∧ ∀ x : SourceId, starts[x.val] = s.mix.xpt[m][x] ∧ engaged[x.val] = !s.fades.safe[m][x])
        ∧ (time = 0 → OnlyReads { s with
            mix := { s.mix with xpt := t.mix.xpt, master := t.mix.master }, cues := counts 0 0 0 } t
          ∧ levelOf (.master m) t = sn.levels[96]
          ∧ (∀ x : SourceId, levelOf (.crosspoint m x) t =
              if s.fades.safe[m][x] then levelOf (.crosspoint m x) s else sn.levels[x.val])
          ∧ ∀ m' : MixId, m' ≠ m → levelOf (.master m') t = levelOf (.master m') s
            ∧ ∀ x : SourceId, levelOf (.crosspoint m' x) t = levelOf (.crosspoint m' x) s))
    ∧ (∀ (m : MixId) (n : Fin 128) (time : Nat), due (.recall m n time) → s.fades.snaps[n] = none →
      ∃ t, exec (.recallAction e.cue e.next m n time) s = .next t
        ∧ OnlyReads { s with cues := counts 0 0 1, ports := told 4 6 } t)
    ∧ ∀ (z : ZoneId) (st : Lamp), due (.lamp z st) → ∃ t, exec (.lampAction e.cue e.next z st) s = .next t
      ∧ (let zones := upd s.paging.zones z { s.paging.zones[z] with lamp := st }
         let r := s.lines.tab[z]
         (r.link ≠ .up → OnlyReads { s with paging := { s.paging with zones := zones }, cues := counts 0 0 0 } t)
         ∧ (r.link = .up → (∀ x ∈ r.queue, ∀ st' o, x ≠ .lamp st' o) →
             (r.together = .echo → r.queue ≠ [] ∨ r.out ≠ none) →
             (r.together = .acknowledge → st = .off → ∀ k, r.out ≠ some { cmd := .lamp .on .button, seq := k, age := 1 }) →
             OnlyReads { s with
             paging := { s.paging with zones := zones }, cues := counts 0 0 0
             lines := { s.lines with tab := upd s.lines.tab z (
               { r with queue := r.queue ++ [.lamp st (.cue e.cue)] }) } } t)
         ∧ (r.link = .up → r.together = .echo → r.queue = [] → r.out = none →
             t.lines.tab[z] = { r with
               out := some { cmd := .lamp st (.cue e.cue), seq := r.nextSeq, age := 1 }
               nextSeq := (r.nextSeq + 1) % 8, sent := t.lines.tab[z].sent }
             ∧ OnlyReads { s with
                 paging := { s.paging with zones := zones }, cues := counts 0 0 0
                 lines := { s.lines with tab := upd s.lines.tab z t.lines.tab[z] } } t)
         ∧ ∀ k : Nat, r.link = .up → r.together = .acknowledge → st = .off → (∀ x ∈ r.queue, ∀ st' o, x ≠ .lamp st' o) →
             r.out = some { cmd := .lamp .on .button, seq := k, age := 1 } →
             t.lines.tab[z] = { r with
               out := some { cmd := .lamp .off (.cue e.cue), seq := k, age := 1 }
               nextSeq := (k + 1) % 8, sent := t.lines.tab[z].sent }
             ∧ OnlyReads { s with
                 paging := { s.paging with zones := zones }, cues := counts 0 0 0
                 lines := { s.lines with tab := upd s.lines.tab z t.lines.tab[z] }
                 ports := afterNotice .station 3 [f1 (z.val + 1), f1 1, f1 6, f2 0, f1 1] s.ports } t)

/-- R108, R109 with R64, R65, R70, R71, R75, R146, R156: a PLAY, STOP, RELEASE or PAGE action, due and stored at the position
named, of the one running entry, which has a later action left, as its block takes it. A fade-in is a record of the entry
and counts as outstanding, or SNAPPED with a full table; a play that fails, and a page with no room, are told with their
result. A page's id is the next one not in use, and one kept for an alarm page is passed over by the model's reading
(notes/assumptions/15.md). -/
def Obligations.VoiceCueActions : Prop :=
  ∀ (s : State) (e : RunEntry) (c : Cue), s.cues.running = [e] → cueOf e.cue s = some c → e.state = .active →
    1 ≤ e.next → e.next < c.actions.length → VoiceFadeLaw s →
    let due : Action → Prop := fun a => ∃ off, c.actions[e.next - 1]? = some { offset := off, act := a }
      ∧ 48 * (c.prewait + off) ≤ e.clock
    let counts : Nat → Nat → Nat → CueEngine := fun out snapped failed => { s.cues with running := [{ e with
      next := e.next + 1, issued := e.issued + 1, out := e.out + out, snapped := e.snapped + snapped
      failed := e.failed + failed }] }
    let told : Nat → Nat → Vector PortRecord 3 := fun kind result => vmapi (fun _ r => if r.subs[(0 : Fin 7)] then
      enqueueNotice { cls := .cue, kind := 4, fields := [f2 e.cue, f1 e.next, f1 kind, f1 result] } r else r) s.ports
    let pagesOf : ClipEntry → Nat := fun info => if info.channels = 2 then 4 else 2
    (∀ (v : VoiceId) (info : ClipEntry) (clip vtag code fadeIn : Nat) (loop : Bool),
      due (.play clip vtag code fadeIn loop) → s.voices.alarm.standing = false →
      s.card.state = .mounted → clipOf clip s = some info → s.voices.tab[v].state = .idle →
      (v = 15 → s.paging.reserve = false) → (∀ u : VoiceId, u < v → s.voices.tab[u].state ≠ .idle) →
      pagesOf info ≤ s.voices.free →
      ∃ t, exec (.playAction e.cue e.next clip vtag code fadeIn loop) s = .next t
        ∧ t.voices.tab[v].state = .priming ∧ t.voices.tab[v].clip = clip ∧ t.voices.tab[v].tag = some vtag
        ∧ t.voices.tab[v].pos = 0 ∧ t.voices.tab[v].looping = (loop && info.loop.isSome)
        ∧ t.voices.tab[v].origin = some (.entry e.cue) ∧ t.voices.free = s.voices.free - pagesOf info
        ∧ (∀ u : VoiceId, u ≠ v → t.voices.tab[u] = { s.voices.tab[u] with ring := t.voices.tab[u].ring })
        ∧ (fadeIn = 0 → t.voices.tab[v].level = 16 * code ∧ t.fades = s.fades ∧ t.cues = counts 0 0 0
          ∧ t.ports = s.ports)
        ∧ (fadeIn ≠ 0 → s.fades.table.length < 64 → t.voices.tab[v].level = 0
          ∧ t.fades = { s.fades with table := s.fades.table ++ [{
              body := .single (.voice v) 0 (16 * code), dur := fadeIn, n := 0, origin := .entry e.cue }] }
          ∧ t.cues = counts 1 0 0 ∧ t.ports = s.ports)
        ∧ (fadeIn ≠ 0 → 64 ≤ s.fades.table.length → t.voices.tab[v].level = 16 * code ∧ t.fades = s.fades
          ∧ t.cues = counts 0 1 0 ∧ t.ports = told 0 1)
        ∧ t = { s with card := t.card, fades := t.fades, voices := t.voices, cues := t.cues, ports := t.ports })
    ∧ (∀ (clip vtag code fadeIn result : Nat) (loop : Bool), due (.play clip vtag code fadeIn loop) →
      (s.voices.alarm.standing = true ∧ result = 8)
        ∨ (s.voices.alarm.standing = false
          ∧ ((s.card.state ≠ .mounted ∧ result = 5)
            ∨ (s.card.state = .mounted ∧ clipOf clip s = none ∧ result = 4)
            ∨ ∃ info, s.card.state = .mounted ∧ clipOf clip s = some info
              ∧ (((∀ v : VoiceId, s.voices.tab[v].state = .idle → v = 15 ∧ s.paging.reserve = true) ∧ result = 2)
                ∨ ((∃ v : VoiceId, s.voices.tab[v].state = .idle ∧ (v = 15 → s.paging.reserve = false))
                  ∧ s.voices.free < pagesOf info ∧ result = 3)))) →
      ∃ t, exec (.playAction e.cue e.next clip vtag code fadeIn loop) s = .next t
        ∧ OnlyReads { s with cues := counts 0 0 1, ports := told 0 result } t)
    ∧ (∀ (v : VoiceId) (vtag time : Nat), due (.stop vtag time) → s.voices.tab[v].state = .playing →
      s.voices.tab[v].tag = some vtag → (∀ u : VoiceId, u ≠ v → s.voices.tab[u].tag ≠ some vtag) →
      driven (.voice v) s = false → s.fades.table.length < 64 →
      ∃ t, exec (.stopAction e.cue e.next vtag time) s = .next t ∧ t.cues = counts 0 0 0
        ∧ t.voices.tab[v].state = .stopping ∧ t.voices.tab[v].tag = none
        ∧ t.fades.table = s.fades.table ++
            [{ body := .single (.voice v) s.voices.tab[v].level 0, dur := time, n := 0, origin := .voiceStop v }]
        ∧ t = { s with
            fades := { s.fades with table := t.fades.table }, card := t.card, voices := t.voices, cues := t.cues })
    ∧ (∀ vtag : Nat, due (.release vtag) → ∃ t, exec (.releaseAction e.cue e.next vtag) s = .next t
        ∧ t.cues = counts 0 0 0
        ∧ t = { s with
            card := t.card, voices := t.voices, cues := t.cues, paging := { s.paging with voiceIn := t.paging.voiceIn }
            ports := t.ports }
        ∧ ∀ v : VoiceId, t.voices.tab[v].pos = s.voices.tab[v].pos
          ∧ t.voices.tab[v].looping = (s.voices.tab[v].looping && !(s.voices.tab[v].tag == some vtag
              && (s.voices.tab[v].state == .priming || s.voices.tab[v].state == .playing))))
    ∧ ∀ (zones : Vector Bool 16) (clip prio : Nat) (chime all re : Bool), due (.page zones clip prio chime all re) →
      (pageFits s = true → PageLimit s → DuckLaw s → s.paging.alarmIds.length ≤ 200 →
        ∃ t, exec (.pageAction e.cue e.next zones clip prio chime all re) s = .next t ∧ t.cues = counts 0 0 0
          ∧ t = { s with
              fades := { s.fades with table := t.fades.table }, card := t.card, voices := t.voices, cues := t.cues
              paging := t.paging, ports := t.ports }
          ∧ t.paging.lastId = newPageId (roomFor s.paging.pages) s
          ∧ ∃ q, pageOf t.paging.lastId t = some q ∧ q.origin = .cue e.cue ∧ q.prio = prio ∧ q.source = .clip clip
            ∧ q.all = all ∧ q.chime = chime ∧ q.restartable = re
            ∧ ∀ z : ZoneId, (q.wanted[z]).isSome = zones[z])
      ∧ (16 ≤ s.paging.pages.length → (∀ q ∈ s.paging.pages, q.state ≠ .ended) →
        ∃ t, exec (.pageAction e.cue e.next zones clip prio chime all re) s = .next t
          ∧ OnlyReads { s with cues := counts 0 0 1, ports := told 6 7 } t)

/-! ### Talk, zones and pages -/

/-- R128, R129, R138: TALK ON, TALK OFF, TALK LEVEL and ZONE SET each write the one record they name. -/
def Obligations.TalkAndZoneRequests : Prop :=
  ∀ (p : PortId) (tag : Nat) (s : State),
    (∀ mixes : Nat, handed p (.talkOn p tag mixes) s = true → 1 ≤ mixes → mixes < 4096 →
      hasRight p .mix s = true ∨ hasRight p .page s = true → s.ports[p].pageMic ≠ 0 →
      ∃ set : Vector Bool 12, (∀ f : FoldbackId, set[f] = mixes.testBit f.val)
        ∧ exec (.talkOn p tag mixes) s = .next (answer p tag 35 (.talkOn p tag mixes) { outcome := .accepted }
          { s with mix := { s.mix with talk := upd s.mix.talk p (some set) } }))
    ∧ (handed p (.talkOff p tag) s = true →
      exec (.talkOff p tag) s = .next (answer p tag 36 (.talkOff p tag) { outcome := .accepted }
        { s with mix := { s.mix with talk := upd s.mix.talk p none } }))
    ∧ (∀ code : Nat, handed p (.talkLevel p tag code) s = true →
      hasRight p .mix s = true ∨ hasRight p .page s = true →
      exec (.talkLevel p tag code) s = .next (answer p tag 37 (.talkLevel p tag code)
        { outcome := if 240 < code then .clamped else .accepted }
        { s with ports := upd s.ports p { s.ports[p] with talkLevel := min code 240 } }))
    ∧ ∀ (z : ZoneId) (feed code : Nat) (change : Bool) (k : Option (Fin 4)),
      let i := Instr.zoneSet p tag (z.val + 1) feed change.toNat code
      let r := s.paging.zones[z]
      handed p i s = true → hasRight p .mix s = true ∨ hasRight p .page s = true →
      (feed = 0 ∧ k = none) ∨ (∃ j, k = some j ∧ feed = j.val + 1) ∨ (feed = 5 ∧ k = r.feed) →
      exec i s = .next (answer p tag 38 i
        { outcome := if change = true ∧ 240 < code then .clamped else .accepted }
        { s with paging := { s.paging with zones := upd s.paging.zones z (
            { r with feed := k, pageLevel := if change then min code 240 else r.pageLevel }) } })

/-- R147, R148, R149, R151, R152, R156, R146, R162: PAGE, policy ANY. With every listed record ENDED, a live page goes to the
tail, the oldest ENDED record making room in a full list. It carries at once each wanted zone that is FREE with its link UP,
waits for those in GAP, and ends NO ZONE where no wanted link is UP. Where another page carries its one zone, a page of no
higher priority waits; a page of higher priority takes the zone, and the page that lost it restarts, a restartable clip, or
ends PREEMPTED. A clip page waits while V16 is not IDLE with no page holding it; it takes the paging voice from a page of lower
priority, whose zone enters GAP, and waits for one of no lower priority. Each page made or changed is told PAGE STATE, in the order of
the pass; the listed page has a priority of at most 3 (R146, R156, R160), as every step keeps it. The id of a page is the next one not in use, nor kept for an alarm page (notes/assumptions/15.md). That the stop is
asked for also where the play was asked for and not yet taken is the model's choice (notes/assumptions/46.md). -/
def Obligations.PageStarts : Prop :=
  (∀ (p : PortId) (tag zones clip priority : Nat) (chime : Bool) (ch : Fin 64) (s : State),
    let i := Instr.page p tag zones 0 clip priority chime.toNat 1 0
    let old := if s.paging.pages.length < 16 then s.paging.pages else s.paging.pages.tail
    let id := newPageId old s
    let next := if 255 ≤ s.paging.lastId then 1 else s.paging.lastId + 1
    let joins := fun z : ZoneId => zones.testBit z.val && s.paging.linkUp[z] && s.paging.zones[z].service == .free
    handed p i s = true → hasRight p .page s = true → 1 ≤ zones → zones < 65536 → 1 ≤ priority → priority ≤ 3 →
    s.ports[p].pageMic = ch.val + 1 → PageLimit s → s.paging.alarmIds.length ≤ 200 →
    (∀ q ∈ s.paging.pages, q.state = .ended) → (∀ z : ZoneId, s.paging.zones[z].service ≠ .carrying) →
    (next ∉ s.paging.alarmIds → (∀ q ∈ old, q.id ≠ next) → id = next)
    ∧ (id ∉ s.paging.alarmIds ∧ (∀ q ∈ old, q.id ≠ id) ∧ 1 ≤ id ∧ id ≤ 255)
    ∧ ∃ t q, exec i s = .next t ∧ t.paging.pages = old ++ [q] ∧ q.id = id ∧ q.origin = .port p ∧ q.prio = priority
      ∧ q.source = .live ch ∧ t.paging.lastId = id ∧ t.paging.alarmIds = s.paging.alarmIds
      ∧ t = { s with
          fades := { s.fades with table := t.fades.table }, card := t.card, voices := t.voices
          cues := { s.cues with running := t.cues.running }, paging := t.paging, ports := t.ports }
      ∧ (∀ z : ZoneId, q.wanted[z] = if zones.testBit z.val then
          some (if joins z then .carrying else if s.paging.linkUp[z] then .waiting else .unreached) else none)
      ∧ (∀ z : ZoneId, t.paging.zones[z].service = (if joins z then .carrying else s.paging.zones[z].service)
          ∧ t.paging.zones[z].carried = (if joins z then some id else s.paging.zones[z].carried))
      ∧ ((∃ z, joins z = true) → q.state = (if chime then .chiming else .speaking)
          ∧ q.timer = some (if chime then 48 * 600 else 48 * s.paging.liveMax) ∧ q.outcome = none)
      ∧ ((∀ z, joins z = false) → (∃ z : ZoneId, zones.testBit z.val = true ∧ s.paging.linkUp[z] = true) →
          q.state = .pending ∧ q.timer = none ∧ q.outcome = none)
      ∧ ((∀ z : ZoneId, zones.testBit z.val = true → s.paging.linkUp[z] = false) →
          q.state = .ended ∧ q.outcome = some .noZone)
      ∧ (DuckLaw s → s.cues.running = [] → (s.paging.pages.map (·.id)).Nodup → ∀ r : PortId,
          t.ports[r].notices = (afterNotice .page 1 (statedPage q) s.ports)[r].notices)
      ∧ t.ports[p].replies = s.ports[p].replies ++
          [{ tag := tag, kind := 39, outcome := .accepted, fields := [f1 id, f1 q.state.code] }])
  ∧ (∀ (p : PortId) (tag priority : Nat) (chime : Bool) (ch : Fin 64) (z : ZoneId) (q : Page) (s : State),
    let i := Instr.page p tag (2 ^ z.val) 0 0 priority chime.toNat 1 0
    let id := newPageId [q] s
    let only : ZoneStatus → Vector (Option ZoneStatus) 16 := fun st => upd (Vector.replicate 16 none) z (some st)
    handed p i s = true → hasRight p .page s = true → 1 ≤ priority → priority ≤ 3 → s.ports[p].pageMic = ch.val + 1 →
    s.paging.alarmIds.length ≤ 200 → DuckLaw s → s.paging.pages = [q] → q.prio ≤ 3 → q.wanted = only .carrying →
    q.state = .chiming ∨ q.state = .speaking → s.paging.linkUp[z] = true → s.paging.zones[z].service = .carrying →
    s.paging.zones[z].carried = some q.id → s.paging.zones[z].prio = some q.prio →
    let made := fun (st : PageState) (status : ZoneStatus) (timer : Option Nat) => ({
      id := id, origin := .port p, prio := priority, wanted := only status, all := false, source := .live ch
      chime := chime, restartable := false, state := st, timer := timer, chimePos := 0, play := .none
      outcome := none, token := none } : Page)
    let answered := fun (t : State) (st : PageState) =>
      t.ports[p].replies = s.ports[p].replies ++
        [{ tag := tag, kind := 39, outcome := .accepted, fields := [f1 id, f1 st.code] }]
    (q.prio ≤ priority → ∃ t, exec i s = .next t ∧ answered t .pending
      ∧ (∀ r : PortId, t.ports[r].notices =
          (afterNotice .page 1 (statedPage (made .pending .waiting none)) s.ports)[r].notices)
      ∧ t = { s with
          paging := { s.paging with pages := [q, made .pending .waiting none], lastId := id }, ports := t.ports })
    ∧ (priority < q.prio → ∃ t q', exec i s = .next t
      ∧ (let started := if chime then made .chiming .carrying (some (48 * 600))
           else made .speaking .carrying (some (48 * s.paging.liveMax))
         t.paging.pages = [q', started] ∧ ∀ r : PortId, t.ports[r].notices =
           (afterNotice .page 1 (statedPage q') (afterNotice .page 1 (statedPage started) s.ports))[r].notices)
      ∧ answered t (if chime then .chiming else .speaking)
      ∧ (q.restartable = false ∨ (∀ n, q.source ≠ .clip n) → q' = { q with
          wanted := only .preEmpted, state := .ended, timer := none, outcome := some .preEmpted, token := none })
      ∧ (∀ n, q.restartable = true → q.source = .clip n → q' = { q with
          wanted := only .waiting, state := .pending, timer := none, play := .none, chimePos := 0, token := none })
      ∧ t.paging.holder = (if s.paging.holder = some q.id then none else s.paging.holder)
      ∧ t.paging.zones = upd s.paging.zones z { s.paging.zones[z] with
          duck := t.paging.zones[z].duck, service := .carrying, carried := some id, prio := some priority, gapTimer := none }
      ∧ t.voices.pagingIn = s.voices.pagingIn ++
          (if s.paging.holder = some q.id ∧ q.token ≠ none then [.stopOwn] else [])
      ∧ t = { s with
          fades := { s.fades with table := t.fades.table }, voices := { s.voices with pagingIn := t.voices.pagingIn }
          paging := t.paging, ports := t.ports }))
  ∧ ∀ (p : PortId) (tag clip priority : Nat) (chime re : Bool) (z : ZoneId) (s : State),
    let i := Instr.page p tag (2 ^ z.val) 1 clip priority chime.toNat 1 re.toNat
    let idle := s.voices.tab[(15 : Fin 16)].state == .idle
    let only : ZoneId → ZoneStatus → Vector (Option ZoneStatus) 16 := fun z st =>
      upd (Vector.replicate 16 none) z (some st)
    let made := fun (id : Nat) (st : PageState) (status : ZoneStatus) (timer : Option Nat) (play : PlayState)
        (token : Option Nat) => ({
      id := id, origin := .port p, prio := priority, wanted := only z status, all := false, source := .clip clip
      chime := chime, restartable := re, state := st, timer := timer, chimePos := 0, play := play
      outcome := none, token := token } : Page)
    let starts := fun (id : Nat) => if chime then made id .chiming .carrying (some (48 * 600)) .waitingForVoice none
      else made id .speaking .carrying none .waitingForVoice (if idle then some (s.paging.lastToken + 1) else none)
    let answers := fun (t : State) (id : Nat) (st : PageState) => t = { s with
        fades := { s.fades with table := t.fades.table }, voices := { s.voices with pagingIn := t.voices.pagingIn }
        paging := t.paging, ports := t.ports }
      ∧ t.ports[p].replies = s.ports[p].replies ++
        [{ tag := tag, kind := 39, outcome := .accepted, fields := [f1 id, f1 st.code] }]
    let begun : PageState := if chime then .chiming else .speaking
    let asks : List PagingAsk := if !chime && idle then [.play (s.paging.lastToken + 1) clip] else []
    handed p i s = true → hasRight p .page s = true → 1 ≤ clip → clip ≤ 1024 → 1 ≤ priority → priority ≤ 3 →
    s.paging.alarmIds.length ≤ 200 → DuckLaw s → s.paging.linkUp[z] = true → s.paging.zones[z].service = .free →
    (PageLimit s → (∀ q ∈ s.paging.pages, q.state = .ended) → s.paging.holder = none →
      let old := if s.paging.pages.length < 16 then s.paging.pages else s.paging.pages.tail
      let id := newPageId old s
      ∃ t, exec i s = .next t
      ∧ (idle = true → answers t id begun ∧ t.paging.pages = old ++ [starts id] ∧ t.paging.holder = some id
        ∧ t.voices.pagingIn = s.voices.pagingIn ++ asks ∧ t.paging.zones[z].service = .carrying)
      ∧ (idle = false → answers t id .pending
        ∧ t.paging.pages = old ++ [made id .pending .waiting none .none none] ∧ t.paging.holder = none ∧ t.voices.pagingIn = s.voices.pagingIn ∧ t.paging.zones = s.paging.zones))
    ∧ ∀ (q : Page) (y : ZoneId) (n : Nat), s.paging.pages = [q] → s.paging.holder = some q.id → q.source = .clip n →
      y ≠ z → q.wanted = only y .carrying → q.state = .chiming ∨ q.state = .speaking →
      s.paging.zones[y].service = .carrying → s.paging.zones[y].carried = some q.id →
      let id := newPageId [q] s
      ∃ t, exec i s = .next t
        ∧ (q.prio ≤ priority → answers t id .pending ∧ t.paging.pages = [q, made id .pending .waiting none .none none]
          ∧ t.paging.holder = some q.id ∧ t.paging.zones = s.paging.zones ∧ t.voices.pagingIn = s.voices.pagingIn)
        ∧ (priority < q.prio → answers t id begun ∧ t.paging.holder = some id ∧ t.paging.zones[z].service = .carrying
          ∧ t.paging.zones[y] = { s.paging.zones[y] with service := .gap, gapTimer := some (48 * s.paging.gap) }
          ∧ (q.restartable = false → t.paging.pages = [{ q with
                wanted := only y .preEmpted, state := .ended, timer := none, outcome := some .preEmpted, token := none },
              starts id])
          ∧ (q.restartable = true → s.paging.linkUp[y] = true → t.paging.pages = [{ q with
                wanted := only y .waiting, state := .pending, timer := none, play := .none, chimePos := 0, token := none },
              starts id])
          ∧ t.voices.pagingIn = s.voices.pagingIn ++ (if q.token ≠ none then [.stopOwn] else []) ++ asks)

/-- R157, R150, R144, R162: PAGE END and PAGE CANCEL of the port's own page, of priority at most 3 (R146, R156), as every step
keeps it: the page ends, told PAGE STATE, each zone it carried enters GAP, and the paging voice is released. -/
def Obligations.PageEndsByRequest : Prop :=
  ∀ (p : PortId) (tag id : Nat) (cancel : Bool) (q : Page) (s : State),
    let i := if cancel then Instr.pageCancel p tag id else Instr.pageEnd p tag id
    handed p i s = true → 1 ≤ id → id ≤ 255 → pageOf id s = some q → q.state ≠ .ended → q.origin = .port p →
    q.prio ≤ 3 →
    ∃ t q', exec i s = .next t ∧ pageOf id t = some q' ∧ q'.state = .ended ∧ q'.timer = none
      ∧ q'.outcome = some (if cancel || q.state == .pending then .cancelled else .ended)
      ∧ (∀ z : ZoneId, t.paging.zones[z] = if q.wanted[z] = some .carrying then
          { s.paging.zones[z] with service := .gap, gapTimer := some (48 * s.paging.gap) } else s.paging.zones[z])
      ∧ t.paging.holder = (if s.paging.holder = some id then none else s.paging.holder)
      ∧ t = { s with
          voices := { s.voices with pagingIn := t.voices.pagingIn }, paging := t.paging, ports := t.ports }
      ∧ ((s.paging.pages.map (·.id)).Nodup → ∀ r : PortId,
          t.ports[r].notices = (afterNotice .page 1 (statedPage q') s.ports)[r].notices)
      ∧ t.ports[p].replies = s.ports[p].replies ++
          [{ tag := tag, kind := if cancel then 41 else 40, outcome := .accepted, fields := [] }]

/-- R76, R75, R153, R154: the voices take a paging play with V16 IDLE; they take a stop of the unit's own play; the
paging unit takes V16's report that its play started, or ended at the clip's end. -/
def Obligations.PagingVoiceEvents : Prop :=
  ∀ (s : State) (token : Nat), s.cues.running = [] → VoiceFadeLaw s →
    (∀ (clip : Nat) (rest : List PagingAsk) (info : ClipEntry) (q : Page),
      s.voices.pagingIn = .play token clip :: rest → s.voices.tab[(15 : Fin 16)].state = .idle →
      s.card.state = .mounted → clipOf clip s = some info → (if info.channels = 2 then 4 else 2) ≤ s.voices.free →
      holderOf token s = some q →
      ∃ t, exec .pagingPlay s = .next t ∧ t.voices.pagingIn = rest
        ∧ t.voices.tab[(15 : Fin 16)].state = .priming ∧ t.voices.tab[(15 : Fin 16)].clip = clip
        ∧ t.voices.tab[(15 : Fin 16)].origin = some .paging ∧ t.voices.tab[(15 : Fin 16)].level = 3456
        ∧ t.voices.tab[(15 : Fin 16)].looping = false ∧ t.voices.free = s.voices.free - (if info.channels = 2 then 4 else 2)
        ∧ (pageOf q.id t).map (·.play) = some .priming
        ∧ t = { s with card := t.card, voices := t.voices, paging := t.paging, ports := t.ports })
    ∧ (∀ rest : List PagingAsk, s.voices.pagingIn = .stopOwn :: rest →
      s.voices.tab[(15 : Fin 16)].state = .playing → s.voices.tab[(15 : Fin 16)].origin = some .paging →
      s.card.reader = none →
      ∃ t, exec .pagingStop s = .next t ∧ t.voices.pagingIn = rest ∧ t.voices.tab[(15 : Fin 16)].state = .idle
        ∧ t.voices.free = s.voices.free + s.voices.tab[(15 : Fin 16)].ring.length
        ∧ t.paging = { s.paging with
            voiceIn := s.paging.voiceIn ++ [.ended s.voices.tab[(15 : Fin 16)].token .paging, .idle] }
        ∧ t = { s with
            fades := { s.fades with table := t.fades.table }, card := t.card, voices := t.voices, paging := t.paging
            ports := t.ports })
    ∧ (∀ (rest : List VoiceReport) (q : Page), s.paging.voiceIn = .started token :: rest →
      holderOf token s = some q →
      ∃ t, exec .pagingVoiceReport s = .next t ∧ t.paging.voiceIn = rest
        ∧ (pageOf q.id t).map (·.play) = some .playing
        ∧ t = { s with card := t.card, voices := t.voices, paging := t.paging, ports := t.ports })
    ∧ ∀ (rest : List VoiceReport) (q : Page), s.paging.voiceIn = .ended token .clipEnd :: rest →
      holderOf token s = some q → q.state ≠ .ended →
      ∃ t, exec .pagingVoiceReport s = .next t ∧ t.paging.voiceIn = rest ∧ t.paging.holder = none
        ∧ (pageOf q.id t).map (fun r => (r.state, r.outcome)) = some (.ended, some .clipEnd)
        ∧ t = { s with card := t.card, voices := t.voices, paging := t.paging, ports := t.ports }
        ∧ ∀ z : ZoneId, q.wanted[z] = some .carrying → t.paging.zones[z].service = .gap

/-- R144, R145, R148, R152, R153, R150: GAP_EXPIRY, CHIME_EXPIRY, LIVE_MAX_EXPIRY, ZONE_LINK_LEFT and ZONE_LINK_ENTERED
complete wherever they are due. With no entry that would complete and the model's laws on ducks and ids: a gap's end frees
its zone and releases its duck, or gives the zone at once to the started page that waits for it; a chime's end takes
a page to SPEAKING, which asks for its play; the live maximum ends a page TIME LIMIT, its zones in GAP, the paging voice
released; a link's leaving UP frees its zone, releases its duck and leaves the page it carried UNREACHED there, or ended NO
ZONE where that was its last; a link's entering UP lets its zone serve, the alarm page first. In the cases of a zone that
moves, ENDED records stand as they were, and a listed page waits for no other zone that would serve it. That the stop of the
paging voice is asked for also where the play was asked for and not yet taken is the model's choice
(notes/assumptions/46.md). -/
def Obligations.PagingTimersAndLinks : Prop :=
  ∀ (s : State) (z : ZoneId),
    let zone := s.paging.zones[z]
    let completes : Instr → Vector Bool 16 → List (ZoneId × Bool) → Prop := fun c linkUp linkIn =>
      ∃ t, exec c s = .next t ∧ t.pending = s.pending ∧ t.alarm = s.alarm ∧ t.paging.linkUp = linkUp
        ∧ t.paging.linkIn = linkIn
    let rest := s.fades.table.filter fun r => !drives (.zoneDuck z) r
    let faded : Nat → Nat → List FadeRecord := fun level dur => if rest.length < 64 then rest ++
      [{ body := .single (.zoneDuck z) zone.duck level, dur := dur, n := 0, origin := .paging z }] else rest
    let ducked : Nat → Nat := fun level => if rest.length < 64 then zone.duck else level
    let freed : Zone := { zone with
      duck := ducked 3456, service := .free, carried := none, prio := none, gapTimer := none }
    let depth : Page → Nat := fun q => if q.origin = .alarm then 0 else 16 * s.paging.duckDepth
    let joined : Page → Zone := fun q => { zone with
      duck := ducked (depth q), service := .carrying, carried := some q.id, prio := some q.prio, gapTimer := none }
    let moves := fun (t : State) (table : List FadeRecord) (paging : PagingUnit) (asks : List PagingAsk) => OnlyReads
      { s with
        fades := { s.fades with table := table }, paging := paging, ports := t.ports
        voices := { s.voices with pagingIn := s.voices.pagingIn ++ asks } } t
    let waits : Page → Prop := fun q => ∀ y : ZoneId, y ≠ z → q.wanted[y] = some .waiting →
      s.paging.linkUp[y] = false ∨ (s.paging.zones[y].service = .gap ∧ q.prio ≠ 0)
        ∨ (s.paging.zones[y].service = .carrying ∧ ∀ k, s.paging.zones[y].prio = some k → k ≤ q.prio)
    let served : Page → ZoneId → Prop := fun q y => q.wanted[y] = some .carrying ∨ q.wanted[y] = some .waiting
    let quiet : List Page → Prop := fun ps => ∀ q ∈ ps, q.state ≠ .ended → waits q ∧ q.wanted[z] ≠ some .waiting
    let rests : List Page → Prop := fun ps => ∀ q ∈ ps, q.state ≠ .ended →
      waits q ∧ ¬served q z ∧ (q.origin = .alarm ∨ ∃ y : ZoneId, served q y)
    let calm := NoneSettled s ∧ DuckLaw s ∧ (s.paging.pages.map (·.id)).Nodup
    (zone.service = .gap → zone.gapTimer = some 0 →
      completes (.gapExpiry z) s.paging.linkUp s.paging.linkIn
      ∧ (calm → quiet s.paging.pages → ∃ t, exec (.gapExpiry z) s = .next t ∧ t.ports = s.ports
        ∧ moves t (faded 3456 s.paging.duckRelease) { s.paging with zones := upd s.paging.zones z freed } [])
      ∧ ∀ (q : Page) (before after : List Page), calm → s.paging.pages = before ++ q :: after → quiet (before ++ after) →
        q.state = .chiming ∨ q.state = .speaking → q.all = false → q.prio ≤ 3 → s.paging.linkUp[z] = true →
        q.wanted[z] = some .waiting → waits q →
        ∃ t, exec (.gapExpiry z) s = .next t ∧ moves t (faded (depth q) s.paging.duckAttack)
          { s.paging with
            zones := upd s.paging.zones z (joined q)
            pages := before ++ { q with wanted := upd q.wanted z (some .carrying) } :: after } [])
    ∧ (∀ q : Page, pageOf q.id s = some q → q.timer = some 0 →
      (q.state = .chiming → completes (.chimeExpiry q.id) s.paging.linkUp s.paging.linkIn
        ∧ (NoneSettled s → ∃ t, exec (.chimeExpiry q.id) s = .next t
          ∧ (let speaking : Page := { q with state := .speaking, timer := match q.source, q.origin with
              | .live _, .port _ => some (48 * s.paging.liveMax)
              | _, _ => none }
             let plays := s.voices.tab[(15 : Fin 16)].state = .idle
             (∀ n, q.source = .clip n → plays →
               pageOf q.id t = some { speaking with token := some (s.paging.lastToken + 1) }
               ∧ t.paging.lastToken = s.paging.lastToken + 1
               ∧ t.voices.pagingIn = s.voices.pagingIn ++ [.play (s.paging.lastToken + 1) n])
             ∧ ((∀ n, q.source ≠ .clip n) ∨ ¬plays → pageOf q.id t = some speaking
               ∧ t.paging.lastToken = s.paging.lastToken ∧ t.voices.pagingIn = s.voices.pagingIn))
          ∧ (∀ r ∈ t.paging.pages, r.id ≠ q.id → r ∈ s.paging.pages)
          ∧ t.paging = { s.paging with pages := t.paging.pages, lastToken := t.paging.lastToken }
          ∧ t = { s with
              card := t.card, voices := { s.voices with tab := t.voices.tab, pagingIn := t.voices.pagingIn }
              paging := t.paging, ports := t.ports }))
      ∧ (q.state = .speaking → completes (.liveMaxExpiry q.id) s.paging.linkUp s.paging.linkIn
        ∧ (NoneSettled s → ∃ t q', exec (.liveMaxExpiry q.id) s = .next t ∧ pageOf q.id t = some q'
          ∧ q' = { q with
              state := .ended, outcome := some .timeLimit, timer := none, token := none, wanted := q'.wanted }
          ∧ (∀ y : ZoneId, q'.wanted[y] = if q.wanted[y] = some .carrying then some .done else q.wanted[y])
          ∧ (∀ y : ZoneId, t.paging.zones[y] = if q.wanted[y] = some .carrying then
              { s.paging.zones[y] with service := .gap, gapTimer := some (48 * s.paging.gap) } else s.paging.zones[y])
          ∧ t.paging.holder = (if s.paging.holder = some q.id then none else s.paging.holder)
          ∧ t.voices.pagingIn = s.voices.pagingIn ++
              (if s.paging.holder = some q.id ∧ q.token ≠ none then [.stopOwn] else [])
          ∧ t.paging = { s.paging with pages := t.paging.pages, zones := t.paging.zones, holder := t.paging.holder }
          ∧ t = { s with
              card := t.card, voices := { s.voices with tab := t.voices.tab, pagingIn := t.voices.pagingIn }
              paging := t.paging, ports := t.ports })))
    ∧ (∀ before after : List (ZoneId × Bool), s.paging.linkIn = before ++ (z, false) :: after → (∀ x ∈ before, x.1 ≠ z) →
      let left : Vector Zone 16 := if zone.service = .free then s.paging.zones else upd s.paging.zones z freed
      let table := if zone.service = .free then s.fades.table else faded 3456 s.paging.duckRelease
      completes (.zoneLinkLeft z) (upd s.paging.linkUp z false) (before ++ after)
      ∧ (calm → rests s.paging.pages → ∃ t, exec (.zoneLinkLeft z) s = .next t ∧ t.ports = s.ports
        ∧ moves t table { s.paging with
            linkIn := before ++ after, linkUp := upd s.paging.linkUp z false, zones := left } [])
      ∧ ∀ (q : Page) (ps qs : List Page), calm → s.paging.pages = ps ++ q :: qs → rests (ps ++ qs) →
        q.state = .chiming ∨ q.state = .speaking → q.wanted[z] = some .carrying → waits q →
        let unreached := { q with wanted := upd q.wanted z (some .unreached) }
        let lost : PagingUnit := { s.paging with
          linkIn := before ++ after, linkUp := upd s.paging.linkUp z false, zones := left }
        (q.origin = .alarm ∨ (∃ y : ZoneId, y ≠ z ∧ served q y) →
          ∃ t, exec (.zoneLinkLeft z) s = .next t ∧ moves t table { lost with pages := ps ++ unreached :: qs } [])
        ∧ (q.origin ≠ .alarm → (∀ y : ZoneId, y ≠ z → ¬served q y) →
          ∃ t, exec (.zoneLinkLeft z) s = .next t ∧ t.paging.holder = (if s.paging.holder = some q.id then none
              else s.paging.holder)
            ∧ moves t table
              { lost with
                holder := t.paging.holder
                pages := ps ++ { unreached with
                  state := .ended, outcome := some .noZone, timer := none, token := none } :: qs }
              (if s.paging.holder = some q.id ∧ q.token ≠ none then [.stopOwn] else [])))
    ∧ ∀ before after : List (ZoneId × Bool), s.paging.linkIn = before ++ (z, true) :: after → (∀ x ∈ before, x.1 ≠ z) →
      completes (.zoneLinkEntered z) (upd s.paging.linkUp z true) (before ++ after)
      ∧ (calm → quiet s.paging.pages →
        (∀ q ∈ s.paging.pages, q.state ≠ .ended → q.origin = .alarm → q.wanted[z] ≠ some .unreached) →
        ∃ t, exec (.zoneLinkEntered z) s = .next t ∧ t.ports = s.ports
          ∧ moves t s.fades.table
            { s.paging with linkIn := before ++ after, linkUp := upd s.paging.linkUp z true } [])
      ∧ ∀ (q : Page) (ps qs : List Page), calm → s.paging.pages = ps ++ q :: qs → quiet s.paging.pages →
        (∀ r ∈ ps ++ qs, r.state ≠ .ended → r.origin ≠ .alarm) → q.origin = .alarm → q.prio = 0 → q.all = false →
        q.chime = false → (∀ n, q.source ≠ .clip n) → q.state = .pending ∨ q.state = .speaking →
        q.wanted[z] = some .unreached → zone.service ≠ .carrying →
        ∃ t, exec (.zoneLinkEntered z) s = .next t ∧ moves t (faded 0 s.paging.duckAttack)
          { s.paging with
            linkIn := before ++ after, linkUp := upd s.paging.linkUp z true
            zones := upd s.paging.zones z (joined q)
            pages := ps ++ { q with
              wanted := upd q.wanted z (some .carrying), state := .speaking
              timer := if q.state = .pending then none else q.timer } :: qs } []

/-! ### Lines -/

/-- R167, R166, R179, R180, R175, R182: LINE POWER, LAMP and ZONE CAP. A line goes ON, or OFF with what a link in UP leaves
behind; it stays where it is already so. A lamp or cap is held in the zone record, and sent on to the line's queue only while
the link is UP; a queued one of its kind is replaced in its place, and a lamp so replaced is told. The
outstanding command stays as it is. A lamp that comes together with an echo of the line frame event just before, with nothing
queued or out, goes out in that event's frame; OFF that comes together with an acknowledge replaces the ON of it. Every LAMP
and ZONE CAP completes. What comes together is the model's choice (notes/assumptions/48.md); so are the runs of valid and bad
frames, 0 at LINE POWER OFF (notes/assumptions/47.md), and the code of LAMP SET's result (notes/assumptions/13.md). -/
def Obligations.LineRequests : Prop :=
  ∀ (p : PortId) (tag : Nat) (z : ZoneId) (s : State), hasRight p .station s = true →
    let r := s.lines.tab[z]
    let late : Lamp → Prop := fun st => (r.together = .echo ∧ r.queue = [] ∧ r.out = none)
      ∨ (r.together = .acknowledge ∧ st = .off ∧ ∃ k, r.out = some { cmd := .lamp .on .button, seq := k, age := 1 })
    let resent : Nat → List Word24 → Prop := fun head sent => ∃ (x y w : Word24) (words : List Word24),
      r.sent = x :: words ++ [y, w]
      ∧ let body := words ++ [BitVec.ofNat 24 (65536 * head + (255 - head))]
        sent = 0xC3A55A :: body ++ [-(body.foldl (· + ·) 0)]
    (handed p (.linePower p tag (z.val + 1) 1) s = true →
      (r.power = .on → exec (.linePower p tag (z.val + 1) 1) s =
        .next (answer p tag 45 (.linePower p tag (z.val + 1) 1) { outcome := .accepted, fields := [f1 1] } s))
      ∧ (r.power ≠ .on →
        ∃ t, exec (.linePower p tag (z.val + 1) 1) s = .next t ∧ t = { s with lines := t.lines, ports := t.ports }
          ∧ t.lines = { s.lines with tab := upd s.lines.tab z (
              { r with power := .on, present := false, link := .down, nextSeq := 0, good := 0, bad := 0 }) }
          ∧ t.ports[p].replies = s.ports[p].replies ++
              [{ tag := tag, kind := 45, outcome := .accepted, fields := [f1 1] }]))
    ∧ (handed p (.linePower p tag (z.val + 1) 0) s = true →
      (r.power = .off → exec (.linePower p tag (z.val + 1) 0) s =
        .next (answer p tag 45 (.linePower p tag (z.val + 1) 0) { outcome := .accepted, fields := [f1 0] } s))
      ∧ (r.power ≠ .off →
        ∃ t, exec (.linePower p tag (z.val + 1) 0) s = .next t
          ∧ t.lines = { s.lines with tab := upd s.lines.tab z (if r.link = .up then
              { r with power := .off, present := false, link := .down, good := 0, bad := 0, queue := [], out := none,
                       button := false }
              else { r with power := .off, present := false, link := .down, good := 0 }) }
          ∧ t.paging = { s.paging with
              linkIn := if r.link = .up then s.paging.linkIn ++ [(z, false)] else s.paging.linkIn }
          ∧ t = { s with lines := t.lines, paging := t.paging, ports := t.ports }
          ∧ t.ports[p].replies = s.ports[p].replies ++
              [{ tag := tag, kind := 45, outcome := .accepted, fields := [f1 0] }]))
    ∧ (∀ st : Lamp,
      let i := Instr.lamp p tag (z.val + 1) (lampCode st)
      let s' := { s with paging := { s.paging with
        zones := upd s.paging.zones z { s.paging.zones[z] with lamp := st } } }
      let replaced := fun (st' : Lamp) (o : LampOrigin) => vmapi (fun _ (q : PortRecord) =>
        if q.subs[(4 : Fin 7)] then enqueueNotice
          { cls := .station, kind := 3
            fields := [f1 (z.val + 1), f1 (lampCode st')] ++ lampOrigin o ++ [f1 1] } q else q) s.ports
      handed p i s = true →
      (r.link ≠ .up → exec i s = .next (answer p tag 46 i { outcome := .accepted, fields := [f1 1] } s'))
      ∧ (r.link = .up → ¬late st → (∀ c ∈ r.queue, ∀ st' o, c ≠ .lamp st' o) →
        exec i s = .next (answer p tag 46 i { outcome := .accepted, fields := [f1 0] }
          { s' with lines := { s.lines with tab := upd s.lines.tab z (
              { r with queue := r.queue ++ [.lamp st (.port p)] }) } }))
      ∧ (∀ (st' : Lamp) (o : LampOrigin) (before after : List LineCmd), r.link = .up →
        r.queue = before ++ .lamp st' o :: after → (∀ c ∈ before ++ after, ∀ st' o, c ≠ .lamp st' o) →
        exec i s = .next (answer p tag 46 i { outcome := .accepted, fields := [f1 0] }
          { s' with
            lines := { s.lines with tab := upd s.lines.tab z (
              { r with queue := before ++ .lamp st (.port p) :: after }) }
            ports := replaced st' o }))
      ∧ (r.link = .up → r.together = .echo → r.queue = [] → r.out = none →
        ∀ sent, resent (64 + 8 * r.nextSeq + lampCode st) sent →
        exec i s = .next (answer p tag 46 i { outcome := .accepted, fields := [f1 0] }
          { s' with lines := { s.lines with tab := upd s.lines.tab z { r with
              out := some { cmd := .lamp st (.port p), seq := r.nextSeq, age := 1 }
              nextSeq := (r.nextSeq + 1) % 8, sent := sent } } }))
      ∧ (∀ k : Nat, r.link = .up → r.together = .acknowledge → st = .off → (∀ c ∈ r.queue, ∀ st' o, c ≠ .lamp st' o) →
        r.out = some { cmd := .lamp .on .button, seq := k, age := 1 } → ∀ sent, resent (64 + 8 * k) sent →
        exec i s = .next (answer p tag 46 i { outcome := .accepted, fields := [f1 0] }
          { s' with
            lines := { s.lines with tab := upd s.lines.tab z { r with
              out := some { cmd := .lamp .off (.port p), seq := k, age := 1 }, nextSeq := (k + 1) % 8, sent := sent } }
            ports := replaced .on .button }))
      ∧ ∃ t, exec i s = .next t ∧ t.paging = s'.paging ∧ (∀ k : ZoneId, k ≠ z → t.lines.tab[k] = s.lines.tab[k])
        ∧ t = { s' with lines := { s.lines with tab := t.lines.tab }, ports := t.ports }
        ∧ t.ports[p].replies = s.ports[p].replies ++ [{
            tag := tag, kind := 46, outcome := .accepted, fields := [f1 (if r.link = .up then 0 else 1)] }])
    ∧ ∀ code : Nat,
      let i := Instr.zoneCap p tag (z.val + 1) code
      let s' := { s with paging := { s.paging with
        zones := upd s.paging.zones z { s.paging.zones[z] with cap := min code 240 } } }
      let a : Answer := { outcome := if 240 < code then .clamped else .accepted }
      handed p i s = true →
      (r.link ≠ .up → exec i s = .next (answer p tag 47 i a s'))
      ∧ (r.link = .up → (∀ c ∈ r.queue, ∀ k, c ≠ .cap k) → exec i s = .next (answer p tag 47 i a
        { s' with lines := { s.lines with tab := upd s.lines.tab z { r with queue := r.queue ++ [.cap (min code 240)] } } }))
      ∧ (∀ (k : Nat) (before after : List LineCmd), r.link = .up → r.queue = before ++ .cap k :: after →
        (∀ c ∈ before ++ after, ∀ k, c ≠ .cap k) → exec i s = .next (answer p tag 47 i a
          { s' with lines := { s.lines with tab := upd s.lines.tab z (
              { r with queue := before ++ .cap (min code 240) :: after }) } }))
      ∧ ∃ t, exec i s = .next t ∧ t.paging = s'.paging ∧ (∀ k : ZoneId, k ≠ z → t.lines.tab[k] = s.lines.tab[k])
        ∧ t = { s' with lines := { s.lines with tab := t.lines.tab }, ports := t.ports }
        ∧ t.ports[p].replies = s.ports[p].replies ++ [{ tag := tag, kind := 47, outcome := a.outcome, fields := [] }]

/-- R166, R168, R173: an overload takes a line that is ON to FAULT, its link DOWN; a presence report moves a line that is ON,
and no other. A link that leaves UP leaves no command and the button RELEASED, and the paging unit is told; where it does not,
the paging unit stands. -/
def Obligations.LinePowerEvents : Prop :=
  ∀ (l : ZoneId) (s : State),
    let r := s.lines.tab[l]
    (r.power ≠ .on → exec (.lineOverload l) s = .next s ∧ ∀ b, exec (.presenceReport l b) s = .next s)
    ∧ (r.power = .on → ∃ t, exec (.lineOverload l) s = .next t ∧ t.lines.tab[l].power = .fault
        ∧ t.lines.tab[l].link = .down ∧ t.lines.tab[l].present = false
        ∧ t.paging = (if r.link = .up then { s.paging with linkIn := s.paging.linkIn ++ [(l, false)] } else s.paging)
        ∧ (r.link = .up → t.lines.tab[l].queue = [] ∧ t.lines.tab[l].out = none ∧ t.lines.tab[l].button = false
          ∧ t.lines.tab[l].nextSeq = r.nextSeq)
        ∧ (∀ k : ZoneId, k ≠ l → t.lines.tab[k] = s.lines.tab[k])
        ∧ t = { s with lines := { s.lines with tab := t.lines.tab }, paging := t.paging, ports := t.ports })
    ∧ (r.power = .on → ∃ t, exec (.presenceReport l true) s = .next t
        ∧ (∀ k : ZoneId, k ≠ l → t.lines.tab[k] = s.lines.tab[k])
        ∧ t = { s with lines := { s.lines with tab := t.lines.tab }, ports := t.ports }
        ∧ t.lines.tab[l].present = true ∧ t.lines.tab[l].link = (if r.link = .down then .hunt else r.link)
        ∧ (r.link ≠ .down → t.ports = s.ports))
    ∧ (r.power = .on → ∃ t, exec (.presenceReport l false) s = .next t ∧ t.lines.tab[l].present = false
        ∧ t.lines.tab[l].link = .down ∧ t.lines.tab[l].power = .on
        ∧ (∀ k : ZoneId, k ≠ l → t.lines.tab[k] = s.lines.tab[k])
        ∧ t = { s with lines := { s.lines with tab := t.lines.tab }, paging := t.paging, ports := t.ports }
        ∧ (r.link = .up → t.lines.tab[l].queue = [] ∧ t.lines.tab[l].out = none ∧ t.lines.tab[l].button = false
          ∧ t.lines.tab[l].nextSeq = r.nextSeq)
        ∧ t.paging = (if r.link = .up then { s.paging with linkIn := s.paging.linkIn ++ [(l, false)] } else s.paging))

/-- R170 to R178, R181: a line frame event for each line. A line not powered lets its next 48 samples go. On a powered line
the frame received since the last is judged: it is valid when it is the one frame of the period, with its sync and check
words, and it moves the link, completes the command whose number it echoes, and gives the button. A link that enters UP is
sent its zone's cap and lamp anew; one that leaves UP, by bad frames or a command carried in 20 frames without an echo,
loses its commands and its button. Then the head of the queue goes out where no command is outstanding, and the frame of
the next 48 samples is sent, FILL in its control slot where the link is not UP or nothing waits. That a line not powered
takes its samples, and the count of due events, are the model's (notes/assumptions/7.md); so are the codes of the
notices' causes and results (notes/assumptions/13.md). That an echo or an acknowledge is held for a LAMP that comes together
with it until the next sample period is the model's choice (notes/assumptions/48.md); so is the run of bad frames, 0 as a
link leaves UP by NO ECHO (notes/assumptions/47.md). -/
def Obligations.LineFrameMoves : Prop :=
  ∀ (up : Vector (List UpFrame) 16) (s : State), 0 < s.lines.due → ∃ t, exec (.lineFrameEvent up) s = .next t
    ∧ t.lines = { s.lines with tab := t.lines.tab, due := s.lines.due - 1 }
    ∧ t = { s with
        lines := t.lines, paging := { s.paging with zones := t.paging.zones, linkIn := t.paging.linkIn }
        ports := t.ports }
    ∧ ∀ l : ZoneId,
      let r := s.lines.tab[l]
      let r' := t.lines.tab[l]
      let zone := s.paging.zones[l]
      let valid : UpFrame → Prop := fun f => up[l] = [f] ∧ f.sync = 0x5A3CA5 ∧ f.check = -f.content
      let echo : UpFrame → Nat := fun f => (f.content >>> 20).toNat
      let pressed : UpFrame → Bool := fun f => f.content.getLsbD 19
      let told : Nat → List Field → Vector PortRecord 3 := fun kind fields => vmapi (fun _ q =>
        if q.subs[(4 : Fin 7)] then enqueueNotice { cls := .station, kind := kind, fields := fields } q else q) s.ports
      let state : Nat → Nat → Vector PortRecord 3 := fun link cause =>
        told 4 [f1 (l.val + 1), f1 1, f1 (if r.present then 0 else 1), f1 link, f1 cause]
      let alone := ∀ k : ZoneId, k ≠ l → s.lines.tab[k].power ≠ .on
      let stands := t.paging.zones[l] = zone
      let takes : List LineCmd → Prop := fun queue => match queue with
        | [] => r'.queue = [] ∧ r'.out = none ∧ r'.nextSeq = r.nextSeq
        | c :: cs => r'.queue = cs ∧ r'.out = some { cmd := c, seq := r.nextSeq, age := 1 }
            ∧ r'.nextSeq = (r.nextSeq + 1) % 8
      let keeps : Outstanding → List LineCmd → Prop := fun o queue =>
        r'.queue = queue ∧ r'.out = some { o with age := o.age + 1 } ∧ r'.nextSeq = r.nextSeq
      let left := r'.link = .hunt ∧ r'.good = 0 ∧ r'.bad = 0 ∧ r'.button = false ∧ r'.queue = [] ∧ r'.out = none
        ∧ r'.nextSeq = r.nextSeq ∧ (l, false) ∈ t.paging.linkIn
      (r.power ≠ .on → r' = { r with samples := r.samples.drop 48 } ∧ stands)
      ∧ (r.power = .on →
        (r'.together = .acknowledge ↔ r.link = .up ∧ zone.lamp = .blink ∧ r.button = false
          ∧ ∃ f, valid f ∧ pressed f = true)
        ∧ (r'.together = .echo ↔ r'.together ≠ .acknowledge ∧ r.link = .up
          ∧ ∃ f o, valid f ∧ r.out = some o ∧ o.seq = echo f))
      ∧ (r.power = .on → r'.power = .on ∧ r'.present = r.present ∧ r'.samples = r.samples.drop 48
        ∧ (let head : Nat := match r'.out with
            | none => 0
            | some { cmd := .lamp st _, seq := k, .. } => 64 + 8 * k + lampCode st
            | some { cmd := .cap _, seq := k, .. } => 128 + 8 * k
           let code : Nat := match r'.out with
            | some { cmd := .cap c, .. } => c
            | _ => 0
           let body := (r.samples.take 48).map (BitVec.ofInt 24)
            ++ [BitVec.ofNat 24 (65536 * head + 256 * code + (255 - head))]
           r'.sent = 0xC3A55A :: body ++ [-(body.foldl (· + ·) 0)]))
      ∧ (r.power = .on → r.link = .down → r.out = none → stands ∧ r'.link = .down ∧ r'.out = none
        ∧ r'.queue = r.queue ∧ (alone → t.ports = s.ports))
      ∧ (r.power = .on → r.link = .hunt → r.out = none →
        ((∀ f, ¬valid f) → stands ∧ r'.link = .hunt ∧ r'.good = 0 ∧ r'.out = none ∧ (alone → t.ports = s.ports))
        ∧ ∀ f, valid f →
          (r.good = 0 → stands ∧ r'.link = .hunt ∧ r'.good = 1 ∧ r'.out = none ∧ (alone → t.ports = s.ports))
          ∧ (r.good ≠ 0 → stands ∧ r'.link = .up ∧ r'.good = 0 ∧ r'.bad = 0 ∧ r'.button = pressed f
            ∧ takes [.cap zone.cap, .lamp zone.lamp .refresh] ∧ (l, true) ∈ t.paging.linkIn
            ∧ (alone → t.ports = state 2 3)))
      ∧ (r.power = .on → r.link = .up → (∀ f, ¬valid f) → stands
        ∧ (3 ≤ r.bad → left ∧ (alone → r.queue = [] → r.out = none → t.ports = state 1 4))
        ∧ (r.bad < 3 → r.out = none → r'.link = .up ∧ r'.bad = r.bad + 1 ∧ r'.button = r.button ∧ takes r.queue
          ∧ (alone → t.ports = s.ports))
        ∧ ∀ o, r.bad < 3 → r.out = some o →
          (o.age ≠ 20 → r'.link = .up ∧ r'.bad = r.bad + 1 ∧ r'.button = r.button ∧ keeps o r.queue
            ∧ (alone → t.ports = s.ports))
          ∧ (o.age = 20 → left))
      ∧ ∀ f, r.power = .on → r.link = .up → valid f →
        let edge := pressed f = true ∧ r.button = false
        let queues : List LineCmd → Prop := fun queue =>
          (¬edge ∨ zone.lamp ≠ .blink → queue = r.queue)
          ∧ (edge → zone.lamp = .blink → (∀ c ∈ r.queue, ∀ st o, c ≠ .lamp st o) →
              queue = r.queue ++ [.lamp .on .button])
          ∧ ∀ before after st o, edge → zone.lamp = .blink → r.queue = before ++ .lamp st o :: after →
              (∀ c ∈ before ++ after, ∀ st o, c ≠ .lamp st o) → queue = before ++ .lamp .on .button :: after
        t.paging.zones[l] = (if edge ∧ zone.lamp = .blink then { zone with lamp := .on } else zone)
        ∧ (r.out = none → r'.link = .up ∧ r'.bad = 0 ∧ r'.button = pressed f ∧ (∃ queue, queues queue ∧ takes queue)
          ∧ (alone → ¬edge → t.ports = s.ports)
          ∧ (alone → edge → zone.lamp ≠ .blink → t.ports = told 1 [f1 (l.val + 1)])
          ∧ (alone → edge → zone.lamp = .blink → (∀ c ∈ r.queue, ∀ st o, c ≠ .lamp st o) →
              t.ports = told 2 [f1 (l.val + 1)]))
        ∧ ∀ o, r.out = some o →
          (o.seq = echo f → r'.link = .up ∧ r'.bad = 0 ∧ r'.button = pressed f ∧ (∃ queue, queues queue ∧ takes queue)
            ∧ ∀ st origin, alone → ¬edge → o.cmd = .lamp st origin →
              t.ports = told 3 ([f1 (l.val + 1), f1 (lampCode st)] ++ lampOrigin origin ++ [f1 0]))
          ∧ (o.seq ≠ echo f → o.age ≠ 20 → r'.link = .up ∧ r'.bad = 0 ∧ r'.button = pressed f
            ∧ ∃ queue, queues queue ∧ keeps o queue)
          ∧ (o.seq ≠ echo f → o.age = 20 → left
            ∧ ∀ k, alone → ¬edge → r.queue = [] → o.cmd = .cap k → t.ports = state 1 5)

/-! ### The alarm -/

/-- R187, R191, R192: the alarm input: an assertion, a release, the expiry of the qualification timer and ALARM RESET, in
each state of the table of R187, with ALARM STATE told and an entry, re-entry or return handed to the five blocks. An entry
is told with the id of its alarm page, given as it is told and kept for that page (notes/assumptions/15.md); a re-entry with
the id of the entry before, kept or of the page that stands. The codes of the causes are the model's
(notes/assumptions/13.md). A reading equal to the last changes nothing, and a first reading of
RELEASED is no release (notes/assumptions/29.md). -/
def Obligations.AlarmInputMoves : Prop :=
  ∀ s : State,
    let told : List Field → Vector PortRecord 3 := fun fs => vmapi (fun _ r => if r.subs[(5 : Fin 7)] then
      enqueueNotice { cls := .alarm, kind := 1, fields := fs } r else r) s.ports
    let id := newPageId s.paging.pages s
    let kept := { s.paging with lastId := id, alarmIds := s.paging.alarmIds ++ [id] }
    let standing := s.paging.pages.find? fun q => q.origin == .alarm && q.state != .ended
    let re : Nat → PagingUnit → Prop := fun k paging => exec .contactAssertion s = .next (handAlarm .entry { s with
        alarm := { state := .alarm, timer := none, last := some true }
        ports := told [f1 3, f1 2, f1 3, f1 k], paging := paging })
    (PageLimit s → s.paging.alarmIds.length ≤ 200 →
      (∀ q ∈ s.paging.pages, q.id ≠ id) ∧ id ∉ s.paging.alarmIds ∧ 1 ≤ id ∧ id ≤ 255)
    ∧ (s.alarm.last ≠ some true →
      (s.alarm.state = .normal → exec .contactAssertion s = .next { s with
        alarm := { state := .qualifying, timer := some (48 * 200), last := some true }
        ports := told [f1 0, f1 1, f1 0] })
      ∧ (s.alarm.state = .alarmHeld →
        (∀ (ids : List Nat) (k : Nat), s.paging.alarmIds = ids ++ [k] → re k s.paging)
        ∧ (∀ q : Page, s.paging.alarmIds = [] → standing = some q → re q.id s.paging)
        ∧ (s.paging.alarmIds = [] → standing = none → re id kept))
      ∧ (s.alarm.state = .qualifying ∨ s.alarm.state = .alarm → exec .contactAssertion s =
        .next { s with alarm := { s.alarm with last := some true } }))
    ∧ (s.alarm.last = some true → exec .contactAssertion s = .next s)
    ∧ (s.alarm.last = some true →
      (s.alarm.state = .qualifying → exec .contactRelease s = .next { s with
        alarm := { state := .normal, timer := none, last := some false }, ports := told [f1 1, f1 0, f1 2] })
      ∧ (s.alarm.state = .alarm → exec .contactRelease s = .next { s with
        alarm := { state := .alarmHeld, timer := none, last := some false }, ports := told [f1 2, f1 3, f1 2] })
      ∧ (s.alarm.state = .normal ∨ s.alarm.state = .alarmHeld → exec .contactRelease s =
        .next { s with alarm := { s.alarm with last := some false } }))
    ∧ (s.alarm.last ≠ some true → exec .contactRelease s = .next { s with alarm := { s.alarm with last := some false } })
    ∧ (s.alarm.state = .qualifying → s.alarm.timer = some 0 → exec .qualificationExpiry s = .next (handAlarm .entry
      { s with
        alarm := { s.alarm with state := .alarm, timer := none }
        ports := told [f1 1, f1 2, f1 1, f1 id], paging := kept }))
    ∧ (∀ (p : PortId) (tag : Nat),
      let i := Instr.alarmReset p tag
      handed p i s = true → hasRight p .system s = true →
      (s.alarm.state = .alarm → exec i s = .next (answer p tag 49 i { outcome := .active } s))
      ∧ (s.alarm.state = .normal ∨ s.alarm.state = .qualifying →
        exec i s = .next (answer p tag 49 i { outcome := .accepted } s))
      ∧ (s.alarm.state = .alarmHeld → exec i s = .next (answer p tag 49 i { outcome := .accepted }
        (handAlarm .return { s with
          alarm := { s.alarm with state := .normal, timer := none }
          ports := told [f1 3, f1 0, f1 4, f1 (p.val + 1)] }))))
    ∧ ∀ m : AlarmMsg, (handAlarm m s).cues.alarm.inbox = s.cues.alarm.inbox ++ [m]
      ∧ (handAlarm m s).fades.alarm.inbox = s.fades.alarm.inbox ++ [m]
      ∧ (handAlarm m s).voices.alarm.inbox = s.voices.alarm.inbox ++ [m]
      ∧ (handAlarm m s).mix.alarm.inbox = s.mix.alarm.inbox ++ [m]
      ∧ (handAlarm m s).paging.alarm.inbox = s.paging.alarm.inbox ++ [m]

/-- R118, R39, R75, R23, R130, R191: what the cue engine, the fade unit, the voices and the mix engine do as each takes
the entry into ALARM, and that each changes only the alarm state it holds as it takes the return. Each entry of the running
list is told CUE COMPLETE, ALARM, in firing order, its code the model's reading (notes/assumptions/13.md); a voice that ends
alone is told VOICE ENDED, ALARM. -/
def Obligations.AlarmTakenByBlocks : Prop :=
  ∀ (s : State) (rest : List AlarmMsg),
    let held : AlarmView := { standing := true, inbox := rest }
    (s.cues.alarm.inbox = .entry :: rest → ∃ t, exec .alarmEntryCueEngine s = .next t
      ∧ t.cues = { s.cues with running := [], alarm := held }
      ∧ t.ports = s.cues.running.foldl (fun ports e =>
          afterNotice .cue 2 [f2 e.cue, f1 3, f1 e.issued, f1 e.snapped, f1 e.failed] ports) s.ports
      ∧ t = { s with card := t.card, voices := t.voices, cues := t.cues, ports := t.ports })
    ∧ (s.fades.alarm.inbox = .entry :: rest → NoneSettled s → VoiceFadeLaw s →
      ∃ t, exec .alarmEntryFadeUnit s = .next t ∧ t.fades.alarm = held
        ∧ (∀ r ∈ t.fades.table, r ∈ s.fades.table ∧ ∃ z, r.origin = .paging z)
        ∧ (∀ r ∈ s.fades.table, ∀ z y a b, r.origin = .paging z → r.body = .single (.zoneDuck y) a b → r ∈ t.fades.table)
        ∧ (∀ r ∈ s.fades.table, ∀ v, r.origin = .voiceStop v →
            t.voices.tab[v].state = .idle ∨ t.voices.tab[v].state = .draining)
        ∧ t = { s with
            fades := { s.fades with table := t.fades.table, alarm := held }, card := t.card, voices := t.voices
            paging := { s.paging with voiceIn := t.paging.voiceIn }, ports := t.ports })
    ∧ (s.voices.alarm.inbox = .entry :: rest → s.cues.running = [] → ∃ t, exec .alarmEntryVoices s = .next t
      ∧ t.voices.alarm = held
      ∧ (∀ v : VoiceId, v ≠ 15 → t.voices.tab[v].state = .idle ∨ t.voices.tab[v].state = .draining)
      ∧ t.voices.tab[(15 : Fin 16)].state = s.voices.tab[(15 : Fin 16)].state
      ∧ (let rests : VoiceId → Prop := fun u => u = 15 ∨ s.voices.tab[u].state = .idle ∨ s.voices.tab[u].state = .draining
         ((∀ u, rests u) → t.ports = s.ports)
         ∧ ∀ v : VoiceId, ¬rests v → (∀ u, u ≠ v → rests u) →
           (∀ r ∈ s.fades.table, drives (.voice v) r = true → ∀ q, r.origin ≠ .port q) →
           t.ports = afterNotice .voice 2 (statedVoiceEnd v s.voices.tab[v] 3) s.ports)
      ∧ t = { s with
          fades := { s.fades with table := t.fades.table }, card := t.card, voices := t.voices
          paging := { s.paging with voiceIn := t.paging.voiceIn }, ports := t.ports })
    ∧ (s.mix.alarm.inbox = .entry :: rest → ∃ mutes : Vector Bool 24,
      (∀ m : MixId, mutes[m] = (decide (m.val < 20) || s.mix.mute[m]))
      ∧ exec .alarmEntryMixEngine s = .next { s with
        mix := { s.mix with mute := mutes, talk := Vector.replicate 3 none, alarm := held } })
    ∧ (s.cues.alarm.inbox = .return :: rest → exec (.alarmReturn .cueEngine) s =
      .next { s with cues := { s.cues with alarm := { standing := false, inbox := rest } } })
    ∧ (s.fades.alarm.inbox = .return :: rest → exec (.alarmReturn .fadeUnit) s =
      .next { s with fades := { s.fades with alarm := { standing := false, inbox := rest } } })
    ∧ (s.voices.alarm.inbox = .return :: rest → exec (.alarmReturn .voices) s =
      .next { s with voices := { s.voices with alarm := { standing := false, inbox := rest } } })
    ∧ (s.mix.alarm.inbox = .return :: rest → exec (.alarmReturn .mixEngine) s =
      .next { s with mix := { s.mix with alarm := { standing := false, inbox := rest } } })

/-- R160, R161, R149: the paging unit takes the entry. With every listed record ENDED and no zone CARRYING the alarm page
joins the list with priority 0 for every zone, and carries every zone whose link is UP, in GAP or FREE; a page that carries one
of them loses it, and restarts or ends PREEMPTED. Its id is the one kept for it, oldest first, where one is
(notes/assumptions/15.md). Taking the return, it ends the alarm page ALARM RESET, and each zone that page carried enters
GAP. -/
def Obligations.AlarmPage : Prop :=
  ∀ (s : State) (rest : List AlarmMsg),
    let made : Page → Prop := fun q => q.origin = .alarm ∧ q.prio = 0 ∧ q.all = false ∧ q.chime = false
      ∧ q.restartable = false ∧ q.outcome = none
      ∧ q.source = (if h : 1 ≤ s.paging.evac ∧ s.paging.evac ≤ 64 then .live ⟨s.paging.evac - 1, by omega⟩ else .none)
      ∧ q.state = (if s.paging.linkUp = Vector.replicate 16 false then .pending else .speaking)
      ∧ ∀ z : ZoneId, q.wanted[z] = some (if s.paging.linkUp[z] then .carrying else .unreached)
    let named : List Page → Page → PagingUnit → Prop := fun old q u =>
      (∀ k ids, s.paging.alarmIds = k :: ids → q.id = k ∧ u.alarmIds = ids ∧ u.lastId = s.paging.lastId)
      ∧ (s.paging.alarmIds = [] → q.id = newPageId old s ∧ u.alarmIds = [] ∧ u.lastId = q.id
        ∧ (let next := if 255 ≤ s.paging.lastId then 1 else s.paging.lastId + 1
           (∀ r ∈ old, r.id ≠ next) → q.id = next))
    let serves : Page → State → Prop := fun q t => (∀ z : ZoneId, s.paging.linkUp[z] = true →
        t.paging.zones[z].service = .carrying ∧ t.paging.zones[z].carried = some q.id
        ∧ t.paging.zones[z].prio = some 0)
      ∧ t.paging.alarm = { standing := true, inbox := rest }
      ∧ t = { s with
          fades := { s.fades with table := t.fades.table }, card := t.card, voices := t.voices, paging := t.paging
          ports := t.ports }
    (s.paging.alarm.inbox = .entry :: rest → NoneSettled s → VoiceFadeLaw s → DuckLaw s → PageLimit s →
      (∀ k ∈ s.paging.alarmIds, ∀ q ∈ s.paging.pages, q.id ≠ k) →
      (∀ q ∈ s.paging.pages, q.state = .ended) → (∀ z : ZoneId, s.paging.zones[z].service ≠ .carrying) →
      let old := if s.paging.pages.length < 16 then s.paging.pages else s.paging.pages.tail
      (s.paging.alarmIds = [] → (∀ q ∈ old, q.id ≠ newPageId old s))
      ∧ ∃ t q, exec .alarmEntryPaging s = .next t ∧ t.paging.pages = old ++ [q] ∧ made q ∧ named old q t.paging
        ∧ serves q t)
    ∧ (∀ (z : ZoneId) (p : Page), s.paging.alarm.inbox = .entry :: rest → NoneSettled s → VoiceFadeLaw s → DuckLaw s →
      s.paging.pages = [p] → p.id ∉ s.paging.alarmIds → p.origin ≠ .alarm → 0 < p.prio →
      p.wanted = upd (Vector.replicate 16 none) z (some .carrying) → p.state = .chiming ∨ p.state = .speaking →
      s.paging.linkUp[z] = true → s.paging.zones[z].service = .carrying → s.paging.zones[z].carried = some p.id →
      s.paging.zones[z].prio = some p.prio → (∀ y : ZoneId, y ≠ z → s.paging.zones[y].service ≠ .carrying) →
      ∃ t p' q, exec .alarmEntryPaging s = .next t ∧ t.paging.pages = [p', q] ∧ made q ∧ named [p] q t.paging ∧ serves q t
        ∧ (p.restartable = false ∨ (∀ n, p.source ≠ .clip n) → p' = { p with
            wanted := upd (Vector.replicate 16 none) z (some .preEmpted), state := .ended, timer := none
            outcome := some .preEmpted, token := none })
        ∧ (∀ n, p.restartable = true → p.source = .clip n → p' = { p with
            wanted := upd (Vector.replicate 16 none) z (some .waiting), state := .pending, timer := none, play := .none
            chimePos := 0, token := none })
        ∧ t.paging.holder = (if s.paging.holder = some p.id then none else s.paging.holder))
    ∧ ∀ q : Page, s.paging.alarm.inbox = .return :: rest → alarmPage s = some q → pageOf q.id s = some q →
      ∃ t, exec .alarmReturnPaging s = .next t
        ∧ (pageOf q.id t).map (fun r => (r.state, r.outcome)) = some (.ended, some .alarmReset)
        ∧ (∀ z : ZoneId, q.wanted[z] = some .carrying → t.paging.zones[z].service = .gap
          ∧ t.paging.zones[z].duck = s.paging.zones[z].duck)
        ∧ t.paging.alarm = { standing := false, inbox := rest }
        ∧ t = { s with
            voices := { s.voices with pagingIn := t.voices.pagingIn }, paging := t.paging, ports := t.ports }

/-! ### The control ports -/

/-- 10.10: the settings by number, each with its range and the field that holds it. R204, R205, R206, R208: SUBSCRIBE, CLEAR ERRORS and SET RIGHTS write the port records; SET RIGHTS is refused where no
port would hold SYSTEM; CONFIG gives each setting it names its value brought into range, and no other setting moves. That
CONFIG's owners take their values in the one step (notes/assumptions/40.md), and the one character of the error flags
(notes/assumptions/14.md), are the model's. -/
def Obligations.PortOwnedRequests : Prop :=
  ∀ (p : PortId) (tag : Nat) (s : State),
    let setting : Nat → Nat → Nat → Nat → Prop := fun n lo hi v => settingRange n = (lo, hi) ∧ settingValue n s = v
    (setting 1 0 2000 s.cues.goGuard ∧ setting 2 0 10000 s.cues.panicFade
      ∧ (∀ f : FoldbackId, setting (3 + f.val) 65536 8388607 s.mix.ceiling[f])
      ∧ setting 15 0 60 s.mix.talkDepth ∧ setting 16 0 1 (if s.paging.reserve then 1 else 0)
      ∧ setting 17 0 216 s.paging.duckDepth ∧ setting 18 0 10000 s.paging.duckAttack
      ∧ setting 19 0 10000 s.paging.duckRelease ∧ setting 20 0 2000 s.paging.gap
      ∧ setting 21 5000 300000 s.paging.liveMax ∧ setting 22 0 64 s.paging.evac
      ∧ (∀ z : ZoneId, setting (23 + z.val) 0 4 (match s.paging.zones[z].feed with
          | none => 0
          | some k => k.val + 1))
      ∧ (∀ z : ZoneId, setting (39 + z.val) 0 240 s.paging.zones[z].pageLevel)
      ∧ ∀ q : PortId, setting (55 + q.val) 0 64 s.ports[q].pageMic ∧ setting (58 + q.val) 0 240 s.ports[q].talkLevel)
    ∧ (∀ classes : Nat, handed p (.subscribe p tag classes) s = true → classes < 128 →
      ∃ subs : Vector Bool 7, (∀ k : Fin 7, subs[k] = classes.testBit k.val)
        ∧ exec (.subscribe p tag classes) s = .next (answer p tag 2 (.subscribe p tag classes)
          { outcome := .accepted, fields := [f1 classes] }
          { s with ports := upd s.ports p { s.ports[p] with subs := subs } }))
    ∧ (handed p (.clearErrors p tag) s = true →
      exec (.clearErrors p tag) s = .next (answer p tag 3 (.clearErrors p tag)
        { outcome := .accepted, fields := [f1 s.ports[p].errs.bits] }
        { s with ports := upd s.ports p { s.ports[p] with
            errs := { parity := false, framing := false, overrun := false, malformed := false } } }))
    ∧ (∀ (q : PortId) (rights : Nat),
      let i := Instr.setRights p tag (q.val + 1) rights
      handed p i s = true → rights < 64 → hasRight p .system s = true →
      ∃ set : Vector Bool 6, (∀ k : Fin 6, set[k] = rights.testBit k.val)
        ∧ (set[(5 : Fin 6)] = true ∨ (∃ r : PortId, r ≠ q ∧ hasRight r .system s = true) →
          exec i s = .next (answer p tag 4 i { outcome := .accepted, fields := [f1 rights] }
            { s with ports := upd s.ports q { s.ports[q] with rights := set } }))
        ∧ (set[(5 : Fin 6)] = false → (∀ r : PortId, r ≠ q → hasRight r .system s = false) →
          exec i s = .next (answer p tag 4 i { outcome := .badArgument } s)))
    ∧ ∀ pairs : List (Nat × Nat),
      let i := Instr.config p tag pairs
      handed p i s = true → hasRight p .system s = true → (pairs.map (·.1)).Nodup →
      (∀ x ∈ pairs, 1 ≤ x.1 ∧ x.1 ≤ 60 ∧ (x.1 = 16 → x.2 ≤ 1) ∧ (23 ≤ x.1 → x.1 ≤ 38 → x.2 ≤ 4)) →
      ∃ t, exec i s = .next t
        ∧ (∀ q : PortId, t.mix.talk[q] = if ∃ x ∈ pairs, x = (55 + q.val, 0) then none else s.mix.talk[q])
        ∧ (∀ x ∈ pairs, settingValue x.1 t = max (settingRange x.1).1 (min x.2 (settingRange x.1).2))
        ∧ (∀ n, 1 ≤ n → n ≤ 60 → (∀ x ∈ pairs, x.1 ≠ n) → settingValue n t = settingValue n s)
        ∧ t = { s with
            mix := { s.mix with ceiling := t.mix.ceiling, talkDepth := t.mix.talkDepth, talk := t.mix.talk }
            cues := { s.cues with goGuard := t.cues.goGuard, panicFade := t.cues.panicFade }
            paging := { s.paging with
              reserve := t.paging.reserve, duckDepth := t.paging.duckDepth, duckAttack := t.paging.duckAttack
              duckRelease := t.paging.duckRelease, gap := t.paging.gap, liveMax := t.paging.liveMax
              evac := t.paging.evac, zones := t.paging.zones }
            ports := t.ports }
        ∧ (∀ z : ZoneId, t.paging.zones[z] = { s.paging.zones[z] with
            feed := t.paging.zones[z].feed, pageLevel := t.paging.zones[z].pageLevel })
        ∧ t.ports[p].replies = s.ports[p].replies ++ [
            { tag := tag, kind := 5, fields := []
              outcome := if pairs.all fun x => max (settingRange x.1).1 (min x.2 (settingRange x.1).2) == x.2
                then .accepted else .clamped }]

/-- R194, R210, R96, R92, R159, R130: a port comes UP; it goes DOWN and is left with empty queues, no subscription and no
error, its rights and settings kept; the requests its owners hold are carried out and not answered; the cue engine, the
paging unit and the mix engine take the port-down. That they take it after those requests, and that SUBSCRIBE and CLEAR
ERRORS are not among those, is the model's choice (notes/assumptions/49.md). Of the pages listed, ids differing, each live
page of the port ends PORT DOWN and its zones enter GAP; clip pages, and those of other origins, stay. -/
def Obligations.PortUpAndDown : Prop :=
  ∀ (p : PortId) (s : State),
    (s.ports[p].up = false → exec (.portUp p) s =
      .next { s with ports := upd s.ports p { s.ports[p] with up := true, prdy := true, armed := false } })
    ∧ (s.ports[p].up = true → ∃ t, exec (.portDown p) s = .next t
      ∧ t.ports[p] = { State.Reset.port p with
          cts := s.ports[p].cts, rights := s.ports[p].rights, pageMic := s.ports[p].pageMic
          talkLevel := s.ports[p].talkLevel
          taken := s.ports[p].taken ++ s.ports[p].reqs.filterMap fun q => match q.state with
            | .handed (.subscribe ..) => none
            | .handed (.clearErrors ..) => none
            | .handed i => some i
            | _ => none }
      ∧ (∀ q : PortId, q ≠ p → t.ports[q] = s.ports[q])
      ∧ t.cues = { s.cues with downIn := s.cues.downIn ++ [p] }
      ∧ t.paging = { s.paging with downIn := s.paging.downIn ++ [p] }
      ∧ t.mix = { s.mix with downIn := s.mix.downIn ++ [p] }
      ∧ t = { s with mix := t.mix, cues := t.cues, paging := t.paging, ports := t.ports })
    ∧ (∀ (i : Instr) (k : Nat) (body : List Nat), requestMessage i = some (p, k, body) → i ∈ s.ports[p].taken →
      ∃ t, exec i s = .next t ∧ t.ports[p].taken = s.ports[p].taken.erase i ∧ t.ports[p].reqs = s.ports[p].reqs
        ∧ t.ports[p].replies = s.ports[p].replies)
    ∧ (∀ (tag : Nat) (m : MixId), .mute p tag (m.val + 1) 1 ∈ s.ports[p].taken → hasRight p .mix s = true →
      exec (.mute p tag (m.val + 1) 1) s = .next { s with
        mix := { s.mix with mute := upd s.mix.mute m true }
        ports := upd s.ports p { s.ports[p] with taken := s.ports[p].taken.erase (.mute p tag (m.val + 1) 1) } })
    ∧ (s.ports[p].taken ≠ [] → exec (.portDownCueEngine p) s = .next s ∧ exec (.portDownPaging p) s = .next s
      ∧ exec (.portDownMix p) s = .next s)
    ∧ (∀ rest : List PortId, s.ports[p].taken = [] → s.cues.downIn = p :: rest →
      ∃ t, exec (.portDownCueEngine p) s = .next t
        ∧ t.cues = { s.cues with
            downIn := rest, drafts := upd s.cues.drafts p none
            holder := if s.cues.holder = some p then none else s.cues.holder }
        ∧ (s.cues.holder ≠ some p → t.ports = s.ports) ∧ t = { s with cues := t.cues, ports := t.ports })
    ∧ (∀ rest : List PortId, s.ports[p].taken = [] → s.paging.downIn = p :: rest →
      let own : Page → Bool := fun q => q.state != .ended && q.origin == .port p && (match q.source with
        | .clip _ => false
        | _ => true)
      (s.paging.pages.map (·.id)).Nodup →
      ∃ t, exec (.portDownPaging p) s = .next t ∧ t.paging.downIn = rest
        ∧ t = { s with
            voices := { s.voices with pagingIn := t.voices.pagingIn }, paging := t.paging, ports := t.ports }
        ∧ t.paging.pages = (s.paging.pages.map fun q => if own q then { q with
              state := .ended, timer := none, outcome := some .portDown, token := none
              wanted := vmapi (fun _ w => if w = some .carrying then some .done else w) q.wanted } else q)
        ∧ (∀ z : ZoneId, (∃ q ∈ s.paging.pages, own q = true ∧ q.wanted[z] = some .carrying) →
            t.paging.zones[z] = { s.paging.zones[z] with service := .gap, gapTimer := some (48 * s.paging.gap) })
        ∧ (∀ z : ZoneId, (∀ q ∈ s.paging.pages, own q = true → q.wanted[z] ≠ some .carrying) →
            t.paging.zones[z] = s.paging.zones[z])
        ∧ ((∀ q ∈ s.paging.pages, own q = false) → t.ports = s.ports))
    ∧ ∀ rest : List PortId, s.ports[p].taken = [] → s.mix.downIn = p :: rest → exec (.portDownMix p) s =
      .next { s with mix := { s.mix with downIn := rest, talk := upd s.mix.talk p none } }

/-- R194, R195, R196, R197: an armed port in UP makes one entry of a start bit by the table of R196, under even parity; a
holding FIFO with room takes it, and a full one discards it and sets OVERRUN and the loss mark. A port that is not armed takes
none. That a port once armed stays so until it goes DOWN is the model's choice (notes/assumptions/24.md). -/
def Obligations.CharacterReceived : Prop :=
  ∀ (p : PortId) (x : RxBits) (e : RxEntry) (s : State),
    let r := s.ports[p]
    let odd := (List.finRange 8).foldl (fun b i => b ^^ x.data.getLsbD i.val) (x.head ^^ x.parity)
    e = (if x.stop then (if odd then .parity else .character x.data x.head)
         else if x.backAtMark then .framing else .brk) →
    (r.up = true → r.armed = true ∨ x.idleBefore = true →
      (r.fifo.length < 2 → exec (.characterReceived p x) s =
        .next { s with ports := upd s.ports p { r with armed := true, fifo := r.fifo ++ [e] } })
      ∧ (2 ≤ r.fifo.length → ∃ t, exec (.characterReceived p x) s = .next t
        ∧ t.ports[p].fifo = r.fifo ∧ t.ports[p].loss = true ∧ t.ports[p].errs = { r.errs with overrun := true }
        ∧ (∀ q : PortId, q ≠ p → t.ports[q] = s.ports[q]) ∧ t = { s with ports := t.ports }))
    ∧ (r.up = false ∨ (r.armed = false ∧ x.idleBefore = false) → exec (.characterReceived p x) s = .next s)

/-- R197, R198, R199, R205: the assembler, in every row of the table of R198, and with the loss mark set: a head begins a
message, within one it is MALFORMED and begins anew; a length of 1 to 62 is kept, 0 completes a message with no body, more is
MALFORMED; a body character joins the body, and the last completes a request, which waits while fewer than two are held;
PARITY, FRAMING and BREAK discard the message in assembly, the first two set their flag; the loss mark discards it before
the entry is dealt with. A flag that passes from clear to set is told. That an empty FIFO changes nothing
(notes/assumptions/2.md), the codes of the flags (notes/assumptions/13.md) and their one character
(notes/assumptions/14.md) are the model's. -/
def Obligations.AssemblerRows : Prop :=
  ∀ (p : PortId) (es : List RxEntry) (d h : Byte) (s : State),
    let r := s.ports[p]
    let done : PortRecord → Prop := fun r' => exec (.assemblerEntry p) s = .next { s with ports := upd s.ports p r' }
    let flags : ErrFlags → Nat → PortRecord → PortRecord := fun e code r' =>
      if r.errs = e then r'
      else
        let x := { r' with errs := e }
        if r.subs[(6 : Fin 7)] then enqueueNotice { cls := .port, kind := 1, fields := [f1 code, f1 e.bits] } x else x
    let parity := flags { r.errs with parity := true } 0
    let framing := flags { r.errs with framing := true } 1
    let overrun := flags { r.errs with overrun := true } 2
    let malformed := flags { r.errs with malformed := true } 3
    let rest : Option Assembly → PortRecord := fun a => { r with fifo := es, asm := a, loss := false }
    let fresh : Option Assembly := some { head := d, len := none, body := [] }
    let made : List Byte → Prop := fun body =>
      (r.reqs.length < 2 → done { rest none with
        reqs := r.reqs ++ [{ kind := h.toNat, body := body, state := .waiting }] })
      ∧ (2 ≤ r.reqs.length → done (overrun (rest none)))
    (r.fifo = [] → exec (.assemblerEntry p) s = .next s)
    ∧ (r.fifo = .parity :: es → done (parity (rest none)))
    ∧ (r.fifo = .framing :: es → done (framing (rest none)))
    ∧ (r.fifo = .brk :: es → done (rest none))
    ∧ (r.fifo = .character d false :: es → r.asm = none ∨ r.loss = true → done (rest none))
    ∧ (r.fifo = .character d true :: es → r.asm = none ∨ r.loss = true → done (rest fresh))
    ∧ (r.fifo = .character d true :: es → r.loss = false → r.asm ≠ none → done (malformed (rest fresh)))
    ∧ (∀ b : List Byte, r.fifo = .character d false :: es → r.loss = false →
        r.asm = some { head := h, len := none, body := b } →
        (1 ≤ d.toNat → d.toNat ≤ 62 → done (rest (some { head := h, len := some d.toNat, body := b })))
        ∧ (d.toNat = 0 → made [])
        ∧ (62 < d.toNat → done (malformed (rest none))))
    ∧ ∀ (n : Nat) (b : List Byte), r.fifo = .character d false :: es → r.loss = false →
        r.asm = some { head := h, len := some n, body := b } →
        (b.length + 1 < n → done (rest (some { head := h, len := some n, body := b ++ [d] })))
        ∧ (b.length + 1 = n → made (b ++ [d]))

/-- R200, R201, R203, R199, R195: the port takes its oldest WAITING request, behind requests ANSWERED or none, while no
request is with its owner; the transmitter begins the oldest reply, else the oldest notice with the notices-lost flag: each
character with even parity, the head mark on the first alone. It ends a message, and a reply's request leaves; with CTS
inactive it ends one only if its last character had been begun. CTS follows its pin, and no character is begun while CTS
is inactive (notes/assumptions/23.md). -/
def Obligations.RequestsAndTransmitter : Prop :=
  ∀ (p : PortId) (s : State),
    let r := s.ports[p]
    let done : Instr → PortRecord → Prop := fun c r' => exec c s = .next { s with ports := upd s.ports p r' }
    let even : TxChar → Bool := fun x =>
      !(List.finRange 8).foldl (fun b i => b ^^ x.data.getLsbD i.val) (x.head ^^ x.parity)
    let framing : List TxChar → List Nat → Prop := fun cs data => cs.map (·.data) = data.map (BitVec.ofNat 8)
      ∧ (∀ x ∈ cs, even x = true) ∧ (∀ k x, cs[k]? = some x → x.head = (k == 0))
    (∀ (q : Request) (before after : List Request), r.reqs = before ++ q :: after → q.state = .waiting →
      (∀ a ∈ before, a.state = .answered) → (∀ a ∈ after, ∀ i, a.state ≠ .handed i) →
      (∀ i, parseRequest p q.kind (q.body.map BitVec.toNat) = some i →
        done (.requestTaken p) { r with reqs := before ++ { q with state := .handed i } :: after })
      ∧ (parseRequest p q.kind (q.body.map BitVec.toNat) = none →
        done (.requestTaken p) { r with
          reqs := before ++ { q with state := .answered } :: after
          replies := r.replies ++ [{ tag := (q.body.head?.map BitVec.toNat).getD 0, kind := q.kind
                                     outcome := .badArgument, fields := [] }] }))
    ∧ (∀ q i, q ∈ r.reqs → q.state = .handed i → exec (.requestTaken p) s = .next s)
    ∧ (r.up = true → r.cts = true → r.tx = none →
      (∀ q qs, r.replies = q :: qs → ∃ cs, framing cs q.chars ∧ done (.transmitStart p)
        { r with replies := qs, tx := some { reply := true, chars := cs, begun := 1 } })
      ∧ (∀ n ns, r.replies = [] → r.notices = n :: ns → ∃ cs, framing cs (n.chars r.lost) ∧ done (.transmitStart p)
        { r with notices := ns, lost := false, tx := some { reply := false, chars := cs, begun := 1 } }))
    ∧ (∀ x : Transmission, r.tx = some x → r.cts = true ∨ x.chars.length ≤ x.begun →
      (x.reply = false → done (.transmitEnd p) { r with tx := none })
      ∧ (∀ q qs, x.reply = true → r.reqs = q :: qs → q.state = .answered →
        done (.transmitEnd p) { r with tx := none, reqs := qs }))
    ∧ (∀ x : Transmission, r.tx = some x → r.cts = false → x.begun < x.chars.length →
      exec (.transmitEnd p) s = .next s)
    ∧ ∀ (active : Bool) (begun : Nat),
      (r.tx = none ∨ r.cts = false → done (.ctsChange p active begun) { r with cts := active })
      ∧ ∀ x : Transmission, r.tx = some x → r.cts = true → done (.ctsChange p active begun) { r with
          cts := active, tx := some { x with begun := max x.begun (min begun x.chars.length) } }

/-- The introduction's law of requests: a request that is refused changes nothing but its own request and reply, with no
entry that would complete and no read that would begin. -/
def Obligations.RefusedRequestChangesNothing : Prop :=
  ∀ (i : Instr) (p : PortId) (k : Nat) (body : List Nat) (s t : State) (r : Reply),
    requestMessage i = some (p, k, body) → exec i s = .next t → NoneSettled s →
    s.card.reader.isSome = true ∨ nextJob s.card = none →
    t.ports[p].replies = s.ports[p].replies ++ [r] → r.outcome ≠ .accepted → r.outcome ≠ .clamped →
    t = answer p r.tag r.kind i { outcome := r.outcome, fields := r.fields } s

/-- R200, 10.12: every well-formed request, written as the kind and body of a control-port message, fits 62 body characters
of a byte each, and is read back as itself with every field at every value its characters admit. -/
def Obligations.RequestMessageRoundTrip : Prop :=
  ∀ (i : Instr) (p : PortId) (k : Nat) (body : List Nat), i.wf = true → requestMessage i = some (p, k, body) →
    parseRequest p k body = some i ∧ 1 ≤ body.length ∧ body.length ≤ 62 ∧ (∀ c ∈ body, c < 256) ∧ 1 ≤ k ∧ k ≤ 49

/-! ### What every step keeps -/

/-- R197, R199, R202: after any step the queues of every port are within their limits, and no more replies wait or are
being sent than requests stand ANSWERED. -/
def Obligations.StepKeepsPortLimits : Prop := ∀ s t : State, PortsLimited s → StepsTo s t → PortsLimited t

/-- R105, R146, R206, R188: after any step the running list and the page list hold at most 16, some port holds SYSTEM, and
while the mix engine holds ALARM or ALARM HELD every auditorium and foldback mix is muted. -/
def Obligations.StepKeepsListsRightsAndMutes : Prop :=
  ∀ s t : State, StepsTo s t →
    (RunLimit s → RunLimit t) ∧ (PageLimit s → PageLimit t) ∧ (SystemHeld s → SystemHeld t)
      ∧ (AlarmMutes s → AlarmMutes t)

/-- R25, R73, R30, R111: after any step the fade table holds at most 64 records, each level target is driven by at most one
of them, stop records and the voices' states agree, a record on a zone's duck level is the paging unit's, and no entry in
SETTLING waits for nothing. -/
def Obligations.StepKeepsFadeLaws : Prop :=
  ∀ s t : State, StepsTo s t →
    (FadeLimit s → FadeLimit t) ∧ (DrivenOnce s → DrivenOnce t) ∧ (VoiceFadeLaw s → VoiceFadeLaw t)
      ∧ (DuckLaw s → DuckLaw t) ∧ (DuckLaw s → NoneSettled s → NoneSettled t)

/-- R61: after any step the free pages and the quotas of the voices total 48. -/
def Obligations.StepKeepsPoolLaw : Prop := ∀ s t : State, PoolLaw s → StepsTo s t → PoolLaw t

/-- R1, R2, R79, R146, R83: after any step every fine level is at most 3840 and every level code at most 240, wherever the
part holds one; the cue numbers ascend and the standing cue is in the list; every listed page and every PAGE action has a
priority of at most 3. -/
def Obligations.StepKeepsLevelLaw : Prop :=
  ∀ s t : State, StepsTo s t → (LevelLaw s → LevelLaw t) ∧ (CueListLaw s → CueListLaw t)
    ∧ (PagePriorityLaw s → PagePriorityLaw t)

/-- The reset state satisfies every law that the steps keep. -/
def Obligations.ResetSatisfiesLaws : Prop :=
  PortsLimited State.reset ∧ SystemHeld State.reset ∧ AlarmMutes State.reset ∧ FadeLimit State.reset
    ∧ DuckLaw State.reset ∧ DrivenOnce State.reset ∧ VoiceFadeLaw State.reset ∧ RunLimit State.reset ∧ PageLimit State.reset
    ∧ PoolLaw State.reset ∧ LevelLaw State.reset ∧ CueListLaw State.reset ∧ PagePriorityLaw State.reset
    ∧ NoneSettled State.reset
end

