-- ==== Sys2Proof/Laws/State.lean ====
section
/-! SUPPORT. One lemma for each field and each update of the shared operations (Machine/Ops.lean), true by unfolding, so
that no later proof unfolds a record update. -/

namespace Sys2Proof.Machine

variable (s : State)

/-! ### What an update of one block leaves -/

@[simp] theorem modPort_pending (p : PortId) (f : PortRecord → PortRecord) : (modPort p f s).pending = s.pending := rfl
@[simp] theorem modPort_mix (p : PortId) (f : PortRecord → PortRecord) : (modPort p f s).mix = s.mix := rfl
@[simp] theorem modPort_fades (p : PortId) (f : PortRecord → PortRecord) : (modPort p f s).fades = s.fades := rfl
@[simp] theorem modPort_card (p : PortId) (f : PortRecord → PortRecord) : (modPort p f s).card = s.card := rfl
@[simp] theorem modPort_voices (p : PortId) (f : PortRecord → PortRecord) : (modPort p f s).voices = s.voices := rfl
@[simp] theorem modPort_cues (p : PortId) (f : PortRecord → PortRecord) : (modPort p f s).cues = s.cues := rfl
@[simp] theorem modPort_paging (p : PortId) (f : PortRecord → PortRecord) : (modPort p f s).paging = s.paging := rfl
@[simp] theorem modPort_lines (p : PortId) (f : PortRecord → PortRecord) : (modPort p f s).lines = s.lines := rfl
@[simp] theorem modPort_alarm (p : PortId) (f : PortRecord → PortRecord) : (modPort p f s).alarm = s.alarm := rfl

@[simp] theorem modVoice_pending (v : VoiceId) (f : Voice → Voice) : (modVoice v f s).pending = s.pending := rfl
@[simp] theorem modVoice_mix (v : VoiceId) (f : Voice → Voice) : (modVoice v f s).mix = s.mix := rfl
@[simp] theorem modVoice_fades (v : VoiceId) (f : Voice → Voice) : (modVoice v f s).fades = s.fades := rfl
@[simp] theorem modVoice_card (v : VoiceId) (f : Voice → Voice) : (modVoice v f s).card = s.card := rfl
@[simp] theorem modVoice_cues (v : VoiceId) (f : Voice → Voice) : (modVoice v f s).cues = s.cues := rfl
@[simp] theorem modVoice_paging (v : VoiceId) (f : Voice → Voice) : (modVoice v f s).paging = s.paging := rfl
@[simp] theorem modVoice_lines (v : VoiceId) (f : Voice → Voice) : (modVoice v f s).lines = s.lines := rfl
@[simp] theorem modVoice_alarm (v : VoiceId) (f : Voice → Voice) : (modVoice v f s).alarm = s.alarm := rfl
@[simp] theorem modVoice_ports (v : VoiceId) (f : Voice → Voice) : (modVoice v f s).ports = s.ports := rfl
@[simp] theorem modVoice_voices_free (v : VoiceId) (f : Voice → Voice) : (modVoice v f s).voices.free = s.voices.free := rfl
@[simp] theorem modVoice_voices_pagingIn (v : VoiceId) (f : Voice → Voice) : (modVoice v f s).voices.pagingIn = s.voices.pagingIn := rfl
@[simp] theorem modVoice_voices_alarm (v : VoiceId) (f : Voice → Voice) : (modVoice v f s).voices.alarm = s.voices.alarm := rfl

@[simp] theorem modZone_pending (z : ZoneId) (f : Zone → Zone) : (modZone z f s).pending = s.pending := rfl
@[simp] theorem modZone_mix (z : ZoneId) (f : Zone → Zone) : (modZone z f s).mix = s.mix := rfl
@[simp] theorem modZone_fades (z : ZoneId) (f : Zone → Zone) : (modZone z f s).fades = s.fades := rfl
@[simp] theorem modZone_card (z : ZoneId) (f : Zone → Zone) : (modZone z f s).card = s.card := rfl
@[simp] theorem modZone_voices (z : ZoneId) (f : Zone → Zone) : (modZone z f s).voices = s.voices := rfl
@[simp] theorem modZone_cues (z : ZoneId) (f : Zone → Zone) : (modZone z f s).cues = s.cues := rfl
@[simp] theorem modZone_lines (z : ZoneId) (f : Zone → Zone) : (modZone z f s).lines = s.lines := rfl
@[simp] theorem modZone_alarm (z : ZoneId) (f : Zone → Zone) : (modZone z f s).alarm = s.alarm := rfl
@[simp] theorem modZone_ports (z : ZoneId) (f : Zone → Zone) : (modZone z f s).ports = s.ports := rfl
@[simp] theorem modZone_paging_pages (z : ZoneId) (f : Zone → Zone) : (modZone z f s).paging.pages = s.paging.pages := rfl
@[simp] theorem modZone_paging_alarmIds (z : ZoneId) (f : Zone → Zone) :
    (modZone z f s).paging.alarmIds = s.paging.alarmIds := rfl
@[simp] theorem modZone_paging_lastId (z : ZoneId) (f : Zone → Zone) : (modZone z f s).paging.lastId = s.paging.lastId := rfl
@[simp] theorem modZone_paging_holder (z : ZoneId) (f : Zone → Zone) : (modZone z f s).paging.holder = s.paging.holder := rfl
@[simp] theorem modZone_paging_reserve (z : ZoneId) (f : Zone → Zone) : (modZone z f s).paging.reserve = s.paging.reserve := rfl
@[simp] theorem modZone_paging_duckDepth (z : ZoneId) (f : Zone → Zone) : (modZone z f s).paging.duckDepth = s.paging.duckDepth := rfl
@[simp] theorem modZone_paging_duckAttack (z : ZoneId) (f : Zone → Zone) : (modZone z f s).paging.duckAttack = s.paging.duckAttack := rfl
@[simp] theorem modZone_paging_duckRelease (z : ZoneId) (f : Zone → Zone) : (modZone z f s).paging.duckRelease = s.paging.duckRelease := rfl
@[simp] theorem modZone_paging_gap (z : ZoneId) (f : Zone → Zone) : (modZone z f s).paging.gap = s.paging.gap := rfl
@[simp] theorem modZone_paging_liveMax (z : ZoneId) (f : Zone → Zone) : (modZone z f s).paging.liveMax = s.paging.liveMax := rfl
@[simp] theorem modZone_paging_evac (z : ZoneId) (f : Zone → Zone) : (modZone z f s).paging.evac = s.paging.evac := rfl
@[simp] theorem modZone_paging_linkUp (z : ZoneId) (f : Zone → Zone) : (modZone z f s).paging.linkUp = s.paging.linkUp := rfl
@[simp] theorem modZone_paging_linkIn (z : ZoneId) (f : Zone → Zone) : (modZone z f s).paging.linkIn = s.paging.linkIn := rfl
@[simp] theorem modZone_paging_voiceIn (z : ZoneId) (f : Zone → Zone) : (modZone z f s).paging.voiceIn = s.paging.voiceIn := rfl
@[simp] theorem modZone_paging_lastToken (z : ZoneId) (f : Zone → Zone) : (modZone z f s).paging.lastToken = s.paging.lastToken := rfl
@[simp] theorem modZone_paging_alarm (z : ZoneId) (f : Zone → Zone) : (modZone z f s).paging.alarm = s.paging.alarm := rfl
@[simp] theorem modZone_paging_downIn (z : ZoneId) (f : Zone → Zone) : (modZone z f s).paging.downIn = s.paging.downIn := rfl

@[simp] theorem modLine_pending (l : ZoneId) (f : Line → Line) : (modLine l f s).pending = s.pending := rfl
@[simp] theorem modLine_mix (l : ZoneId) (f : Line → Line) : (modLine l f s).mix = s.mix := rfl
@[simp] theorem modLine_fades (l : ZoneId) (f : Line → Line) : (modLine l f s).fades = s.fades := rfl
@[simp] theorem modLine_card (l : ZoneId) (f : Line → Line) : (modLine l f s).card = s.card := rfl
@[simp] theorem modLine_voices (l : ZoneId) (f : Line → Line) : (modLine l f s).voices = s.voices := rfl
@[simp] theorem modLine_cues (l : ZoneId) (f : Line → Line) : (modLine l f s).cues = s.cues := rfl
@[simp] theorem modLine_paging (l : ZoneId) (f : Line → Line) : (modLine l f s).paging = s.paging := rfl
@[simp] theorem modLine_alarm (l : ZoneId) (f : Line → Line) : (modLine l f s).alarm = s.alarm := rfl
@[simp] theorem modLine_ports (l : ZoneId) (f : Line → Line) : (modLine l f s).ports = s.ports := rfl
@[simp] theorem modLine_lines_count (l : ZoneId) (f : Line → Line) : (modLine l f s).lines.count = s.lines.count := rfl
@[simp] theorem modLine_lines_due (l : ZoneId) (f : Line → Line) : (modLine l f s).lines.due = s.lines.due := rfl

@[simp] theorem modMix_pending (f : MixEngine → MixEngine) : (modMix f s).pending = s.pending := rfl
@[simp] theorem modMix_fades (f : MixEngine → MixEngine) : (modMix f s).fades = s.fades := rfl
@[simp] theorem modMix_card (f : MixEngine → MixEngine) : (modMix f s).card = s.card := rfl
@[simp] theorem modMix_voices (f : MixEngine → MixEngine) : (modMix f s).voices = s.voices := rfl
@[simp] theorem modMix_cues (f : MixEngine → MixEngine) : (modMix f s).cues = s.cues := rfl
@[simp] theorem modMix_paging (f : MixEngine → MixEngine) : (modMix f s).paging = s.paging := rfl
@[simp] theorem modMix_lines (f : MixEngine → MixEngine) : (modMix f s).lines = s.lines := rfl
@[simp] theorem modMix_alarm (f : MixEngine → MixEngine) : (modMix f s).alarm = s.alarm := rfl
@[simp] theorem modMix_ports (f : MixEngine → MixEngine) : (modMix f s).ports = s.ports := rfl
@[simp] theorem modMix_mix (f : MixEngine → MixEngine) : (modMix f s).mix = f s.mix := rfl

@[simp] theorem modFades_pending (f : FadeUnit → FadeUnit) : (modFades f s).pending = s.pending := rfl
@[simp] theorem modFades_mix (f : FadeUnit → FadeUnit) : (modFades f s).mix = s.mix := rfl
@[simp] theorem modFades_card (f : FadeUnit → FadeUnit) : (modFades f s).card = s.card := rfl
@[simp] theorem modFades_voices (f : FadeUnit → FadeUnit) : (modFades f s).voices = s.voices := rfl
@[simp] theorem modFades_cues (f : FadeUnit → FadeUnit) : (modFades f s).cues = s.cues := rfl
@[simp] theorem modFades_paging (f : FadeUnit → FadeUnit) : (modFades f s).paging = s.paging := rfl
@[simp] theorem modFades_lines (f : FadeUnit → FadeUnit) : (modFades f s).lines = s.lines := rfl
@[simp] theorem modFades_alarm (f : FadeUnit → FadeUnit) : (modFades f s).alarm = s.alarm := rfl
@[simp] theorem modFades_ports (f : FadeUnit → FadeUnit) : (modFades f s).ports = s.ports := rfl
@[simp] theorem modFades_fades (f : FadeUnit → FadeUnit) : (modFades f s).fades = f s.fades := rfl

@[simp] theorem modCard_pending (f : CardUnit → CardUnit) : (modCard f s).pending = s.pending := rfl
@[simp] theorem modCard_mix (f : CardUnit → CardUnit) : (modCard f s).mix = s.mix := rfl
@[simp] theorem modCard_fades (f : CardUnit → CardUnit) : (modCard f s).fades = s.fades := rfl
@[simp] theorem modCard_voices (f : CardUnit → CardUnit) : (modCard f s).voices = s.voices := rfl
@[simp] theorem modCard_cues (f : CardUnit → CardUnit) : (modCard f s).cues = s.cues := rfl
@[simp] theorem modCard_paging (f : CardUnit → CardUnit) : (modCard f s).paging = s.paging := rfl
@[simp] theorem modCard_lines (f : CardUnit → CardUnit) : (modCard f s).lines = s.lines := rfl
@[simp] theorem modCard_alarm (f : CardUnit → CardUnit) : (modCard f s).alarm = s.alarm := rfl
@[simp] theorem modCard_ports (f : CardUnit → CardUnit) : (modCard f s).ports = s.ports := rfl
@[simp] theorem modCard_card (f : CardUnit → CardUnit) : (modCard f s).card = f s.card := rfl

@[simp] theorem modVoices_pending (f : VoiceUnit → VoiceUnit) : (modVoices f s).pending = s.pending := rfl
@[simp] theorem modVoices_mix (f : VoiceUnit → VoiceUnit) : (modVoices f s).mix = s.mix := rfl
@[simp] theorem modVoices_fades (f : VoiceUnit → VoiceUnit) : (modVoices f s).fades = s.fades := rfl
@[simp] theorem modVoices_card (f : VoiceUnit → VoiceUnit) : (modVoices f s).card = s.card := rfl
@[simp] theorem modVoices_cues (f : VoiceUnit → VoiceUnit) : (modVoices f s).cues = s.cues := rfl
@[simp] theorem modVoices_paging (f : VoiceUnit → VoiceUnit) : (modVoices f s).paging = s.paging := rfl
@[simp] theorem modVoices_lines (f : VoiceUnit → VoiceUnit) : (modVoices f s).lines = s.lines := rfl
@[simp] theorem modVoices_alarm (f : VoiceUnit → VoiceUnit) : (modVoices f s).alarm = s.alarm := rfl
@[simp] theorem modVoices_ports (f : VoiceUnit → VoiceUnit) : (modVoices f s).ports = s.ports := rfl
@[simp] theorem modVoices_voices (f : VoiceUnit → VoiceUnit) : (modVoices f s).voices = f s.voices := rfl

@[simp] theorem modCues_pending (f : CueEngine → CueEngine) : (modCues f s).pending = s.pending := rfl
@[simp] theorem modCues_mix (f : CueEngine → CueEngine) : (modCues f s).mix = s.mix := rfl
@[simp] theorem modCues_fades (f : CueEngine → CueEngine) : (modCues f s).fades = s.fades := rfl
@[simp] theorem modCues_card (f : CueEngine → CueEngine) : (modCues f s).card = s.card := rfl
@[simp] theorem modCues_voices (f : CueEngine → CueEngine) : (modCues f s).voices = s.voices := rfl
@[simp] theorem modCues_paging (f : CueEngine → CueEngine) : (modCues f s).paging = s.paging := rfl
@[simp] theorem modCues_lines (f : CueEngine → CueEngine) : (modCues f s).lines = s.lines := rfl
@[simp] theorem modCues_alarm (f : CueEngine → CueEngine) : (modCues f s).alarm = s.alarm := rfl
@[simp] theorem modCues_ports (f : CueEngine → CueEngine) : (modCues f s).ports = s.ports := rfl
@[simp] theorem modCues_cues (f : CueEngine → CueEngine) : (modCues f s).cues = f s.cues := rfl

@[simp] theorem modPaging_pending (f : PagingUnit → PagingUnit) : (modPaging f s).pending = s.pending := rfl
@[simp] theorem modPaging_mix (f : PagingUnit → PagingUnit) : (modPaging f s).mix = s.mix := rfl
@[simp] theorem modPaging_fades (f : PagingUnit → PagingUnit) : (modPaging f s).fades = s.fades := rfl
@[simp] theorem modPaging_card (f : PagingUnit → PagingUnit) : (modPaging f s).card = s.card := rfl
@[simp] theorem modPaging_voices (f : PagingUnit → PagingUnit) : (modPaging f s).voices = s.voices := rfl
@[simp] theorem modPaging_cues (f : PagingUnit → PagingUnit) : (modPaging f s).cues = s.cues := rfl
@[simp] theorem modPaging_lines (f : PagingUnit → PagingUnit) : (modPaging f s).lines = s.lines := rfl
@[simp] theorem modPaging_alarm (f : PagingUnit → PagingUnit) : (modPaging f s).alarm = s.alarm := rfl
@[simp] theorem modPaging_ports (f : PagingUnit → PagingUnit) : (modPaging f s).ports = s.ports := rfl
@[simp] theorem modPaging_paging (f : PagingUnit → PagingUnit) : (modPaging f s).paging = f s.paging := rfl

@[simp] theorem modLines_pending (f : LineUnit → LineUnit) : (modLines f s).pending = s.pending := rfl
@[simp] theorem modLines_mix (f : LineUnit → LineUnit) : (modLines f s).mix = s.mix := rfl
@[simp] theorem modLines_fades (f : LineUnit → LineUnit) : (modLines f s).fades = s.fades := rfl
@[simp] theorem modLines_card (f : LineUnit → LineUnit) : (modLines f s).card = s.card := rfl
@[simp] theorem modLines_voices (f : LineUnit → LineUnit) : (modLines f s).voices = s.voices := rfl
@[simp] theorem modLines_cues (f : LineUnit → LineUnit) : (modLines f s).cues = s.cues := rfl
@[simp] theorem modLines_paging (f : LineUnit → LineUnit) : (modLines f s).paging = s.paging := rfl
@[simp] theorem modLines_alarm (f : LineUnit → LineUnit) : (modLines f s).alarm = s.alarm := rfl
@[simp] theorem modLines_ports (f : LineUnit → LineUnit) : (modLines f s).ports = s.ports := rfl
@[simp] theorem modLines_lines (f : LineUnit → LineUnit) : (modLines f s).lines = f s.lines := rfl

@[simp] theorem modEntry_pending (n : Nat) (f : RunEntry → RunEntry) : (modEntry n f s).pending = s.pending := rfl
@[simp] theorem modEntry_mix (n : Nat) (f : RunEntry → RunEntry) : (modEntry n f s).mix = s.mix := rfl
@[simp] theorem modEntry_fades (n : Nat) (f : RunEntry → RunEntry) : (modEntry n f s).fades = s.fades := rfl
@[simp] theorem modEntry_card (n : Nat) (f : RunEntry → RunEntry) : (modEntry n f s).card = s.card := rfl
@[simp] theorem modEntry_voices (n : Nat) (f : RunEntry → RunEntry) : (modEntry n f s).voices = s.voices := rfl
@[simp] theorem modEntry_paging (n : Nat) (f : RunEntry → RunEntry) : (modEntry n f s).paging = s.paging := rfl
@[simp] theorem modEntry_lines (n : Nat) (f : RunEntry → RunEntry) : (modEntry n f s).lines = s.lines := rfl
@[simp] theorem modEntry_alarm (n : Nat) (f : RunEntry → RunEntry) : (modEntry n f s).alarm = s.alarm := rfl
@[simp] theorem modEntry_ports (n : Nat) (f : RunEntry → RunEntry) : (modEntry n f s).ports = s.ports := rfl
@[simp] theorem modEntry_cues_list (n : Nat) (f : RunEntry → RunEntry) : (modEntry n f s).cues.list = s.cues.list := rfl
@[simp] theorem modEntry_cues_standing (n : Nat) (f : RunEntry → RunEntry) : (modEntry n f s).cues.standing = s.cues.standing := rfl
@[simp] theorem modEntry_cues_holder (n : Nat) (f : RunEntry → RunEntry) : (modEntry n f s).cues.holder = s.cues.holder := rfl
@[simp] theorem modEntry_cues_guard (n : Nat) (f : RunEntry → RunEntry) : (modEntry n f s).cues.guard = s.cues.guard := rfl
@[simp] theorem modEntry_cues_goGuard (n : Nat) (f : RunEntry → RunEntry) : (modEntry n f s).cues.goGuard = s.cues.goGuard := rfl
@[simp] theorem modEntry_cues_panicFade (n : Nat) (f : RunEntry → RunEntry) : (modEntry n f s).cues.panicFade = s.cues.panicFade := rfl
@[simp] theorem modEntry_cues_drafts (n : Nat) (f : RunEntry → RunEntry) : (modEntry n f s).cues.drafts = s.cues.drafts := rfl
@[simp] theorem modEntry_cues_alarm (n : Nat) (f : RunEntry → RunEntry) : (modEntry n f s).cues.alarm = s.cues.alarm := rfl
@[simp] theorem modEntry_cues_downIn (n : Nat) (f : RunEntry → RunEntry) : (modEntry n f s).cues.downIn = s.cues.downIn := rfl

@[simp] theorem notifyWhere_pending (w : PortId → PortRecord → Bool) (n : Notice) : (notifyWhere w n s).pending = s.pending := rfl
@[simp] theorem notifyWhere_mix (w : PortId → PortRecord → Bool) (n : Notice) : (notifyWhere w n s).mix = s.mix := rfl
@[simp] theorem notifyWhere_fades (w : PortId → PortRecord → Bool) (n : Notice) : (notifyWhere w n s).fades = s.fades := rfl
@[simp] theorem notifyWhere_card (w : PortId → PortRecord → Bool) (n : Notice) : (notifyWhere w n s).card = s.card := rfl
@[simp] theorem notifyWhere_voices (w : PortId → PortRecord → Bool) (n : Notice) : (notifyWhere w n s).voices = s.voices := rfl
@[simp] theorem notifyWhere_cues (w : PortId → PortRecord → Bool) (n : Notice) : (notifyWhere w n s).cues = s.cues := rfl
@[simp] theorem notifyWhere_paging (w : PortId → PortRecord → Bool) (n : Notice) : (notifyWhere w n s).paging = s.paging := rfl
@[simp] theorem notifyWhere_lines (w : PortId → PortRecord → Bool) (n : Notice) : (notifyWhere w n s).lines = s.lines := rfl
@[simp] theorem notifyWhere_alarm (w : PortId → PortRecord → Bool) (n : Notice) : (notifyWhere w n s).alarm = s.alarm := rfl

@[simp] theorem notifyClass_pending (n : Notice) : (notifyClass n s).pending = s.pending := rfl
@[simp] theorem notifyClass_mix (n : Notice) : (notifyClass n s).mix = s.mix := rfl
@[simp] theorem notifyClass_fades (n : Notice) : (notifyClass n s).fades = s.fades := rfl
@[simp] theorem notifyClass_card (n : Notice) : (notifyClass n s).card = s.card := rfl
@[simp] theorem notifyClass_voices (n : Notice) : (notifyClass n s).voices = s.voices := rfl
@[simp] theorem notifyClass_cues (n : Notice) : (notifyClass n s).cues = s.cues := rfl
@[simp] theorem notifyClass_paging (n : Notice) : (notifyClass n s).paging = s.paging := rfl
@[simp] theorem notifyClass_lines (n : Notice) : (notifyClass n s).lines = s.lines := rfl
@[simp] theorem notifyClass_alarm (n : Notice) : (notifyClass n s).alarm = s.alarm := rfl

@[simp] theorem notifyPort_pending (p : PortId) (n : Notice) : (notifyPort p n s).pending = s.pending := rfl
@[simp] theorem notifyPort_mix (p : PortId) (n : Notice) : (notifyPort p n s).mix = s.mix := rfl
@[simp] theorem notifyPort_fades (p : PortId) (n : Notice) : (notifyPort p n s).fades = s.fades := rfl
@[simp] theorem notifyPort_card (p : PortId) (n : Notice) : (notifyPort p n s).card = s.card := rfl
@[simp] theorem notifyPort_voices (p : PortId) (n : Notice) : (notifyPort p n s).voices = s.voices := rfl
@[simp] theorem notifyPort_cues (p : PortId) (n : Notice) : (notifyPort p n s).cues = s.cues := rfl
@[simp] theorem notifyPort_paging (p : PortId) (n : Notice) : (notifyPort p n s).paging = s.paging := rfl
@[simp] theorem notifyPort_lines (p : PortId) (n : Notice) : (notifyPort p n s).lines = s.lines := rfl
@[simp] theorem notifyPort_alarm (p : PortId) (n : Notice) : (notifyPort p n s).alarm = s.alarm := rfl

@[simp] theorem answer_pending (p : PortId) (tag kind : Nat) (i : Instr) (a : Answer) : (answer p tag kind i a s).pending = s.pending := rfl
@[simp] theorem answer_mix (p : PortId) (tag kind : Nat) (i : Instr) (a : Answer) : (answer p tag kind i a s).mix = s.mix := rfl
@[simp] theorem answer_fades (p : PortId) (tag kind : Nat) (i : Instr) (a : Answer) : (answer p tag kind i a s).fades = s.fades := rfl
@[simp] theorem answer_card (p : PortId) (tag kind : Nat) (i : Instr) (a : Answer) : (answer p tag kind i a s).card = s.card := rfl
@[simp] theorem answer_voices (p : PortId) (tag kind : Nat) (i : Instr) (a : Answer) : (answer p tag kind i a s).voices = s.voices := rfl
@[simp] theorem answer_cues (p : PortId) (tag kind : Nat) (i : Instr) (a : Answer) : (answer p tag kind i a s).cues = s.cues := rfl
@[simp] theorem answer_paging (p : PortId) (tag kind : Nat) (i : Instr) (a : Answer) : (answer p tag kind i a s).paging = s.paging := rfl
@[simp] theorem answer_lines (p : PortId) (tag kind : Nat) (i : Instr) (a : Answer) : (answer p tag kind i a s).lines = s.lines := rfl
@[simp] theorem answer_alarm (p : PortId) (tag kind : Nat) (i : Instr) (a : Answer) : (answer p tag kind i a s).alarm = s.alarm := rfl

/-! ### What an update of one record does to a table -/

theorem upd_get {α : Type} {n : Nat} (v : Vector α n) (i j : Fin n) (x : α) :
    (upd v i x)[j] = if j = i then x else v[j] := by
  by_cases h : j = i
  · subst h; simp
  · have h' : i.val ≠ j.val := fun e => h (Fin.ext e.symm)
    simp [h, h']

theorem upd_get_self {α : Type} {n : Nat} (v : Vector α n) (i : Fin n) (x : α) : (upd v i x)[i] = x := by simp

theorem upd_get_ne {α : Type} {n : Nat} (v : Vector α n) {i j : Fin n} (x : α) (h : j ≠ i) : (upd v i x)[j] = v[j] := by
  rw [upd_get, if_neg h]

@[simp] theorem upd_upd {α : Type} {n : Nat} (v : Vector α n) (i : Fin n) (x y : α) : upd (upd v i x) i y = upd v i y := by
  ext j hj; simp only [Vector.getElem_set]; split <;> rfl

@[simp] theorem upd_same {α : Type} {n : Nat} (v : Vector α n) (i : Fin n) : upd v i v[i] = v := by
  ext j hj; simp only [Vector.getElem_set]; split
  · next h => subst h; rfl
  · rfl

theorem vmapi_get {α β : Type} {n : Nat} (f : Fin n → α → β) (v : Vector α n) (i : Fin n) :
    (vmapi f v)[i] = f i v[i] := by simp [vmapi]

theorem vmapi_getElem {α β : Type} {n : Nat} (f : Fin n → α → β) (v : Vector α n) (j : Nat) (h : j < n) :
    (vmapi f v)[j] = f ⟨j, h⟩ v[j] := by simp [vmapi]

/-- Two tables with the same entries. -/
theorem table_ext {α : Type} {n : Nat} {v w : Vector α n} (h : ∀ i : Fin n, v[i] = w[i]) : v = w := by
  ext j hj; exact h ⟨j, hj⟩

theorem modPort_get (p q : PortId) (f : PortRecord → PortRecord) :
    (modPort p f s).ports[q] = if q = p then f s.ports[p] else s.ports[q] := upd_get ..

theorem modVoice_get (v u : VoiceId) (f : Voice → Voice) :
    (modVoice v f s).voices.tab[u] = if u = v then f s.voices.tab[v] else s.voices.tab[u] := upd_get ..

theorem modZone_get (z y : ZoneId) (f : Zone → Zone) :
    (modZone z f s).paging.zones[y] = if y = z then f s.paging.zones[z] else s.paging.zones[y] := upd_get ..

theorem modLine_get (l k : ZoneId) (f : Line → Line) :
    (modLine l f s).lines.tab[k] = if k = l then f s.lines.tab[l] else s.lines.tab[k] := upd_get ..

theorem notifyWhere_get (w : PortId → PortRecord → Bool) (n : Notice) (q : PortId) :
    (notifyWhere w n s).ports[q] = if w q s.ports[q] then enqueueNotice n s.ports[q] else s.ports[q] := vmapi_get ..

theorem notifyPort_get (p q : PortId) (n : Notice) :
    (notifyPort p n s).ports[q] = if q = p then enqueueNotice n s.ports[p] else s.ports[q] := upd_get ..

/-! The same, with the index as `simp` leaves it. -/

@[simp] theorem modPort_val (p q : PortId) (f : PortRecord → PortRecord) :
    (modPort p f s).ports[q.val] = if q = p then f s.ports[p] else s.ports[q.val] := modPort_get ..

@[simp] theorem modVoice_val (v u : VoiceId) (f : Voice → Voice) :
    (modVoice v f s).voices.tab[u.val] = if u = v then f s.voices.tab[v] else s.voices.tab[u.val] := modVoice_get ..

@[simp] theorem modZone_val (z y : ZoneId) (f : Zone → Zone) :
    (modZone z f s).paging.zones[y.val] = if y = z then f s.paging.zones[z] else s.paging.zones[y.val] := modZone_get ..

@[simp] theorem modLine_val (l k : ZoneId) (f : Line → Line) :
    (modLine l f s).lines.tab[k.val] = if k = l then f s.lines.tab[l] else s.lines.tab[k.val] := modLine_get ..

@[simp] theorem notifyWhere_val (w : PortId → PortRecord → Bool) (n : Notice) (q : PortId) :
    (notifyWhere w n s).ports[q.val] = if w q s.ports[q] then enqueueNotice n s.ports[q] else s.ports[q.val] :=
  notifyWhere_get ..

@[simp] theorem notifyPort_val (p q : PortId) (n : Notice) :
    (notifyPort p n s).ports[q.val] = if q = p then enqueueNotice n s.ports[p] else s.ports[q.val] := notifyPort_get ..

@[simp] theorem modEntry_running (n : Nat) (f : RunEntry → RunEntry) :
    (modEntry n f s).cues.running = s.cues.running.map fun e => if e.cue = n then f e else e := rfl

end Sys2Proof.Machine
end

