-- ==== Sys2Proof/Laws/Still.lean ====
section
/-! SUPPORT. What the part's own working leaves: fades ending, voices ending, pages starting, cues firing, actions carried
out. `still s` is `s` without what that working may change; each lemma says an operation keeps it. A field that `still`
keeps is read off with `congrArg`. -/

namespace Sys2Proof.Machine

def stillMix (e : MixEngine) : MixEngine :=
  { e with
    xpt := Vector.replicate 24 (Vector.replicate 96 0), master := Vector.replicate 24 0
    mute := Vector.replicate 24 false }

def stillCard (c : CardUnit) : CardUnit :=
  { c with
    reader := none, lastWasVoice := true, readNumber := 0, queue := []
    job := c.job.map fun j => { j with todo := [] } }

def stillZone (z : Zone) : Zone := { State.Reset.zone with feed := z.feed, pageLevel := z.pageLevel, cap := z.cap, clip := z.clip }

def stillPaging (u : PagingUnit) : PagingUnit :=
  { u with
    zones := vmapi (fun _ z => stillZone z) u.zones
    pages := [], lastId := 0, alarmIds := [], holder := none, voiceIn := [], lastToken := 0 }

def stillLine (l : Line) : Line := { l with queue := [], out := none, nextSeq := 0, sent := [] }

def stillPort (r : PortRecord) : PortRecord := { r with notices := [], lost := false }

/-- What the part's own working leaves of a state. -/
def still (s : State) : State :=
  { s with
    mix := stillMix s.mix
    fades := { s.fades with table := [] }
    card := stillCard s.card
    voices := { s.voices with free := 0, tab := Vector.replicate 16 State.Reset.voice, pagingIn := [] }
    cues := { s.cues with running := [], standing := none }
    paging := stillPaging s.paging
    lines := { s.lines with tab := vmapi (fun _ l => stillLine l) s.lines.tab }
    ports := vmapi (fun _ r => stillPort r) s.ports }

variable (s : State)

theorem still_foldl {α : Type} {f : State → α → State} (h : ∀ s x, still (f s x) = still s) (l : List α) (s : State) :
    still (l.foldl f s) = still s := by
  induction l generalizing s with
  | nil => rfl
  | cons x xs ih => rw [List.foldl_cons, ih, h]

theorem vmapi_upd {α β : Type} {n : Nat} (g : α → β) (v : Vector α n) (i : Fin n) (x : α) (h : g x = g v[i]) :
    vmapi (fun _ r => g r) (upd v i x) = vmapi (fun _ r => g r) v := by
  ext j hj
  simp only [vmapi, Vector.getElem_ofFn, Fin.getElem_fin, Vector.getElem_set]
  split
  · next e => subst e; exact h
  · rfl

/-! ### Notices -/

theorem stillPort_enqueue (n : Notice) (r : PortRecord) : stillPort (enqueueNotice n r) = stillPort r := by
  unfold enqueueNotice; split <;> [split; skip] <;> rfl

theorem still_ports {s t : State} (h : t = { s with ports := t.ports })
    (hp : vmapi (fun _ r => stillPort r) t.ports = vmapi (fun _ r => stillPort r) s.ports) : still t = still s := by
  rw [h]; simp only [still, hp]

@[simp] theorem still_notifyWhere (w : PortId → PortRecord → Bool) (n : Notice) :
    still (notifyWhere w n s) = still s := by
  refine still_ports rfl ?_
  ext j hj
  simp only [notifyWhere, vmapi, Vector.getElem_ofFn, Fin.getElem_fin]
  split
  · exact stillPort_enqueue ..
  · rfl

@[simp] theorem still_notifyClass (n : Notice) : still (notifyClass n s) = still s := still_notifyWhere ..

@[simp] theorem still_notifyPort (p : PortId) (n : Notice) : still (notifyPort p n s) = still s :=
  still_ports rfl (vmapi_upd _ _ _ _ (stillPort_enqueue ..))

/-! ### Updates of what `still` leaves out -/

@[simp] theorem still_modVoice (v : VoiceId) (f : Voice → Voice) : still (modVoice v f s) = still s := rfl

@[simp] theorem still_modSlot (v : VoiceId) (k : Nat) (f : Slot → Slot) : still (modSlot v k f s) = still s := rfl

@[simp] theorem still_modEntry (n : Nat) (f : RunEntry → RunEntry) : still (modEntry n f s) = still s := rfl

theorem still_modZone (z : ZoneId) {f : Zone → Zone} (h : ∀ r, stillZone (f r) = stillZone r) :
    still (modZone z f s) = still s := by
  have : vmapi (fun _ r => stillZone r) (modZone z f s).paging.zones = vmapi (fun _ r => stillZone r) s.paging.zones :=
    vmapi_upd _ _ _ _ (h _)
  simp only [still, stillPaging, this]; rfl

theorem still_modLine (l : ZoneId) {f : Line → Line} (h : ∀ r, stillLine (f r) = stillLine r) :
    still (modLine l f s) = still s := by
  have : vmapi (fun _ r => stillLine r) (modLine l f s).lines.tab = vmapi (fun _ r => stillLine r) s.lines.tab :=
    vmapi_upd _ _ _ _ (h _)
  simp only [still, this]; rfl

@[simp] theorem still_writeLevel (t : Target) (f : Nat) : still (writeLevel t f s) = still s := by
  cases t with
  | crosspoint m x => rfl
  | master m => rfl
  | zoneProgramme z => exact still_modZone _ _ fun _ => rfl
  | zoneDuck z => exact still_modZone _ _ fun _ => rfl
  | voice v => rfl

@[simp] theorem still_writeMix (m : MixId) (e : Vector Bool 97) (l : Vector Nat 97) :
    still (writeMix m e l s) = still s := rfl

@[simp] theorem still_dropFades (out : FadeRecord → Bool) : still (dropFades out s) = still s := rfl

@[simp] theorem still_tellPaging (r : VoiceReport) : still (tellPaging r s) = still s := rfl

@[simp] theorem still_askVoices (a : PagingAsk) : still (askVoices a s) = still s := rfl

@[simp] theorem still_modPage (id : Nat) (f : Page → Page) : still (modPage id f s) = still s := rfl

/-! ### Fades and voices -/

@[simp] theorem still_tell (e : Ending) (r : FadeRecord) : still (tell e s r) = still s := by
  unfold tell; split
  · split <;> simp
  all_goals simp

@[simp] theorem still_becomeIdle (v : VoiceId) : still (becomeIdle v s) = still s := by
  unfold becomeIdle; dsimp only; split <;> rfl

@[simp] theorem still_endVoice (v : VoiceId) (why : VoiceEnd) : still (endVoice v why s) = still s := by
  unfold endVoice; dsimp only; split
  · have h6 : ∀ x, still (notifyClass (voiceEnded v s.voices.tab[v] why) x) = still x := fun x => still_notifyClass ..
    have h2 : still ((List.filter (onVoice v)
          (modVoice v (fun r => { r with tag := none, looping := false }) s).fades.table).foldl (tell .removed)
          (dropFades (onVoice v) (modVoice v (fun r => { r with tag := none, looping := false }) s))) = still s :=
      still_foldl (fun _ _ => still_tell ..) _ _
    generalize List.foldl (tell .removed) _ _ = s2 at h2 ⊢
    have h5 : still (if (!readingFor v s) = true then
        modVoice v (fun r => { r with state := .idle, ring := [] })
          (modVoices (fun u => { u with free := u.free + s.voices.tab[v].ring.length })
            (modVoice v (fun r => { r with ring := r.ring.map unrequest, nextFetch := none })
              (modCard (fun c => { c with queue := c.queue.filter fun e => e.voice ≠ v }) s2)))
      else modVoice v (fun r => { r with state := .draining })
            (modVoice v (fun r => { r with ring := r.ring.map unrequest, nextFetch := none })
              (modCard (fun c => { c with queue := c.queue.filter fun e => e.voice ≠ v }) s2))) = still s := by
      rw [← h2]; split <;> rfl
    generalize (if (!readingFor v s) = true then _ else _) = s5 at h5 ⊢
    rw [← h5]
    split <;> split <;> simp
  · rfl

@[simp] theorem still_report (e : Ending) (why : VoiceEnd) (r : FadeRecord) : still (report e why s r) = still s := by
  unfold report; split <;> simp

@[simp] theorem still_takeOver (t : Target) : still (takeOver t s) = still s := by
  unfold takeOver; exact still_foldl (fun _ _ => still_report ..) _ _

@[simp] theorem still_snap (t : Target) (f : Nat) : still (snap t f s) = still s := by simp [snap]

@[simp] theorem still_createSingle (t : Target) (f d : Nat) (o : FadeOrigin) : still (createSingle t f d o s).1 = still s := by
  unfold createSingle; dsimp only; split
  · rw [← still_takeOver s t]; rfl
  · simp

@[simp] theorem still_recallMix (m : MixId) (n : Fin 128) (l : Vector Nat 97) (d : Nat) (o : FadeOrigin) :
    still (recallMix m n l d o s).1 = still s := by
  have h : ∀ (gone : List FadeRecord) (out : FadeRecord → Bool),
      still (gone.foldl (report .takenOver .stopped) (dropFades out s)) = still s := fun gone out => by
    rw [still_foldl (fun _ _ => still_report ..), still_dropFades]
  unfold recallMix; dsimp only
  generalize hs : List.foldl (report .takenOver .stopped) _ _ = s1
  have h1 : still s1 = still s := by rw [← hs, h]
  split
  · rw [still_writeMix, h1]
  · split
    · exact h1
    · rw [still_report, still_writeMix, h1]

@[simp] theorem still_removeFades (out told : FadeRecord → Bool) (why : VoiceEnd) :
    still (removeFades out told why s) = still s := by
  unfold removeFades; dsimp only; rw [still_foldl (fun _ _ => still_report ..), still_dropFades]

@[simp] theorem still_writeRecord (r : FadeRecord) : still (writeRecord s r) = still s := by
  unfold writeRecord; split <;> simp

@[simp] theorem still_advanceFades : still (advanceFades s) = still s := by
  unfold advanceFades; dsimp only
  rw [still_foldl (fun _ _ => still_report ..)]
  exact still_foldl (fun _ _ => still_writeRecord ..) _ _

@[simp] theorem still_requestSlot (v : VoiceId) (k p w : Nat) : still (requestSlot v k p w s) = still s := rfl

@[simp] theorem still_assignSlot (v : VoiceId) (k : Nat) : still (assignSlot v s k) = still s := by
  unfold assignSlot; dsimp only; split <;> rfl

@[simp] theorem still_takeJob (j : ReadJob) : still (takeJob j s) = still s := by
  unfold takeJob; cases j
  · rfl
  · simp only [still, stillCard, modCard, Option.map_map]; rfl

@[simp] theorem still_readerTake : still (readerTake s) = still s := by
  unfold readerTake; split
  · rfl
  · split <;> simp

@[simp] theorem still_startVoice (v : VoiceId) (clip : Nat) (info : ClipEntry) (tag : Nat) (loop : Bool)
    (o : VoiceOrigin) (token : Nat) : still (startVoice v clip info tag loop o token s) = still s := by
  unfold startVoice; exact still_foldl (fun _ _ => still_assignSlot ..) _ _

@[simp] theorem still_startLevel (v : VoiceId) (c f : Nat) (o : FadeOrigin) : still (startLevel v c f o s).1 = still s := by
  unfold startLevel; split <;> simp

@[simp] theorem still_stopVoice (time : Nat) (v : VoiceId) : still (stopVoice time s v) = still s := by
  unfold stopVoice; split <;> simp

@[simp] theorem still_stopTag (tag time : Nat) : still (stopTag tag time s) = still s :=
  still_foldl (fun _ _ => still_stopVoice ..) _ _

@[simp] theorem still_stopAllVoices (time : Nat) : still (stopAllVoices time s) = still s :=
  still_foldl (fun _ _ => still_stopVoice ..) _ _

@[simp] theorem still_refillSlot (v : VoiceId) (k : Nat) : still (refillSlot v s k) = still s := by
  unfold refillSlot; dsimp only
  split
  · split
    · simp
    · split <;> simp
  · rfl

@[simp] theorem still_checkPrimed (v : VoiceId) : still (checkPrimed v s) = still s := by
  unfold checkPrimed; dsimp only
  split
  · split <;> simp
  · rfl

@[simp] theorem still_releaseVoice (v : VoiceId) : still (releaseVoice s v) = still s := by
  unfold releaseVoice; dsimp only
  rw [still_checkPrimed, still_foldl (fun _ _ => still_refillSlot ..), still_modVoice]; rfl

@[simp] theorem still_releaseTag (tag : Nat) : still (releaseTag tag s) = still s :=
  still_foldl (fun _ _ => still_releaseVoice ..) _ _

@[simp] theorem still_slotDone (v : VoiceId) (k : Nat) (got : List Word24 ⊕ Bool) :
    still (slotDone v k got s) = still s := by
  unfold slotDone; dsimp only
  split
  · rfl
  · split
    · simp
    · split
      · split <;> simp
      · split <;> simp

@[simp] theorem still_leaveSlot (v : VoiceId) : still (leaveSlot v s) = still s := by
  unfold leaveSlot; simp

@[simp] theorem still_voicePeriod (v : VoiceId) : still (voicePeriod s v) = still s := by
  unfold voicePeriod; dsimp only
  split
  · split
    · split <;> simp
    · split
      · simp
      · split <;> simp
  · rfl

@[simp] theorem still_voicesPeriod : still (voicesPeriod s) = still s :=
  still_foldl (fun _ _ => still_voicePeriod ..) _ _

/-! ### Pages -/

@[simp] theorem still_tellPages (before : List Page) : still (tellPages before s) = still s :=
  still_foldl (fun _ _ => still_notifyClass ..) _ _

theorem still_pagingEvent {f : State → State} (h : ∀ s, still (f s) = still s) : still (pagingEvent f s) = still s := by
  rw [pagingEvent, still_tellPages, h]

@[simp] theorem still_enterGap (z : ZoneId) : still (enterGap s z) = still s := still_modZone _ _ fun _ => rfl

@[simp] theorem still_freeZone (z : ZoneId) : still (freeZone z s) = still s := still_modZone _ _ fun _ => rfl

@[simp] theorem still_releaseDuck (z : ZoneId) : still (releaseDuck z s) = still s := still_createSingle ..

@[simp] theorem still_setHolder (h : Option Nat) : still (modPaging (fun u => { u with holder := h }) s) = still s := rfl

@[simp] theorem still_dropVoice (p : Page) : still (dropVoice p s) = still s := by
  unfold dropVoice; split
  · rw [still_setHolder]; split <;> simp
  · rfl

@[simp] theorem still_endPage (o : PageOutcome) (id : Nat) : still (endPage o s id) = still s := by
  unfold endPage; split
  · rfl
  · split
    · rfl
    · dsimp only; rw [still_dropVoice, still_foldl (fun _ _ => still_enterGap ..), still_modPage]

@[simp] theorem still_restartPage (id : Nat) : still (restartPage s id) = still s := by
  unfold restartPage; split
  · rfl
  · dsimp only
    generalize hs : dropVoice _ _ = s1
    have h1 : still s1 = still s := by rw [← hs, still_dropVoice, still_modPage]
    split
    · split <;> simp [h1]
    · exact h1

@[simp] theorem still_afterLoss (id : Nat) : still (afterLoss s id) = still s := by
  unfold afterLoss; split
  · rfl
  · split
    · rfl
    · split <;> simp

@[simp] theorem still_joinZone (id : Nat) (z : ZoneId) : still (joinZone id s z) = still s := by
  unfold joinZone; split
  · rfl
  · dsimp only
    rw [still_createSingle]
    rw [still_modZone (h := ?_), still_modPage]
    · split <;> simp
    · intro r; rfl

@[simp] theorem still_issuePlay (id clip : Nat) : still (issuePlay id clip s) = still s := rfl

@[simp] theorem still_enterSpeaking (id : Nat) : still (enterSpeaking s id) = still s := by
  unfold enterSpeaking; split
  · rfl
  · dsimp only
    split
    · split <;> simp
    · simp

@[simp] theorem still_preEmptHolder (h : Nat) (joins : List ZoneId) : still (preEmptHolder h joins s) = still s := by
  unfold preEmptHolder; split
  · rfl
  · dsimp only; rw [still_afterLoss, still_foldl (fun _ _ => still_enterGap ..), still_modPage]

@[simp] theorem still_startPage (id : Nat) (p : Page) (joins : List ZoneId) : still (startPage id p joins s) = still s := by
  unfold startPage; dsimp only
  have h : still (joins.foldl (joinZone id) (if isClip p = true then
      modPage id (fun q => { q with play := .waitingForVoice }) (modPaging (fun u => { u with holder := some id }) s)
      else s)) = still s := by
    rw [still_foldl (fun _ _ => still_joinZone ..)]; split <;> simp
  split <;> simp [h]

@[simp] theorem still_visit (id : Nat) : still (visit s id) = still s := by
  unfold visit; split
  · rfl
  · next p _ =>
    dsimp only
    split
    · rfl
    · generalize (if p.all = true then _ else _ : Bool) = ready
      split
      · split
        · split <;> simp
        · simp
      · rfl
    all_goals
      split
      · rfl
      · exact still_foldl (fun _ _ => still_joinZone ..) _ _

@[simp] theorem still_startPass : still (startPass s) = still s := still_foldl (fun _ _ => still_visit ..) _ _

@[simp] theorem still_createPage (q : PageSpec) : still (createPage q s) = still s := by
  unfold createPage; dsimp only
  split
  · rw [still_endPage]; rfl
  · rw [still_startPass]; rfl

@[simp] theorem still_createEvent (q : PageSpec) : still (createEvent q s) = still s := by simp [createEvent]

/-! ### Lines, actions and cues -/

@[simp] theorem still_tellLamp (z : ZoneId) (r : LampResult) (c : LineCmd) : still (tellLamp z r s c) = still s := by
  cases c <;> simp [tellLamp]

@[simp] theorem still_enqueue (l : ZoneId) (c : LineCmd) : still (enqueue l c s) = still s := by
  unfold enqueue
  split
  · rw [still_tellLamp]; exact still_modLine _ _ fun _ => rfl
  · exact still_modLine _ _ fun _ => rfl

theorem stillLine_openFrame (r : Line) : stillLine (openFrame r) = stillLine r := by
  unfold openFrame; split <;> rfl

theorem stillLine_takeCommand (r : Line) : stillLine (takeCommand r) = stillLine r := by
  unfold takeCommand; split <;> rfl

theorem stillLine_closeFrame (r : Line) : stillLine (closeFrame r) = stillLine r :=
  stillLine_takeCommand r

@[simp] theorem still_arrive (l : ZoneId) (c : LineCmd) : still (arrive l c s) = still s := by
  unfold arrive; dsimp only
  split
  · split
    · rw [still_modLine _ _ stillLine_closeFrame, still_enqueue, still_modLine _ _ (fun r => stillLine_openFrame r)]
    · exact still_enqueue _ _ _
  · rfl

@[simp] theorem still_commandLamp (z : ZoneId) (st : Lamp) (o : LampOrigin) : still (commandLamp z st o s) = still s := by
  rw [commandLamp, still_arrive]; exact still_modZone _ _ fun _ => rfl

@[simp] theorem still_setMute (m : MixId) (on : Bool) : still (setMute m on s) = still s := rfl

theorem still_levelFor (cue : Nat) (t : CueTarget) (c time : Nat) : still (levelFor cue t c time s).1 = still s := by
  unfold levelFor; dsimp only
  split
  · exact still_foldl (fun _ _ => still_snap ..) _ _
  · have h : ∀ (l : List Target) (a : State × Nat × Bool),
        still (l.foldl (fun (a : State × Nat × Bool) t =>
          ((createSingle t (fineOfCode c) time (.entry cue) a.1).1,
            a.2.1 + (createSingle t (fineOfCode c) time (.entry cue) a.1).2.toNat,
            a.2.2 || !(createSingle t (fineOfCode c) time (.entry cue) a.1).2)) a).1 = still a.1 := by
      intro l
      induction l with
      | nil => intro a; rfl
      | cons x xs ih => intro a; rw [List.foldl_cons, ih]; exact still_createSingle ..
    exact h _ _

@[simp] theorem still_perform (cue : Nat) (a : Action) : still (perform cue a s).1 = still s := by
  cases a
  · simp only [perform, playFor]; split
    · rfl
    · split <;> simp
  · simp [perform, stopFor]
  · simp [perform, releaseFor]
  · exact still_levelFor ..
  · simp only [perform, recallFor]; split <;> simp
  · simp only [perform, muteFor]; split <;> simp
  · simp only [perform, pageFor]; split <;> simp
  · simp [perform, lampFor]

@[simp] theorem still_issueAction (cue pos : Nat) (a : Action) : still (issueAction cue pos a s) = still s := by
  unfold issueAction countResult; dsimp only; split <;> simp

@[simp] theorem still_dropEntry (n : Nat) : still (dropEntry n s) = still s := rfl

/-- What a follow that fires may do. -/
abbrev KeepsStill (fire : Nat → Option PortId → State → State) : Prop := ∀ n o s, still (fire n o s) = still s

theorem still_issueRun (c : Cue) (k : Nat) : still (issueRun c k s) = still s := by
  induction k generalizing s with
  | zero => rfl
  | succ k ih =>
    unfold issueRun; split
    · rfl
    · split
      · rw [ih, still_issueAction]
      · rfl

section
variable {fire' : Nat → Option PortId → State → State} (hf : KeepsStill fire')
include hf

theorem still_follow (n : Nat) : still (follow fire' n s) = still s := by
  unfold follow; dsimp only
  split
  · simp
  · split
    · simp
    · split
      · simp
      · split
        · simp
        · exact hf ..

theorem still_completeEntry (n : Nat) : still (completeEntry fire' n s) = still s := by
  unfold completeEntry; split
  · rfl
  · dsimp only; split
    · rw [still_follow _ hf]; simp
    · simp

theorem still_leaveActive (n : Nat) : still (leaveActive fire' n s) = still s := by
  unfold leaveActive; split
  · rfl
  · split
    · exact still_completeEntry _ hf _
    · simp

theorem still_takeContinue (n : Nat) : still (takeContinue fire' n s) = still s := by
  unfold takeContinue; dsimp only
  have h := still_follow s hf n
  split
  · split
    · rw [still_completeEntry _ hf]; simpa using h
    · simpa using h
  · simpa using h

theorem still_issueMany (c : Cue) (k : Nat) : still (issueMany fire' c k s) = still s := by
  unfold issueMany; dsimp only; split
  · rw [still_leaveActive _ hf, still_issueRun]
  · exact still_issueRun ..

theorem still_activate (c : Cue) : still (activate fire' c s) = still s := by
  rw [activate, still_issueMany _ hf, still_modEntry]

end

theorem still_fireFuel (k : Nat) : KeepsStill (fireFuel k) := by
  induction k with
  | zero => intro n o s; rfl
  | succ k ih =>
    intro n o s
    unfold fireFuel; split
    · rfl
    · next c _ =>
      dsimp only
      generalize h3 : (if c.prewait = 0 then _ else _) = s3
      have h : still s3 = still s := by
        rw [← h3]
        have h2 : still (notifyClass (cueFired c o (cueAfter n s.cues.list)) (modCues (fun q => { q with
            running := q.running ++ [newEntry c o], standing := cueAfter n s.cues.list }) s)) = still s := by
          rw [still_notifyClass]; rfl
        split
        · rw [still_activate _ ih, h2]
        · exact h2
      split
      · split
        · rw [still_takeContinue _ ih, h]
        · exact h
      · exact h

theorem still_fire : KeepsStill fire := fun n o s => still_fireFuel _ n o s

theorem still_settleFuel (k : Nat) : still (settleFuel k s) = still s := by
  induction k generalizing s with
  | zero => rfl
  | succ k ih =>
    unfold settleFuel; split
    · rfl
    · rw [ih, still_completeEntry _ still_fire]

@[simp] theorem still_settle : still (settle s) = still s := still_settleFuel ..

@[simp] theorem still_finish : still (finish s) = still s := by simp [finish]

@[simp] theorem still_issueGiven (cue pos : Nat) (a : Action) : still (issueGiven cue pos a s) = still s := by
  unfold issueGiven; split
  · split
    · dsimp only; split
      · rw [still_leaveActive _ still_fire, still_issueAction]
      · simp
    · rfl
  · rfl

end Sys2Proof.Machine
end

