-- ==== Sys2Proof/Laws/Ops.lean ====
section
/-! SUPPORT. What each shared operation does, said once: serving a request, the end of a step and what the card reader
takes there, the priorities of pages and actions, reading and writing a level, taking a target over that nothing drives. -/

namespace Sys2Proof.Machine

variable {s : State}

/-! ### Notices -/

/-- R202: a notice of a class leaves the ports as the statements write it. -/
theorem notifyClass_eq (n : Notice) : notifyClass n s = { s with ports := afterNotice n.cls n.kind n.fields s.ports } := rfl

/-- R162: PAGE STATE carries what the statements write. -/
theorem pageStateNotice_fields (q : Page) : (pageStateNotice q).fields = statedPage q := by
  unfold pageStateNotice pageFields statedPage isClip
  cases q.origin <;> cases q.source <;> rfl

/-- R74: VOICE ENDED carries what the statements write. -/
theorem voiceEnded_eq (v : VoiceId) (r : Voice) {why : VoiceEnd} (h : ∀ page timeout, why ≠ .fault page timeout) :
    voiceEnded v r why = { cls := .voice, kind := 2, fields := statedVoiceEnd v r (endReason why) } := by
  have o : voiceOrigin r.origin = statedVoiceOrigin r.origin := by
    cases r.origin with
    | none => rfl
    | some o => cases o <;> rfl
  cases why with
  | fault page timeout => exact absurd rfl (h page timeout)
  | _ => simp [voiceEnded, statedVoiceEnd, o, voiceCode]

/-! ### Commands of a line (R175) -/

/-- R175: a command that does not come into the last line frame event joins the queue, or replaces its kind there. -/
theorem arrive_eq_enqueue {l : ZoneId} {c : LineCmd} (up : s.lines.tab[l].link = .up)
    (h : entersFrame c s.lines.tab[l] = false) : arrive l c s = enqueue l c s := by
  unfold arrive; exact (if_pos up).trans (if_neg (by rw [h]; exact Bool.false_ne_true))

/-- A CAP never comes into the last line frame event. -/
@[simp] theorem entersFrame_cap (code : Nat) (r : Line) : entersFrame (.cap code) r = false := by
  unfold entersFrame; cases r.together <;> rfl

/-! ### Serving a request -/

theorem serve_handed {p : PortId} {tag kind : Nat} {i : Instr} {body : State → State × Answer} {u : State} {a : Answer}
    (h : handed p i s = true) (hb : body s = (u, a)) : serve p tag kind i body s = .next (answer p tag kind i a u) := by
  rw [serve, if_pos h, hb]

theorem serve_orphaned {p : PortId} {tag kind : Nat} {i : Instr} {body : State → State × Answer}
    (h : orphaned p i s = true) : serve p tag kind i body s = .next (discardReply p i (body s).1) := by
  rw [serve, if_neg (by simp [handed, h]), if_pos h]

theorem serve_unhanded {p : PortId} {tag kind : Nat} {i : Instr} {body : State → State × Answer}
    (h : handed p i s = false) (ho : orphaned p i s = false) : serve p tag kind i body s = .next s := by
  rw [serve, if_neg (by simp [h]), if_neg (by simp [ho])]

theorem serveFinish_handed {p : PortId} {tag kind : Nat} {i : Instr} {body : State → State × Answer} {u : State}
    {a : Answer} (h : handed p i s = true) (hb : body s = (u, a)) :
    serveFinish p tag kind i body s = .next (finish (answer p tag kind i a u)) := by
  rw [serveFinish, if_pos h, hb]

theorem serveFinish_orphaned {p : PortId} {tag kind : Nat} {i : Instr} {body : State → State × Answer}
    (h : orphaned p i s = true) : serveFinish p tag kind i body s = .next (finish (discardReply p i (body s).1)) := by
  rw [serveFinish, if_neg (by simp [handed, h]), if_pos h]

theorem serveFinish_unhanded {p : PortId} {tag kind : Nat} {i : Instr} {body : State → State × Answer}
    (h : handed p i s = false) (ho : orphaned p i s = false) : serveFinish p tag kind i body s = .next s := by
  rw [serveFinish, if_neg (by simp [h]), if_neg (by simp [ho])]

/-- What serving a request can do: answer it, or carry it out without a reply, or nothing. -/
theorem serve_cases {p : PortId} {tag kind : Nat} {i : Instr} {body : State → State × Answer} {t : State}
    (h : serve p tag kind i body s = .next t) :
    (handed p i s = true ∧ t = answer p tag kind i (body s).2 (body s).1)
      ∨ (orphaned p i s = true ∧ t = discardReply p i (body s).1) ∨ t = s := by
  unfold serve at h; split at h
  · next hh => exact .inl ⟨hh, by injection h with h; exact h.symm⟩
  · split at h
    · next ho => exact .inr (.inl ⟨ho, by injection h with h; exact h.symm⟩)
    · exact .inr (.inr (by injection h with h; exact h.symm))

theorem serveFinish_cases {p : PortId} {tag kind : Nat} {i : Instr} {body : State → State × Answer} {t : State}
    (h : serveFinish p tag kind i body s = .next t) :
    (handed p i s = true ∧ t = finish (answer p tag kind i (body s).2 (body s).1))
      ∨ (orphaned p i s = true ∧ t = finish (discardReply p i (body s).1)) ∨ t = s := by
  unfold serveFinish at h; split at h
  · next hh => exact .inl ⟨hh, by injection h with h; exact h.symm⟩
  · split at h
    · next ho => exact .inr (.inl ⟨ho, by injection h with h; exact h.symm⟩)
    · exact .inr (.inr (by injection h with h; exact h.symm))

theorem discardReply_get (p q : PortId) (i : Instr) (s : State) :
    (discardReply p i s).ports[q] = if q = p then { s.ports[p] with taken := s.ports[p].taken.erase i }
      else s.ports[q] := modPort_get ..

theorem answer_get (p q : PortId) (tag kind : Nat) (i : Instr) (a : Answer) (s : State) :
    (answer p tag kind i a s).ports[q] = if q = p then { s.ports[p] with
      reqs := markAnswered i s.ports[p].reqs
      replies := s.ports[p].replies ++ [{ tag := tag, kind := kind, outcome := a.outcome, fields := a.fields }] }
      else s.ports[q] := modPort_get ..

/-- What a port holds that the part's own working leaves. -/
theorem still_port {s t : State} (h : still t = still s) (p : PortId) : stillPort t.ports[p] = stillPort s.ports[p] := by
  have h1 : (still t).ports[p] = (still s).ports[p] := congrArg (fun u : State => u.ports[p]) h
  rw [show (still t).ports = vmapi (fun _ r => stillPort r) t.ports from rfl,
    show (still s).ports = vmapi (fun _ r => stillPort r) s.ports from rfl, vmapi_get, vmapi_get] at h1
  exact h1

theorem replies_of_still {s t : State} (h : still t = still s) (p : PortId) :
    t.ports[p].replies = s.ports[p].replies := (congrArg PortRecord.replies (still_port h p) :)

theorem rights_of_still {s t : State} (h : still t = still s) (p : PortId) :
    t.ports[p].rights = s.ports[p].rights := (congrArg PortRecord.rights (still_port h p) :)

theorem still_answer {s t : State} (h : still t = still s) (p : PortId) (tag kind : Nat) (i : Instr) (a : Answer) :
    still (answer p tag kind i a t) = still (answer p tag kind i a s) := by
  have hp : vmapi (fun _ r => stillPort r) (answer p tag kind i a t).ports
      = vmapi (fun _ r => stillPort r) (answer p tag kind i a s).ports := by
    refine table_ext fun q => ?_
    rw [vmapi_get, vmapi_get, answer_get, answer_get]
    split
    · have := still_port h p
      simp only [stillPort, PortRecord.mk.injEq] at this ⊢
      simp_all
    · exact still_port h _
  have : still (answer p tag kind i a t) = { still t with
      ports := vmapi (fun _ r => stillPort r) (answer p tag kind i a t).ports } := rfl
  rw [this, hp, h]; rfl

/-- The reply of a request that `serveFinish` answers. -/
theorem finish_answer_replies (p : PortId) (tag kind : Nat) (i : Instr) (a : Answer) {u : State}
    (h : u.ports[p].replies = s.ports[p].replies) :
    (finish (answer p tag kind i a u)).ports[p].replies =
      s.ports[p].replies ++ [{ tag := tag, kind := kind, outcome := a.outcome, fields := a.fields }] := by
  rw [replies_of_still (still_finish _), answer_get, if_pos rfl, h]

/-! ### The end of a step -/

theorem settle_of_noneSettled (h : NoneSettled s) : settle s = s := by
  have hn : (s.cues.running.find? fun e => e.state == .settling && settled e) = none := by
    rw [List.find?_eq_none]
    intro e he
    by_cases hs : e.state = .settling
    · simp [h e he hs]
    · simp [hs]
  rw [settle, settleFuel, hn]

theorem noneSettled_nil (h : s.cues.running = []) : NoneSettled s := by
  intro e he; rw [h] at he; cases he

theorem finish_of_noneSettled (h : NoneSettled s) : finish s = readerTake s := by
  rw [finish, settle_of_noneSettled h]

theorem finish_of_noneRunning (h : s.cues.running = []) : finish s = readerTake s :=
  finish_of_noneSettled (noneSettled_nil h)

theorem readerTake_of_nothing (h : s.card.reader.isSome = true ∨ nextJob s.card = none) : readerTake s = s := by
  unfold readerTake
  rcases h with h | h
  · cases hr : s.card.reader with
    | none => simp [hr] at h
    | some _ => rfl
  · split
    · rfl
    · rw [h]

@[simp] theorem modSlot_card (v : VoiceId) (k : Nat) (f : Slot → Slot) (s : State) : (modSlot v k f s).card = s.card := rfl

/-- R62: what the reader takes, once it is free, of a queue that the step has left. -/
theorem readerTake_takes {q : List FetchEntry} {u : State} (card : u.card = { s.card with reader := none, queue := q })
    (info : ∀ v : VoiceId, u.voices.tab[v].info = s.voices.tab[v].info) : ReaderTakes q s (readerTake u) := by
  have hn : nextJob u.card = nextJob { s.card with reader := none, queue := q } := by rw [card]
  have hr : u.card.reader = none := by rw [card]
  unfold ReaderTakes readerTake
  rw [hr, hn]
  refine ⟨fun he hl => ?_, fun e rest he hl => ?_, fun j l rest hj ht hl => ?_, ?_⟩
  · simp [nextJob, he, hl, card]
  · have h : nextJob { s.card with reader := none, queue := q } = some (.voice e.voice e.slot e.page) := by
      rcases hl with hl | hl
      · simp [nextJob, he, hl]
      · simp only [nextJob, he, hl]
        cases s.card.job.bind fun j => j.todo.head? <;> rfl
    have start := congrArg (·.start) (info e.voice)
    rw [h]; simpa [takeJob, card, he, cardPageOf] using start
  · have h : nextJob { s.card with reader := none, queue := q } = some (.load l) := by
      rcases hl with hl | hl
      · simp [nextJob, hl, hj, ht]
      · cases q <;> simp [nextJob, hl, hj, ht]
    rw [h]; cases l <;> simp [takeJob, card, hj, ht, cardPageOf]
  · dsimp only
    split
    · rw [card]
    · next j _ => cases j <;> simp [takeJob, card]

/-- All that the reader's taking of a read touches: the card unit, and the rings of the voices. -/
theorem readerTake_eq (s : State) : ∃ c tab, readerTake s = { s with card := c, voices := { s.voices with tab := tab } }
    ∧ c.state = s.card.state ∧ c.showing = s.card.showing ∧ c.showLoaded = s.card.showLoaded ∧ c.dir = s.card.dir
    ∧ c.header = s.card.header ∧ c.insertTimer = s.card.insertTimer
    ∧ ∀ v : VoiceId, ∃ ring, tab[v] = { s.voices.tab[v] with ring := ring }
        ∧ ring.length = s.voices.tab[v].ring.length := by
  unfold readerTake
  split
  · exact ⟨_, _, rfl, rfl, rfl, rfl, rfl, rfl, rfl, fun v => ⟨_, rfl, rfl⟩⟩
  · split
    · exact ⟨_, _, rfl, rfl, rfl, rfl, rfl, rfl, rfl, fun v => ⟨_, rfl, rfl⟩⟩
    · unfold takeJob
      split
      · refine ⟨_, _, rfl, rfl, rfl, rfl, rfl, rfl, rfl, fun u => ?_⟩
        simp only [upd_get]
        split
        · next h => subst h; exact ⟨_, rfl, List.length_modify ..⟩
        · exact ⟨_, rfl, rfl⟩
      · exact ⟨_, _, rfl, rfl, rfl, rfl, rfl, rfl, rfl, fun v => ⟨_, rfl, rfl⟩⟩

@[simp] theorem readerTake_pending (s : State) : (readerTake s).pending = s.pending := by
  obtain ⟨c, t, h, -⟩ := readerTake_eq s; rw [h]
@[simp] theorem readerTake_mix (s : State) : (readerTake s).mix = s.mix := by
  obtain ⟨c, t, h, -⟩ := readerTake_eq s; rw [h]
@[simp] theorem readerTake_fades (s : State) : (readerTake s).fades = s.fades := by
  obtain ⟨c, t, h, -⟩ := readerTake_eq s; rw [h]
@[simp] theorem readerTake_cues (s : State) : (readerTake s).cues = s.cues := by
  obtain ⟨c, t, h, -⟩ := readerTake_eq s; rw [h]
@[simp] theorem readerTake_paging (s : State) : (readerTake s).paging = s.paging := by
  obtain ⟨c, t, h, -⟩ := readerTake_eq s; rw [h]
@[simp] theorem readerTake_lines (s : State) : (readerTake s).lines = s.lines := by
  obtain ⟨c, t, h, -⟩ := readerTake_eq s; rw [h]
@[simp] theorem readerTake_alarm (s : State) : (readerTake s).alarm = s.alarm := by
  obtain ⟨c, t, h, -⟩ := readerTake_eq s; rw [h]
@[simp] theorem readerTake_ports (s : State) : (readerTake s).ports = s.ports := by
  obtain ⟨c, t, h, -⟩ := readerTake_eq s; rw [h]
@[simp] theorem readerTake_free (s : State) : (readerTake s).voices.free = s.voices.free := by
  obtain ⟨c, t, h, -⟩ := readerTake_eq s; rw [h]
@[simp] theorem readerTake_pagingIn (s : State) : (readerTake s).voices.pagingIn = s.voices.pagingIn := by
  obtain ⟨c, t, h, -⟩ := readerTake_eq s; rw [h]
@[simp] theorem readerTake_voicesAlarm (s : State) : (readerTake s).voices.alarm = s.voices.alarm := by
  obtain ⟨c, t, h, -⟩ := readerTake_eq s; rw [h]
@[simp] theorem readerTake_cardState (s : State) : (readerTake s).card.state = s.card.state := by
  obtain ⟨c, t, h, hs, -⟩ := readerTake_eq s; rw [h]; exact hs

/-- A voice after the reader's taking of a read: only the states of its slots may have moved. -/
theorem readerTake_voice (s : State) (v : VoiceId) : ∃ ring,
    (readerTake s).voices.tab[v] = { s.voices.tab[v] with ring := ring } ∧ ring.length = s.voices.tab[v].ring.length := by
  obtain ⟨c, t, h, -, -, -, -, -, -, hv⟩ := readerTake_eq s; rw [h]; exact hv v

@[simp] theorem levelOf_readerTake (t : Target) (s : State) : levelOf t (readerTake s) = levelOf t s := by
  cases t with
  | voice v => obtain ⟨r, h, -⟩ := readerTake_voice s v; simp [levelOf, h]
  | _ => simp [levelOf]

/-! ### Pages -/

/-- R148: a pass visits the listed pages of priority 0 to 3. -/
theorem mem_passOrder {q : Page} {ps : List Page} : q ∈ passOrder ps ↔ q ∈ ps ∧ q.prio ≤ 3 := by
  simp only [passOrder, List.mem_flatMap, List.mem_range, List.mem_filter, beq_iff_eq]
  exact ⟨fun ⟨k, hk, hq, he⟩ => ⟨hq, by omega⟩, fun ⟨hq, h⟩ => ⟨q.prio, by omega, hq, rfl⟩⟩

/-- R83: an action that is taken has a priority of at most 3. -/
theorem actionOf_priority {r : RawAction} {a : Action} {b : Bool} (h : actionOf r = some (a, b)) : ActionPriority a := by
  unfold actionOf at h
  cases r <;> simp [bind, Option.bind_eq_some_iff, between] at h <;> grind [ActionPriority]

/-- R85: placing an action adds no other. -/
theorem mem_placeAction {a x : CueAction} {as : List CueAction} (h : x ∈ (placeAction a as).1) : x = a ∨ x ∈ as := by
  induction as with
  | nil => exact .inl (List.mem_singleton.mp h)
  | cons c cs ih =>
    unfold placeAction at h
    split at h
    · exact List.mem_cons.mp h
    · rcases List.mem_cons.mp h with rfl | h
      · exact .inr (List.mem_cons_self ..)
      · exact (ih h).imp_right (List.mem_cons_of_mem _)

/-- R55: the actions of a loaded cue have priorities of at most 3. -/
theorem checkActions_priority : ∀ {as : List (Nat × RawAction)} {done done' : List CueAction},
    checkActions as done = some done' → (∀ a ∈ done, ActionPriority a.act) → ∀ a ∈ done', ActionPriority a.act
  | [], _, _, h, hd => by cases h; exact hd
  | (off, r) :: as, done, done', h, hd => by
    unfold checkActions at h
    split at h
    · cases h
    · next b x ha =>
      refine checkActions_priority h fun y hy => ?_
      rcases mem_placeAction hy with rfl | hy
      · exact actionOf_priority ha
      · exact hd y hy

theorem checkCue_priorities {r : RawCue} {c : Cue} (h : checkCue r = some c) : CuePriorities c := by
  unfold checkCue at h
  simp only [bind, Option.bind_eq_some_iff, pure] at h
  obtain ⟨f, -, as, ha, h⟩ := h
  split at h
  · cases h; exact checkActions_priority ha fun a m => nomatch m
  · cases h

/-! ### Levels -/

theorem levelOf_writeLevel_self (t : Target) (f : Nat) (s : State) : levelOf t (writeLevel t f s) = f := by
  cases t <;> simp only [levelOf, writeLevel, modMix_mix, modZone_get, modVoice_get, upd_get, if_true]

theorem levelOf_writeLevel_ne {t u : Target} (f : Nat) (s : State) (h : u ≠ t) :
    levelOf u (writeLevel t f s) = levelOf u s := by
  cases t <;> cases u <;> simp only [levelOf, writeLevel, modMix_mix, modMix_paging, modMix_voices, modZone_mix,
    modMix_voices, modZone_voices, modVoice_mix, modVoice_paging, modZone_get, modVoice_get, modZone_mix, upd_get] <;>
    split <;> first | rfl | (subst_vars; rfl) | (subst_vars; rw [upd_get_ne]; intro e; subst e; exact h rfl) |
    (subst_vars; exact absurd rfl h)

/-! ### A target that nothing drives -/

theorem displace_of_not_drives {t : Target} {r : FadeRecord} (h : drives t r = false) : displace t r = some r := by
  obtain ⟨body, dur, n, o⟩ := r
  cases body with
  | single t' a b =>
    simp only [drives, beq_eq_false_iff_ne, ne_eq] at h
    simp [displace, h]
  | mix m sn a b engaged =>
    simp only [drives] at h
    simp only [displace]
    cases hp : placeIn m t with
    | none => rfl
    | some i =>
      rw [hp] at h
      have hu : upd engaged i false = engaged := by
        conv_rhs => rw [← upd_same engaged i]
        rw [show engaged[i] = false from h]
      simp only [hu, show engaged[i] = false from h]
      split <;> rfl

theorem takeOver_of_undriven {t : Target} (h : driven t s = false) : takeOver t s = s := by
  have hd : ∀ r ∈ s.fades.table, displace t r = some r := fun r hr =>
    displace_of_not_drives (by simpa [driven] using (List.any_eq_false.mp h r hr))
  have h1 : (s.fades.table.filter fun r => (displace t r).isNone) = [] := by
    rw [List.filter_eq_nil_iff]; intro r hr; simp [hd r hr]
  have h2 : s.fades.table.filterMap (displace t) = s.fades.table := by
    rw [List.filterMap_congr (g := some) hd, List.filterMap_some]
  simp only [takeOver, h1, List.foldl_nil, modFades, h2]

theorem createSingle_of_undriven {t : Target} {f d : Nat} {o : FadeOrigin} (h : driven t s = false)
    (hr : s.fades.table.length < fadeRoom) : createSingle t f d o s =
      (modFades (fun u => { u with table := u.table ++ [newSingle t (levelOf t s) f d o] }) s, true) := by
  unfold createSingle; simp only [takeOver_of_undriven h]; rw [if_pos hr]

theorem snap_of_undriven {t : Target} {f : Nat} (h : driven t s = false) : snap t f s = writeLevel t f s := by
  rw [snap, takeOver_of_undriven h]

end Sys2Proof.Machine
end

