-- ==== Sys2Proof/Laws/Working.lean ====
section
/-! SUPPORT. One induction over the part's own working. `Working P` says that `P` is kept by the few changes of which all of
that working is made: notices, levels, records entering and leaving, voices starting and ending. Every larger operation
then keeps `P`: ends of fades, takeovers, pages, cue actions, firings, and what ends a step. -/

namespace Sys2Proof.Machine

/-- A port that has been sent notices. -/
def NoticesOnly (r r' : PortRecord) : Prop :=
  ∃ n l, r' = { r with notices := n, lost := l } ∧ (r.notices.length ≤ 16 → n.length ≤ 16)

theorem NoticesOnly.rfl {r : PortRecord} : NoticesOnly r r := ⟨_, _, Eq.refl _, id⟩

theorem noticesOnly_enqueue (n : Notice) (r : PortRecord) : NoticesOnly r (enqueueNotice n r) := by
  unfold enqueueNotice
  split
  · split
    · next h => exact ⟨_, _, Eq.refl _, fun _ => by simp; omega⟩
    · exact ⟨_, _, Eq.refl _, id⟩
  · exact .rfl

/-- A change of the fade table in which records leave, or stay with no target more. -/
def Narrows (g : FadeRecord → Option FadeRecord) : Prop :=
  ∀ r r', g r = some r' → r'.origin = r.origin ∧ isSingle r' = isSingle r ∧ (isSingle r = true → r'.body = r.body)
    ∧ ∀ t, drives t r' = true → drives t r = true

/-- A page list that has not outgrown its room. -/
def PagesFit (u u' : PagingUnit) : Prop := u.pages.length ≤ pageRoom → u'.pages.length ≤ pageRoom

/-- `P` is kept by every change of which the part's working is made. -/
structure Working (P : State → Prop) : Prop where
  ports : ∀ s ps, (∀ p : PortId, NoticesOnly s.ports[p] ps[p]) → P s → P { s with ports := ps }
  level : ∀ s t f, P s → P (writeLevel t f s)
  levels : ∀ s m e l, P s → P (writeMix m e l s)
  mute : ∀ s m on, unmuteBarred m on s = false → P s → P (setMute m on s)
  entries : ∀ s f, (∀ e : RunEntry, (f e).cue = e.cue) → P s →
    P (modCues (fun c => { c with running := c.running.map f }) s)
  fewerEntries : ∀ s q, P s → P (modCues (fun c => { c with running := c.running.filter q }) s)
  entered : ∀ s e n, s.cues.running.length < runRoom → s.cues.standing = some n → (cueOf n s).isSome → P s →
    P (modCues (fun c => { c with running := c.running ++ [e], standing := cueAfter n s.cues.list }) s)
  narrow : ∀ s g, Narrows g → P s → P (modFades (fun f => { f with table := f.table.filterMap g }) s)
  newFade : ∀ s r, s.fades.table.length < fadeRoom → (∀ t, drives t r = true → driven t s = false) →
    (∀ v, drives (.voice v) r = false) → (∀ v, r.origin ≠ .voiceStop v) →
    (∀ z, drives (.zoneDuck z) r = true → ∃ y, r.origin = .paging y) → P s →
    P (modFades (fun f => { f with table := f.table ++ [r] }) s)
  endVoice : ∀ s v why, P s → P (endVoice v why s)
  becomeIdle : ∀ s v, s.voices.tab[v].state = .draining → P s → P (becomeIdle v s)
  voice : ∀ s v f, (∀ r : Voice, (f r).state = r.state ∧ (f r).ring.length = r.ring.length) → P s → P (modVoice v f s)
  primed : ∀ s v, s.voices.tab[v].state = .priming → P s → P (modVoice v (fun r => { r with state := .playing }) s)
  start : ∀ s v clip info tag loop o token code fadeIn fo, s.voices.tab[v].state = .idle → quota info ≤ s.voices.free →
    (∀ u, fo ≠ .voiceStop u) → P s → P (startLevel v code fadeIn fo (startVoice v clip info tag loop o token s)).1
  stop : ∀ s v time, P s → P (stopVoice time s v)
  voiceLevels : ∀ s cue tag code time, P s → P (levelFor cue (.voices tag) code time s).1
  card : ∀ s c, stillCard c = stillCard s.card → P s → P { s with card := c }
  paging : ∀ s u, stillPaging u = stillPaging s.paging → PagesFit s.paging u → P s → P { s with paging := u }
  asks : ∀ s l, P s → P (modVoices (fun u => { u with pagingIn := l }) s)
  line : ∀ s l f, (∀ r, stillLine (f r) = stillLine r) → P s → P (modLine l f s)

namespace Working

variable {P : State → Prop} (W : Working P) {s : State}
include W

omit W in
theorem foldl {α : Type} {f : State → α → State} (h : ∀ s x, P s → P (f s x)) (l : List α) :
    ∀ s, P s → P (l.foldl f s) := by
  induction l with
  | nil => exact fun s hs => hs
  | cons x xs ih => exact fun s hs => ih _ (h _ _ hs)

/-! ### Notices and small updates -/

theorem notifyWhere (w : PortId → PortRecord → Bool) (n : Notice) (hs : P s) : P (notifyWhere w n s) := by
  refine W.ports s _ (fun p => ?_) hs
  rw [vmapi_get]; split
  · exact noticesOnly_enqueue ..
  · exact .rfl

theorem notifyClass (n : Notice) (hs : P s) : P (notifyClass n s) := W.notifyWhere _ _ hs

theorem notifyPort (p : PortId) (n : Notice) (hs : P s) : P (notifyPort p n s) := by
  refine W.ports s _ (fun q => ?_) hs
  rw [upd_get]; split
  · next h => subst h; exact noticesOnly_enqueue ..
  · exact .rfl

theorem modEntry (n : Nat) (f : RunEntry → RunEntry) (h : ∀ e, (f e).cue = e.cue) (hs : P s) : P (modEntry n f s) :=
  W.entries s _ (fun e => by split <;> simp [h]) hs

theorem dropFades (out : FadeRecord → Bool) (hs : P s) : P (dropFades out s) := by
  have : Machine.dropFades out s = modFades (fun f => { f with
      table := f.table.filterMap fun r => if out r then none else some r }) s := by
    simp only [Machine.dropFades, modFades]
    congr 2
    rw [← List.filterMap_eq_filter]
    congr 1; funext r; cases h : out r <;> simp [Option.guard, h]
  rw [this]
  refine W.narrow s _ (fun r r' h => ?_) hs
  split at h
  · cases h
  · cases h; exact ⟨rfl, rfl, fun _ => rfl, fun _ h => h⟩

theorem zone (z : ZoneId) {f : Zone → Zone} (h : ∀ r, stillZone (f r) = stillZone r) (hs : P s) :
    P (modZone z f s) :=
  W.paging s _ (by
    have : vmapi (fun _ r => stillZone r) (modZone z f s).paging.zones = vmapi (fun _ r => stillZone r) s.paging.zones :=
      vmapi_upd _ _ _ _ (h _)
    change { stillPaging s.paging with
      zones := vmapi (fun _ r => stillZone r) (Machine.modZone z f s).paging.zones } = _
    rw [this]; rfl) (fun h => h) hs

theorem pages {g : PagingUnit → PagingUnit} (h : ∀ u, stillPaging (g u) = stillPaging u) (hl : ∀ u, PagesFit u (g u))
    (hs : P s) : P (modPaging g s) := W.paging s _ (h _) (hl _) hs

theorem modPage (id : Nat) (f : Page → Page) (hs : P s) : P (modPage id f s) :=
  W.pages (fun _ => rfl) (fun u h => by simpa [PagesFit] using h) hs

theorem tellPaging (r : VoiceReport) (hs : P s) : P (tellPaging r s) := W.pages (fun _ => rfl) (fun _ h => h) hs

theorem askVoices (a : PagingAsk) (hs : P s) : P (askVoices a s) := W.asks s _ hs

theorem setHolder (h : Option Nat) (hs : P s) : P (modPaging (fun u => { u with holder := h }) s) :=
  W.pages (fun _ => rfl) (fun _ h => h) hs

/-! ### Fades -/

theorem tell (e : Ending) (r : FadeRecord) (hs : P s) : P (tell e s r) := by
  unfold Machine.tell
  split
  · split
    · exact hs
    · exact W.modEntry _ _ (fun _ => rfl) hs
  · exact W.notifyPort _ _ hs
  · exact hs
  · exact hs

theorem report (e : Ending) (why : VoiceEnd) (s : State) (r : FadeRecord) (hs : P s) : P (report e why s r) := by
  unfold Machine.report
  split
  · exact W.endVoice _ _ _ hs
  · exact W.tell _ _ hs

end Working

/-! ### What a report leaves of the fade table -/

@[simp] theorem tell_fades (e : Ending) (s : State) (r : FadeRecord) : (tell e s r).fades = s.fades := by
  unfold tell; split
  · split <;> rfl
  · rfl
  · rfl
  · rfl

theorem foldl_tell_fades (e : Ending) (l : List FadeRecord) (s : State) : (l.foldl (tell e) s).fades = s.fades := by
  induction l generalizing s with
  | nil => rfl
  | cons x xs ih => rw [List.foldl_cons, ih, tell_fades]

theorem tellPaging_fades (r : VoiceReport) (s : State) : (tellPaging r s).fades = s.fades := rfl

theorem endVoice_table (v : VoiceId) (why : VoiceEnd) (s : State) : ∃ q,
    (endVoice v why s).fades = { s.fades with table := s.fades.table.filter q } := by
  unfold endVoice
  dsimp only
  split
  · refine ⟨fun r => !onVoice v r, ?_⟩
    have e : ∀ (q : Prop) [Decidable q] (x y : State) (f : FadeUnit), x.fades = f → y.fades = f →
        (if q then x else y).fades = f := by
      intro q _ x y f h h'; split <;> assumption
    have h4 := foldl_tell_fades .removed
      ((modVoice v (fun r => { r with tag := none, looping := false }) s).fades.table.filter (onVoice v))
      (dropFades (onVoice v) (modVoice v (fun r => { r with tag := none, looping := false }) s))
    refine e _ _ _ _ (e _ _ _ _ ?_ ?_) (e _ _ _ _ ?_ ?_) <;> simp only [tellPaging_fades, notifyClass_fades] <;>
      exact e _ _ _ _ h4 h4
  · exact ⟨fun _ => true, by simp⟩

theorem report_table (e : Ending) (why : VoiceEnd) (s : State) (r : FadeRecord) : ∃ q,
    (report e why s r).fades = { s.fades with table := s.fades.table.filter q } := by
  unfold report; split
  · exact endVoice_table ..
  · exact ⟨fun _ => true, by simp⟩

theorem foldl_report_table (e : Ending) (why : VoiceEnd) (l : List FadeRecord) (s : State) : ∃ q,
    (l.foldl (report e why) s).fades = { s.fades with table := s.fades.table.filter q } := by
  induction l generalizing s with
  | nil => exact ⟨fun _ => true, by simp⟩
  | cons x xs ih =>
    obtain ⟨q, hq⟩ := ih (report e why s x)
    obtain ⟨q', hq'⟩ := report_table e why s x
    rw [List.foldl_cons, hq, hq']
    exact ⟨fun a => q a && q' a, by simp [List.filter_filter]⟩

theorem driven_of_filter {t : Target} {s u : State} {q : FadeRecord → Bool}
    (h : u.fades.table = s.fades.table.filter q) (hd : driven t s = false) : driven t u = false := by
  rw [driven, List.any_eq_false] at hd ⊢
  intro r hr; rw [h] at hr
  exact hd r (List.mem_filter.mp hr).1

/-! ### Takeovers -/

theorem isSingle_displace {t : Target} {r r' : FadeRecord} (h : displace t r = some r') :
    r'.origin = r.origin ∧ isSingle r' = isSingle r ∧ (isSingle r = true → r'.body = r.body)
      ∧ ∀ u, drives u r' = true → drives u r = true ∧ u ≠ t := by
  obtain ⟨body, dur, n, o⟩ := r
  cases body with
  | single t' a b =>
    simp only [displace] at h
    split at h
    · cases h
    · next hne =>
      cases h
      refine ⟨rfl, rfl, fun _ => rfl, fun u hu => ⟨hu, ?_⟩⟩
      rintro rfl
      simp only [drives, beq_iff_eq] at hu
      exact hne hu
  | mix m sn a b engaged =>
    simp only [displace] at h
    have key : ∀ u (e : Vector Bool 97), drives u { body := .mix m sn a b e, dur := dur, n := n, origin := o } =
        (match placeIn m u with | some i => e[i] | none => false) := fun u e => rfl
    cases hp : placeIn m t with
    | none =>
      rw [hp] at h; cases h
      refine ⟨rfl, rfl, fun _ => rfl, fun u hu => ⟨hu, ?_⟩⟩
      rintro rfl; rw [key, hp] at hu; cases hu
    | some i =>
      rw [hp] at h
      simp only at h
      split at h
      · cases h
        refine ⟨rfl, rfl, fun h => by simp [isSingle] at h, fun u hu => ?_⟩
        rw [key] at hu ⊢
        cases hu' : placeIn m u with
        | none => rw [hu'] at hu; cases hu
        | some j =>
          rw [hu'] at hu
          simp only at hu ⊢
          rw [upd_get] at hu
          split at hu
          · cases hu
          · next hne =>
            refine ⟨hu, ?_⟩
            rintro rfl; rw [hp] at hu'; cases hu'; exact hne rfl
      · split at h
        · cases h
        · next he =>
          cases h
          refine ⟨rfl, rfl, fun _ => rfl, fun u hu => ⟨hu, ?_⟩⟩
          rintro rfl
          rw [key, hp] at hu
          exact he hu

theorem narrows_displace (t : Target) : Narrows (displace t) := fun _ _ h =>
  have ⟨h1, h2, h3, h4⟩ := isSingle_displace h
  ⟨h1, h2, h3, fun u hu => (h4 u hu).1⟩

/-- A takeover leaves its target undriven, and makes no record. -/
theorem takeOver_table (t : Target) (s : State) : driven t (takeOver t s) = false
    ∧ (takeOver t s).fades.table.length ≤ s.fades.table.length := by
  unfold takeOver
  dsimp only
  obtain ⟨q, hq⟩ := foldl_report_table .takenOver .stopped (s.fades.table.filter fun r => (displace t r).isNone)
    (modFades (fun f => { f with table := f.table.filterMap (displace t) }) s)
  constructor
  · refine driven_of_filter (congrArg FadeUnit.table hq :) ?_
    rw [driven, List.any_eq_false]
    intro r hr
    obtain ⟨r0, -, h0⟩ := List.mem_filterMap.mp hr
    intro hd
    exact ((isSingle_displace h0).2.2.2 t hd).2 rfl
  · rw [hq]
    exact (List.length_filter_le ..).trans (List.length_filterMap_le ..)

namespace Working

variable {P : State → Prop} (W : Working P) {s : State}
include W

theorem takeOver (t : Target) (hs : P s) : P (takeOver t s) := by
  unfold Machine.takeOver
  exact foldl (W.report _ _) _ _ (W.narrow _ _ (narrows_displace t) hs)

theorem snap (t : Target) (f : Nat) (hs : P s) : P (snap t f s) := W.level _ _ _ (W.takeOver _ hs)

theorem createSingle (t : Target) (f d : Nat) (o : FadeOrigin) (ht : ∀ v, t ≠ .voice v) (ho : ∀ v, o ≠ .voiceStop v)
    (hd : (∀ z, t ≠ .zoneDuck z) ∨ ∃ y, o = .paging y) (hs : P s) : P (createSingle t f d o s).1 := by
  unfold Machine.createSingle
  dsimp only
  have h1 := W.takeOver t hs
  split
  · next hr =>
    refine W.newFade _ _ hr (fun u hu => ?_) (fun v => ?_) ho (fun z hz => ?_) h1
    · simp only [drives, newSingle, beq_iff_eq] at hu
      rw [← hu]; exact (takeOver_table ..).1
    · simp [drives, newSingle, ht v]
    · simp only [drives, newSingle, beq_iff_eq] at hz
      exact hd.resolve_left fun h => h z hz
  · exact W.report _ _ _ _ (W.level _ _ _ h1)

end Working

theorem placeIn_voice (m : MixId) (v : VoiceId) : placeIn m (.voice v) = none := rfl

theorem placeIn_unique {m m' : MixId} {t : Target} {i i' : Fin 97} (h : placeIn m t = some i)
    (h' : placeIn m' t = some i') : m = m' := by
  cases t <;> simp only [placeIn, reduceCtorEq, Option.ite_none_right_eq_some] at h h'
  · exact h.1.symm.trans h'.1
  · exact h.1.symm.trans h'.1

/-- What a recall leaves before its own record enters drives none of its targets. -/
theorem recall_undriven {m : MixId} {engaged : Vector Bool 97} {s : State} {t : Target} {i : Fin 97}
    (hp : placeIn m t = some i) (he : engaged[i] = true) : driven t (dropFades (displacedBy m engaged) s) = false := by
  rw [driven, List.any_eq_false]
  intro r hr hd
  obtain ⟨-, hr⟩ := List.mem_filter.mp hr
  obtain ⟨body, dur, n, o⟩ := r
  cases body with
  | single t' a b =>
    simp only [drives, beq_iff_eq] at hd
    subst hd
    simp only [displacedBy, hp] at hr
    rw [he] at hr; simp at hr
  | mix m' sn a b e =>
    simp only [drives] at hd
    cases hp' : placeIn m' t with
    | none => rw [hp'] at hd; cases hd
    | some j =>
      have := placeIn_unique hp hp'
      subst this
      simp [displacedBy] at hr

@[simp] theorem writeLevel_fades (t : Target) (f : Nat) (s : State) : (writeLevel t f s).fades = s.fades := by
  cases t <;> rfl

@[simp] theorem writeRecord_fades (s : State) (r : FadeRecord) : (writeRecord s r).fades = s.fades := by
  unfold writeRecord; split <;> simp [writeMix]

theorem foldl_writeRecord_fades (l : List FadeRecord) (s : State) : (l.foldl writeRecord s).fades = s.fades := by
  induction l generalizing s with
  | nil => rfl
  | cons x xs ih => rw [List.foldl_cons, ih, writeRecord_fades]

namespace Working

variable {P : State → Prop} (W : Working P) {s : State}
include W

theorem recallMix (m : MixId) (n : Fin 128) (l : Vector Nat 97) (d : Nat) (o : FadeOrigin) (ho : ∀ v, o ≠ .voiceStop v)
    (hs : P s) : P (recallMix m n l d o s).1 := by
  unfold Machine.recallMix
  dsimp only
  obtain ⟨q, hq⟩ := foldl_report_table .takenOver .stopped
    (s.fades.table.filter (fun r => displacedBy m (recallSet m s) r && isSingle r)
      ++ s.fades.table.filter (fun r => displacedBy m (recallSet m s) r && !isSingle r))
    (Machine.dropFades (displacedBy m (recallSet m s)) s)
  have h1 := foldl (W.report .takenOver .stopped)
    (s.fades.table.filter (fun r => displacedBy m (recallSet m s) r && isSingle r)
      ++ s.fades.table.filter (fun r => displacedBy m (recallSet m s) r && !isSingle r)) _
    (W.dropFades (displacedBy m (recallSet m s)) hs)
  generalize List.foldl (Machine.report .takenOver .stopped) _ _ = s1 at hq h1 ⊢
  split
  · exact W.levels _ _ _ _ h1
  · split
    · next hr =>
      refine W.newFade _ _ hr (fun u hu => ?_) (fun v => rfl) ho (fun z hz => by cases hz) h1
      simp only [drives] at hu
      cases hp : placeIn m u with
      | none => rw [hp] at hu; cases hu
      | some i =>
        rw [hp] at hu
        exact driven_of_filter (congrArg FadeUnit.table hq :) (recall_undriven hp hu)
    · exact W.report _ _ _ _ (W.levels _ _ _ _ h1)

theorem removeFades (out told : FadeRecord → Bool) (why : VoiceEnd) (hs : P s) : P (removeFades out told why s) := by
  unfold Machine.removeFades
  exact foldl (W.report _ _) _ _ (W.dropFades _ hs)

theorem writeRecord (s : State) (r : FadeRecord) (hs : P s) : P (writeRecord s r) := by
  unfold Machine.writeRecord
  split
  · exact W.level _ _ _ hs
  · exact W.levels _ _ _ _ hs

theorem advanceFades (hs : P s) : P (advanceFades s) := by
  unfold Machine.advanceFades
  dsimp only
  refine foldl (W.report _ _) _ _ ?_
  have h1 := foldl W.writeRecord (s.fades.table.map fun r => { r with n := r.n + 1 }) _ hs
  have hf := foldl_writeRecord_fades (s.fades.table.map fun r => { r with n := r.n + 1 }) s
  generalize List.foldl Machine.writeRecord s _ = s1 at h1 hf ⊢
  let g : FadeRecord → Option FadeRecord := fun r =>
    if complete { r with n := r.n + 1 } = true then none else some { r with n := r.n + 1 }
  have hg : (s.fades.table.map fun r => { r with n := r.n + 1 }).filter (fun r => !complete r)
      = s.fades.table.filterMap g := by
    rw [← List.filterMap_eq_filter, List.filterMap_map]
    congr 1; funext r
    simp only [Function.comp, Option.guard, g]
    cases h : complete ({ r with n := r.n + 1 }) <;> simp
  have : modFades (fun f => { f with table :=
        (s.fades.table.map fun r => { r with n := r.n + 1 }).filter fun r => !complete r }) s1
      = modFades (fun f => { f with table := f.table.filterMap g }) s1 := by
    simp only [modFades, hf, hg]
  rw [this]
  refine W.narrow _ _ (fun r r' h => ?_) h1
  simp only [g] at h
  split at h
  · cases h
  · cases h; exact ⟨rfl, rfl, fun _ => rfl, fun _ h => h⟩

/-! ### Voices and the card -/

theorem cardEdit {f : CardUnit → CardUnit} (h : ∀ c, stillCard (f c) = stillCard c) (hs : P s) : P (modCard f s) :=
  W.card s _ (h _) hs

theorem modSlot (v : VoiceId) (k : Nat) (f : Slot → Slot) (hs : P s) : P (modSlot v k f s) :=
  W.voice _ _ _ (fun _ => ⟨rfl, List.length_modify ..⟩) hs

theorem requestSlot (v : VoiceId) (k p w : Nat) (hs : P s) : P (requestSlot v k p w s) :=
  W.cardEdit (fun _ => rfl) (W.modSlot _ _ _ hs)

theorem assignSlot (v : VoiceId) (s : State) (k : Nat) (hs : P s) : P (assignSlot v s k) := by
  unfold Machine.assignSlot
  dsimp only
  split
  · exact W.modSlot _ _ _ hs
  · exact W.requestSlot _ _ _ _ (W.voice _ _ _ (fun _ => ⟨rfl, rfl⟩) hs)

theorem takeJob (j : ReadJob) (hs : P s) : P (takeJob j s) := by
  unfold Machine.takeJob
  cases j
  · exact W.cardEdit (fun _ => rfl) (W.modSlot _ _ _ hs)
  · exact W.cardEdit (fun c => by simp only [stillCard, Option.map_map]; rfl) hs

theorem readerTake (hs : P s) : P (readerTake s) := by
  unfold Machine.readerTake
  split
  · exact hs
  · split
    · exact hs
    · exact W.takeJob _ hs

theorem stopTag (tag time : Nat) (hs : P s) : P (stopTag tag time s) := foldl (fun s v => W.stop s v time) _ _ hs

theorem stopAllVoices (time : Nat) (hs : P s) : P (stopAllVoices time s) := foldl (fun s v => W.stop s v time) _ _ hs

theorem refillSlot (v : VoiceId) (s : State) (k : Nat) (hs : P s) : P (refillSlot v s k) := by
  unfold Machine.refillSlot
  dsimp only
  split
  · split
    · exact W.assignSlot _ _ _ hs
    · split
      · exact W.modSlot _ _ _ (W.voice _ _ _ (fun _ => ⟨rfl, rfl⟩) hs)
      · exact hs
  · exact hs

theorem checkPrimed (v : VoiceId) (hs : P s) : P (checkPrimed v s) := by
  unfold Machine.checkPrimed
  dsimp only
  split
  · next h =>
    simp only [Bool.and_eq_true, decide_eq_true_eq] at h
    have hp := h.1
    have h1 := W.notifyClass (voiceStarted v s.voices.tab[v]) (W.primed _ _ hp hs)
    split
    · exact W.tellPaging _ h1
    · exact h1
  · exact hs

theorem releaseVoice (s : State) (v : VoiceId) (hs : P s) : P (releaseVoice s v) := by
  unfold Machine.releaseVoice
  dsimp only
  refine W.checkPrimed _ (foldl (W.refillSlot _) _ _ (W.voice _ _ _ (fun _ => ⟨rfl, by simp⟩) ?_))
  exact W.cardEdit (fun _ => rfl) hs

theorem releaseTag (tag : Nat) (hs : P s) : P (releaseTag tag s) := foldl W.releaseVoice _ _ hs

theorem slotDone (v : VoiceId) (k : Nat) (got : List Word24 ⊕ Bool) (hs : P s) : P (slotDone v k got s) := by
  unfold Machine.slotDone
  dsimp only
  split
  · exact hs
  · split
    · next h => exact W.becomeIdle _ _ h hs
    · split
      · split
        · exact W.requestSlot _ _ _ _ hs
        · exact W.modSlot _ _ _ hs
      · split
        · exact W.checkPrimed _ (W.modSlot _ _ _ hs)
        · exact W.endVoice _ _ _ hs

theorem leaveSlot (v : VoiceId) (hs : P s) : P (leaveSlot v s) := by
  have h1 := W.assignSlot v _ s.voices.tab[v].cur (W.modSlot v s.voices.tab[v].cur (fun _ => emptySlot) hs)
  exact W.voice _ _ (fun r => { r with cur := (r.cur + 1) % r.ring.length }) (fun _ => ⟨rfl, rfl⟩) h1

theorem voicePeriod (s : State) (v : VoiceId) (hs : P s) : P (voicePeriod s v) := by
  unfold Machine.voicePeriod
  dsimp only
  split
  · split
    · split
      · exact hs
      · exact W.notifyClass _ (W.voice _ _ _ (fun _ => ⟨rfl, rfl⟩) hs)
    · split
      · exact W.endVoice _ _ _ hs
      · next i wrap _ =>
        have h1 := W.voice s v (fun r => if wrap = true then passWrap { r with pos := i } else { r with pos := i })
          (fun r => by split <;> simp [passWrap]) hs
        split
        · exact W.leaveSlot _ h1
        · exact h1
  · exact hs

theorem voicesPeriod (hs : P s) : P (voicesPeriod s) := foldl W.voicePeriod _ _ hs

/-! ### Pages -/

theorem tellPages (before : List Page) (hs : P s) : P (tellPages before s) :=
  foldl (fun _ _ h => W.notifyClass _ h) _ _ hs

theorem pagingEvent {f : State → State} (h : P (f s)) : P (pagingEvent f s) := W.tellPages _ h

theorem enterGap (s : State) (z : ZoneId) (hs : P s) : P (enterGap s z) := W.zone _ (fun _ => rfl) hs

theorem freeZone (z : ZoneId) (hs : P s) : P (freeZone z s) := W.zone _ (fun _ => rfl) hs

theorem releaseDuck (z : ZoneId) (hs : P s) : P (releaseDuck z s) := 
  W.createSingle _ _ _ _ (by simp) (by simp) (.inr ⟨_, rfl⟩) hs

theorem dropVoice (p : Page) (hs : P s) : P (dropVoice p s) := by
  unfold Machine.dropVoice
  split
  · refine W.setHolder _ ?_
    split
    · exact W.askVoices _ hs
    · exact hs
  · exact hs

theorem endPage (o : PageOutcome) (s : State) (id : Nat) (hs : P s) : P (endPage o s id) := by
  unfold Machine.endPage
  split
  · exact hs
  · split
    · exact hs
    · exact W.dropVoice _ (foldl W.enterGap _ _ (W.modPage _ _ hs))

theorem restartPage (s : State) (id : Nat) (hs : P s) : P (restartPage s id) := by
  unfold Machine.restartPage
  split
  · exact hs
  · next p _ =>
    dsimp only
    have h1 := W.dropVoice p (W.modPage id (fun q => { q with
      state := .pending, play := .none, timer := none, token := none, chimePos := 0
      wanted := vmapi (fun z st => match st with
        | none => none
        | some _ => some (if s.paging.linkUp[z] then .waiting else .unreached)) q.wanted }) hs)
    split
    · split
      · exact W.endPage _ _ _ h1
      · exact h1
    · exact h1

theorem afterLoss (s : State) (id : Nat) (hs : P s) : P (afterLoss s id) := by
  unfold Machine.afterLoss
  split
  · exact hs
  · split
    · exact hs
    · split
      · exact W.restartPage _ _ hs
      · exact W.endPage _ _ _ hs

theorem joinZone (id : Nat) (s : State) (z : ZoneId) (hs : P s) : P (joinZone id s z) := by
  unfold Machine.joinZone
  split
  · exact hs
  · dsimp only
    refine W.createSingle _ _ _ _ (by simp) (by simp) (.inr ⟨_, rfl⟩) (W.zone _ (fun _ => rfl) (W.modPage _ _ ?_))
    split
    · exact W.afterLoss _ _ (W.modPage _ _ hs)
    · exact hs

theorem issuePlay (id clip : Nat) (hs : P s) : P (issuePlay id clip s) :=
  W.askVoices _ (W.modPage _ _ (W.pages (fun _ => rfl) (fun _ h => h) hs))

theorem enterSpeaking (s : State) (id : Nat) (hs : P s) : P (enterSpeaking s id) := by
  unfold Machine.enterSpeaking
  split
  · exact hs
  · dsimp only
    have h1 := fun t => W.modPage id (fun q => { q with state := .speaking, timer := t }) hs
    split
    · split
      · exact W.issuePlay _ _ (h1 _)
      · exact h1 _
    · exact h1 _

theorem preEmptHolder (h : Nat) (joins : List ZoneId) (hs : P s) : P (preEmptHolder h joins s) := by
  unfold Machine.preEmptHolder
  split
  · exact hs
  · exact W.afterLoss _ _ (foldl W.enterGap _ _ (W.modPage _ _ hs))

theorem startPage (id : Nat) (p : Page) (joins : List ZoneId) (hs : P s) : P (startPage id p joins s) := by
  unfold Machine.startPage
  dsimp only
  have h2 : P (joins.foldl (Machine.joinZone id) (if isClip p = true then
      Machine.modPage id (fun q => { q with play := .waitingForVoice })
        (modPaging (fun u => { u with holder := some id }) s) else s)) := by
    refine foldl (W.joinZone id) _ _ ?_
    split
    · exact W.modPage _ _ (W.setHolder _ hs)
    · exact hs
  split
  · exact W.modPage _ _ h2
  · exact W.enterSpeaking _ _ h2

theorem visit (s : State) (id : Nat) (hs : P s) : P (visit s id) := by
  unfold Machine.visit
  split
  · exact hs
  · next p _ =>
    dsimp only
    split
    · exact hs
    · generalize (if p.all = true then _ else _ : Bool) = ready
      split
      · split
        · split
          · exact W.startPage _ _ _ hs
          · exact W.startPage _ _ _ (W.preEmptHolder _ _ hs)
          · exact hs
        · exact W.startPage _ _ _ hs
      · exact hs
    all_goals
      split
      · exact hs
      · exact foldl (W.joinZone id) _ _ hs

theorem startPass (hs : P s) : P (startPass s) := foldl W.visit _ _ hs

end Working

theorem length_dropOldestEnded {ps : List Page} (h : ps.any (fun p => p.state == .ended) = true) :
    (dropOldestEnded ps).length + 1 = ps.length := by
  induction ps with
  | nil => simp at h
  | cons p ps ih =>
    simp only [dropOldestEnded]
    split
    · rfl
    · next hp => simp [hp] at h; simp only [List.length_cons]; rw [ih (by simpa using h)]

/-- A page that fits leaves the list within its room. -/
theorem length_roomFor {s : State} (hf : pageFits s = true) (hl : s.paging.pages.length ≤ pageRoom) :
    (roomFor s.paging.pages).length < pageRoom := by
  unfold roomFor
  split
  · assumption
  · next h =>
    simp only [pageFits, h, decide_false, Bool.false_or] at hf
    have := length_dropOldestEnded hf
    omega

namespace Working

variable {P : State → Prop} (W : Working P) {s : State}
include W

theorem createPage (q : PageSpec) (hf : pageFits s = true) (hs : P s) : P (createPage q s) := by
  unfold Machine.createPage
  dsimp only
  have h1 : ∀ (k : Bool) (id : Nat) (p : Page), P (modPaging (fun u => { u with
      pages := roomFor s.paging.pages ++ [p]
      lastId := if k then u.lastId else id
      alarmIds := if k then u.alarmIds.tail else u.alarmIds }) s) :=
    fun k id p => W.paging s _ rfl (fun hl => by
      have := length_roomFor hf hl
      simp only [List.length_append, List.length_singleton]; omega) hs
  split
  · exact W.endPage _ _ _ (h1 _ _ _)
  · exact W.startPass (h1 _ _ _)

theorem createEvent (q : PageSpec) (hf : pageFits s = true) (hs : P s) : P (createEvent q s) :=
  W.tellPages _ (W.createPage q hf hs)

theorem linkLeft (z : ZoneId) (hs : P (modPaging (fun u => { u with linkUp := upd u.linkUp z false }) s)) :
    P (linkLeft z s) := by
  unfold Machine.linkLeft
  dsimp only
  have h1 : P (modPaging (fun u => { u with
      linkUp := upd u.linkUp z false
      pages := u.pages.map fun p =>
        if p.state != .ended && (carries p z || waits p z) then setStatus z .unreached p else p }) s) :=
    W.pages (g := fun u => { u with pages := u.pages.map fun p =>
        if p.state != .ended && (carries p z || waits p z) then setStatus z .unreached p else p })
      (fun _ => rfl) (fun u h => by simpa [PagesFit] using h) hs
  refine W.startPass (foldl (W.endPage .noZone) _ _ ?_)
  split
  · exact h1
  · exact W.releaseDuck _ (W.freeZone _ h1)

theorem linkEntered (z : ZoneId) (hs : P (modPaging (fun u => { u with linkUp := upd u.linkUp z true }) s)) :
    P (linkEntered z s) := by
  unfold Machine.linkEntered
  refine W.startPass (W.pages (g := fun u => { u with pages := u.pages.map fun p =>
      if p.origin = .alarm && p.state != .ended && p.wanted[z] == some .unreached then setStatus z .waiting p else p })
    (fun _ => rfl) (fun u h => by simpa [PagesFit] using h) hs)

theorem gapExpired (z : ZoneId) (hs : P s) : P (gapExpired z s) := by
  unfold Machine.gapExpired
  dsimp only
  have h1 := W.startPass (W.freeZone z hs)
  split
  · exact h1
  · exact W.releaseDuck _ h1

theorem takeReport (r : VoiceReport) (hs : P s) : P (takeReport r s) := by
  unfold Machine.takeReport
  split
  · split
    · exact W.modPage _ _ hs
    · exact hs
  · split
    · exact W.endPage _ _ _ (W.modPage _ _ hs)
    · exact hs
  · dsimp only
    refine W.startPass ?_
    split
    · split
      · split
        · exact W.issuePlay _ _ hs
        · exact hs
      · exact hs
    · exact hs

theorem playAnswer (token : Nat) (t : Option PlayTest) (hs : P s) : P (playAnswer token t s) := by
  unfold Machine.playAnswer
  split
  · exact hs
  · dsimp only
    split
    · exact W.modPage _ _ hs
    · exact W.endPage _ _ _ (W.modPage _ _ hs)
    · exact W.endPage _ _ _ (W.modPage _ _ hs)
    · exact W.endPage _ _ _ (W.modPage _ _ hs)
    · exact W.modPage _ _ hs
    · exact W.modPage _ _ hs

end Working

/-- What a play that may start has found. -/
theorem playTest_start {clip : Nat} {voice : Option VoiceId} {s : State} {v : VoiceId} {info : ClipEntry}
    (h : playTest clip voice s = .start v info) : voice = some v ∧ quota info ≤ s.voices.free := by
  unfold playTest at h
  split at h
  · cases h
  · split at h
    · cases h
    · split at h
      · cases h
      · split at h
        · cases h
        · next hq => cases h; exact ⟨rfl, by omega⟩

theorem openVoice_idle {s : State} {v : VoiceId} (h : openVoice s = some v) : s.voices.tab[v].state = .idle := by
  have := List.find?_some h
  simp only [openTo, Bool.and_eq_true, beq_iff_eq] at this
  exact this.1

namespace Working

variable {P : State → Prop} (W : Working P) {s : State}
include W

theorem takePlay (token clip : Nat) (hs : P s) : P (takePlay token clip s) := by
  unfold Machine.takePlay
  split
  · next hi =>
    dsimp only
    refine W.playAnswer _ _ ?_
    split
    · next v info ht =>
      obtain ⟨hv, hq⟩ := playTest_start ht
      cases hv
      exact W.start s pagingVoice clip info 0 false .paging token 216 0 (.entry 0) (by simpa [pagingVoiceIdle] using hi)
        hq (by simp) hs
    · exact hs
  · exact W.playAnswer _ _ hs

/-! ### Lines, cue actions and cues -/

theorem tellLamp (z : ZoneId) (r : LampResult) (s : State) (c : LineCmd) (hs : P s) : P (tellLamp z r s c) := by
  cases c
  · exact W.notifyClass _ hs
  · exact hs

theorem enqueue (l : ZoneId) (c : LineCmd) (hs : P s) : P (enqueue l c s) := by
  unfold Machine.enqueue
  split
  · exact W.tellLamp _ _ _ _ (W.line _ _ _ (fun _ => rfl) hs)
  · exact W.line _ _ _ (fun _ => rfl) hs

theorem arrive (l : ZoneId) (c : LineCmd) (hs : P s) : P (arrive l c s) := by
  unfold Machine.arrive
  dsimp only
  split
  · split
    · exact W.line _ _ _ stillLine_closeFrame (W.enqueue _ _ (W.line _ _ _ stillLine_openFrame hs))
    · exact W.enqueue _ _ hs
  · exact hs

theorem commandLamp (z : ZoneId) (st : Lamp) (o : LampOrigin) (hs : P s) : P (commandLamp z st o s) :=
  W.arrive _ _ (W.zone _ (fun _ => rfl) hs)

theorem levelFor (cue : Nat) (t : CueTarget) (c time : Nat) (hs : P s) : P (levelFor cue t c time s).1 := by
  have one : ∀ g : Target, (∀ v, g ≠ .voice v) → (∀ z, g ≠ .zoneDuck z) → cueTargets t s = [g] →
      P (Machine.levelFor cue t c time s).1 := by
    intro g hg hz h
    unfold Machine.levelFor
    dsimp only
    split
    · rw [h]; exact W.snap _ _ hs
    · rw [h]; exact W.createSingle _ _ _ _ hg (by simp) (.inl hz) hs
  cases t with
  | crosspoint m x => exact one _ (by simp) (by simp) rfl
  | master m => exact one _ (by simp) (by simp) rfl
  | zoneProgramme z => exact one _ (by simp) (by simp) rfl
  | voices tag => exact W.voiceLevels _ _ _ _ _ hs

theorem playFor (cue clip tag code fadeIn : Nat) (loop : Bool) (hs : P s) :
    P (playFor cue clip tag code fadeIn loop s).1 := by
  unfold Machine.playFor
  split
  · exact hs
  · split
    iterate 4 exact hs
    next v info ht =>
      obtain ⟨hv, hq⟩ := playTest_start ht
      exact W.start s v clip info tag loop (.entry cue) 0 code fadeIn (.entry cue) (openVoice_idle hv) hq (by simp) hs

theorem recallFor (cue : Nat) (m : MixId) (n : Fin 128) (time : Nat) (hs : P s) : P (recallFor cue m n time s).1 := by
  unfold Machine.recallFor
  split
  · exact hs
  · exact W.recallMix _ _ _ _ _ (by simp) hs

theorem muteFor (m : MixId) (on : Bool) (hs : P s) : P (muteFor m on s).1 := by
  unfold Machine.muteFor
  split
  · exact hs
  · next h => exact W.mute _ _ _ (by simpa using h) hs

theorem pageFor (cue : Nat) (zs : Vector Bool 16) (clip prio : Nat) (chime all re : Bool) (hs : P s) :
    P (pageFor cue zs clip prio chime all re s).1 := by
  unfold Machine.pageFor
  split
  · next h => dsimp only; exact W.createEvent _ h hs
  · exact hs

theorem perform (cue : Nat) (a : Action) (hs : P s) : P (perform cue a s).1 :=
  match a with
  | .play .. => W.playFor _ _ _ _ _ _ hs
  | .stop .. => W.stopTag _ _ hs
  | .release _ => W.releaseTag _ hs
  | .level .. => W.levelFor _ _ _ _ hs
  | .recall .. => W.recallFor _ _ _ _ hs
  | .mute .. => W.muteFor _ _ hs
  | .page .. => W.pageFor _ _ _ _ _ _ _ hs
  | .lamp .. => W.commandLamp _ _ _ hs

theorem issueAction (cue pos : Nat) (a : Action) (hs : P s) : P (issueAction cue pos a s) := by
  unfold Machine.issueAction countResult
  dsimp only
  have h1 := W.modEntry cue (fun e => { e with
    out := e.out + (Machine.perform cue a s).2.made, next := pos + 1, issued := e.issued + 1
    snapped := e.snapped + ((Machine.perform cue a s).2.result == .snapped).toNat
    failed := e.failed + (failedResult (Machine.perform cue a s).2.result).toNat }) (fun _ => rfl) (W.perform cue a hs)
  split
  · exact h1
  · exact W.notifyClass _ h1

theorem issueRun (c : Cue) (k : Nat) : ∀ s, P s → P (issueRun c k s) := by
  induction k with
  | zero => exact fun _ h => h
  | succ k ih =>
    intro s hs
    unfold Machine.issueRun
    split
    · exact hs
    · split
      · exact ih _ (W.issueAction _ _ _ hs)
      · exact hs

theorem dropEntry (n : Nat) (hs : P s) : P (dropEntry n s) := W.fewerEntries _ _ hs

/-- What a follow that fires may do: it fires the standing cue, where the running list has room. -/
def Fires (P : State → Prop) (fire : Nat → Option PortId → State → State) : Prop :=
  ∀ n o s, s.cues.running.length < runRoom → s.cues.standing = some n → P s → P (fire n o s)

section
variable {fire' : Nat → Option PortId → State → State} (hf : Fires P fire')
include hf

theorem follow (n : Nat) (hs : P s) : P (follow fire' n s) := by
  unfold Machine.follow
  dsimp only
  split
  · exact W.notifyClass _ hs
  · split
    · exact W.notifyClass _ hs
    · next hn =>
      split
      · exact W.notifyClass _ hs
      · split
        · exact W.notifyClass _ hs
        · next h => exact hf _ _ _ (by omega) (not_not.mp hn) hs

theorem completeEntry (n : Nat) (hs : P s) : P (completeEntry fire' n s) := by
  unfold Machine.completeEntry
  split
  · exact hs
  · dsimp only
    have h1 := fun e => W.notifyClass (cueComplete e .complete) (W.dropEntry n hs)
    split
    · exact W.follow hf _ (h1 _)
    · exact h1 _

theorem leaveActive (n : Nat) (hs : P s) : P (leaveActive fire' n s) := by
  unfold Machine.leaveActive
  split
  · exact hs
  · split
    · exact W.completeEntry hf _ hs
    · exact W.modEntry _ _ (fun _ => rfl) hs

theorem takeContinue (n : Nat) (hs : P s) : P (takeContinue fire' n s) := by
  unfold Machine.takeContinue
  dsimp only
  have h1 := W.modEntry n (fun e => { e with cont := some false }) (fun _ => rfl) (W.follow hf n hs)
  split
  · split
    · exact W.completeEntry hf _ h1
    · exact h1
  · exact h1

theorem issueMany (c : Cue) (k : Nat) (hs : P s) : P (issueMany fire' c k s) := by
  unfold Machine.issueMany
  dsimp only
  split
  · exact W.leaveActive hf _ (W.issueRun _ _ _ hs)
  · exact W.issueRun _ _ _ hs

theorem activate (c : Cue) (hs : P s) : P (activate fire' c s) :=
  W.issueMany hf _ _ (W.modEntry _ _ (fun _ => rfl) hs)

end

theorem fireFuel (k : Nat) : Fires P (fireFuel k) := by
  induction k with
  | zero => exact fun _ _ _ _ _ h => h
  | succ k ih =>
    intro n o s hr hn hs
    unfold Machine.fireFuel
    split
    · exact hs
    · next c hc =>
      dsimp only
      have h2 := W.notifyClass (cueFired c o (cueAfter n s.cues.list))
        (W.entered s (newEntry c o) n hr hn (by rw [hc]; rfl) hs)
      have h3 : P (if c.prewait = 0 then Machine.activate (Machine.fireFuel k) c
          (Machine.notifyClass (cueFired c o (cueAfter n s.cues.list)) (modCues (fun q => { q with
            running := q.running ++ [newEntry c o], standing := cueAfter n s.cues.list }) s))
          else Machine.notifyClass (cueFired c o (cueAfter n s.cues.list)) (modCues (fun q => { q with
            running := q.running ++ [newEntry c o], standing := cueAfter n s.cues.list }) s)) := by
        split
        · exact W.activate ih _ h2
        · exact h2
      split
      · split
        · exact W.takeContinue ih _ h3
        · exact h3
      · exact h3

theorem fire : Fires P fire := fun n o s hr hn hs => W.fireFuel _ n o s hr hn hs

theorem settle (hs : P s) : P (settle s) := by
  have : ∀ k s, P s → P (settleFuel k s) := by
    intro k
    induction k with
    | zero => exact fun _ h => h
    | succ k ih =>
      intro s hs
      unfold settleFuel
      split
      · exact hs
      · exact ih _ (W.completeEntry W.fire _ hs)
  exact this _ _ hs

theorem finish (hs : P s) : P (finish s) := W.readerTake (W.settle hs)

theorem issueGiven (cue pos : Nat) (a : Action) (hs : P s) : P (issueGiven cue pos a s) := by
  unfold Machine.issueGiven
  split
  · split
    · dsimp only
      split
      · exact W.leaveActive W.fire _ (W.issueAction _ _ _ hs)
      · exact W.issueAction _ _ _ hs
    · exact hs
  · exact hs

theorem emptyRunning (how : CueEnding) (hs : P s) : P (emptyRunning how s) := by
  unfold Machine.emptyRunning
  refine foldl (fun _ _ h => W.notifyClass _ h) _ _ ?_
  have := W.fewerEntries s (fun _ => false) hs
  simpa using this

theorem stopAll (hs : P s) : P (stopAll s).1 :=
  W.stopAllVoices _ (W.removeFades _ _ _ (W.emptyRunning _ hs))

end Working

end Sys2Proof.Machine
end

