-- ==== Sys2Proof/Laws/Invariants.lean ====
section
/-! SUPPORT. The laws of Safety.lean, each kept by the part's own working: instances of `Working`. -/

namespace Sys2Proof.Machine

/-- `P` is kept by the changes of the part's working, where it does not tie fades to voices. -/
structure Plain (P : State → Prop) : Prop where
  ports : ∀ s ps, (∀ p : PortId, NoticesOnly s.ports[p] ps[p]) → P s → P { s with ports := ps }
  level : ∀ s t f, P s → P (writeLevel t f s)
  levels : ∀ s m e l, P s → P (writeMix m e l s)
  mute : ∀ s m on, unmuteBarred m on s = false → P s → P (setMute m on s)
  entries : ∀ s f, (∀ e : RunEntry, (f e).cue = e.cue) → P s →
    P (modCues (fun c => { c with running := c.running.map f }) s)
  fewerEntries : ∀ s q, P s → P (modCues (fun c => { c with running := c.running.filter q }) s)
  entered : ∀ s e n, s.cues.running.length < runRoom → s.cues.standing = some n → (cueOf n s).isSome → P s →
    P (modCues (fun c => { c with running := c.running ++ [e], standing := cueAfter n s.cues.list }) s)
  narrow : ∀ s g, Narrows g → P s → P (modFades (fun f => { f with table := f.table.filterMap g }) s)
  newFade : ∀ s r, s.fades.table.length < fadeRoom → (∀ t, drives t r = true → driven t s = false) →
    (∀ z, drives (.zoneDuck z) r = true → ∃ y, r.origin = .paging y) → P s →
    P (modFades (fun f => { f with table := f.table ++ [r] }) s)
  endVoice : ∀ s v why, P s → P (endVoice v why s)
  becomeIdle : ∀ s v, s.voices.tab[v].state = .draining → P s → P (becomeIdle v s)
  voice : ∀ s v f, (∀ r : Voice, (f r).state = r.state ∧ (f r).ring.length = r.ring.length) → P s → P (modVoice v f s)
  primed : ∀ s v, s.voices.tab[v].state = .priming → P s → P (modVoice v (fun r => { r with state := .playing }) s)
  begins : ∀ s v clip info tag loop o token, s.voices.tab[v].state = .idle → quota info ≤ s.voices.free → P s →
    P (startVoice v clip info tag loop o token s)
  stops : ∀ s v, s.voices.tab[v].state = .playing → P s →
    P (modVoice v (fun r => { r with tag := none, state := .stopping }) s)
  card : ∀ s c, stillCard c = stillCard s.card → P s → P { s with card := c }
  paging : ∀ s u, stillPaging u = stillPaging s.paging → PagesFit s.paging u → P s → P { s with paging := u }
  asks : ∀ s l, P s → P (modVoices (fun u => { u with pagingIn := l }) s)
  line : ∀ s l f, (∀ r, stillLine (f r) = stillLine r) → P s → P (modLine l f s)

namespace Plain

variable {P : State → Prop} (W : Plain P) {s : State}
include W

theorem report (e : Ending) (why : VoiceEnd) (s : State) (r : FadeRecord) (hs : P s) : P (report e why s r) := by
  unfold Machine.report
  split
  · exact W.endVoice _ _ _ hs
  · unfold tell
    split
    · split
      · exact hs
      · exact W.entries _ _ (fun e => by split <;> rfl) hs
    · refine W.ports _ _ (fun q => ?_) hs
      rw [upd_get]; split
      · next h => subst h; exact noticesOnly_enqueue ..
      · exact .rfl
    · exact hs
    · exact hs

theorem takeOver (t : Target) (hs : P s) : P (takeOver t s) := by
  unfold Machine.takeOver
  exact Working.foldl (W.report _ _) _ _ (W.narrow _ _ (narrows_displace t) hs)

theorem snap (t : Target) (f : Nat) (hs : P s) : P (snap t f s) := W.level _ _ _ (W.takeOver _ hs)

theorem createSingle (t : Target) (f d : Nat) (o : FadeOrigin) (hd : ∀ z, t ≠ .zoneDuck z) (hs : P s) : P (createSingle t f d o s).1 := by
  unfold Machine.createSingle
  dsimp only
  have h1 := W.takeOver t hs
  split
  · next hr =>
    refine W.newFade _ _ hr (fun u hu => ?_) (fun z hz => ?_) h1
    · simp only [drives, newSingle, beq_iff_eq] at hu
      rw [← hu]; exact (takeOver_table ..).1
    · simp only [drives, newSingle, beq_iff_eq] at hz
      exact absurd hz (hd z)
  · exact W.report _ _ _ _ (W.level _ _ _ h1)

theorem working : Working P where
  ports := W.ports
  level := W.level
  levels := W.levels
  mute := W.mute
  entries := W.entries
  fewerEntries := W.fewerEntries
  entered := W.entered
  narrow := W.narrow
  newFade := fun s r h1 h2 _ _ h3 hs => W.newFade s r h1 h2 h3 hs
  endVoice := W.endVoice
  becomeIdle := W.becomeIdle
  voice := W.voice
  primed := W.primed
  start := fun s v clip info tag loop o token code fadeIn fo hi hq _ hs => by
    have h1 := W.begins s v clip info tag loop o token hi hq hs
    unfold startLevel
    split
    · dsimp only; exact W.snap _ _ h1
    · exact W.createSingle _ _ _ _ (by simp) (W.snap _ _ h1)
  stop := fun s v time hs => by
    unfold stopVoice
    split
    · exact W.endVoice _ _ _ hs
    · next h => exact W.createSingle _ _ _ _ (by simp) (W.stops _ _ h hs)
    · exact hs
  voiceLevels := fun s cue tag code time hs => by
    unfold levelFor
    dsimp only
    split
    · exact Working.foldl (fun _ _ h => W.snap _ _ h) _ _ hs
    · have : ∀ (l : List Target) (a : State × Nat × Bool), (∀ t ∈ l, ∀ z, t ≠ .zoneDuck z) → P a.1 →
          P (l.foldl (fun (a : State × Nat × Bool) t =>
            ((Machine.createSingle t (fineOfCode code) time (.entry cue) a.1).1,
              a.2.1 + (Machine.createSingle t (fineOfCode code) time (.entry cue) a.1).2.toNat,
              a.2.2 || !(Machine.createSingle t (fineOfCode code) time (.entry cue) a.1).2)) a).1 := by
        intro l
        induction l with
        | nil => exact fun _ _ h => h
        | cons x xs ih =>
          exact fun a hl h => ih _ (fun t ht => hl t (List.mem_cons_of_mem _ ht))
            (W.createSingle _ _ _ _ (hl x List.mem_cons_self) h)
      refine this _ _ (fun t ht z e => ?_) hs
      simp only [cueTargets, List.mem_map] at ht
      obtain ⟨v, -, hv⟩ := ht
      rw [e] at hv; cases hv
  card := W.card
  paging := W.paging
  asks := W.asks
  line := W.line

end Plain

/-! ### What starting and ending a voice leaves -/

theorem foldl_assignSlot_eq (v : VoiceId) (l : List Nat) (s : State) : ∃ c tab,
    l.foldl (assignSlot v) s = { s with card := c, voices := { s.voices with tab := tab } }
    ∧ stillCard c = stillCard s.card
    ∧ ∀ u : VoiceId, ∃ ring nf, tab[u] = { s.voices.tab[u] with ring := ring, nextFetch := nf }
        ∧ ring.length = s.voices.tab[u].ring.length := by
  induction l generalizing s with
  | nil => exact ⟨_, _, rfl, rfl, fun u => ⟨_, _, rfl, rfl⟩⟩
  | cons k ks ih =>
    obtain ⟨c1, t1, h1, hc1, hv1⟩ : ∃ c tab, assignSlot v s k = { s with card := c, voices := { s.voices with tab := tab } }
        ∧ stillCard c = stillCard s.card
        ∧ ∀ u : VoiceId, ∃ ring nf, tab[u] = { s.voices.tab[u] with ring := ring, nextFetch := nf }
          ∧ ring.length = s.voices.tab[u].ring.length := by
      unfold assignSlot
      dsimp only
      split
      · refine ⟨_, _, rfl, rfl, fun u => ?_⟩
        rw [upd_get]; split
        · next h => subst h; exact ⟨_, _, rfl, List.length_modify ..⟩
        · exact ⟨_, _, rfl, rfl⟩
      · refine ⟨_, _, rfl, rfl, fun u => ?_⟩
        rw [upd_get]; split
        · next h => subst h; rw [modVoice_get, if_pos rfl]; exact ⟨_, _, rfl, List.length_modify ..⟩
        · next h => rw [modVoice_get, if_neg h]; exact ⟨_, _, rfl, rfl⟩
    obtain ⟨c2, t2, h2, hc2, hv2⟩ := ih (assignSlot v s k)
    refine ⟨c2, t2, ?_, ?_, fun u => ?_⟩
    · rw [List.foldl_cons, h2, h1]
    · rw [hc2, h1]; exact hc1
    · obtain ⟨r2, n2, e2, l2⟩ := hv2 u
      obtain ⟨r1, n1, e1, l1⟩ := hv1 u
      rw [h1] at e2 l2
      refine ⟨r2, n2, ?_, ?_⟩
      · rw [e2]; simp only [e1]
      · rw [l2]; simp only [e1]; exact l1

/-- A voice that starts: PRIMING with the clip's quota taken from the pool; no other voice moves. -/
theorem startVoice_eq (v : VoiceId) (clip : Nat) (info : ClipEntry) (tag : Nat) (loop : Bool) (o : VoiceOrigin)
    (token : Nat) (s : State) : ∃ c tab, startVoice v clip info tag loop o token s =
      { s with card := c, voices := { s.voices with free := s.voices.free - quota info, tab := tab } }
    ∧ stillCard c = stillCard s.card
    ∧ (∃ ring nf, ring.length = quota info ∧ tab[v] = { s.voices.tab[v] with
        state := .priming, clip := clip, info := info, tag := some tag, startTag := tag, pos := 0
        looping := loop && info.loop.isSome, ring := ring, cur := 0, nextFetch := nf, underrun := false
        origin := some o, token := token })
    ∧ ∀ u : VoiceId, u ≠ v → tab[u] = { s.voices.tab[u] with ring := tab[u].ring, nextFetch := tab[u].nextFetch }
        ∧ tab[u].ring.length = s.voices.tab[u].ring.length := by
  unfold startVoice
  dsimp only
  obtain ⟨c, t, h, hc, hv⟩ := foldl_assignSlot_eq v (List.range (quota info)) (modVoice v (fun r => { r with
    state := .priming, clip := clip, info := info, tag := some tag, startTag := tag, pos := 0
    looping := loop && info.loop.isSome, ring := List.replicate (quota info) emptySlot, cur := 0
    nextFetch := some (0, 0), underrun := false, origin := some o, token := token })
    (modVoices (fun u => { u with free := u.free - quota info }) s))
  refine ⟨c, t, h, hc, ?_, fun u hu => ?_⟩
  · obtain ⟨r, n, e, l⟩ := hv v
    rw [modVoice_get, if_pos rfl] at e l
    exact ⟨r, n, by simpa using l, e⟩
  · obtain ⟨r, n, e, l⟩ := hv u
    rw [modVoice_get, if_neg hu] at e l
    rw [e]; exact ⟨rfl, l⟩

/-- The records of a mover that only counts fades out. -/
def OutOnly (f : RunEntry → RunEntry) : Prop := ∀ e : RunEntry, f e = { e with out := (f e).out }

theorem tell_eq (e : Ending) (s : State) (r : FadeRecord) : ∃ ps f, tell e s r =
    { s with ports := ps, cues := { s.cues with running := s.cues.running.map f } }
    ∧ (∀ p : PortId, NoticesOnly s.ports[p] ps[p]) ∧ OutOnly f := by
  unfold tell
  split
  · split
    · exact ⟨_, id, by simp, fun _ => .rfl, fun _ => rfl⟩
    · refine ⟨_, _, rfl, fun _ => .rfl, fun e => ?_⟩
      dsimp only; split <;> rfl
  · refine ⟨upd s.ports _ (enqueueNotice _ _), id, by simp only [List.map_id]; rfl, fun q => ?_, fun _ => rfl⟩
    rw [upd_get]; split
    · next h => subst h; exact noticesOnly_enqueue ..
    · exact .rfl
  · exact ⟨_, id, by simp, fun _ => .rfl, fun _ => rfl⟩
  · exact ⟨_, id, by simp, fun _ => .rfl, fun _ => rfl⟩

theorem NoticesOnly.trans {a b c : PortRecord} (h : NoticesOnly a b) (h' : NoticesOnly b c) : NoticesOnly a c := by
  obtain ⟨n, l, e, k⟩ := h
  obtain ⟨n', l', e', k'⟩ := h'
  subst e
  exact ⟨n', l', e', fun x => k' (k x)⟩

theorem foldl_tell_eq (e : Ending) (l : List FadeRecord) (s : State) : ∃ ps f, l.foldl (tell e) s =
    { s with ports := ps, cues := { s.cues with running := s.cues.running.map f } }
    ∧ (∀ p : PortId, NoticesOnly s.ports[p] ps[p]) ∧ OutOnly f := by
  induction l generalizing s with
  | nil => exact ⟨_, id, by simp, fun _ => .rfl, fun _ => rfl⟩
  | cons r rs ih =>
    obtain ⟨ps, f, h, hp, hf⟩ := ih (tell e s r)
    obtain ⟨ps1, f1, h1, hp1, hf1⟩ := tell_eq e s r
    refine ⟨ps, fun a => f (f1 a), ?_, fun p => (hp1 p).trans (by rw [h1] at hp; exact hp p), fun a => ?_⟩
    · rw [List.foldl_cons, h, h1]; simp
    · dsimp only; rw [hf (f1 a), hf1 a]

/-- The end of a voice that sounds: the fades on its level are gone, its level stays, its pages return now or when the read
in flight ends, and no other voice moves. -/
theorem endVoice_spec (v : VoiceId) (why : VoiceEnd) {s : State} (h : sounding s.voices.tab[v] = true) :
    ((endVoice v why s).pending = s.pending ∧ (endVoice v why s).mix = s.mix ∧ (endVoice v why s).alarm = s.alarm
      ∧ (endVoice v why s).lines = s.lines)
    ∧ (endVoice v why s).fades = { s.fades with table := s.fades.table.filter fun r => !onVoice v r }
    ∧ (endVoice v why s).card = { s.card with queue := s.card.queue.filter fun e => e.voice ≠ v }
    ∧ (∃ f, (endVoice v why s).cues = { s.cues with running := s.cues.running.map f } ∧ OutOnly f)
    ∧ (∃ l, (endVoice v why s).paging = { s.paging with voiceIn := l })
    ∧ (endVoice v why s).voices = { s.voices with
        free := s.voices.free + (if readingFor v s = true then 0 else s.voices.tab[v].ring.length)
        tab := upd s.voices.tab v { s.voices.tab[v] with
          tag := none, looping := false, nextFetch := none
          state := if readingFor v s = true then .draining else .idle
          ring := if readingFor v s = true then s.voices.tab[v].ring.map unrequest else [] } }
    ∧ ∀ p : PortId, NoticesOnly s.ports[p] (endVoice v why s).ports[p] := by
  unfold endVoice
  dsimp only
  rw [if_pos h]
  obtain ⟨ps, f, e, hp, hf⟩ := foldl_tell_eq .removed
    ((modVoice v (fun r => { r with tag := none, looping := false }) s).fades.table.filter (onVoice v))
    (dropFades (onVoice v) (modVoice v (fun r => { r with tag := none, looping := false }) s))
  rw [e]
  have hc : ∀ (n : Notice) (x : State), (∀ p : PortId, NoticesOnly s.ports[p] x.ports[p]) →
      ∀ p : PortId, NoticesOnly s.ports[p] (notifyClass n x).ports[p] := by
    intro n x hx p
    refine (hx p).trans ?_
    rw [notifyClass, notifyWhere_get]
    split
    · exact noticesOnly_enqueue ..
    · exact .rfl
  have hi : ∀ (q : Prop) [Decidable q] (x y : State), (∀ p : PortId, NoticesOnly s.ports[p] x.ports[p]) →
      (∀ p : PortId, NoticesOnly s.ports[p] y.ports[p]) →
      ∀ p : PortId, NoticesOnly s.ports[p] (if q then x else y).ports[p] := by
    intro q _ x y hx hy; split <;> assumption
  refine ⟨⟨?_, ?_, ?_, ?_⟩, ?_, ?_, ⟨f, ?_, hf⟩, ?_, ?_, ?_⟩
  · simp [apply_ite State.pending, tellPaging, dropFades]
  · simp [apply_ite State.mix, tellPaging, dropFades]
  · simp [apply_ite State.alarm, tellPaging, dropFades]
  · simp [apply_ite State.lines, tellPaging, dropFades]
  · simp [apply_ite State.fades, tellPaging, dropFades]
  · simp [apply_ite State.card, tellPaging, dropFades]
  · simp [apply_ite State.cues, tellPaging, dropFades]
  · have ht : ∀ (r : VoiceReport) (x : State), (∃ l, x.paging = { s.paging with voiceIn := l }) →
        ∃ l, (tellPaging r x).paging = { s.paging with voiceIn := l } := fun r x ⟨l, h⟩ =>
      ⟨l ++ [r], by simp [tellPaging, h]⟩
    have hq : ∀ (q : Prop) [Decidable q] (x y : State), (∃ l, x.paging = { s.paging with voiceIn := l }) →
        (∃ l, y.paging = { s.paging with voiceIn := l }) →
        ∃ l, (if q then x else y).paging = { s.paging with voiceIn := l } := by
      intro q _ x y hx hy; split <;> assumption
    refine hq _ _ _ (ht _ _ (hq _ _ _ (ht _ _ ?_) ?_)) (hq _ _ _ (ht _ _ ?_) ?_) <;> rw [notifyClass_paging] <;>
      exact hq _ _ _ ⟨_, rfl⟩ ⟨_, rfl⟩
  · simp only [apply_ite State.voices, tellPaging, modPaging_voices, notifyClass_voices, ite_self]
    cases readingFor v s <;> simp [modVoice, modVoices, modCard, dropFades, modFades]
  · refine hi _ _ _ (hi _ _ _ ?_ ?_) (hi _ _ _ ?_ ?_) <;> refine hc _ _ (hi _ _ _ ?_ ?_) <;> exact hp

theorem endVoice_silent (v : VoiceId) (why : VoiceEnd) {s : State} (h : sounding s.voices.tab[v] = false) :
    endVoice v why s = s := by
  unfold endVoice; dsimp only; rw [if_neg (by rw [h]; simp)]

/-! ### The laws -/

theorem length_filterMap_le_of {α : Type} (g : α → Option α) (l : List α) : (l.filterMap g).length ≤ l.length :=
  List.length_filterMap_le ..

theorem not_draining_sounding {r : Voice} (h : sounding r = true) : r.state ≠ .draining ∧ r.state ≠ .idle := by
  unfold sounding at h; constructor <;> intro e <;> rw [e] at h <;> cases h

theorem runLimit_plain : Plain RunLimit where
  ports := fun _ _ _ h => h
  level := fun s t f h => by cases t <;> exact h
  levels := fun _ _ _ _ h => h
  mute := fun _ _ _ _ h => h
  entries := fun s f _ h => by simpa [RunLimit] using h
  fewerEntries := fun s q h => (List.length_filter_le ..).trans h
  entered := fun s e o hr _ _ _ => by simp only [RunLimit, modCues_cues, List.length_append, List.length_singleton]; omega
  narrow := fun _ _ _ h => h
  newFade := fun _ _ _ _ _ h => h
  endVoice := fun s v why h => by
    cases hs : sounding s.voices.tab[v]
    · rwa [endVoice_silent _ _ hs]
    · obtain ⟨-, -, -, ⟨f, hc, -⟩, -⟩ := endVoice_spec v why hs
      rw [RunLimit, hc]; simpa [RunLimit] using h
  becomeIdle := fun s v _ h => by unfold becomeIdle; dsimp only; split <;> exact h
  voice := fun _ _ _ _ h => h
  primed := fun _ _ _ h => h
  begins := fun s v clip info tag loop o token _ _ h => by
    obtain ⟨c, t, e, -⟩ := startVoice_eq v clip info tag loop o token s
    rw [e]; exact h
  stops := fun _ _ _ h => h
  card := fun _ _ _ h => h
  paging := fun _ _ _ _ h => h
  asks := fun _ _ h => h
  line := fun _ _ _ _ h => h

theorem pageLimit_plain : Plain PageLimit where
  ports := fun _ _ _ h => h
  level := fun s t f h => by cases t <;> exact h
  levels := fun _ _ _ _ h => h
  mute := fun _ _ _ _ h => h
  entries := fun _ _ _ h => h
  fewerEntries := fun _ _ h => h
  entered := fun _ _ _ _ _ _ h => h
  narrow := fun _ _ _ h => h
  newFade := fun _ _ _ _ _ h => h
  endVoice := fun s v why h => by
    cases hs : sounding s.voices.tab[v]
    · rwa [endVoice_silent _ _ hs]
    · obtain ⟨-, -, -, -, ⟨l, hp⟩, -⟩ := endVoice_spec v why hs
      rw [PageLimit, hp]; exact h
  becomeIdle := fun s v _ h => by unfold becomeIdle; dsimp only; split <;> exact h
  voice := fun _ _ _ _ h => h
  primed := fun _ _ _ h => h
  begins := fun s v clip info tag loop o token _ _ h => by
    obtain ⟨c, t, e, -⟩ := startVoice_eq v clip info tag loop o token s
    rw [e]; exact h
  stops := fun _ _ _ h => h
  card := fun _ _ _ h => h
  paging := fun _ _ _ hl h => hl h
  asks := fun _ _ h => h
  line := fun _ _ _ _ h => h

theorem fadeLimit_plain : Plain FadeLimit where
  ports := fun _ _ _ h => h
  level := fun s t f h => by cases t <;> exact h
  levels := fun _ _ _ _ h => h
  mute := fun _ _ _ _ h => h
  entries := fun _ _ _ h => h
  fewerEntries := fun _ _ h => h
  entered := fun _ _ _ _ _ _ h => h
  narrow := fun s g _ h => (length_filterMap_le_of ..).trans h
  newFade := fun s r hr _ _ _ => by simp only [FadeLimit, modFades_fades, List.length_append, List.length_singleton]; omega
  endVoice := fun s v why h => by
    obtain ⟨q, hq⟩ := endVoice_table v why s
    rw [FadeLimit, hq]; exact (List.length_filter_le ..).trans h
  becomeIdle := fun s v _ h => by unfold becomeIdle; dsimp only; split <;> exact h
  voice := fun _ _ _ _ h => h
  primed := fun _ _ _ h => h
  begins := fun s v clip info tag loop o token _ _ h => by
    obtain ⟨c, t, e, -⟩ := startVoice_eq v clip info tag loop o token s
    rw [e]; exact h
  stops := fun _ _ _ h => h
  card := fun _ _ _ h => h
  paging := fun _ _ _ _ h => h
  asks := fun _ _ h => h
  line := fun _ _ _ _ h => h

theorem length_filter_filterMap {g : FadeRecord → Option FadeRecord} (hg : Narrows g) (t : Target) (l : List FadeRecord) :
    ((l.filterMap g).filter (drives t)).length ≤ (l.filter (drives t)).length := by
  induction l with
  | nil => simp
  | cons r rs ih =>
    cases h : g r with
    | none =>
      rw [List.filterMap_cons_none h]
      exact ih.trans (List.Sublist.length_le (List.Sublist.filter _ (List.sublist_cons_self ..)))
    | some r' =>
      rw [List.filterMap_cons_some h, List.filter_cons, List.filter_cons]
      split
      · next h' => rw [if_pos ((hg r r' h).2.2.2 t h')]; simpa using ih
      · split
        · simp only [List.length_cons]; omega
        · exact ih

theorem drivenOnce_plain : Plain DrivenOnce where
  ports := fun _ _ _ h => h
  level := fun s t f h => by cases t <;> exact h
  levels := fun _ _ _ _ h => h
  mute := fun _ _ _ _ h => h
  entries := fun _ _ _ h => h
  fewerEntries := fun _ _ h => h
  entered := fun _ _ _ _ _ _ h => h
  narrow := fun s g hg h t => (length_filter_filterMap hg t _).trans (h t)
  newFade := fun s r _ hu _ h t => by
    simp only [modFades_fades, List.filter_append, List.length_append]
    cases hd : drives t r with
    | false => simpa [hd] using h t
    | true =>
      have h0 : (s.fades.table.filter (drives t)) = [] := by
        have := hu t hd
        rw [driven, List.any_eq_false] at this
        rw [List.filter_eq_nil_iff]; exact this
      simp [h0, hd]
  endVoice := fun s v why h t => by
    obtain ⟨q, hq⟩ := endVoice_table v why s
    rw [hq]
    refine (List.Sublist.length_le (List.Sublist.filter _ ?_)).trans (h t)
    exact List.filter_sublist ..
  becomeIdle := fun s v _ h => by unfold becomeIdle; dsimp only; split <;> exact h
  voice := fun _ _ _ _ h => h
  primed := fun _ _ _ h => h
  begins := fun s v clip info tag loop o token _ _ h => by
    obtain ⟨c, t, e, -⟩ := startVoice_eq v clip info tag loop o token s
    rw [e]; exact h
  stops := fun _ _ _ h => h
  card := fun _ _ _ h => h
  paging := fun _ _ _ _ h => h
  asks := fun _ _ h => h
  line := fun _ _ _ _ h => h

theorem duckLaw_plain : Plain DuckLaw where
  ports := fun _ _ _ h => h
  level := fun s t f h => by cases t <;> exact h
  levels := fun _ _ _ _ h => h
  mute := fun _ _ _ _ h => h
  entries := fun _ _ _ h => h
  fewerEntries := fun _ _ h => h
  entered := fun _ _ _ _ _ _ h => h
  narrow := fun s g hg h r hr z hz => by
    obtain ⟨r0, h0, e⟩ := List.mem_filterMap.1 hr
    obtain ⟨ho, -, -, hd⟩ := hg r0 r e
    rw [ho]; exact h r0 h0 z (hd _ hz)
  newFade := fun s r _ _ hd h x hx z hz => by
    rcases List.mem_append.1 hx with hx | hx
    · exact h x hx z hz
    · rw [List.mem_singleton.1 hx] at hz ⊢; exact hd z hz
  endVoice := fun s v why h r hr => by
    obtain ⟨q, hq⟩ := endVoice_table v why s
    rw [hq] at hr; exact h r (List.mem_of_mem_filter hr)
  becomeIdle := fun s v _ h => by unfold becomeIdle; dsimp only; split <;> exact h
  voice := fun _ _ _ _ h => h
  primed := fun _ _ _ h => h
  begins := fun s v clip info tag loop o token _ _ h => by
    obtain ⟨c, t, e, -⟩ := startVoice_eq v clip info tag loop o token s
    rw [e]; exact h
  stops := fun _ _ _ h => h
  card := fun _ _ _ h => h
  paging := fun _ _ _ _ h => h
  asks := fun _ _ h => h
  line := fun _ _ _ _ h => h

theorem alarmMutes_plain : Plain AlarmMutes where
  ports := fun _ _ _ h => h
  level := fun s t f h => by cases t <;> exact h
  levels := fun _ _ _ _ h => h
  mute := fun s m on hb h hst k hk => by
    simp only [setMute, modMix_mix, upd_get]
    split
    · next e =>
      subst e
      simp only [unmuteBarred, show s.mix.alarm.standing = true from hst, hk, decide_true, Bool.and_true,
        Bool.not_eq_false'] at hb
      exact hb
    · exact h hst k hk
  entries := fun _ _ _ h => h
  fewerEntries := fun _ _ h => h
  entered := fun _ _ _ _ _ _ h => h
  narrow := fun _ _ _ h => h
  newFade := fun _ _ _ _ _ h => h
  endVoice := fun s v why h => by
    cases hs : sounding s.voices.tab[v]
    · rwa [endVoice_silent _ _ hs]
    · obtain ⟨⟨-, hm, -⟩, -⟩ := endVoice_spec v why hs
      unfold AlarmMutes; rw [hm]; exact h
  becomeIdle := fun s v _ h => by unfold becomeIdle; dsimp only; split <;> exact h
  voice := fun _ _ _ _ h => h
  primed := fun _ _ _ h => h
  begins := fun s v clip info tag loop o token _ _ h => by
    obtain ⟨c, t, e, -⟩ := startVoice_eq v clip info tag loop o token s
    rw [e]; exact h
  stops := fun _ _ _ h => h
  card := fun _ _ _ h => h
  paging := fun _ _ _ _ h => h
  asks := fun _ _ h => h
  line := fun _ _ _ _ h => h

theorem portsLimited_plain : Plain PortsLimited where
  ports := fun s ps hp h p => by
    obtain ⟨n, l, e, hl⟩ := hp p
    obtain ⟨h1, h2, h3, h4⟩ := h p
    show PortLimits ps[p]
    rw [e]; exact ⟨h1, h2, h3, hl h4⟩
  level := fun s t f h => by cases t <;> exact h
  levels := fun _ _ _ _ h => h
  mute := fun _ _ _ _ h => h
  entries := fun _ _ _ h => h
  fewerEntries := fun _ _ h => h
  entered := fun _ _ _ _ _ _ h => h
  narrow := fun _ _ _ h => h
  newFade := fun _ _ _ _ _ h => h
  endVoice := fun s v why h p => by
    cases hs : sounding s.voices.tab[v]
    · rw [endVoice_silent _ _ hs]; exact h p
    · obtain ⟨-, -, -, -, -, -, hn⟩ := endVoice_spec v why hs
      obtain ⟨n, l, e, hl⟩ := hn p
      obtain ⟨h1, h2, h3, h4⟩ := h p
      rw [e]; exact ⟨h1, h2, h3, hl h4⟩
  becomeIdle := fun s v _ h => by unfold becomeIdle; dsimp only; split <;> exact h
  voice := fun _ _ _ _ h => h
  primed := fun _ _ _ h => h
  begins := fun s v clip info tag loop o token _ _ h => by
    obtain ⟨c, t, e, -⟩ := startVoice_eq v clip info tag loop o token s
    rw [e]; exact h
  stops := fun _ _ _ h => h
  card := fun _ _ _ h => h
  paging := fun _ _ _ _ h => h
  asks := fun _ _ h => h
  line := fun _ _ _ _ h => h

/-! ### The page pool (R61) -/

/-- The pool law over a free count and a table of voices. -/
def PoolOf (free : Nat) (tab : Vector Voice 16) : Prop :=
  free + ((List.finRange 16).map fun v => tab[v].ring.length).sum = 48
    ∧ ∀ v : VoiceId, tab[v].state = .idle → tab[v].ring = []

theorem sum_map_upd (f g : VoiceId → Nat) (v : VoiceId) (h : ∀ u, u ≠ v → f u = g u) :
    ((List.finRange 16).map f).sum + g v = ((List.finRange 16).map g).sum + f v := by
  have key : ∀ l : List VoiceId, l.Nodup → ((v ∈ l → (l.map f).sum + g v = (l.map g).sum + f v)
      ∧ (v ∉ l → (l.map f).sum = (l.map g).sum)) := by
    intro l
    induction l with
    | nil => exact fun _ => ⟨fun h => (List.not_mem_nil h).elim, fun _ => rfl⟩
    | cons x xs ih =>
      intro hn
      obtain ⟨hx, hn'⟩ := List.nodup_cons.mp hn
      obtain ⟨i1, i2⟩ := ih hn'
      simp only [List.map_cons, List.sum_cons, List.mem_cons]
      constructor
      · rintro (rfl | hm)
        · rw [i2 hx]; omega
        · have : x ≠ v := fun e => hx (e ▸ hm)
          have := h x this; have := i1 hm; omega
      · intro hm
        have h1 : x ≠ v := fun e => hm (Or.inl e.symm)
        have h2 := h x h1
        have h3 := i2 fun e => hm (Or.inr e)
        omega
  exact (key _ (List.nodup_finRange 16)).1 (List.mem_finRange v)

theorem poolOf_upd {free free' : Nat} {tab tab' : Vector Voice 16} (v : VoiceId)
    (ho : ∀ u : VoiceId, u ≠ v → tab'[u].ring.length = tab[u].ring.length ∧ tab'[u].state = tab[u].state)
    (hv : free' + tab'[v].ring.length = free + tab[v].ring.length)
    (hi : tab'[v].state = .idle → tab'[v].ring = []) (h : PoolOf free tab) : PoolOf free' tab' := by
  obtain ⟨h1, h2⟩ := h
  refine ⟨?_, fun u hu => ?_⟩
  · have h3 : ((List.finRange 16).map fun v => tab'[v].ring.length).sum + tab[v].ring.length
        = ((List.finRange 16).map fun v => tab[v].ring.length).sum + tab'[v].ring.length :=
      sum_map_upd (fun u => tab'[u].ring.length) (fun u => tab[u].ring.length) v fun u hu => (ho u hu).1
    omega
  · by_cases e : u = v
    · subst e; exact hi hu
    · obtain ⟨l, st⟩ := ho u e
      rw [st] at hu
      rw [h2 u hu] at l
      exact List.length_eq_zero_iff.mp l

theorem upd_other {α : Type} {n : Nat} (v : Vector α n) {i j : Fin n} (x : α) (h : j ≠ i) : (upd v i x)[j] = v[j] :=
  upd_get_ne v x h

theorem poolLaw_plain : Plain PoolLaw where
  ports := fun _ _ _ h => h
  level := fun s t f h => by
    cases t with
    | voice v =>
      exact poolOf_upd (tab := s.voices.tab) v
        (fun u hu => by simp only [writeLevel, modVoice_get, if_neg hu, and_self])
        (by simp only [writeLevel, modVoice_get, if_true]; rfl)
        (by simp only [writeLevel, modVoice_get, if_true]; exact h.2 v) h
    | _ => exact h
  levels := fun _ _ _ _ h => h
  mute := fun _ _ _ _ h => h
  entries := fun _ _ _ h => h
  fewerEntries := fun _ _ h => h
  entered := fun _ _ _ _ _ _ h => h
  narrow := fun _ _ _ h => h
  newFade := fun _ _ _ _ _ h => h
  endVoice := fun s v why h => by
    cases hs : sounding s.voices.tab[v]
    · rwa [endVoice_silent _ _ hs]
    · obtain ⟨-, -, -, -, -, hv, -⟩ := endVoice_spec v why hs
      unfold PoolLaw ringPages; rw [hv]
      refine poolOf_upd (tab := s.voices.tab) v (fun u hu => ?_) ?_ ?_ h
      · rw [upd_other _ _ hu]; exact ⟨rfl, rfl⟩
      · rw [upd_get_self]; split <;> simp
      · rw [upd_get_self]; split <;> simp
  becomeIdle := fun s v _ h => by
    have : (becomeIdle v s).voices = { s.voices with
        free := s.voices.free + s.voices.tab[v].ring.length
        tab := upd s.voices.tab v { s.voices.tab[v] with state := .idle, ring := [], nextFetch := none } } := by
      unfold becomeIdle; dsimp only; split <;> rfl
    unfold PoolLaw ringPages; rw [this]
    refine poolOf_upd (tab := s.voices.tab) v (fun u hu => ?_) ?_ ?_ h
    · rw [upd_other _ _ hu]; exact ⟨rfl, rfl⟩
    · rw [upd_get_self]; simp
    · rw [upd_get_self]; simp
  voice := fun s v f hf h => by
    refine poolOf_upd (tab := s.voices.tab) v (fun u hu => ?_) ?_ ?_ h
    · rw [modVoice_get, if_neg hu]; exact ⟨rfl, rfl⟩
    · rw [modVoice_get, if_pos rfl, (hf _).2]; rfl
    · rw [modVoice_get, if_pos rfl, (hf _).1]
      intro hi
      have := (hf s.voices.tab[v]).2
      rw [h.2 v hi] at this
      exact List.length_eq_zero_iff.mp this
  primed := fun s v _ h => by
    refine poolOf_upd (tab := s.voices.tab) v (fun u hu => ?_) ?_ ?_ h
    · rw [modVoice_get, if_neg hu]; exact ⟨rfl, rfl⟩
    · rw [modVoice_get, if_pos rfl]; rfl
    · rw [modVoice_get, if_pos rfl]; intro hi; cases hi
  begins := fun s v clip info tag loop o token hi hq h => by
    obtain ⟨c, t, e, -, ⟨ring, nf, hl, hv⟩, ho⟩ := startVoice_eq v clip info tag loop o token s
    rw [e]
    refine poolOf_upd (tab := s.voices.tab) (tab' := t) v (fun u hu => ?_) ?_ ?_ h
    · obtain ⟨e1, e2⟩ := ho u hu
      exact ⟨e2, by rw [e1]⟩
    · rw [hv, h.2 v hi]; simp only [hl, List.length_nil]; omega
    · rw [hv]; intro hi; cases hi
  stops := fun s v _ h => by
    refine poolOf_upd (tab := s.voices.tab) v (fun u hu => ?_) ?_ ?_ h
    · rw [modVoice_get, if_neg hu]; exact ⟨rfl, rfl⟩
    · rw [modVoice_get, if_pos rfl]; rfl
    · rw [modVoice_get, if_pos rfl]; intro hi; cases hi
  card := fun _ _ _ h => h
  paging := fun _ _ _ _ h => h
  asks := fun _ _ h => h
  line := fun _ _ _ _ h => h

/-! ### Stop records and voices (R73, R74) -/

theorem report_of_not_stop {e : Ending} {why : VoiceEnd} {s : State} {r : FadeRecord} (h : ∀ v, r.origin ≠ .voiceStop v) :
    report e why s r = tell e s r := by
  unfold report
  split
  · next v hv => exact absurd hv (h v)
  · rfl

theorem foldl_report_of_not_stop {e : Ending} {why : VoiceEnd} {l : List FadeRecord}
    (h : ∀ r ∈ l, ∀ v, r.origin ≠ .voiceStop v) (s : State) : l.foldl (report e why) s = l.foldl (tell e) s := by
  induction l generalizing s with
  | nil => rfl
  | cons r rs ih =>
    rw [List.foldl_cons, List.foldl_cons, report_of_not_stop (h r (by simp)), ih fun r hr => h r (by simp [hr])]

/-- A record on one voice's level drives no other level. -/
theorem single_of_drives_voice {v : VoiceId} {r : FadeRecord} (h : drives (.voice v) r = true) :
    ∃ a b, r.body = .single (.voice v) a b := by
  obtain ⟨body, dur, n, o⟩ := r
  cases body with
  | single t a b => simp only [drives, beq_iff_eq] at h; subst h; exact ⟨a, b, rfl⟩
  | mix m sn a b e => simp [drives, placeIn_voice] at h

theorem drives_voice_inj {u v : VoiceId} {r : FadeRecord} (h : drives (.voice v) r = true)
    (h' : drives (.voice u) r = true) : u = v := by
  obtain ⟨a, b, e⟩ := single_of_drives_voice h
  simp only [drives, e, beq_iff_eq, Target.voice.injEq] at h'
  exact h'.symm

/-- What is displaced from a voice that is not STOPPING is no stop. -/
theorem displaced_not_stop {s : State} (hs : VoiceFadeLaw s) {v : VoiceId} (hv : s.voices.tab[v].state ≠ .stopping)
    {r : FadeRecord} (hr : r ∈ s.fades.table.filter fun r => (displace (.voice v) r).isNone) :
    ∀ u, r.origin ≠ .voiceStop u := by
  intro u hu
  obtain ⟨hm, hd⟩ := List.mem_filter.mp hr
  obtain ⟨h1, h2, h3⟩ := hs.1 r hm u hu
  have : drives (.voice v) r = true := by
    by_contra hn
    rw [displace_of_not_drives (by simpa using hn)] at hd
    cases hd
  have := drives_voice_inj this h1
  subst this
  exact hv h3

/-- A takeover of the level of a voice that is not STOPPING leaves every voice as it is. -/
theorem takeOver_voice {s : State} (hs : VoiceFadeLaw s) {v : VoiceId} (hv : s.voices.tab[v].state ≠ .stopping) :
    (takeOver (.voice v) s).voices = s.voices := by
  unfold takeOver
  dsimp only
  rw [foldl_report_of_not_stop fun r hr => displaced_not_stop hs hv hr]
  obtain ⟨ps, f, e, -⟩ := foldl_tell_eq .takenOver (s.fades.table.filter fun r => (displace (.voice v) r).isNone)
    (modFades (fun f => { f with table := f.table.filterMap (displace (.voice v)) }) s)
  rw [e]; rfl

theorem voiceFadeLaw_of {s t : State} (hs : VoiceFadeLaw s) (hf : t.fades.table = s.fades.table)
    (hv : ∀ v : VoiceId, t.voices.tab[v].state = s.voices.tab[v].state) : VoiceFadeLaw t := by
  refine ⟨fun r hr v ho => ?_, fun v hi => ?_⟩
  · rw [hf] at hr; rw [hv]; exact hs.1 r hr v ho
  · rw [hv] at hi; rw [driven, hf]; exact hs.2 v hi

theorem voiceFadeLaw_narrow {s : State} {g : FadeRecord → Option FadeRecord} (hg : Narrows g) (hs : VoiceFadeLaw s) :
    VoiceFadeLaw (modFades (fun f => { f with table := f.table.filterMap g }) s) := by
  refine ⟨fun r hr v ho => ?_, fun v hi => ?_⟩
  · obtain ⟨r0, h0, e0⟩ := List.mem_filterMap.mp hr
    obtain ⟨g1, g2, g3, -⟩ := hg r0 r e0
    obtain ⟨a1, a2, a3⟩ := hs.1 r0 h0 v (g1 ▸ ho)
    refine ⟨?_, g2.trans a2, a3⟩
    simp only [drives, g3 a2]
    exact a1
  · have := hs.2 v hi
    rw [driven, List.any_eq_false] at this ⊢
    intro r hr hd
    obtain ⟨r0, h0, e0⟩ := List.mem_filterMap.mp hr
    exact this r0 h0 ((hg r0 r e0).2.2.2 _ hd)

theorem voiceFadeLaw_endVoice {s : State} (v : VoiceId) (why : VoiceEnd) (hs : VoiceFadeLaw s) :
    VoiceFadeLaw (endVoice v why s) := by
  cases hn : sounding s.voices.tab[v]
  · rwa [endVoice_silent _ _ hn]
  · obtain ⟨-, hf, -, -, -, hv, -⟩ := endVoice_spec v why hn
    refine ⟨fun r hr u ho => ?_, fun u hi => ?_⟩
    · rw [hf] at hr
      obtain ⟨hm, hd⟩ := List.mem_filter.mp hr
      obtain ⟨a1, a2, a3⟩ := hs.1 r hm u ho
      have hu : u ≠ v := by
        rintro rfl
        rw [onVoice, a1] at hd; cases hd
      refine ⟨a1, a2, ?_⟩
      rw [hv, upd_other _ _ hu]; exact a3
    · rw [driven, hf, List.any_eq_false]
      intro r hr hd
      obtain ⟨hm, hd'⟩ := List.mem_filter.mp hr
      by_cases hu : u = v
      · subst hu; rw [onVoice, hd] at hd'; cases hd'
      · rw [hv, upd_other _ _ hu] at hi
        have := hs.2 u hi
        rw [driven, List.any_eq_false] at this
        exact this r hm hd

theorem voiceFadeLaw_add {s : State} {r : FadeRecord} (hs : VoiceFadeLaw s)
    (h1 : ∀ v, r.origin = .voiceStop v →
      drives (.voice v) r = true ∧ isSingle r = true ∧ s.voices.tab[v].state = .stopping)
    (h2 : ∀ v : VoiceId, drives (.voice v) r = true →
      s.voices.tab[v].state ≠ .idle ∧ s.voices.tab[v].state ≠ .draining) :
    VoiceFadeLaw (modFades (fun f => { f with table := f.table ++ [r] }) s) := by
  refine ⟨fun r' hr v ho => ?_, fun v hi => ?_⟩
  · simp only [modFades_fades, List.mem_append, List.mem_singleton] at hr
    rcases hr with hr | rfl
    · exact hs.1 r' hr v ho
    · exact h1 v ho
  · have := hs.2 v hi
    rw [driven, List.any_eq_false] at this ⊢
    intro r' hr hd
    simp only [modFades_fades, List.mem_append, List.mem_singleton] at hr
    rcases hr with hr | rfl
    · exact this r' hr hd
    · exact hi.elim (h2 v hd).1 (h2 v hd).2

theorem voiceFadeLaw_tell {s : State} (e : Ending) (r : FadeRecord) (hs : VoiceFadeLaw s) : VoiceFadeLaw (tell e s r) := by
  obtain ⟨ps, f, h, -⟩ := tell_eq e s r
  rw [h]; exact hs

theorem voiceFadeLaw_takeOver {s : State} (t : Target) (hs : VoiceFadeLaw s) : VoiceFadeLaw (takeOver t s) := by
  unfold takeOver
  refine Working.foldl (fun x r hx => ?_) _ _ (voiceFadeLaw_narrow (narrows_displace t) hs)
  unfold report
  split
  · exact voiceFadeLaw_endVoice _ _ hx
  · exact voiceFadeLaw_tell _ _ hx

theorem voiceFadeLaw_writeLevel {s : State} (t : Target) (f : Nat) (hs : VoiceFadeLaw s) :
    VoiceFadeLaw (writeLevel t f s) := by
  refine voiceFadeLaw_of hs (by rw [writeLevel_fades]) fun v => ?_
  cases t <;> try rfl
  simp only [writeLevel, modVoice_get]; split <;> rename_i h
  · rw [h]
  · rfl

/-- A fade, other than a stop, to a voice that is PRIMING or PLAYING. -/
theorem voiceFadeLaw_createSingle {s : State} (v : VoiceId) (f d : Nat) (o : FadeOrigin) (hs : VoiceFadeLaw s)
    (ho : ∀ u, o ≠ .voiceStop u) (hv : s.voices.tab[v].state = .priming ∨ s.voices.tab[v].state = .playing) :
    VoiceFadeLaw (createSingle (.voice v) f d o s).1
      ∧ ∀ u : VoiceId, (createSingle (.voice v) f d o s).1.voices.tab[u].state = s.voices.tab[u].state := by
  have hns : s.voices.tab[v].state ≠ .stopping := by rcases hv with h | h <;> rw [h] <;> decide
  have ht := takeOver_voice hs hns
  have h1 := voiceFadeLaw_takeOver (.voice v) hs
  unfold createSingle
  dsimp only
  split
  · refine ⟨voiceFadeLaw_add h1 (fun u hu => absurd hu (ho u)) fun u hu => ?_, fun u => by
      simp only [modFades_voices, ht]⟩
    have : v = u := by simpa [drives, newSingle] using hu
    subst this
    rw [ht]; rcases hv with h | h <;> rw [h] <;> decide
  · rw [report_of_not_stop ho]
    refine ⟨voiceFadeLaw_tell _ _ (voiceFadeLaw_writeLevel _ _ h1), fun u => ?_⟩
    obtain ⟨ps, f', e, -⟩ := tell_eq .snapped (writeLevel (.voice v) f (takeOver (.voice v) s))
      (newSingle (.voice v) (levelOf (.voice v) (takeOver (.voice v) s)) f d o)
    rw [e]
    simp only [writeLevel, modVoice_get, ht]
    split <;> rename_i h
    · rw [h]
    · rfl

theorem voiceFadeLaw_snap {s : State} (v : VoiceId) (f : Nat) (hs : VoiceFadeLaw s)
    (hv : s.voices.tab[v].state = .priming ∨ s.voices.tab[v].state = .playing) :
    VoiceFadeLaw (snap (.voice v) f s)
      ∧ ∀ u : VoiceId, (snap (.voice v) f s).voices.tab[u].state = s.voices.tab[u].state := by
  have hns : s.voices.tab[v].state ≠ .stopping := by rcases hv with h | h <;> rw [h] <;> decide
  refine ⟨voiceFadeLaw_writeLevel _ _ (voiceFadeLaw_takeOver _ hs), fun u => ?_⟩
  simp only [snap, writeLevel, modVoice_get, takeOver_voice hs hns]
  split <;> rename_i h
  · rw [h]
  · rfl

theorem voiceFadeLaw_working : Working VoiceFadeLaw where
  ports := fun _ _ _ h => h
  level := fun _ _ _ h => voiceFadeLaw_writeLevel _ _ h
  levels := fun _ _ _ _ h => h
  mute := fun _ _ _ _ h => h
  entries := fun _ _ _ h => h
  fewerEntries := fun _ _ h => h
  entered := fun _ _ _ _ _ _ h => h
  narrow := fun _ _ hg h => voiceFadeLaw_narrow hg h
  newFade := fun s r _ _ hv ho _ h =>
    voiceFadeLaw_add h (fun v e => absurd e (ho v)) fun v e => by rw [hv v] at e; cases e
  endVoice := fun _ _ _ h => voiceFadeLaw_endVoice _ _ h
  becomeIdle := fun s v hd h => by
    have e : (becomeIdle v s).fades = s.fades ∧ ∀ u : VoiceId, (becomeIdle v s).voices.tab[u].state =
        if u = v then .idle else s.voices.tab[u].state := by
      unfold becomeIdle; dsimp only
      constructor
      · split <;> rfl
      · intro u
        split <;> simp only [tellPaging, modPaging_voices, modVoice_get] <;> split <;> rfl
    refine ⟨fun r hr u ho => ?_, fun u hi => ?_⟩
    · rw [e.1] at hr
      obtain ⟨a1, a2, a3⟩ := h.1 r hr u ho
      refine ⟨a1, a2, ?_⟩
      rw [e.2]; split
      · next hu => subst hu; rw [a3] at hd; cases hd
      · exact a3
    · rw [driven, e.1]
      refine h.2 u ?_
      rw [e.2] at hi
      split at hi
      · next hu => subst hu; exact Or.inr hd
      · exact hi
  voice := fun s v f hf h => voiceFadeLaw_of h rfl fun u => by
    rw [modVoice_get]; split
    · next hu => subst hu; exact (hf _).1
    · rfl
  primed := fun s v hp h => by
    refine ⟨fun r hr u ho => ?_, fun u hi => ?_⟩
    · obtain ⟨a1, a2, a3⟩ := h.1 r hr u ho
      refine ⟨a1, a2, ?_⟩
      rw [modVoice_get]; split
      · next hu => subst hu; rw [a3] at hp; cases hp
      · exact a3
    · refine h.2 u ?_
      rw [modVoice_get] at hi; split at hi
      · rcases hi with hi | hi <;> cases hi
      · exact hi
  start := fun s v clip info tag loop o token code fadeIn fo hi hq ho h => by
    obtain ⟨c, t, e, -, ⟨ring, nf, -, hv⟩, hu⟩ := startVoice_eq v clip info tag loop o token s
    have h1 : VoiceFadeLaw (startVoice v clip info tag loop o token s) ∧
        (startVoice v clip info tag loop o token s).voices.tab[v].state = .priming := by
      rw [e]
      refine ⟨⟨fun r hr u ho => ?_, fun u hi' => ?_⟩, ?_⟩
      · obtain ⟨a1, a2, a3⟩ := h.1 r hr u ho
        refine ⟨a1, a2, ?_⟩
        have : u ≠ v := by rintro rfl; rw [a3] at hi; cases hi
        show t[u].state = _
        rw [(hu u this).1]; exact a3
      · refine h.2 u ?_
        by_cases huv : u = v
        · subst huv; exact Or.inl hi
        · change t[u].state = _ ∨ t[u].state = _ at hi'
          rw [(hu u huv).1] at hi'; exact hi'
      · show t[v].state = _
        rw [hv]
    unfold startLevel
    split
    · exact (voiceFadeLaw_snap v _ h1.1 (Or.inl h1.2)).1
    · obtain ⟨g1, g2⟩ := voiceFadeLaw_snap v 0 h1.1 (Or.inl h1.2)
      exact (voiceFadeLaw_createSingle v _ _ fo g1 ho (Or.inl ((g2 v).trans h1.2))).1
  stop := fun s v time h => by
    unfold stopVoice
    split
    · exact voiceFadeLaw_endVoice _ _ h
    · next hp =>
      have hno : ∀ r ∈ s.fades.table, r.origin ≠ .voiceStop v := fun r hr ho => by
        have := (h.1 r hr v ho).2.2
        rw [hp] at this; cases this
      have h1 : VoiceFadeLaw (modVoice v (fun r => { r with tag := none, state := .stopping }) s) := by
        refine ⟨fun r hr u ho => ?_, fun u hi => ?_⟩
        · obtain ⟨a1, a2, a3⟩ := h.1 r hr u ho
          refine ⟨a1, a2, ?_⟩
          rw [modVoice_get]; split
          · rfl
          · exact a3
        · refine h.2 u ?_
          rw [modVoice_get] at hi; split at hi
          · rcases hi with hi | hi <;> cases hi
          · exact hi
      have hst : (modVoice v (fun r => { r with tag := none, state := .stopping }) s).voices.tab[v].state = .stopping := by
        rw [modVoice_get, if_pos rfl]
      have hg : ∀ r ∈ (modVoice v (fun r => { r with tag := none, state := .stopping }) s).fades.table.filter
          (fun r => (displace (.voice v) r).isNone), ∀ u, r.origin ≠ .voiceStop u := by
        intro r hr
        exact displaced_not_stop (v := v) h (by rw [hp]; decide) hr
      have ht : (takeOver (.voice v) (modVoice v (fun r => { r with tag := none, state := .stopping }) s)).voices
          = (modVoice v (fun r => { r with tag := none, state := .stopping }) s).voices := by
        unfold takeOver
        dsimp only
        rw [foldl_report_of_not_stop hg]
        obtain ⟨ps, f, e, -⟩ := foldl_tell_eq .takenOver
          ((modVoice v (fun r => { r with tag := none, state := .stopping }) s).fades.table.filter
            fun r => (displace (.voice v) r).isNone)
          (modFades (fun f => { f with table := f.table.filterMap (displace (.voice v)) })
            (modVoice v (fun r => { r with tag := none, state := .stopping }) s))
        rw [e]; rfl
      generalize modVoice v (fun r => { r with tag := none, state := .stopping }) s = s1 at h1 hst ht ⊢
      have h2 := voiceFadeLaw_takeOver (.voice v) h1
      unfold createSingle
      dsimp only
      split
      · refine voiceFadeLaw_add h2 (fun u hu => ?_) fun u hu => ?_
        · cases hu
          refine ⟨by simp [drives, newSingle], rfl, ?_⟩
          rw [ht]; exact hst
        · have : v = u := by simpa [drives, newSingle] using hu
          subst this
          rw [ht, hst]; decide
      · exact voiceFadeLaw_endVoice _ _ (voiceFadeLaw_writeLevel _ _ h2)
    · exact h
  voiceLevels := fun s cue tag code time h => by
    have hl : ∀ t ∈ cueTargets (.voices tag) s, ∃ v : VoiceId, t = .voice v
        ∧ (s.voices.tab[v].state = .priming ∨ s.voices.tab[v].state = .playing) := by
      intro t ht
      obtain ⟨v, hv, rfl⟩ := List.mem_map.mp ht
      refine ⟨v, rfl, ?_⟩
      have := (List.mem_filter.mp hv).2
      simp only [matchesTag, Bool.and_eq_true, Bool.or_eq_true, beq_iff_eq] at this
      exact this.1
    unfold levelFor
    dsimp only
    split
    · have : ∀ (l : List Target) (x : State), (∀ t ∈ l, ∃ v : VoiceId, t = .voice v
          ∧ (x.voices.tab[v].state = .priming ∨ x.voices.tab[v].state = .playing)) → VoiceFadeLaw x →
          VoiceFadeLaw (l.foldl (fun s t => snap t (fineOfCode code) s) x) := by
        intro l
        induction l with
        | nil => exact fun _ _ h => h
        | cons t ts ih =>
          intro x hx hs
          obtain ⟨v, rfl, hv⟩ := hx t (by simp)
          obtain ⟨g1, g2⟩ := voiceFadeLaw_snap v (fineOfCode code) hs hv
          refine ih _ (fun t ht => ?_) g1
          obtain ⟨u, e, hu⟩ := hx t (by simp [ht])
          exact ⟨u, e, by rw [g2]; exact hu⟩
      exact this _ _ hl h
    · have : ∀ (l : List Target) (a : State × Nat × Bool), (∀ t ∈ l, ∃ v : VoiceId, t = .voice v
          ∧ (a.1.voices.tab[v].state = .priming ∨ a.1.voices.tab[v].state = .playing)) → VoiceFadeLaw a.1 →
          VoiceFadeLaw (l.foldl (fun (a : State × Nat × Bool) t =>
            ((createSingle t (fineOfCode code) time (.entry cue) a.1).1,
              a.2.1 + (createSingle t (fineOfCode code) time (.entry cue) a.1).2.toNat,
              a.2.2 || !(createSingle t (fineOfCode code) time (.entry cue) a.1).2)) a).1 := by
        intro l
        induction l with
        | nil => exact fun _ _ h => h
        | cons t ts ih =>
          intro a ha hs
          obtain ⟨v, rfl, hv⟩ := ha t (by simp)
          obtain ⟨g1, g2⟩ := voiceFadeLaw_createSingle v (fineOfCode code) time (.entry cue) hs (by simp) hv
          refine ih _ (fun t ht => ?_) g1
          obtain ⟨u, e, hu⟩ := ha t (by simp [ht])
          exact ⟨u, e, by rw [g2]; exact hu⟩
      exact this _ _ hl h
  card := fun _ _ _ h => h
  paging := fun _ _ _ _ h => h
  asks := fun _ _ h => h
  line := fun _ _ _ _ h => h

end Sys2Proof.Machine
end

