-- ==== Sys2Proof/Laws/Messages.lean ====
section
/-! SUPPORT. Numbers as characters: what is written in so many characters is read back (10.12). -/

namespace Sys2Proof

@[simp] theorem numChars_length (n v : Nat) : (numChars n v).length = n := by
  induction n with
  | zero => rfl
  | succ n ih => simp only [numChars, List.length_cons, ih]

theorem numChars_lt (n v : Nat) : ∀ c ∈ numChars n v, c < 256 := by
  induction n with
  | zero => nofun
  | succ n ih =>
    intro c h
    rcases List.mem_cons.mp h with rfl | h
    · exact Nat.mod_lt _ (by decide)
    · exact ih c h

theorem foldl_chars (cs : List Nat) (a : Nat) :
    cs.foldl (fun v c => 256 * v + c) a = a * 256 ^ cs.length + charsNum cs := by
  induction cs generalizing a with
  | nil => simp [charsNum]
  | cons c cs ih =>
    rw [charsNum, List.foldl_cons, List.foldl_cons, ih, ih (256 * 0 + c), List.length_cons]
    ring

theorem charsNum_cons (c : Nat) (cs : List Nat) : charsNum (c :: cs) = c * 256 ^ cs.length + charsNum cs := by
  rw [charsNum, List.foldl_cons, foldl_chars]; simp

/-- The number that `n` characters of `v` hold. -/
theorem charsNum_numChars (n v : Nat) : charsNum (numChars n v) = v % 256 ^ n := by
  induction n with
  | zero => simp [numChars, charsNum, Nat.mod_one]
  | succ n ih =>
    rw [numChars, charsNum_cons, ih, numChars_length, pow_succ, Nat.mod_mul]
    ring

theorem charsNum_of_fits {n v : Nat} (h : fits n v = true) : charsNum (numChars n v) = v := by
  rw [charsNum_numChars, Nat.mod_eq_of_lt (of_decide_eq_true h)]

/-- Numbers that fit their sizes are read back as they were written. -/
theorem readNums_writeNums (l : List (Nat × Nat)) (h : ∀ x ∈ l, fits x.1 x.2 = true) :
    readNums (l.map (·.1)) (writeNums l) = some (l.map (·.2)) := by
  induction l with
  | nil => rfl
  | cons x l ih =>
    obtain ⟨n, v⟩ := x
    have hl : n ≤ (numChars n v ++ writeNums l).length := by simp
    have hd : (numChars n v ++ writeNums l).drop n = writeNums l := by
      rw [List.drop_append_of_le_length (by simp), List.drop_of_length_le (by simp), List.nil_append]
    have ht : (numChars n v ++ writeNums l).take n = numChars n v := by
      rw [List.take_append_of_le_length (by simp), List.take_of_length_le (by simp)]
    rw [List.map_cons, writeNums, readNums.eq_def]
    simp only [if_pos hl, hd, ht, ih fun y hy => h y (List.mem_cons_of_mem _ hy), Option.map_some,
      charsNum_of_fits (h _ List.mem_cons_self), List.map_cons]

theorem readPairs_writePairs (ps : List (Nat × Nat)) (h : ∀ x ∈ ps, fits 3 x.2 = true) :
    readPairs (writePairs ps) = some ps := by
  induction ps with
  | nil => rfl
  | cons x ps ih =>
    obtain ⟨n, v⟩ := x
    have h3 : charsNum (numChars 3 v) = v := charsNum_of_fits (h _ List.mem_cons_self)
    simp only [numChars] at h3
    simp only [writePairs, numChars, List.cons_append, List.nil_append, readPairs,
      ih fun y hy => h y (List.mem_cons_of_mem _ hy), Option.map_some, h3]

theorem writeNums_lt (l : List (Nat × Nat)) : ∀ c ∈ writeNums l, c < 256 := by
  induction l with
  | nil => nofun
  | cons x l ih =>
    intro c h
    rcases List.mem_append.mp h with h | h
    · exact numChars_lt _ _ c h
    · exact ih c h

@[simp] theorem writeNums_length (l : List (Nat × Nat)) : (writeNums l).length = (l.map (·.1)).sum := by
  induction l with
  | nil => rfl
  | cons x l ih => simp [writeNums, ih]

end Sys2Proof
end

