-- ==== Sys2Proof/Laws/PageIds.lean ====
section
/-! SUPPORT. The id a new page is given (R146, R192): it lies in 1 to 255, and while few enough ids are held it is none of
them. -/

namespace Sys2Proof.Machine

theorem nextId_range (n : Nat) : 1 ≤ nextId n ∧ nextId n ≤ 255 := by unfold nextId; split <;> omega

/-- The ids in the order in which they are tried after `n`. -/
def idTried (n j : Nat) : Nat := nextId^[j + 1] n

theorem idTried_succ (n j : Nat) : idTried (nextId n) j = idTried n (j + 1) := by
  unfold idTried; rw [Function.iterate_succ_apply nextId (j + 1) n]

theorem idTried_range (n j : Nat) : 1 ≤ idTried n j ∧ idTried n j ≤ 255 := by
  unfold idTried; rw [Function.iterate_succ_apply']; exact nextId_range _

/-- Each id tried is one more than the last, round the ring of 255. -/
theorem idTried_eq (n j : Nat) : idTried n j - 1 = (nextId n - 1 + j) % 255 := by
  induction j with
  | zero => have := nextId_range n; show nextId n - 1 = _; rw [Nat.add_zero, Nat.mod_eq_of_lt (by omega)]
  | succ j ih =>
    have h := idTried_range n j
    have e : idTried n (j + 1) = nextId (idTried n j) := by unfold idTried; rw [Function.iterate_succ_apply']
    rw [e, ← Nat.add_assoc, Nat.add_mod, ← ih]
    unfold nextId; split <;> omega

theorem idTried_inj {n i j : Nat} (hi : i < 255) (hj : j < 255) (h : idTried n i = idTried n j) : i = j := by
  have a := idTried_eq n i
  have b := idTried_eq n j
  rw [h, b] at a
  omega

/-- The search answers an id tried: one that is not held, or the last after all the others were held. -/
theorem freeId_spec (ids : List Nat) (k n : Nat) : ∃ j ≤ k, freeId ids k n = idTried n j
    ∧ (idTried n j ∈ ids → j = k ∧ ∀ i < k, idTried n i ∈ ids) := by
  induction k generalizing n with
  | zero => exact ⟨0, le_rfl, rfl, fun _ => ⟨rfl, fun i hi => absurd hi (Nat.not_lt_zero i)⟩⟩
  | succ k ih =>
    by_cases h : nextId n ∈ ids
    · obtain ⟨j, hj, he, hm⟩ := ih (nextId n)
      refine ⟨j + 1, by omega, ?_, ?_⟩
      · rw [← idTried_succ, ← he]; simp [freeId, h]
      · intro hx
        rw [← idTried_succ] at hx
        obtain ⟨rfl, ha⟩ := hm hx
        refine ⟨rfl, fun i hi => ?_⟩
        cases i with
        | zero => exact h
        | succ i => rw [← idTried_succ]; exact ha i (by omega)
    · exact ⟨0, by omega, by simp [freeId, h, idTried], fun hx => absurd hx h⟩

/-- With no more ids held than are tried before the last, the id found is none of them. -/
theorem freeId_fresh {ids : List Nat} {k : Nat} (n : Nat) (hk : k < 255) (hl : ids.length ≤ k) : freeId ids k n ∉ ids := by
  obtain ⟨j, hj, he, hm⟩ := freeId_spec ids k n
  rw [he]
  intro hx
  obtain ⟨rfl, ha⟩ := hm hx
  have hsub : (List.range (j + 1)).map (idTried n) ⊆ ids := by
    intro y hy
    obtain ⟨i, hi, rfl⟩ := List.mem_map.mp hy
    have hi := List.mem_range.mp hi
    by_cases e : i = j
    · subst e; exact hx
    · exact ha i (by omega)
  have hnd : ((List.range (j + 1)).map (idTried n)).Nodup := List.nodup_range.map_on fun a ha b hb e => by
    have ha := List.mem_range.mp ha
    have hb := List.mem_range.mp hb
    exact idTried_inj (by omega) (by omega) e
  have := (hnd.subperm hsub).length_le
  simp at this; omega

theorem freeId_range (ids : List Nat) (k n : Nat) : 1 ≤ freeId ids k n ∧ freeId ids k n ≤ 255 := by
  obtain ⟨j, -, he, -⟩ := freeId_spec ids k n
  rw [he]; exact idTried_range n j

/-- R146, R192: what can be said of the id of a new page beside the records `ps`. -/
theorem newPageId_spec {ps : List Page} {s : State} (hp : ps.length ≤ 16) (ha : s.paging.alarmIds.length ≤ 238) :
    (∀ q ∈ ps, q.id ≠ newPageId ps s) ∧ newPageId ps s ∉ s.paging.alarmIds
      ∧ 1 ≤ newPageId ps s ∧ newPageId ps s ≤ 255 := by
  have h := freeId_fresh (ids := ps.map (·.id) ++ s.paging.alarmIds) (k := 16 + s.paging.alarmIds.length)
    s.paging.lastId (by omega) (by simp; omega)
  refine ⟨fun q hq e => h ?_, fun e => h ?_, freeId_range ..⟩
  · exact List.mem_append_left _ (List.mem_map.mpr ⟨q, hq, e⟩)
  · exact List.mem_append_right _ e

end Sys2Proof.Machine
end

