-- ==== Sys2Proof/Laws/Settle.lean ====
section
/-! SUPPORT. What the end of a step leaves: no entry in SETTLING that waits for nothing (R111). Each completion takes an
entry out of the running list, and each firing moves the standing cue up the cue list, so that the two together fall. -/

namespace Sys2Proof.Machine

/-- The cues that can still be fired in turn from a standing cue. -/
def cuesFrom (o : Option Nat) (l : List Cue) : Nat := match o with
  | none => 0
  | some n => (l.filter fun c => decide (n ≤ c.number)).length

/-- The entries and the cues that can still be fired. -/
def firings (s : State) : Nat := s.cues.running.length + cuesFrom s.cues.standing s.cues.list

theorem length_filter_lt {α : Type} {p q : α → Bool} {l : List α} (h : ∀ x, p x = true → q x = true)
    {x : α} (hx : x ∈ l) (hp : p x = false) (hq : q x = true) : (l.filter p).length < (l.filter q).length := by
  induction l with
  | nil => cases hx
  | cons a as ih =>
    have hle : (as.filter p).length ≤ (as.filter q).length := (List.monotone_filter_right as fun y hy => h y hy).length_le
    rcases List.mem_cons.mp hx with e | hm
    · subst e; simp only [List.filter_cons, hp, hq, if_true, List.length_cons]; simp only [Bool.false_eq_true, if_false]; omega
    · have := ih hm
      simp only [List.filter_cons]
      cases ha : p a
      · cases q a <;> simp <;> omega
      · rw [h a ha]; simp; omega

/-- A firing of the standing cue leaves fewer to fire. -/
theorem cuesFrom_after {n : Nat} {l : List Cue} (h : (cueIn n l).isSome) : cuesFrom (cueAfter n l) l < cuesFrom (some n) l := by
  obtain ⟨c, hc⟩ := Option.isSome_iff_exists.mp h
  have hm : c ∈ l := List.mem_of_find?_eq_some hc
  have hn : c.number = n := by simpa using List.find?_some hc
  cases ha : cueAfter n l with
  | none =>
    exact List.length_pos_of_mem (List.mem_filter.mpr ⟨hm, by simp [hn]⟩)
  | some m =>
    have hnm : n < m := by
      simp only [cueAfter, Option.map_eq_some_iff] at ha
      obtain ⟨d, hd, rfl⟩ := ha
      simpa using List.find?_some hd
    exact length_filter_lt (fun x hx => by simp at hx ⊢; omega) hm (by simp [hn, hnm]) (by simp [hn])

theorem cuesFrom_le (o : Option Nat) (l : List Cue) : cuesFrom o l ≤ l.length := by
  cases o with
  | none => exact Nat.zero_le _
  | some n => exact List.length_filter_le ..

theorem firings_plain (m : Nat) : Plain fun s => firings s ≤ m where
  ports := fun _ _ _ h => h
  level := fun s t f h => by cases t <;> exact h
  levels := fun _ _ _ _ h => h
  mute := fun _ _ _ _ h => h
  entries := fun s f _ h => by simpa [firings] using h
  fewerEntries := fun s q h => by
    have : (s.cues.running.filter q).length ≤ s.cues.running.length := List.length_filter_le ..
    simp only [firings, modCues_cues] at h ⊢; omega
  entered := fun s e n _ hn hc h => by
    have := cuesFrom_after hc
    simp only [firings, hn, modCues_cues, List.length_append, List.length_singleton] at h ⊢; omega
  narrow := fun _ _ _ h => h
  newFade := fun _ _ _ _ _ h => h
  endVoice := fun s v why h => by
    cases hs : sounding s.voices.tab[v]
    · rwa [endVoice_silent _ _ hs]
    · obtain ⟨-, -, -, ⟨f, hc, -⟩, -⟩ := endVoice_spec v why hs
      rw [firings, hc]; simpa [firings] using h
  becomeIdle := fun s v _ h => by unfold becomeIdle; dsimp only; split <;> exact h
  voice := fun _ _ _ _ h => h
  primed := fun _ _ _ h => h
  begins := fun s v clip info tag loop o token _ _ h => by
    obtain ⟨c, t, e, -⟩ := startVoice_eq v clip info tag loop o token s
    rw [e]; exact h
  stops := fun _ _ _ h => h
  card := fun _ _ _ h => h
  paging := fun _ _ _ _ h => h
  asks := fun _ _ h => h
  line := fun _ _ _ _ h => h

theorem firings_notifyClass (n : Notice) (s : State) : firings (notifyClass n s) = firings s := rfl

/-- A completion leaves fewer entries and cues to fire. -/
theorem firings_completeEntry {n : Nat} {s : State} (h : (entryOf n s).isSome) :
    firings (completeEntry fire n s) < firings s := by
  obtain ⟨e, he⟩ := Option.isSome_iff_exists.mp h
  have hd : firings (dropEntry n s) < firings s := by
    have hm : e ∈ s.cues.running := List.mem_of_find?_eq_some he
    have hn : e.cue = n := by simpa using List.find?_some he
    have := length_filter_lt (p := fun x : RunEntry => decide (x.cue ≠ n)) (q := fun _ => true) (fun _ _ => rfl) hm
      (by simp [hn]) rfl
    rw [List.filter_true] at this
    simp only [firings, dropEntry, modCues_cues] at this ⊢; omega
  unfold completeEntry
  rw [he]
  dsimp only
  split
  · refine lt_of_le_of_lt ?_ hd
    exact (firings_plain _).working.follow (firings_plain _).working.fire _ (le_of_eq (firings_notifyClass ..))
  · exact hd

theorem noneSettled_settleFuel (k : Nat) : ∀ s, firings s < k → NoneSettled (settleFuel k s) := by
  induction k with
  | zero => exact fun _ h => absurd h (Nat.not_lt_zero _)
  | succ k ih =>
    intro s h
    unfold settleFuel
    split
    · next hn =>
      intro e he hs
      have := List.find?_eq_none.mp hn e he
      simpa [hs] using this
    · next e he =>
      refine ih _ ?_
      have hm : (entryOf e.cue s).isSome := by
        rw [entryOf, List.find?_isSome]; exact ⟨e, List.mem_of_find?_eq_some he, by simp⟩
      have := firings_completeEntry hm
      omega

/-- The end of a step leaves no entry that should have completed. -/
theorem noneSettled_settle (s : State) : NoneSettled (settle s) :=
  noneSettled_settleFuel _ _ (by have := cuesFrom_le s.cues.standing s.cues.list; simp only [firings]; omega)

theorem noneSettled_finish (s : State) : NoneSettled (finish s) := by
  rw [finish, NoneSettled, readerTake_cues]; exact noneSettled_settle s

end Sys2Proof.Machine
end

