-- ==== Sys2Proof/Tests/Slice0.lean ====
section
/-! SUPPORT. Tests: ill-formed commands that the check refuses, messages read by hand, the worked examples of the spec,
and, for every statement with hypotheses, concrete states and operands that meet them (`test_hyps_…`). -/

namespace Sys2Proof.Machine.Tests

open Sys2Proof Sys2Proof.Machine

-- one theorem after another: a kernel evaluation waits for every declaration before it
set_option Elab.async false

/-! ### Well-formedness: one ill-formed term for each kind of check -/

theorem test_wf_accepts : (Instr.setLevel 0 255 { kind := 5, index := 255, source := 255 } 255 16777215).wf = true
    ∧ (Instr.cueOpen 1 0 65535 0 0 0 (List.replicate 50 255) 255).wf = true
    ∧ (Instr.config 2 1 (List.replicate 15 (255, 16777215))).wf = true
    ∧ (Instr.pageAction 1 1 (Vector.replicate 16 true) 1024 3 true true true).wf = true
    ∧ (Instr.cueAdd 0 1 0 (.unknown 8)).wf = true := by decide +kernel

theorem test_wf_characters : (Instr.clearErrors 0 256).wf = false ∧ (Instr.standby 0 1 65536).wf = false
    ∧ (Instr.stop 0 1 1 16777216).wf = false ∧ (Instr.mute 0 1 256 0).wf = false
    ∧ (Instr.page 0 1 65536 0 0 1 0 0 0).wf = false := by decide +kernel

theorem test_wf_targets : (Instr.readLevel 0 1 { kind := 256, index := 1, source := 1 }).wf = false
    ∧ (Instr.readLevel 0 1 { kind := 0, index := 256, source := 1 }).wf = false
    ∧ (Instr.readLevel 0 1 { kind := 0, index := 1, source := 256 }).wf = false := by decide +kernel

theorem test_wf_lists : (Instr.config 0 1 []).wf = false ∧ (Instr.config 0 1 (List.replicate 16 (1, 1))).wf = false
    ∧ (Instr.config 0 1 [(256, 1)]).wf = false ∧ (Instr.config 0 1 [(1, 16777216)]).wf = false
    ∧ (Instr.cueOpen 0 1 1 0 0 0 (List.replicate 51 65) 0).wf = false
    ∧ (Instr.cueOpen 0 1 1 0 0 0 [256] 0).wf = false := by decide +kernel

theorem test_wf_actions : (Instr.cueAdd 0 1 0 (.unknown 7)).wf = false ∧ (Instr.cueAdd 0 1 0 (.unknown 256)).wf = false
    ∧ (Instr.cueAdd 0 1 0 (.play 65536 1 1 1 1)).wf = false ∧ (Instr.cueAdd 0 1 16777216 (.release 1)).wf = false
    ∧ (Instr.cueAdd 0 1 0 (.level { kind := 256, index := 1, source := 1 } 1 1)).wf = false := by decide +kernel

theorem test_wf_cue_actions : (Instr.prewaitEnd 0).wf = false ∧ (Instr.continueDue 10000).wf = false
    ∧ (Instr.playAction 1 33 1 1 0 0 true).wf = false ∧ (Instr.playAction 1 1 1025 1 0 0 true).wf = false
    ∧ (Instr.playAction 1 1 1 1 241 0 true).wf = false ∧ (Instr.stopAction 1 1 0 0).wf = false
    ∧ (Instr.stopAction 1 1 1 600001).wf = false ∧ (Instr.releaseAction 1 0 1).wf = false
    ∧ (Instr.levelAction 1 1 (.voices 0) 0 0).wf = false ∧ (Instr.recallAction 1 1 0 0 600001).wf = false
    ∧ (Instr.muteAction 0 1 0 true).wf = false ∧ (Instr.lampAction 1 33 0 .on).wf = false
    ∧ (Instr.pageAction 1 1 (Vector.replicate 16 false) 1 1 true true true).wf = false
    ∧ (Instr.pageAction 1 1 (Vector.replicate 16 true) 1 0 true true true).wf = false := by decide +kernel

theorem test_wf_card_page :
    (Instr.cardReadComplete 1 { words := [0], header := none, clips := [], items := [] }).wf = false := by decide +kernel

/-! ### Messages, read and written by hand from 10.12 -/

theorem test_message_go : parseRequest 0 32 [7] = some (.go 0 7) ∧ parseRequest 0 32 [7, 0] = none
    ∧ parseRequest 0 32 [] = none ∧ parseRequest 0 50 [7] = none := by decide +kernel

theorem test_message_set_level : parseRequest 1 7 [9, 0, 10, 12, 204, 0, 5, 220]
    = some (.setLevel 1 9 { kind := 0, index := 10, source := 12 } 204 1500) := by decide +kernel

theorem test_message_page : parseRequest 1 39 [3, 0, 15, 0, 0, 0, 2, 1, 1, 0] = some (.page 1 3 15 0 0 2 1 1 0) := by
  decide +kernel

theorem test_message_cue_open : parseRequest 0 22 [1, 1, 219, 0, 0, 0, 2, 0, 0, 0, 2, 72, 105, 0]
    = some (.cueOpen 0 1 475 0 2 0 [72, 105] 0) := by decide +kernel

theorem test_message_cue_add : parseRequest 0 23 [1, 5, 0, 0, 0, 11, 1] = some (.cueAdd 0 1 0 (.mute 11 1))
    ∧ parseRequest 0 23 [1, 5, 0, 0, 0, 11] = none
    ∧ parseRequest 0 23 [1, 9, 0, 0, 0] = some (.cueAdd 0 1 0 (.unknown 9)) := by decide +kernel

theorem test_message_config : parseRequest 0 5 [1, 1, 0, 1, 44, 3, 64, 0, 0]
    = some (.config 0 1 [(1, 300), (3, 4194304)]) := by decide +kernel

theorem test_notice_chars : (linkNotice 2 true).chars true = [129, 4, 130, 2, 2, 1] := by decide +kernel

theorem test_no_word_spells_a_command : decodeTableWord 16 0 = none ∧ decodeTableWord 0 0 = none := by decide

/-! ### Worked examples of the spec -/

/-- 1.2. -/
theorem test_gain_words : fineGain 3364 = 11757 ∧ fineGain 3839 = 65306 ∧ fineGain 3840 = 65536 ∧ fineGain 768 = 1
    ∧ codeGain 210 = 11585 ∧ codeGain 239 = 61858 := by decide +kernel

/-- 1.3, 1.4. -/
theorem test_apply_gain : applyGain 8192 1 = 1 ∧ applyGain 8192 (-1) = 0 ∧ applyGain 11757 1000000 = 717590
    ∧ applyGain 8192 11000000 = 5500000 := by decide +kernel

/-- 2.3. -/
theorem test_fade_positions : fadePosition 3456 0 1 3000 = 3455 ∧ fadePosition 3456 0 2334 3000 = 768
    ∧ fadePosition 3456 0 2335 3000 = 767 ∧ fadePosition 3456 0 2999 3000 = 2 ∧ fadePosition 3456 0 3000 3000 = 0
    ∧ fadePosition 0 3456 222 1000 = 767 ∧ fadePosition 0 3456 1 0 = 3456 := by decide +kernel

/-- 6.3, 6.5. -/
theorem test_foldback_levels : effective 3456 48 192 = 3216 ∧ applyGain (fineGain 3408) 717590 = 603408
    ∧ applyGain (fineGain 3216) 717590 = 301682 ∧ effective 100 192 960 = 0
    ∧ clampTo 4194304 8301682 = 4194304 := by decide +kernel

/-- 6.4, 6.6. -/
theorem test_backoff_and_duck : moveBackoff true 188 = 192 ∧ moveBackoff true 190 = 192 ∧ moveBackoff false 0 = 0
    ∧ moveDuck 192 176 = 192 ∧ moveDuck 64 192 = 176 ∧ moveDuck 0 8 = 0 := by decide +kernel

/-- R152: the first sample, the first of the second half, and after the last. -/
theorem test_chime : chimeSample 0 = 4194304 ∧ chimeSample 30 = -4185565 ∧ chimeSample 14400 = 4194304
    ∧ chimeSample 28800 = 0 := by decide +kernel

/-- R13: a link locks on the 48th valid frame and unlocks on the 4th bad one. -/
theorem test_link_lock : linkMove true { locked := false, run := 47, words := Vector.replicate 16 0 }
      = { locked := true, run := 0, words := Vector.replicate 16 0 }
    ∧ linkMove false { locked := true, run := 3, words := Vector.replicate 16 0 }
      = { locked := false, run := 0, words := Vector.replicate 16 0 } := by decide +kernel

/-- 3.12: the pages of the worked example. -/
theorem test_play_order :
    let c : ClipEntry := { channels := 2, start := 9, length := 3300, loop := some (1000, 2600) }
    clipPages c = 7 ∧ quota c = 4 ∧ pageAfter c true 5 0 = some (1, 1) ∧ pageAfter c false 5 0 = some (6, 0)
      ∧ pageAfter c false 6 0 = none := by decide +kernel

/-- 10.12: a control slot, a downstream check word and an upstream frame with echo NONE. -/
theorem test_station_frames :
    controlSlot (some { cmd := .lamp .blink (.port 1), seq := 2, age := 1 }) = 0x5200AD
    ∧ controlSlot none = 0x0000FF ∧ controlSlot (some { cmd := .cap 200, seq := 0, age := 1 }) = 0x80C87F
    ∧ judge [{ sync := 0x5A3CA5, content := 0xF00000, check := 0x100000 }]
      = some { sync := 0x5A3CA5, content := 0xF00000, check := 0x100000 }
    ∧ judge [{ sync := 0x5A3CA5, content := 0xF00000, check := 0x100001 }] = none ∧ judge [] = none := by decide +kernel

/-! ### States for the statements' hypotheses -/

/-- A request handed to its owner, alone at its port. -/
def handTo (p : PortId) (i : Instr) (s : State) : State :=
  modPort p (fun r => { r with reqs := [{ kind := 0, body := [], state := .handed i }] }) s

def muteAt (offset : Nat) : CueAction := { offset := offset, act := .mute 0 true }

def cueOf3 (n prewait : Nat) (f : Follow) : Cue :=
  { number := n, label := [72, 105], prewait := prewait, follow := f, actions := [muteAt 1, muteAt 2, muteAt 3] }

def mono : ClipEntry := { channels := 1, start := 9, length := 3000, loop := none }
def looped : ClipEntry := { channels := 2, start := 20, length := 3300, loop := some (1000, 2600) }

def deskPort (p : PortId) : PortRecord :=
  { State.Reset.port p with
    up := true, prdy := true, cts := true, armed := true, rights := Vector.replicate 6 true
    subs := Vector.replicate 7 true, pageMic := 5 }

/-- A part at work: every port UP with all rights, a card MOUNTED, three cues, a snapshot held, CP-A holding authority. -/
def desk : State :=
  { State.reset with
    ports := #v[deskPort 0, deskPort 1, deskPort 2]
    card := { State.Reset.card with
      showing := true, state := .mounted, dir := [(1, mono), (1024, looped)]
      header := some { mark := true, pages := 90, dirFirst := 1, dirCount := 1, showFirst := 2, showCount := 3 } }
    fades := { State.Reset.fades with snaps := upd State.Reset.fades.snaps 0 (some
      { mix := 3, levels := Vector.replicate 97 100 }) }
    cues := { State.Reset.cues with
      list := [cueOf3 10 500 (.continue 100), cueOf3 20 500 .none, cueOf3 9999 0 .follow], standing := some 20
      holder := some 0
      drafts := upd State.Reset.cues.drafts 0 (some { cue := cueOf3 9999 600000 .none, replaced := true }) } }

/-- `desk` with one entry in the running list. -/
def entry (n : Nat) (st : RunState) (clock : Nat) (cont : Option Bool) : RunEntry :=
  { cue := n, state := st, clock := clock, next := 1, out := 0, cont := cont, origin := some 0, issued := 0, snapped := 0
    failed := 0 }

def running1 (e : RunEntry) : State := modCues (fun c => { c with running := [e] }) desk

def slotOf (st : SlotState) : Slot :=
  { state := st, page := 0, wraps := 0, stale := false, again := none, words := [] }

/-- `desk` with one voice at work on the mono clip, its first slot as given. -/
def sounding1 (v : VoiceId) (st : VoiceState) (k : SlotState) (o : VoiceOrigin) : State :=
  modVoices (fun u => { u with free := 46 }) (modVoice v (fun r => { r with
    state := st, clip := 1, info := mono, tag := some 7, startTag := 7, ring := [slotOf k, slotOf .filled]
    nextFetch := some (2, 0), origin := some o, token := 1 }) desk)

def reading (v : VoiceId) (age : Nat) (s : State) : State :=
  modCard (fun c => { c with reader := some { job := .voice v 0 9, page := 18, number := 4, age := age }, readNumber := 4 }) s

def pageWith (id : Nat) (o : PageOrigin) (src : PageSource) (st : PageState) (timer : Option Nat) : Page :=
  { id := id, origin := o, prio := 2, wanted := upd (Vector.replicate 16 none) 3 (some .carrying), all := false
    source := src, chime := false, restartable := false, state := st, timer := timer, chimePos := 0
    play := .waitingForVoice, outcome := none, token := some 1 }

/-- `desk` with one page that carries zone Z4. -/
def paged (q : Page) : State :=
  modPaging (fun u => { u with pages := [q], holder := some q.id, lastId := q.id })
    (modZone 3 (fun r => { r with service := .carrying, carried := some q.id, prio := some q.prio }) desk)

def lineAs (z : ZoneId) (pw : Power) (lk : Link) (s : State) : State :=
  modLine z (fun r => { r with power := pw, present := lk != .down, link := lk }) s

def single (t : Target) (n dur : Nat) (o : FadeOrigin) : FadeRecord :=
  { body := .single t 100 200, dur := dur, n := n, origin := o }

def fading (r : FadeRecord) (s : State) : State := modFades (fun f => { f with table := [r] }) s

/-! ### No statement's hypotheses are empty -/

theorem test_hyps_StepRunsFrontCommand : desk.pending = [] := rfl

theorem test_hyps_PowerOnResetCompletes :
    (ResetPins.mk false (Vector.replicate 3 true) (Vector.replicate 3 true)).card = false
    ∧ (ResetPins.mk true (Vector.replicate 3 false) (Vector.replicate 3 true)).card = true := ⟨rfl, rfl⟩

theorem test_hyps_GainLaws : (0 < 12 ∧ 1 ≤ 12 * 0 + 1 ∧ 12 * 0 + 1 ≤ 240) ∧ (0 < 12 ∧ 12 * 20 + 0 ≤ 240)
    ∧ (0 < 48 ∧ 47 < 48) ∧ 3839 < 3840 ∧ 240 ≤ 240 ∧ 767 < 768 := by decide

theorem test_hyps_SampleComputation : desk.mix.frameDue = false ∧ desk.cues.running = []
    ∧ (7 : MixId).val < 8 ∧ 20 ≤ (20 : MixId).val ∧ 20 ≤ (23 : MixId).val
    ∧ desk.paging.zones[(15 : ZoneId)].service ≠ .carrying ∧ desk.paging.zones[(15 : ZoneId)].feed = some 0
    ∧ (1 ≤ desk.ports[(1 : PortId)].pageMic ∧ desk.ports[(1 : PortId)].pageMic ≤ 64)
    ∧ (∀ k : Fin 5,
       let q := [pageWith 9 (.port 0) (.live 63) .chiming none, pageWith 9 (.port 0) (.live 63) .speaking none,
         pageWith 9 (.port 0) (.clip 1) .speaking none, pageWith 9 .alarm .none .speaking none].getD k.val
         (pageWith 9 (.port 0) (.live 63) .pending none)
       (paged q).mix.frameDue = false ∧ (paged q).paging.zones[(3 : ZoneId)].service = .carrying
         ∧ (paged q).paging.zones[(3 : ZoneId)].carried = some 9 ∧ pageOf 9 (paged q) = some q)
    ∧ (let s := reading 2 7 (running1 { entry 10 .settling 9 none with out := 1 })
       s.mix.frameDue = false ∧ s.card.reader = some { job := .voice 2 0 9, page := 18, number := 4, age := 7 }
         ∧ NoneSettled s ∧ ∀ v : VoiceId, s.voices.tab[v].state ≠ .playing ∧ s.voices.tab[v].state ≠ .stopping) := by
  unfold NoneSettled; decide +kernel

theorem test_hyps_VoicesAtSamplePeriod :
    let s (st : VoiceState) (info : ClipEntry) (pos : Nat) (loop : Bool) (k : SlotState) : State :=
      modCard (fun c => { c with reader := some { job := .load .header, page := 0, number := 1, age := 0 } })
        (modVoice 15 (fun r => { r with info := info, pos := pos, looping := loop }) (sounding1 15 st k (.port 0)))
    let r (st : VoiceState) (info : ClipEntry) (pos : Nat) (loop : Bool) (k : SlotState) : Voice :=
      (s st info pos loop k).voices.tab[(15 : VoiceId)]
    ((s .priming mono 0 false .filled).mix.frameDue = false ∧ (s .priming mono 0 false .filled).cues.running = []
      ∧ (r .priming mono 0 false .filled).state = .priming)
    ∧ ((r .playing mono 0 false .requested).ring[0]? = some (slotOf .requested)
      ∧ (r .playing mono 0 false .requested).underrun = false
      ∧ ∀ u : VoiceId, u ≠ 15 → (s .playing mono 0 false .requested).voices.tab[u].state = .idle)
    ∧ ((r .stopping mono 1022 false .filled).ring[0]? = some (slotOf .filled) ∧ (1022 + 1) % 1024 ≠ 0
      ∧ (1023 + 1) % 1024 = 0 ∧ 1023 + 1 < mono.length ∧ mono.length ≤ 2999 + 1)
    ∧ ((r .playing looped 2599 true .filled).looping = true ∧ looped.loop = some (1000, 2600) ∧ 2599 + 1 = 2600
      ∧ 511 + 1 ≠ 2600 ∧ (511 + 1) % 512 = 0 ∧ (510 + 1) % 512 ≠ 0)
    ∧ (r .playing mono 1023 false .filled).nextFetch = some (2, 0)
    ∧ ((∀ u : VoiceId, u ≠ 15 → (s .playing mono 2999 false .filled).voices.tab[u].state = .idle)
      ∧ (s .playing mono 2999 false .filled).fades.table = [])
    ∧ (s .playing mono 1023 false .filled).card.reader.isSome = true := by decide +kernel

theorem test_hyps_OutputLinks : (11 : Fin 16).val < 12 ∧ 12 ≤ (12 : Fin 16).val := by decide

/-- An input link at each boundary of R13's table. -/
def linked (locked : Bool) (run : Nat) : InputLink :=
  { locked := locked, run := run, words := Vector.replicate 16 0 }

theorem test_hyps_LinkFrameMoves :
    let s : State := modMix (fun e => { e with links := #v[linked false 46, linked false 47, linked true 2, linked true 3] })
      desk
    let w : Vector Word24 16 := Vector.replicate 16 0x800000
    (s.mix.links[(0 : LinkId)].locked = false ∧ (some w).isSome ∧ s.mix.links[(0 : LinkId)].run < 47)
    ∧ (s.mix.links[(1 : LinkId)].locked = false ∧ s.mix.links[(1 : LinkId)].run = 47)
    ∧ (s.mix.links[(2 : LinkId)].locked = true ∧ s.mix.links[(2 : LinkId)].run < 3)
    ∧ (s.mix.links[(3 : LinkId)].locked = true ∧ s.mix.links[(3 : LinkId)].run = 3)
    ∧ (∃ t, exec (.linkFrame 1 (some w)) s = .next t ∧ t.mix.links[(1 : LinkId)].locked = true)
    ∧ (∃ t, exec (.linkFrame 3 none) s = .next t ∧ t.mix.links[(3 : LinkId)].locked = false) := by
  refine ⟨by decide +kernel, by decide +kernel, by decide +kernel, by decide +kernel, ⟨_, rfl, ?_⟩, ⟨_, rfl, ?_⟩⟩ <;>
    decide +kernel

def frameDue (s : State) : State := modMix (fun e => { e with frameDue := true }) s

/-- CP-B talks to F1. -/
def talking : State := modMix (fun e => { e with
  talk := #v[none, some (upd (Vector.replicate 12 false) 0 true), none], clampMark := Vector.replicate 12 true }) desk

theorem test_hyps_FoldbackAtFrameEvent : (frameDue talking).mix.frameDue = true ∧ (frameDue talking).cues.running = []
    ∧ (∃ p : PortId, ∃ set, (frameDue talking).mix.talk[p] = some set ∧ set[(0 : Fin 12)] = true)
    ∧ ¬(∃ p : PortId, ∃ set, (frameDue talking).mix.talk[p] = some set ∧ set[(1 : Fin 12)] = true) := by
  refine ⟨rfl, rfl, ⟨1, _, rfl, by decide +kernel⟩, ?_⟩
  rintro ⟨p, set, h, h1⟩
  match p with
  | 0 => have e : (frameDue talking).mix.talk[(0 : Fin 3)] = none := rfl
         exact nomatch e.symm.trans h
  | 1 =>
    have e : set = upd (Vector.replicate 12 false) 0 true := (Option.some.inj h).symm
    subst e; exact absurd h1 (by decide +kernel)
  | 2 => have e : (frameDue talking).mix.talk[(2 : Fin 3)] = none := rfl
         exact nomatch e.symm.trans h

theorem test_hyps_OneFadeAtFrameEvent :
    let r (n : Nat) := single (.master 3) n 3 (.port 1)
    let m (n : Nat) : FadeRecord :=
      { body := .mix 3 127 (Vector.replicate 97 100) (Vector.replicate 97 200) (upd (Vector.replicate 97 true) 95 false)
        dur := 3, n := n, origin := .port 1 }
    (frameDue (fading (r 1) desk)).mix.frameDue = true ∧ (frameDue (fading (r 1) desk)).cues.running = []
    ∧ (frameDue (fading (r 1) desk)).fades.table = [r 1] ∧ 1 + 1 < 3
    ∧ (frameDue (fading (r 2) desk)).fades.table = [r 2] ∧ 3 ≤ 2 + 1 ∧ (r 2).origin = .port 1
    ∧ Target.crosspoint 3 95 ≠ .master 3
    ∧ (frameDue (fading (m 1) desk)).fades.table = [m 1] ∧ (frameDue (fading (m 2) desk)).fades.table = [m 2]
    ∧ (frameDue (fading (m 2) desk)).mix.frameDue = true
    ∧ (let e (st : RunState) (out : Nat) : RunEntry := { entry 10 st 9 none with out := out }
       let f (n : Nat) := single (.master 3) n 3 (.entry 10)
       let s (n : Nat) (e : RunEntry) (list : List Cue) (standing : Option Nat) : State :=
         modCues (fun c => { c with list := list, standing := standing }) (frameDue (fading (f n) (running1 e)))
       let two := [cueOf3 10 500 .follow, cueOf3 20 500 .none]
       (s 1 (e .settling 1) two (some 20)).mix.frameDue = true
         ∧ (s 1 (e .settling 1) two (some 20)).cues.running = [e .settling 1]
         ∧ (s 1 (e .settling 1) two (some 20)).fades.table = [f 1]
         ∧ cueOf 10 (s 1 (e .settling 1) two (some 20)) = some (cueOf3 10 500 .follow)
         ∧ cueAfter 10 two = some 20 ∧ cueOf 20 (s 1 (e .settling 1) two (some 20)) = some (cueOf3 20 500 .none)
         ∧ cueAfter 10 [cueOf3 10 500 .follow] = none ∧ (s 1 (e .settling 1) two none).cues.standing ≠ some 20
         ∧ (cueOf3 10 500 .none).follow ≠ .follow ∧ (e .settling 1).cont ≠ some true ∧ 0 < (e .settling 1).out
         ∧ (e .active 1).state ≠ .settling ∧ 1 < (e .settling 2).out) := by decide +kernel

theorem test_hyps_SetLevelCompletes :
    let hyps (raw : RawTarget) (g : Target) (code time : Nat) (s : State) : Prop :=
      let s := handTo 1 (.setLevel 1 9 raw code time) s
      handed 1 (.setLevel 1 9 raw code time) s = true ∧ targetOf raw = some g ∧ settable g = true
        ∧ targetRight 1 g s = true ∧ s.cues.running = []
    let master : RawTarget := { kind := 1, index := 4, source := 0 }
    let mix : FadeRecord :=
      { body := .mix 3 0 (Vector.replicate 97 100) (Vector.replicate 97 200) (Vector.replicate 97 true)
        dur := 9, n := 0, origin := .port 2 }
    let full := modFades (fun f => { f with table := List.replicate 64 (single (.voice 0) 0 9 (.port 1)) }) desk
    hyps { kind := 0, index := 24, source := 96 } (.crosspoint 23 95) 241 600001 desk
    ∧ hyps { kind := 1, index := 1, source := 0 } (.master 0) 240 0 desk
    ∧ hyps { kind := 2, index := 16, source := 0 } (.zoneProgramme 15) 0 1 desk
    ∧ (∀ g : Fin 24, driven (.master g) desk = false) ∧ desk.fades.table.length < 64
    ∧ (hyps master (.master 3) 240 600001 full ∧ driven (.master 3) full = false ∧ 64 ≤ full.fades.table.length)
    ∧ (hyps master (.master 3) 240 9 (fading (single (.master 3) 1 9 (.port 2)) desk)
      ∧ (fading (single (.master 3) 1 9 (.port 2)) desk).fades.table = [] ++ single (.master 3) 1 9 (.port 2) :: [])
    ∧ (hyps master (.master 3) 240 9 (fading mix desk) ∧ (fading mix desk).fades.table = [] ++ mix :: []
      ∧ placeIn 3 (.master 3) = some 96 ∧ (95 : Fin 97) ≠ 96) := by decide +kernel

/-- While the mix engine holds ALARM. -/
def alarmed : State := modMix (fun e => { e with alarm := { standing := true, inbox := [] } }) desk

def noRights (p : PortId) (s : State) : State := modPort p (fun r => { r with rights := Vector.replicate 6 false }) s

theorem test_hyps_MuteLaw :
    handed 0 (.mute 0 1 20 0) (handTo 0 (.mute 0 1 20 0) alarmed) = true
    ∧ hasRight 0 .mix (handTo 0 (.mute 0 1 20 0) alarmed) = true ∧ alarmed.mix.alarm.standing = true
    ∧ hasRight 0 .mix (noRights 0 desk) = false ∧ (20 = (19 : MixId).val + 1 ∧ 0 = false.toNat)
    ∧ handed 0 (.mute 0 1 25 0) (handTo 0 (.mute 0 1 25 0) desk) = true
    ∧ handed 0 (.mute 0 1 21 0) (handTo 0 (.mute 0 1 21 0) alarmed) = true ∧ 20 ≤ (20 : MixId).val
    ∧ handed 0 (.mute 0 1 1 1) (handTo 0 (.mute 0 1 1 1) alarmed) = true
    ∧ handed 0 (.mute 0 1 1 1) (handTo 0 (.mute 0 1 1 1) (noRights 0 desk)) = true := by decide +kernel

theorem test_hyps_StoreLaw : handed 2 (.store 2 1 128 24) (handTo 2 (.store 2 1 128 24) desk) = true
    ∧ hasRight 2 .mix (handTo 2 (.store 2 1 128 24) desk) = true
    ∧ (128 = (127 : Fin 128).val + 1 ∧ 24 = (23 : MixId).val + 1)
    ∧ handed 2 (.store 2 1 129 0) (handTo 2 (.store 2 1 129 0) desk) = true
    ∧ hasRight 2 .mix (handTo 2 (.store 2 1 1 1) (noRights 2 desk)) = false
    ∧ handed 2 (.store 2 1 1 1) (handTo 2 (.store 2 1 1 1) (noRights 2 desk)) = true := by decide +kernel

theorem test_hyps_ClearLaw : handed 2 (.clear 2 1 1) (handTo 2 (.clear 2 1 1) desk) = true
    ∧ hasRight 2 .mix (handTo 2 (.clear 2 1 1) desk) = true ∧ 1 = (0 : Fin 128).val + 1
    ∧ handed 2 (.clear 2 1 129) (handTo 2 (.clear 2 1 129) desk) = true
    ∧ handed 2 (.clear 2 1 1) (handTo 2 (.clear 2 1 1) (noRights 2 desk)) = true
    ∧ hasRight 2 .mix (handTo 2 (.clear 2 1 1) (noRights 2 desk)) = false := by decide +kernel

theorem test_hyps_RecallAndSafe :
    let i (time : Nat) := Instr.recall 0 1 ((3 : MixId).val + 1) ((0 : Fin 128).val + 1) time
    let j := Instr.setSafe 0 1 ((3 : MixId).val + 1) ((95 : SourceId).val + 1) true.toNat
    let s (time : Nat) := handTo 0 (i time) (fading (single (.master 3) 1 9 (.port 2)) desk)
    (∀ k : Fin 2, hasRight 0 .mix (s (600001 * k.val)) = true ∧ handed 0 (i (600001 * k.val)) (s (600001 * k.val)) = true
      ∧ (s (600001 * k.val)).fades.snaps[(0 : Fin 128)] = some { mix := 3, levels := Vector.replicate 97 100 }
      ∧ (s (600001 * k.val)).cues.running = [])
    ∧ (s 600001).fades.table = [single (.master 3) 1 9 (.port 2)] ∧ VoiceFadeLaw (s 600001)
    ∧ hasRight 0 .mix (handTo 0 j desk) = true ∧ handed 0 j (handTo 0 j desk) = true := by
  unfold VoiceFadeLaw; decide +kernel

/-- A request handed over by CP-A to an owner of the working part. -/
def asked (i : Instr) : Bool := handed 0 i (handTo 0 i desk)

theorem test_hyps_LevelReadsComplete :
    asked (.readLevel 0 1 { kind := 4, index := 16, source := 0 }) = true
    ∧ targetOf { kind := 4, index := 16, source := 0 } = some (.voice 15) ∧ targetRight 0 (.voice 15) desk = true
    ∧ asked (.readLevel 0 1 { kind := 1, index := 20, source := 0 }) = true
    ∧ targetOf { kind := 1, index := 20, source := 0 } = some (.master 19)
    ∧ asked (.snapshotRead 0 1 128 97 1) = true ∧ 97 + 1 - 1 ≤ 97 ∧ hasRight 0 .mix desk = true
    ∧ desk.fades.snaps[(127 : Fin 128)] = none ∧ asked (.snapshotRead 0 1 1 74 24) = true ∧ 74 + 24 - 1 ≤ 97
    ∧ desk.fades.snaps[(0 : Fin 128)] = some { mix := 3, levels := Vector.replicate 97 100 }
    ∧ asked (.readSafe 0 1 24) = true ∧ asked (.clipRead 0 1 1024) = true ∧ hasRight 0 .cue desk = true
    ∧ (handTo 0 (.clipRead 0 1 1024) desk).card.state = .mounted
    ∧ clipOf 1024 (handTo 0 (.clipRead 0 1 1024) desk) = some looped := by decide +kernel

/-- A mount or reload that reads one of its pages. -/
def loading (which : LoadPage) (todo : List LoadPage) (reload withShow : Bool) (age : Nat) : State :=
  modCard (fun c => { c with
    state := if reload then .mounted else .mounting
    job := some { reload := reload, todo := todo, clips := [], items := [], withShow := withShow, offer := none }
    reader := some { job := .load which, page := 0, number := 1, age := age }, readNumber := 1 }) desk

theorem test_hyps_OtherReadsComplete :
    asked (.voiceRead 0 1 16) = true ∧ hasRight 0 .cue desk = true ∧ asked (.cueRead 0 1 0 9999 0) = true
    ∧ cueOf 9999 desk = some (cueOf3 9999 0 .follow)
    ∧ (asked (.cueRead 0 1 1 20 3) = true ∧ asked (.cueRead 0 1 1 0 0) = true ∧ asked (.cueRead 0 1 0 10 32) = true
      ∧ desk.cues.list = [cueOf3 10 500 (.continue 100), cueOf3 20 500 .none] ++ cueOf3 9999 0 .follow :: []
      ∧ (∀ d ∈ [cueOf3 10 500 (.continue 100), cueOf3 20 500 .none], d.number ≤ 20) ∧ 20 < (cueOf3 9999 0 .follow).number
      ∧ (cueOf3 9999 0 .follow).actions[3 - 1]? = some { offset := 3, act := .mute 0 true }
      ∧ (cueOf3 9999 0 .follow).actions.length < 32)
    ∧ (let q := pageWith 255 .alarm .none .speaking none
       let s := handTo 0 (.pageRead 0 1 255) (paged q)
       handed 0 (.pageRead 0 1 255) s = true ∧ hasRight 0 .page s = true ∧ pageOf 255 s = some q)
    ∧ asked (.pageList 0 1) = true ∧ asked (.zoneRead 0 1 16) = true ∧ asked (.lineRead 0 1 16) = true
    ∧ asked (.settingRead 0 1 60 1) = true ∧ asked (.settingRead 0 1 1 19) = true ∧ hasRight 0 .system desk = true
    ∧ asked (.status 0 1 4 16) = true ∧ asked (.status 0 1 4 17) = true ∧ asked (.status 0 1 0 0) = true
    ∧ (∀ sect : Fin 7, asked (.status 0 1 (sect.val + 1) 1) = true) := by decide +kernel

theorem test_hyps_CardInsertionAndLoads :
    (let s (showing : Bool) (t : Option Nat) : State := modCard (fun _ => { State.Reset.card with
      showing := showing, insertTimer := t }) desk
     ((s false none).card.state = .absent ∧ (s false none).card.showing = false)
     ∧ ((s true (some 0)).card.showing = true ∧ (s true (some 0)).card.insertTimer = some 0
       ∧ (s true (some 0)).card.reader = none ∧ (s true (some 0)).card.queue = []
       ∧ (s true (some 0)).cues.running = []))
    ∧ (let s := loading (.showArea 4) [] true true 2400
       s.card.reader = some { job := .load (.showArea 4), page := 0, number := 1, age := 2400 }
         ∧ s.card.job.map (·.todo) = some [] ∧ s.card.job.map (·.withShow) = some true ∧ s.card.queue = []
         ∧ s.cues.running = [] ∧ 48 * 50 ≤ 2400)
    ∧ ((loading (.directory 1) [] false false 0).card.job.map (·.withShow) = some false
      ∧ (loading (.directory 1) [] false false 0).card.header.map (·.pages) = some 90
      ∧ (loading (.directory 1) [.directory 2] false true 0).card.job.map (·.todo) = some (.directory 2 :: [])
      ∧ (loading (.directory 1) [.showArea 2] false true 0).card.job.map (·.todo) = some (.showArea 2 :: [])
      ∧ (loading (.showArea 1) [.showArea 2] false true 0).card.job.map (·.todo) = some (.showArea 2 :: []))
    ∧ (let h : CardHeader := { mark := true, pages := 5, dirFirst := 1, dirCount := 1, showFirst := 2, showCount := 3 }
       h.mark = true ∧ h.dirFirst + h.dirCount ≤ h.pages ∧ h.showFirst + h.showCount ≤ h.pages ∧ 0 < h.dirCount
         ∧ 4 < h.showFirst + h.showCount)
    ∧ ((checkArea [.setting 1 300]).isSome = true
      ∧ checkArea [.cue { number := 1, label := [], prewait := 0, mode := 3, delay := 0, actions := [(0, .mute 1 1)] }] = none
      ∧ checkArea [.snapshot 1 (some (25, []))] = none) := by decide +kernel

theorem test_hyps_CardRemovalCompletes : desk.card.state ≠ .absent ∧ desk.cues.running = [] := by decide +kernel

theorem test_hyps_VoicePageArrives :
    let s (st : VoiceState) := reading 2 0 (sounding1 2 st .inFlight (.port 0))
    let e : FetchEntry := { voice := 2, slot := 1, page := 3 }
    let j : LoadJob :=
      { reload := true, todo := [.showArea 2], clips := [], items := [], withShow := true, offer := none }
    let waiting := modCard (fun c => { c with queue := [e], job := some j }) (s .playing)
    (∀ k : Fin 3, let st := [VoiceState.priming, .playing, .stopping].getD k.val .idle
       (s st).card.reader = some { job := .voice 2 0 9, page := 18, number := 4, age := 0 }
         ∧ (s st).voices.tab[(2 : Fin 16)].state = st
         ∧ (s st).voices.tab[(2 : Fin 16)].ring[0]? = some (slotOf .inFlight) ∧ (s st).cues.running = []
         ∧ (s st).card.queue = [] ∧ (s st).card.job = none)
    ∧ (slotOf .inFlight).stale = false
    ∧ (waiting.card.queue = e :: [] ∧ (∀ x ∈ waiting.card.queue, x.voice = 2 → x.slot ≠ 0) ∧ waiting.card.job = some j
      ∧ j.todo = .showArea 2 :: [] ∧ waiting.card.lastWasVoice = true
      ∧ (modCard (fun c => { c with lastWasVoice := false }) waiting).card.lastWasVoice = false) := by decide +kernel

theorem test_hyps_VoiceReadFails :
    ∀ k : Fin 3, let st := [VoiceState.priming, .playing, .stopping].getD k.val .idle
      let s := reading 15 2400 (sounding1 15 st .inFlight .paging)
      s.card.reader = some { job := .voice 15 0 9, page := 18, number := 4, age := 2400 }
      ∧ s.voices.tab[(15 : Fin 16)].state = st ∧ s.fades.table = []
      ∧ s.voices.tab[(15 : Fin 16)].ring[0]? = some (slotOf .inFlight) ∧ s.cues.running = [] ∧ 48 * 50 ≤ 2400 := by
  decide +kernel

/-- A read in flight of a slot that nothing wants: its voice draining, or the slot stale. -/
def unwanted (v : VoiceId) (st : VoiceState) (x : Slot) : State :=
  modVoice v (fun r => { r with ring := [x, slotOf .filled] }) (reading v 2400 (sounding1 v st .inFlight .paging))

theorem test_hyps_Unwanted :
    let stale (p : Option Nat) : Slot := { slotOf .inFlight with stale := true, again := p }
    Unwanted 15 0 (slotOf .inFlight) (unwanted 15 .draining (slotOf .inFlight))
    ∧ (∀ k : Fin 3, ∀ p ∈ [none, some 7], let st := [VoiceState.priming, .playing, .stopping].getD k.val .idle
        Unwanted 2 0 (stale p) (unwanted 2 st (stale p)))
    ∧ (unwanted 15 .draining (slotOf .inFlight)).cues.running = []
    ∧ (unwanted 15 .draining (slotOf .inFlight)).card.reader
        = some { job := .voice 15 0 9, page := 18, number := 4, age := 2400 } := by
  unfold Unwanted; decide +kernel

/-- R70: the page of a stale slot is dropped, and the slot is asked for again with the page kept for it. -/
theorem test_stale_read :
    let x : Slot := { slotOf .inFlight with stale := true, again := some 7 }
    let page : CardPage := { words := [1], header := none, clips := [], items := [] }
    let t := match exec (.cardReadComplete 4 page) (unwanted 2 .playing x) with
      | .next t => t
      | _ => desk
    (t.voices.tab[(2 : Fin 16)].ring[0]?).map (fun y => (y.state, y.page, y.words)) = some (.inFlight, 7, [])
      ∧ t.card.reader.map (·.job) = some (.voice 2 0 7) := by decide +kernel

/-- `desk` with V1-V15 draining, and the reserve as given: only V16 can be open. -/
def lastVoice (reserve : Bool) : State :=
  modPaging (fun u => { u with reserve := reserve })
    (modVoices (fun u => { u with tab := vmapi (fun v r => if v.val < 15 then { r with state := .draining } else r) u.tab })
      desk)

/-- A mount whose show area of one cue is on offer. -/
def area : ShowArea :=
  { cues := [cueOf3 5 0 .none], snaps := Vector.replicate 128 none, settings := [(1, 300)]
    power := Vector.replicate 16 true }

def offered (reload : Bool) (s : State) : State :=
  let job : LoadJob :=
    { reload := reload, todo := [], clips := [], items := [], withShow := true, offer := some area }
  modCard (fun c => { c with state := if reload then .mounted else .mounting, job := some job }) s

theorem test_hyps_ShowAreaLoads :
    (∀ reload : Bool, ((offered reload desk).card.job.bind (·.offer)).isSome = true
      ∧ (offered reload desk).cues.running = []
      ∧ (let s := offered reload (running1 (entry 10 .active 0 none))
         s.cues.running ≠ [] ∧ ∀ e ∈ s.cues.running, e.state = .settling → settled e = false))
    ∧ (area.settings.map (·.1)).Nodup ∧ ((1 : Nat), (300 : Nat)) ∈ area.settings
    ∧ area.power[(15 : ZoneId)] = true ∧ desk.lines.tab[(15 : ZoneId)].power = .off
    ∧ (lineAs 15 .on .up desk).lines.tab[(15 : ZoneId)].power ≠ .off
    ∧ (let s := handTo 0 (.reloadShow 0 1) desk
       handed 0 (.reloadShow 0 1) s = true ∧ hasRight 0 .system s = true ∧ s.card.state = .mounted
         ∧ s.cues.running = [] ∧ s.card.job = none ∧ s.card.header.map (·.showCount) = some 3) := by decide +kernel

/-- The fade in of a PLAY that names the clip `looped`. -/
def playOf (fadeIn : Nat) : Instr := .play 0 1 1024 255 241 fadeIn 1

/-- What O26 asks of voice `v` and the state a PLAY is handled in. -/
def playable (fadeIn : Nat) (v : VoiceId) (d : State) : Prop :=
  let s := handTo 0 (playOf fadeIn) d
  (handed 0 (playOf fadeIn) s = true ∧ hasRight 0 .cue s = true ∧ s.voices.alarm.standing = false
    ∧ s.card.state = .mounted ∧ clipOf 1024 s = some looped ∧ s.voices.tab[v].state = .idle
    ∧ (v = 15 → s.paging.reserve = false) ∧ (∀ u : VoiceId, u < v → s.voices.tab[u].state ≠ .idle)
    ∧ looped.channels = 2 ∧ 4 ≤ s.voices.free ∧ s.cues.running = [])
  ∧ VoiceFadeLaw s

theorem test_hyps_PlayStarts :
    let full := modFades (fun f => { f with table := List.replicate 64 (single (.master 0) 0 9 (.port 1)) }) desk
    playable 0 0 desk ∧ playable 0 15 (lastVoice false) ∧ (playable 600001 0 desk ∧ desk.fades.table.length < 64)
    ∧ (playable 1 0 full ∧ 64 ≤ full.fades.table.length) := by
  refine ⟨?_, ?_, ⟨?_, ?_⟩, ?_, ?_⟩ <;> (try unfold playable VoiceFadeLaw) <;> decide +kernel

theorem test_hyps_StopCompletes :
    let i := Instr.stop 0 1 7 600001
    let s (st : VoiceState) := handTo 0 i (sounding1 15 st .filled (.port 0))
    let faded := handTo 0 i (fading (single (.voice 15) 1 9 (.port 2)) (sounding1 15 .playing .filled (.port 0)))
    let two := modVoice 2 (fun r => { r with state := .priming, tag := some 7 }) (s .playing)
    ((handed 0 i (s .priming) = true ∧ hasRight 0 .cue (s .priming) = true ∧ (s .priming).cues.running = []
      ∧ (s .priming).voices.tab[(15 : Fin 16)].tag = some 7
      ∧ (∀ u : VoiceId, u ≠ 15 → (s .priming).voices.tab[u].tag ≠ some 7) ∧ (s .priming).card.reader = none
      ∧ (s .priming).voices.tab[(15 : Fin 16)].state = .priming ∧ (s .priming).fades.table = [])
    ∧ ((s .playing).voices.tab[(15 : Fin 16)].state = .playing ∧ (s .playing).fades.table.length < 64
      ∧ driven (.voice 15) (s .playing) = false ∧ handed 0 i (s .playing) = true
      ∧ hasRight 0 .cue (s .playing) = true
      ∧ (∀ u : VoiceId, u ≠ 15 → (s .playing).voices.tab[u].tag ≠ some 7))
    ∧ (handed 0 i faded = true ∧ hasRight 0 .cue faded = true ∧ faded.cues.running = []
      ∧ faded.voices.tab[(15 : Fin 16)].state = .playing
      ∧ (∀ u : VoiceId, u ≠ 15 → faded.voices.tab[u].tag ≠ some 7)
      ∧ faded.fades.table = [] ++ single (.voice 15) 1 9 (.port 2) :: [])
    ∧ (handed 0 i two = true ∧ hasRight 0 .cue two = true ∧ two.cues.running = [] ∧ two.fades.table.length ≤ 48
      ∧ two.voices.tab[(2 : Fin 16)].tag = some 7 ∧ two.voices.tab[(15 : Fin 16)].tag = some 7))
    ∧ VoiceFadeLaw two := by
  unfold VoiceFadeLaw; decide +kernel

theorem test_hyps_ReleaseDisengages :
    let i := Instr.release 0 1 7
    let x := slotOf .filled
    let y (st : SlotState) : Slot := { slotOf st with page := 1, wraps := 1 }
    let s (st : SlotState) : State := handTo 0 i (modCard (fun c => { c with
        queue := [{ voice := 15, slot := 1, page := 1 }]
        reader := some { job := .load .header, page := 0, number := 1, age := 0 } })
      (modVoice 15 (fun r => { r with info := looped, looping := true, ring := [x, y st] })
        (sounding1 15 .playing .filled (.port 0))))
    ∀ k : Fin 3, let st := [SlotState.filled, .requested, .inFlight].getD k.val .empty
      let r := (s st).voices.tab[(15 : Fin 16)]
      handed 0 i (s st) = true ∧ hasRight 0 .cue (s st) = true ∧ (s st).cues.running = []
        ∧ (r.tag = some 7 ∧ r.state = .playing ∧ r.looping = true ∧ r.cur = 0 ∧ r.ring = [x, y st])
        ∧ (x.wraps = 0 ∧ x.state = .filled ∧ x.stale = false ∧ 0 < (y st).wraps ∧ (y st).stale = false
          ∧ (y st).state = st ∧ (s st).card.reader.isSome = true)
        ∧ (0 + 1 < (3300 + 512 - 1) / 512 ∧ ¬6 + 1 < (3300 + 512 - 1) / 512) := by decide +kernel

theorem test_hyps_CueDraftEdits :
    (asked (.cueOpen 0 1 9999 600001 1 600001 (List.replicate 24 126) 1) = true ∧ hasRight 0 .edit desk = true
      ∧ cueOf 9999 desk = some (cueOf3 9999 0 .follow) ∧ (List.replicate 24 126).length ≤ 24
      ∧ (∀ c ∈ List.replicate 24 126, 32 ≤ c ∧ c ≤ 126))
    ∧ (asked (.cueOpen 0 1 1 0 0 0 [32] 1) = true ∧ cueOf 1 desk = none)
    ∧ (asked (.cueOpen 0 1 1 0 2 0 [] 0) = true)
    ∧ (asked (.cueAdd 0 1 600001 (.mute 24 0)) = true
      ∧ desk.cues.drafts[(0 : PortId)] = some { cue := cueOf3 9999 600000 .none, replaced := true }
      ∧ (cueOf3 9999 600000 .none).actions.length < 32 ∧ actionOf (.mute 24 0) = some (.mute 23 false, false))
    ∧ (asked (.cueDrop 0 1 3) = true ∧ 3 ≤ (cueOf3 9999 600000 .none).actions.length) := by decide +kernel

theorem test_hyps_CuePutAndDelete :
    (asked (.cuePut 0 1) = true ∧ hasRight 0 .edit desk = true
      ∧ desk.cues.drafts[(0 : PortId)] = some { cue := cueOf3 9999 600000 .none, replaced := true }
      ∧ (cueOf3 9999 600000 .none).actions ≠ [] ∧ running 9999 desk = false ∧ (cueOf 9999 desk).isSome = true
      ∧ desk.cues.list.length < 1000 ∧ ascending desk.cues.list = true
      ∧ poolUse (desk.cues.list.filter fun c => c.number ≠ 9999) + 3 ≤ 8192)
    ∧ (asked (.cueDelete 0 1 20) = true ∧ (cueOf 20 desk).isSome = true ∧ running 20 desk = false) := by decide +kernel

def heldBy (h : Option PortId) : State := modCues (fun c => { c with holder := h }) desk

theorem test_hyps_AuthorityAndStandby :
    let force := Instr.takeGo 0 1 true.toNat
    let ask := Instr.takeGo 0 1 false.toNat
    (∀ h : Option PortId, handed 0 force (handTo 0 force (heldBy h)) = true
      ∧ handed 0 ask (handTo 0 ask (heldBy h)) = true ∧ handed 0 (.releaseGo 0 1) (handTo 0 (.releaseGo 0 1) (heldBy h)) = true
      ∧ handed 0 (.standby 0 1 20) (handTo 0 (.standby 0 1 20) (heldBy h)) = true
      ∧ (handTo 0 ask (heldBy h)).cues.holder = h)
    ∧ hasRight 0 .cue desk = true ∧ hasRight 0 .system desk = true ∧ hasRight 0 .system (noRights 0 desk) = false
    ∧ (handed 0 (.standby 0 1 9999) (handTo 0 (.standby 0 1 9999) (noRights 0 desk)) = true
      ∧ handed 0 ask (handTo 0 ask (noRights 0 desk)) = true ∧ hasRight 0 .cue (noRights 0 desk) = false)
    ∧ asked (.standby 0 1 0) = true ∧ asked (.standby 0 1 10000) = true
    ∧ (cueOf 20 desk).isSome = true ∧ cueOf 1 desk = none ∧ asked (.standby 0 1 1) = true := by decide +kernel

theorem test_hyps_BackLaw :
    let i := Instr.back 0 1
    let at' (n : Option Nat) (l : List Cue) : State :=
      handTo 0 i (modCues (fun c => { c with standing := n, list := l }) desk)
    (handed 0 i (handTo 0 i (noRights 0 desk)) = true ∧ hasRight 0 .cue (handTo 0 i (noRights 0 desk)) = false)
    ∧ (handed 0 i (handTo 0 i (heldBy none)) = true ∧ hasRight 0 .cue (handTo 0 i (heldBy none)) = true
      ∧ (heldBy none).cues.holder ≠ some 0)
    ∧ (∀ n : Fin 3, let s := at' ([none, some 10, some 20].getD n.val none) desk.cues.list
        handed 0 i s = true ∧ hasRight 0 .cue s = true ∧ s.cues.holder = some 0 ∧ ascending s.cues.list = true)
    ∧ (handed 0 i (at' none []) = true ∧ (at' none []).cues.list = [] ∧ (at' none []).cues.standing = none)
    ∧ desk.cues.list = [cueOf3 10 500 (.continue 100), cueOf3 20 500 .none] ++ [cueOf3 9999 0 .follow]
    ∧ desk.cues.list = [] ++ cueOf3 10 500 (.continue 100) :: cueOf3 20 500 .none :: [cueOf3 9999 0 .follow] := by
  decide +kernel

theorem test_hyps_GoFires :
    let i := Instr.go 0 1
    let s := handTo 0 i desk
    let other (c : Cue) := modCues (fun q => { q with list := [c], standing := some 20 }) s
    let instant : Cue := { cueOf3 20 0 .none with actions := [{ offset := 0, act := .mute 23 true }] }
    let hyps (s : State) (c : Cue) : Prop :=
      handed 0 i s = true ∧ hasRight 0 .cue s = true ∧ (∀ e ∈ s.cues.running, e.state = .settling → settled e = false)
        ∧ s.cues.alarm.standing = false ∧ s.cues.holder = some 0 ∧ s.cues.guard = none ∧ s.cues.standing = some 20
        ∧ cueOf 20 s = some c ∧ running 20 s = false ∧ s.cues.running.length < 16
    (hyps s (cueOf3 20 500 .none) ∧ 0 < (cueOf3 20 500 .none).prewait ∧ (cueOf3 20 500 .none).follow ≠ .continue 0)
    ∧ (hyps (other (cueOf3 20 1 (.continue 0))) (cueOf3 20 1 (.continue 0))
      ∧ cueAfter 20 (other (cueOf3 20 1 (.continue 0))).cues.list = none)
    ∧ (hyps (other instant) instant ∧ instant.prewait = 0 ∧ instant.follow = .none)
    ∧ (let t := handTo 0 i (noRights 0 desk); handed 0 i t = true ∧ hasRight 0 .cue t = false)
    ∧ (let t := modCues (fun c => { c with alarm := { standing := true, inbox := [] } }) s
       t.cues.alarm.standing = true ∧ handed 0 i t = true)
    ∧ (let t := modCues (fun c => { c with guard := some 1 }) s
       t.cues.guard.isSome = true ∧ t.cues.holder = some 0 ∧ handed 0 i t = true)
    ∧ (let t := modCues (fun c => { c with standing := none }) s
       t.cues.standing = none ∧ t.cues.guard = none ∧ handed 0 i t = true)
    ∧ (let t := handTo 0 i (heldBy (some 1))
       t.cues.holder ≠ some 0 ∧ t.cues.alarm.standing = false ∧ handed 0 i t = true)
    ∧ (let t := handTo 0 i (running1 (entry 20 .active 0 none))
       handed 0 i t = true ∧ t.cues.guard = none ∧ t.cues.standing = some 20 ∧ running 20 t = true)
    ∧ (let t := modCues (fun c => { c with running := List.replicate 16 (entry 10 .active 0 none) }) s
       handed 0 i t = true ∧ running 20 t = false ∧ 16 ≤ t.cues.running.length) := by
  refine ⟨?_, ?_, ?_, ?_, ?_, ?_, ?_, ?_, ?_, ?_⟩ <;> decide +kernel

theorem test_hyps_StopAllAndShowReset :
    (asked (.stopAll 0 1) = true ∧ hasRight 0 .cue desk = true)
    ∧ (let s := handTo 0 (.stopAll 0 1) (fading (single (.master 3) 0 9 (.port 1)) (sounding1 15 .playing .filled (.port 0)))
       VoiceFadeLaw s ∧ s.fades.table.length ≤ 48 ∧ handed 0 (.stopAll 0 1) s = true)
    ∧ (asked (.showReset 0 1) = true ∧ hasRight 0 .system desk = true)
    ∧ (∀ b : Bool, let i := if b then Instr.stopAll 0 1 else .showReset 0 1
       let s := handTo 0 i (modVoice 15 (fun r => { r with state := .priming, origin := some (.port 0) })
         (running1 (entry 10 .active 99 none)))
       handed 0 i s = true ∧ s.cues.running ≠ [] ∧ s.fades.table = [] ∧ s.voices.tab[(15 : VoiceId)].state = .priming
         ∧ (∀ u : VoiceId, u ≠ 15 → s.voices.tab[u].state = .idle)
         ∧ ((List.finRange 16).filter fun v => (s.voices.tab[v].state == .priming || s.voices.tab[v].state == .playing)
             && s.voices.tab[v].origin != some .paging) = [15])
    ∧ (let r := single (.zoneDuck 15) 0 9 (.paging 15)
       r ∈ (fading r desk).fades.table ∧ r.origin = .paging 15 ∧ r.body = .single (.zoneDuck 15) 100 200) := by
  unfold VoiceFadeLaw; decide +kernel

/-- Cue 20 in ACTIVE, the action given its first and due, one more to come. -/
def acting (a : Action) (s : State) : State :=
  modCues (fun q => { q with
    list := [{ cueOf3 20 500 .none with actions := [{ offset := 1, act := a }, muteAt 2] }]
    running := [entry 20 .active 24048 none] }) s

/-- What the cue action statements ask of the running entry. -/
def actsOn (a : Action) (s : State) : Prop :=
  ∃ c : Cue, s.cues.running = [entry 20 .active 24048 none] ∧ cueOf 20 s = some c ∧ 1 < c.actions.length
    ∧ c.actions[1 - 1]? = some { offset := 1, act := a } ∧ 48 * (c.prewait + 1) ≤ 24048

theorem acting_acts (a : Action) (s : State) : actsOn a (acting a s) :=
  ⟨_, rfl, rfl, (by decide : 1 < 2), rfl, (by decide : 48 * (500 + 1) ≤ 24048)⟩

theorem test_hyps_CueClocks :
    (∀ clock : Fin 2, let e := entry 20 .prewait (23999 + clock.val) none
      let s := running1 e
      s.cues.running = [e] ∧ cueOf 20 s = some (cueOf3 20 500 .none) ∧ e.state = .prewait ∧ e.next = 1
        ∧ (cueOf3 20 500 .none).actions = muteAt 1 :: [muteAt 2, muteAt 3] ∧ 0 < (muteAt 1).offset)
    ∧ (23999 < 48 * 500 ∧ 48 * 500 ≤ 24000)
    ∧ (let e := entry 20 .active 24048 none
       (running1 e).cues.running = [e] ∧ cueOf e.cue (running1 e) = some (cueOf3 20 500 .none)
         ∧ (cueOf3 20 500 .none).actions[e.next - 1]? = some { offset := 1, act := .mute 0 true }
         ∧ e.next < (cueOf3 20 500 .none).actions.length ∧ 48 * (500 + 1) ≤ e.clock)
    ∧ (let e := entry 10 .prewait 4800 (some true)
       let s := running1 e
       s.cues.running = [e] ∧ cueOf e.cue s = some (cueOf3 10 500 (.continue 100)) ∧ e.cont = some true
         ∧ 48 * 100 ≤ e.clock ∧ cueAfter 10 s.cues.list = some 20 ∧ s.cues.standing = some 20
         ∧ cueOf 20 s = some (cueOf3 20 500 .none) ∧ (cueOf3 20 500 .none).follow = .none)
    ∧ (let e := entry 10 .prewait 4800 (some true)
       let s := modCues (fun c => { c with list := [cueOf3 10 500 (.continue 100)] }) (running1 e)
       s.cues.running = [e] ∧ cueOf e.cue s = some (cueOf3 10 500 (.continue 100)) ∧ cueAfter 10 s.cues.list = none)
    ∧ (modCues (fun c => { c with guard := some 0 }) desk).cues.guard = some 0 := by decide +kernel

/-- Line 16 just after an event that read what `k` says, its frame of one sample sent. -/
def lateLine (k : Together) (queue : List LineCmd) (out : Option Outstanding) : State :=
  modLine 15 (fun r => { r with queue := queue, out := out, together := k, sent := [0xC3A55A, 9, 0xFF, 5] })
    (lineAs 15 .on .up desk)

/-- The ON of an acknowledge that went out at the last line frame event. -/
def onOut : Option Outstanding := some { cmd := .lamp .on .button, seq := 7, age := 1 }

theorem test_hyps_LevelCueActions :
    actsOn (.mute 19 false) (acting (.mute 19 false) alarmed) ∧ actsOn (.mute 23 false) (acting (.mute 23 false) desk)
    ∧ actsOn (.level (.zoneProgramme 15) 240 600000) (acting (.level (.zoneProgramme 15) 240 600000) desk)
    ∧ actsOn (.recall 3 127 0) (acting (.recall 3 127 0) desk) ∧ actsOn (.lamp 15 .blink) (acting (.lamp 15 .blink) desk)
    ∧ (alarmed.mix.alarm.standing = true ∧ (19 : MixId).val < 20 ∧ desk.mix.alarm.standing = false)
    ∧ (driven (.crosspoint 23 95) desk = false ∧ driven (.zoneProgramme 15) desk = false ∧ desk.fades.table = []
      ∧ ∀ v : VoiceId, driven (.voice v) desk = false)
    ∧ (let full := modFades (fun f => { f with table := List.replicate 64 (single (.voice 0) 0 9 (.port 1)) }) desk
       driven (.master 3) full = false ∧ 64 ≤ full.fades.table.length)
    ∧ (fading (single (.master 3) 1 9 (.port 2)) desk).fades.table = [] ++ single (.master 3) 1 9 (.port 2) :: []
    ∧ desk.fades.snaps[(0 : Fin 128)] = some { mix := 3, levels := Vector.replicate 97 100 }
    ∧ desk.fades.snaps[(127 : Fin 128)] = none ∧ desk.lines.tab[(15 : Fin 16)].link ≠ .up
    ∧ (lineAs 15 .on .up desk).lines.tab[(15 : Fin 16)].link = .up
    ∧ (lineAs 15 .on .up desk).lines.tab[(15 : Fin 16)].queue = []
    ∧ (lineAs 15 .on .up desk).lines.tab[(15 : Fin 16)].together = .nothing
    ∧ (let r := (lateLine .echo [] none).lines.tab[(15 : Fin 16)]
       r.together = .echo ∧ r.link = .up ∧ r.queue = [] ∧ r.out = none)
    ∧ (let r := (lateLine .acknowledge [] onOut).lines.tab[(15 : Fin 16)]
       r.together = .acknowledge ∧ r.link = .up ∧ r.queue = [] ∧ r.out = onOut) := by
  refine ⟨acting_acts .., acting_acts .., acting_acts .., acting_acts .., acting_acts .., ?_⟩; decide +kernel

theorem test_hyps_VoiceCueActions :
    actsOn (.play 1024 255 240 600000 true) (acting (.play 1024 255 240 600000 true) desk)
    ∧ actsOn (.stop 7 0) (acting (.stop 7 0) (sounding1 14 .playing .filled (.entry 20)))
    ∧ actsOn (.release 7) (acting (.release 7) desk)
    ∧ actsOn (.page (Vector.replicate 16 true) 1 3 true true true)
        (acting (.page (Vector.replicate 16 true) 1 3 true true true) desk)
    ∧ (desk.voices.alarm.standing = false ∧ desk.card.state = .mounted ∧ clipOf 1024 desk = some looped
      ∧ desk.voices.tab[(0 : Fin 16)].state = .idle ∧ looped.channels = 2 ∧ 4 ≤ desk.voices.free ∧ pageFits desk = true ∧ desk.fades.table.length < 64)
    ∧ VoiceFadeLaw desk ∧ PageLimit desk ∧ DuckLaw desk ∧ desk.paging.alarmIds.length ≤ 200
    ∧ (let s := sounding1 14 .playing .filled (.entry 20)
       (s.voices.tab[(14 : Fin 16)].state = .playing ∧ s.voices.tab[(14 : Fin 16)].tag = some 7
         ∧ (∀ u : VoiceId, u ≠ 14 → s.voices.tab[u].tag ≠ some 7) ∧ driven (.voice 14) s = false
         ∧ s.fades.table.length < 64)
       ∧ VoiceFadeLaw s)
    ∧ ((modVoices (fun u => { u with alarm := { standing := true, inbox := [] } }) desk).voices.alarm.standing = true
      ∧ (modCard (fun c => { c with state := .failed }) desk).card.state ≠ .mounted ∧ clipOf 2 desk = none
      ∧ (modVoices (fun u => { u with free := 3 }) desk).voices.free < 4
      ∧ (∀ v : VoiceId, (lastVoice true).voices.tab[v].state = .idle → v = 15 ∧ (lastVoice true).paging.reserve = true))
    ∧ (let full := modPaging (fun u => { u with
          pages := List.replicate 16 (pageWith 1 .alarm .none .pending none) }) desk
       16 ≤ full.paging.pages.length ∧ ∀ q ∈ full.paging.pages, q.state ≠ .ended) := by
  refine ⟨acting_acts .., acting_acts .., acting_acts .., acting_acts .., ?_⟩
  unfold VoiceFadeLaw PageLimit DuckLaw; decide +kernel

theorem test_hyps_TalkAndZoneRequests :
    (asked (.talkOn 0 1 4095) = true ∧ hasRight 0 .mix desk = true ∧ desk.ports[(0 : PortId)].pageMic ≠ 0)
    ∧ asked (.talkOff 0 1) = true ∧ asked (.talkLevel 0 1 241) = true
    ∧ asked (.zoneSet 0 1 16 0 true.toNat 241) = true ∧ asked (.zoneSet 0 1 16 4 false.toNat 0) = true
    ∧ asked (.zoneSet 0 1 1 5 true.toNat 240) = true := by decide +kernel

/-- An ENDED page of some id, as a run leaves it listed. -/
def endedPage (id : Nat) : Page :=
  { pageWith id (.port 0) (.live 4) .ended none with
    wanted := upd (Vector.replicate 16 none) 3 (some .done), outcome := some .ended, token := none }

/-- `desk` with some pages listed and every link UP. -/
def listing (ps : List Page) : State :=
  modPaging (fun u => { u with pages := ps, linkUp := Vector.replicate 16 true, lastId := 254 }) desk

/-- `listing` with Z4 in GAP, its timer at 0. -/
def gapped (ps : List Page) : State := modZone 3 (fun r => { r with service := .gap, gapTimer := some 0 }) (listing ps)

/-- `listing` with Z4 carried by a page. -/
def carrying (q : Page) (ps : List Page) : State :=
  modZone 3 (fun r => { r with service := .carrying, carried := some q.id, prio := some q.prio }) (listing ps)

/-- `NoneSettled` and `DuckLaw`, spelled out so that they are decided. -/
abbrev calm (s : State) : Prop :=
  (∀ e ∈ s.cues.running, e.state = .settling → settled e = false)
  ∧ ∀ r ∈ s.fades.table, ∀ z : ZoneId, drives (.zoneDuck z) r = true → ∃ y, r.origin = .paging y

theorem calm_iff (s : State) : calm s ↔ NoneSettled s ∧ DuckLaw s := Iff.rfl

/-- `VoiceFadeLaw` and `PageLimit`, spelled out so that they are decided. -/
abbrev bounded (s : State) : Prop :=
  ((∀ r ∈ s.fades.table, ∀ v, r.origin = .voiceStop v →
      drives (.voice v) r = true ∧ isSingle r = true ∧ s.voices.tab[v].state = .stopping)
    ∧ ∀ v : VoiceId, s.voices.tab[v].state = .idle ∨ s.voices.tab[v].state = .draining → driven (.voice v) s = false)
  ∧ s.paging.pages.length ≤ pageRoom

theorem bounded_iff (s : State) : bounded s ↔ VoiceFadeLaw s ∧ PageLimit s := Iff.rfl

/-- No two listed records have one id. -/
abbrev distinct (s : State) : Prop := (s.paging.pages.map (·.id)).Nodup

theorem test_hyps_PageStarts :
    let i := Instr.page 0 1 65535 0 0 3 1 1 0
    let full := (List.range 16).map endedPage
    let s (k : Fin 4) := handTo 0 i
      ([gapped full, listing [endedPage 7], modPaging (fun u => { u with linkUp := Vector.replicate 16 false }) (listing []),
        modPaging (fun u => { u with zones := vmapi (fun _ z => { z with service := .gap }) u.zones }) (listing [])].getD
          k.val desk)
    (∀ k : Fin 4, handed 0 i (s k) = true ∧ hasRight 0 .page (s k) = true
      ∧ (s k).ports[(0 : PortId)].pageMic = (4 : Fin 64).val + 1 ∧ PageLimit (s k) ∧ (s k).paging.alarmIds.length ≤ 200
      ∧ (∀ q ∈ (s k).paging.pages, q.state = .ended) ∧ (∀ z : ZoneId, (s k).paging.zones[z].service ≠ .carrying)
      ∧ calm (s k) ∧ distinct (s k) ∧ (s k).cues.running = [])
    ∧ ((s 0).paging.zones[(3 : ZoneId)].service = .gap ∧ (s 1).paging.zones[(3 : ZoneId)].service = .free
      ∧ ∀ q ∈ (s 1).paging.pages, q.id ≠ 255)
    ∧ (∀ k : Fin 3, let i := Instr.page 0 1 (2 ^ 3) 0 0 (k.val + 1) 1 1 0
       let q := { pageWith 9 (.port 0) (.clip 1) .speaking none with restartable := true }
       let s := handTo 0 i (carrying q [q])
       handed 0 i s = true ∧ hasRight 0 .page s = true ∧ s.paging.pages = [q] ∧ q.prio = 2 ∧ q.prio ≤ 3 ∧ s.paging.linkUp[(3 : Fin 16)] = true
         ∧ q.wanted = upd (Vector.replicate 16 none) 3 (some .carrying) ∧ s.paging.zones[(3 : Fin 16)].carried = some q.id
         ∧ s.paging.zones[(3 : Fin 16)].service = .carrying ∧ s.paging.zones[(3 : Fin 16)].prio = some q.prio ∧ DuckLaw s)
    ∧ ∀ k : Fin 3, let i := Instr.page 0 1 (2 ^ 5) 1 1024 (k.val + 1) 1 1 1
       let q := { pageWith 9 (.port 0) (.clip 1) .speaking none with restartable := true }
       let s := handTo 0 i (modPaging (fun u => { u with holder := some 9 }) (carrying q [q]))
       let s' (busy : Bool) := handTo 0 i
         { listing full with voices := if busy then (sounding1 15 .playing .filled .paging).voices else (listing full).voices }
       handed 0 i s = true ∧ s.paging.pages = [q] ∧ s.paging.holder = some q.id ∧ s.paging.zones[(5 : Fin 16)].service = .free
         ∧ s.paging.zones[(3 : Fin 16)].service = .carrying ∧ s.paging.linkUp[(5 : Fin 16)] = true ∧ DuckLaw s
         ∧ ∀ busy : Bool, handed 0 i (s' busy) = true ∧ (s' busy).paging.pages = full ∧ (s' busy).paging.holder = none
           ∧ calm (s' busy) ∧ bounded (s' busy) ∧ (s' busy).paging.zones[(5 : Fin 16)].service = .free
           ∧ (s' busy).paging.linkUp[(5 : Fin 16)] = true
           ∧ ((s' busy).voices.tab[(15 : Fin 16)].state = .idle ↔ busy = false) := by
  refine ⟨?_, ?_, ?_, ?_⟩ <;> (try unfold PageLimit) <;> (try unfold DuckLaw) <;> decide +kernel

theorem test_hyps_PageEndsByRequest :
    let q := pageWith 255 (.port 0) (.live 4) .speaking (some 9)
    ∀ cancel : Bool, let i := if cancel then Instr.pageCancel 0 1 255 else Instr.pageEnd 0 1 255
      let s := handTo 0 i (paged q)
      handed 0 i s = true ∧ pageOf 255 s = some q ∧ q.state ≠ .ended ∧ q.origin = .port 0
        ∧ q.prio ≤ 3 ∧ s.paging.holder = some 255 ∧ distinct s := by decide +kernel

/-- The page that holds the paging voice has issued the play of token 1. -/
def playAsked : State := modVoices (fun u => { u with pagingIn := [.play 1 1] })
  (paged (pageWith 9 (.port 0) (.clip 1) .speaking none))

theorem test_hyps_PagingVoiceEvents :
    (playAsked.cues.running = [] ∧ playAsked.voices.pagingIn = .play 1 1 :: []
      ∧ playAsked.voices.tab[(15 : Fin 16)].state = .idle ∧ playAsked.card.state = .mounted
      ∧ clipOf 1 playAsked = some mono ∧ mono.channels ≠ 2 ∧ 2 ≤ playAsked.voices.free
      ∧ (holderOf 1 playAsked).map (·.id) = some 9)
    ∧ VoiceFadeLaw playAsked
    ∧ (let s := modVoices (fun u => { u with pagingIn := [.stopOwn] }) (sounding1 15 .playing .filled .paging)
       (s.voices.pagingIn = .stopOwn :: [] ∧ s.voices.tab[(15 : Fin 16)].state = .playing
         ∧ s.voices.tab[(15 : Fin 16)].origin = some .paging ∧ s.card.reader = none ∧ s.cues.running = [])
       ∧ VoiceFadeLaw s)
    ∧ (let s (r : VoiceReport) := modPaging (fun u => { u with voiceIn := [r] }) playAsked
       ((s (.started 1)).paging.voiceIn = .started 1 :: [] ∧ (holderOf 1 (s (.started 1))).isSome = true
         ∧ (s (.ended 1 .clipEnd)).paging.voiceIn = .ended 1 .clipEnd :: []
         ∧ (holderOf 1 (s (.ended 1 .clipEnd))).map (·.state) = some .speaking)
       ∧ VoiceFadeLaw (s (.started 1))) := by
  unfold VoiceFadeLaw; decide +kernel

theorem test_hyps_PagingTimersAndLinks :
    let q := { pageWith 9 (.port 0) (.live 4) .speaking (some 0) with
      wanted := upd (upd (Vector.replicate 16 none) 3 (some .waiting)) 4 (some .carrying) }
    let alarm := { pageWith 9 .alarm .none .pending none with
      prio := 0, wanted := Vector.replicate 16 (some .unreached) }
    let links (b : Bool) (s : State) := modPaging (fun u => { u with linkIn := [(4, true), (3, b)] }) s
    ((gapped [endedPage 7]).paging.zones[(3 : ZoneId)].service = .gap
      ∧ (gapped [endedPage 7]).paging.zones[(3 : ZoneId)].gapTimer = some 0 ∧ calm (gapped [endedPage 7])
      ∧ distinct (gapped [endedPage 7])
      ∧ ∀ r ∈ (gapped [endedPage 7]).paging.pages, r.state = .ended)
    ∧ (calm (gapped [endedPage 7, q]) ∧ distinct (gapped [endedPage 7, q])
      ∧ (gapped [endedPage 7, q]).paging.pages = [endedPage 7] ++ q :: []
      ∧ q.all = false ∧ q.wanted[(3 : ZoneId)] = some .waiting ∧ (∀ y : ZoneId, y ≠ 3 → q.wanted[y] ≠ some .waiting)
      ∧ (gapped [endedPage 7, q]).paging.linkUp[(3 : ZoneId)] = true)
    ∧ (∀ st : Fin 2, let q := pageWith 1 (.port 2) (.live 63) (if st = 0 then .chiming else .speaking) (some 0)
       let s := carrying q [endedPage 7, q]
       pageOf q.id s = some q ∧ q.timer = some 0 ∧ calm s)
    ∧ ((links false (gapped [endedPage 7])).paging.linkIn = [(4, true)] ++ (3, false) :: []
      ∧ calm (links false (gapped [endedPage 7])) ∧ distinct (links false (gapped [endedPage 7]))
      ∧ (let p := pageWith 9 (.port 0) (.live 4) .speaking (some 5)
         let s := links false (carrying p [endedPage 7, p])
         calm s ∧ distinct s ∧ s.paging.pages = [endedPage 7] ++ p :: [] ∧ p.wanted[(3 : ZoneId)] = some .carrying
           ∧ (∀ y : ZoneId, y ≠ 3 → p.wanted[y] ≠ some .carrying ∧ p.wanted[y] ≠ some .waiting)
           ∧ q.wanted[(4 : ZoneId)] = some .carrying))
    ∧ ((links true (listing [endedPage 7])).paging.linkIn = [(4, true)] ++ (3, true) :: []
      ∧ calm (links true (listing [endedPage 7, alarm])) ∧ distinct (links true (listing [endedPage 7, alarm]))
      ∧ alarm.wanted[(3 : ZoneId)] = some .unreached
      ∧ (links true (listing [endedPage 7, alarm])).paging.pages = [endedPage 7] ++ alarm :: []
      ∧ (links true (listing [endedPage 7, alarm])).paging.zones[(3 : ZoneId)].service ≠ .carrying
      ∧ (∀ y : ZoneId, alarm.wanted[y] ≠ some .waiting)) := by
  refine ⟨?_, ?_, ?_, ?_, ?_⟩ <;> decide +kernel

theorem test_hyps_LineRequests :
    hasRight 0 .station desk = true
    ∧ (asked (.linePower 0 1 16 1) = true ∧ desk.lines.tab[(15 : ZoneId)].power ≠ .on)
    ∧ (asked (.linePower 0 1 16 0) = true ∧ desk.lines.tab[(15 : ZoneId)].power = .off)
    ∧ (∀ k : Fin 3, let lk := [Link.down, .hunt, .up].getD k.val .down
       let s (on : Fin 2) := handTo 0 (.linePower 0 1 16 on.val) (lineAs 15 .on lk desk)
       (∀ on : Fin 2, handed 0 (.linePower 0 1 16 on.val) (s on) = true ∧ (s on).lines.tab[(15 : ZoneId)].power = .on
         ∧ (s on).lines.tab[(15 : ZoneId)].link = lk))
    ∧ (let i := Instr.lamp 0 1 16 (lampCode .blink)
       asked i = true ∧ desk.lines.tab[(15 : ZoneId)].link ≠ .up
         ∧ handed 0 i (handTo 0 i (lineAs 15 .on .up desk)) = true
         ∧ (handTo 0 i (lineAs 15 .on .up desk)).lines.tab[(15 : ZoneId)].queue = []
         ∧ (modLine 15 (fun r => { r with queue := [.cap 9, .lamp .on .button] })
             (handTo 0 i (lineAs 15 .on .up desk))).lines.tab[(15 : ZoneId)].queue
           = [.cap 9] ++ .lamp .on .button :: [])
    ∧ (let i := Instr.zoneCap 0 1 16 241
       asked i = true ∧ handed 0 i (handTo 0 i (lineAs 15 .on .up desk)) = true
         ∧ (modLine 15 (fun r => { r with queue := [.cap 9, .lamp .on .button] })
             (handTo 0 i (lineAs 15 .on .up desk))).lines.tab[(15 : ZoneId)].queue
           = [] ++ .cap 9 :: [.lamp .on .button])
    ∧ (∀ k : Fin 2, let i := Instr.lamp 0 1 16 (lampCode .off)
       let o := if k = 0 then none else onOut
       let m : Together := if k = 0 then .echo else .acknowledge
       let s := handTo 0 i (lateLine m [] o)
       let r := s.lines.tab[(15 : ZoneId)]
       handed 0 i s = true ∧ r.together = m ∧ r.link = .up ∧ r.queue = [] ∧ r.out = o
         ∧ r.sent = 0xC3A55A :: [9] ++ [0xFF, 5]) := by decide +kernel

/-- R182, row 3: the new LAMP goes out at the line frame event that read the echo. -/
theorem test_lamp_with_echo :
    let t := commandLamp 15 .blink (.port 0) (lateLine .echo [] none)
    t.lines.tab[(15 : ZoneId)].out = some { cmd := .lamp .blink (.port 0), seq := 0, age := 1 }
    ∧ t.lines.tab[(15 : ZoneId)].sent = downFrame [9] (some { cmd := .lamp .blink (.port 0), seq := 0, age := 0 }) := by
  decide +kernel

/-- R182, row 2, edge first: the LAMP OFF replaces the ON of the acknowledge. -/
theorem test_lamp_with_edge :
    let t := commandLamp 15 .off (.port 0) (lateLine .acknowledge [] onOut)
    t.lines.tab[(15 : ZoneId)].out = some { cmd := .lamp .off (.port 0), seq := 7, age := 1 }
    ∧ t.ports[(0 : PortId)].notices = [lampSet 15 .on .button .replaced] ∧ t.lines.tab[(15 : ZoneId)].nextSeq = 0 := by
  decide +kernel

/-- R175: any other arrival leaves the outstanding command as it is. -/
theorem test_outstanding_stands :
    let cap (k : Together) (o : Option Outstanding) := (commandCap 15 9 (lateLine k [] o)).lines.tab[(15 : ZoneId)]
    let lamp := (commandLamp 15 .blink (.port 0) (lateLine .acknowledge [] onOut)).lines.tab[(15 : ZoneId)]
    ((cap .echo none).out = none ∧ (cap .echo none).queue = [.cap 9])
    ∧ ((cap .acknowledge onOut).out = onOut ∧ (cap .acknowledge onOut).queue = [.cap 9])
    ∧ lamp.out = onOut ∧ lamp.queue = [.lamp .blink (.port 0)] := by
  decide +kernel

/-- A line in ON alone, its link, runs, queue, outstanding command and button as given. -/
def stationed (lk : Link) (good bad : Nat) (queue : List LineCmd) (out : Option Outstanding) (button : Bool) : State :=
  modLines (fun u => { u with due := 1 }) (modLine 15 (fun r => { r with
    good := good, bad := bad, queue := queue, out := out, button := button }) (lineAs 15 .on lk desk))

/-- Echo 7 with the button pressed. -/
def echo7 : UpFrame := { sync := 0x5A3CA5, content := 0x780000, check := 0x880000 }

theorem test_hyps_LinePowerEvents : desk.lines.tab[(15 : ZoneId)].power ≠ .on
    ∧ ∀ k : Fin 3, let s := lineAs 15 .on ([Link.down, .hunt, .up].getD k.val .down) desk
      s.lines.tab[(15 : ZoneId)].power = .on ∧ s.lines.tab[(15 : ZoneId)].link = [Link.down, .hunt, .up].getD k.val .down := by
  decide +kernel

theorem test_hyps_LineFrameMoves :
    let up : Vector (List UpFrame) 16 := Vector.replicate 16 [echo7]
    let none' : Vector (List UpFrame) 16 := Vector.replicate 16 []
    let lampCmd : LineCmd := .lamp .on .refresh
    let o (seq age : Nat) : Outstanding := { cmd := .cap 216, seq := seq, age := age }
    let r (s : State) := s.lines.tab[(15 : ZoneId)]
    let base (s : State) (lk : Link) : Prop := 0 < s.lines.due ∧ (r s).power = .on ∧ (r s).link = lk
      ∧ (∀ k : ZoneId, k ≠ 15 → s.lines.tab[k].power ≠ .on)
    (up[(15 : ZoneId)] = [echo7] ∧ echo7.sync = 0x5A3CA5 ∧ echo7.check = -echo7.content
      ∧ (echo7.content >>> 20).toNat = 7 ∧ echo7.content.getLsbD 19 = true ∧ none'[(15 : ZoneId)] = [])
    ∧ (base (stationed .down 0 0 [] none false) .down ∧ base (stationed .hunt 0 0 [] none false) .hunt
      ∧ base (stationed .hunt 1 0 [] none false) .hunt ∧ (r (stationed .hunt 1 0 [] none false)).good ≠ 0)
    ∧ (base (stationed .up 0 2 [lampCmd] none false) .up ∧ (r (stationed .up 0 2 [lampCmd] none false)).bad < 3
      ∧ 3 ≤ (r (stationed .up 0 3 [] none false)).bad)
    ∧ (base (stationed .up 0 0 [lampCmd] (some (o 7 20)) false) .up
      ∧ (r (stationed .up 0 0 [lampCmd] (some (o 7 20)) false)).out = some (o 7 20) ∧ (o 7 20).seq = 7
      ∧ (o 0 20).seq ≠ 7 ∧ (o 0 19).age ≠ 20)
    ∧ ((modZone 15 (fun z => { z with lamp := .blink }) (stationed .up 0 0 [] none false)).paging.zones[(15 : ZoneId)].lamp
        = .blink
      ∧ [LineCmd.cap 9, lampCmd] = [.cap 9] ++ .lamp .on .refresh :: [] ∧ desk.lines.tab[(0 : ZoneId)].power ≠ .on) := by
  decide +kernel

def alarmAt (st : AlarmState) (t : Option Nat) (last : Option Bool) : State :=
  { desk with alarm := { state := st, timer := t, last := last } }

theorem test_hyps_AlarmInputMoves :
    ((alarmAt .normal none none).alarm.last ≠ some true ∧ (alarmAt .alarmHeld none (some false)).alarm.last ≠ some true
      ∧ (alarmAt .qualifying (some 0) (some true)).alarm.last = some true
      ∧ (alarmAt .qualifying (some 0) (some true)).alarm.timer = some 0)
    ∧ (let q := pageWith 255 .alarm .none .speaking none
       let s := { paged q with alarm := { state := .alarmHeld, timer := none, last := some false } }
       PageLimit s ∧ s.paging.alarmIds = [] ∧ (s.paging.pages.find? fun q => q.origin == .alarm && q.state != .ended) = some q
         ∧ (modPaging (fun u => { u with alarmIds := [4, 9] }) s).paging.alarmIds = [4] ++ [9]
         ∧ s.paging.alarmIds.length ≤ 200
         ∧ ((alarmAt .alarmHeld none none).paging.pages.find? fun q => q.origin == .alarm && q.state != .ended) = none)
    ∧ (∀ k : Fin 4,
       let st := [AlarmState.normal, .qualifying, .alarm, .alarmHeld].getD k.val .normal
       let s := handTo 0 (.alarmReset 0 1) (alarmAt st none none)
       handed 0 (.alarmReset 0 1) s = true ∧ hasRight 0 .system s = true) := by
  unfold PageLimit; decide +kernel

theorem test_hyps_AlarmTakenByBlocks :
    let s := handAlarm .entry (fading (single (.voice 2) 0 9 (.voiceStop 2)) (sounding1 2 .stopping .filled (.port 0)))
    (s.cues.alarm.inbox = .entry :: [] ∧ s.fades.alarm.inbox = .entry :: [] ∧ s.voices.alarm.inbox = .entry :: []
      ∧ s.mix.alarm.inbox = .entry :: [] ∧ s.cues.running = [])
    ∧ NoneSettled s ∧ VoiceFadeLaw s
    ∧ ((∀ u : VoiceId, u ≠ 2 → s.voices.tab[u].state = .idle) ∧ (2 : VoiceId) ≠ 15
      ∧ s.voices.tab[(2 : VoiceId)].state = .stopping ∧ (∀ r ∈ s.fades.table, ∀ q : PortId, r.origin ≠ .port q)
      ∧ (∀ u : VoiceId, (handAlarm .entry desk).voices.tab[u].state = .idle)
      ∧ (handAlarm .entry (running1 (entry 10 .active 99 none))).cues.alarm.inbox = .entry :: [])
    ∧ (let r := handAlarm .return desk
       r.cues.alarm.inbox = .return :: [] ∧ r.fades.alarm.inbox = .return :: [] ∧ r.voices.alarm.inbox = .return :: []
         ∧ r.mix.alarm.inbox = .return :: []) := by
  unfold VoiceFadeLaw NoneSettled; decide +kernel

theorem test_hyps_AlarmPage :
    (∀ k : Fin 3, let d := [listing [], gapped ((List.range 16).map endedPage), keepId (gapped [endedPage 7])].getD k.val desk
      let s := handAlarm .entry d
      s.paging.alarm.inbox = .entry :: [] ∧ calm s ∧ bounded s ∧ (∀ q ∈ s.paging.pages, q.state = .ended)
        ∧ (∀ z : ZoneId, s.paging.zones[z].service ≠ .carrying) ∧ (∀ k ∈ s.paging.alarmIds, ∀ q ∈ s.paging.pages, q.id ≠ k)
        ∧ s.paging.alarmIds = if k = 2 then [255] else [])
    ∧ (∀ re : Bool, let p := { pageWith 9 (.port 0) (.clip 1) .speaking none with restartable := re }
       let s := handAlarm .entry (carrying p [p])
       s.paging.alarm.inbox = .entry :: [] ∧ calm s ∧ bounded s ∧ s.paging.pages = [p] ∧ p.id ∉ s.paging.alarmIds ∧ 0 < p.prio
         ∧ p.wanted = upd (Vector.replicate 16 none) 3 (some .carrying) ∧ s.paging.linkUp[(3 : ZoneId)] = true
         ∧ s.paging.zones[(3 : ZoneId)].service = .carrying ∧ s.paging.zones[(3 : ZoneId)].carried = some p.id
         ∧ s.paging.zones[(3 : ZoneId)].prio = some p.prio
         ∧ ∀ y : ZoneId, y ≠ 3 → s.paging.zones[y].service ≠ .carrying)
    ∧ (let q := pageWith 255 .alarm .none .speaking none
       let s := handAlarm .return (paged q)
       s.paging.alarm.inbox = .return :: [] ∧ alarmPage s = some q ∧ pageOf q.id s = some q
         ∧ q.wanted[(3 : ZoneId)] = some .carrying) := by
  refine ⟨?_, ?_, ?_⟩ <;> decide +kernel

theorem test_hyps_PortOwnedRequests :
    asked (.subscribe 0 1 127) = true ∧ asked (.clearErrors 0 1) = true
    ∧ (asked (.setRights 0 1 3 63) = true ∧ hasRight 0 .system desk = true)
    ∧ (let s := handTo 0 (.setRights 0 1 1 31) (noRights 1 (noRights 2 desk))
       handed 0 (.setRights 0 1 1 31) s = true ∧ hasRight 0 .system s = true
         ∧ ∀ r : PortId, r ≠ 0 → hasRight r .system s = false)
    ∧ (let pairs := [(1, 16777215), (16, 1), (23, 4), (38, 0), (60, 241)]
       asked (.config 0 1 pairs) = true ∧ (pairs.map (·.1)).Nodup
         ∧ ∀ x ∈ pairs, 1 ≤ x.1 ∧ x.1 ≤ 60 ∧ (x.1 = 16 → x.2 ≤ 1) ∧ (23 ≤ x.1 → x.1 ≤ 38 → x.2 ≤ 4)) := by
  decide +kernel

theorem test_hyps_PortUpAndDown :
    State.reset.ports[(2 : PortId)].up = false ∧ desk.ports[(2 : PortId)].up = true
    ∧ (let q := pageWith 1 (.port 2) (.live 63) .speaking none
       let s := handDown 2 (carrying q [endedPage 7, q, pageWith 2 (.port 2) (.clip 1) .pending none])
       s.cues.downIn = 2 :: [] ∧ s.mix.downIn = 2 :: [] ∧ s.paging.downIn = 2 :: [] ∧ (s.paging.pages.map (·.id)).Nodup
         ∧ s.ports[(2 : PortId)].taken = [] ∧ q ∈ s.paging.pages ∧ q.state ≠ .ended ∧ q.origin = .port 2
         ∧ q.source = .live 63 ∧ q.wanted[(3 : ZoneId)] = some .carrying)
    ∧ (handDown 0 desk).cues.holder = some 0
    ∧ (let i := Instr.mute 2 1 ((23 : MixId).val + 1) 1
       let s := modPort 2 portDown (handTo 2 i desk)
       s.ports[(2 : PortId)].taken = [i] ∧ i ∈ s.ports[(2 : PortId)].taken ∧ hasRight 2 .mix s = true
         ∧ requestMessage i = some (2, 9, [1, 24, 1]) ∧ s.ports[(2 : PortId)].taken ≠ []) := by decide +kernel

/-- Port CP-C of `desk`, its record changed. -/
def portC (f : PortRecord → PortRecord) : State := modPort 2 f desk

theorem test_hyps_CharacterReceived :
    let full := portC fun r => { r with fifo := [.brk, .framing] }
    let idle := portC fun r => { r with armed := false }
    (desk.ports[(2 : PortId)].up = true ∧ desk.ports[(2 : PortId)].armed = true ∧ desk.ports[(2 : PortId)].fifo.length < 2)
    ∧ (full.ports[(2 : PortId)].up = true ∧ 2 ≤ full.ports[(2 : PortId)].fifo.length)
    ∧ (idle.ports[(2 : PortId)].armed = false) := by decide +kernel

theorem test_hyps_AssemblerRows :
    let r (e : RxEntry) (a : Option Assembly) (n : Nat) (loss : Bool) : PortRecord := (portC fun r => { r with
      fifo := [e], asm := a, loss := loss
      reqs := List.replicate n { kind := 1, body := [], state := .waiting } }).ports[(2 : PortId)]
    let m : Option Assembly := some { head := 32, len := none, body := [] }
    let body (n : Nat) : Option Assembly := some { head := 32, len := some n, body := [7] }
    (r (.character 9 true) none 0 false).loss = false
    ∧ (r (.character 9 true) none 0 false).fifo = .character 9 true :: []
    ∧ (r (.character 9 true) m 0 false).asm ≠ none ∧ (r (.character 9 true) m 0 true).loss = true
    ∧ (r (.character 9 false) none 0 false).asm = none ∧ (r (.character 62 false) m 0 false).asm = m
    ∧ (62 : Byte).toNat ≤ 62 ∧ (0 : Byte).toNat = 0 ∧ 1 ≤ (1 : Byte).toNat
    ∧ 62 < (63 : Byte).toNat ∧ (r (.character 9 false) (body 3) 0 false).asm = body 3 ∧ [(7 : Byte)].length + 1 < 3
    ∧ (r (.character 9 false) (body 2) 1 false).reqs.length < 2 ∧ 2 ≤ (r (.character 9 false) (body 2) 2 false).reqs.length
    ∧ (r .parity m 0 true).fifo = .parity :: [] ∧ (r .framing m 0 false).fifo = .framing :: []
    ∧ (r .brk m 0 false).fifo = .brk :: [] := by decide +kernel

theorem test_hyps_RequestsAndTransmitter :
    let q (body : List Byte) (st : ReqState) : Request := { kind := 32, body := body, state := st }
    let rp : Reply := { tag := 7, kind := 32, outcome := .accepted, fields := [] }
    let nt : Notice := { cls := .mix, kind := 2, fields := [] }
    let ofQ (xs : List Request) := (portC fun r => { r with reqs := xs }).ports[(2 : PortId)]
    let sent (cts : Bool) (begun : Nat) := (portC fun r => { r with
      cts := cts, tx := some { reply := true, chars := framed [128, 3], begun := begun }
      reqs := [q [7] .answered] }).ports[(2 : PortId)]
    ((ofQ [q [1] .answered, q [7] .waiting]).reqs = [q [1] .answered] ++ q [7] .waiting :: []
      ∧ (ofQ [q [7] .waiting]).reqs = [] ++ q [7] .waiting :: []
      ∧ parseRequest 2 32 ([(7 : Byte)].map BitVec.toNat) = some (.go 2 7)
      ∧ parseRequest 2 32 (([] : List Byte).map BitVec.toNat) = none
      ∧ q [7] (.handed (.go 2 7)) ∈ (ofQ [q [7] (.handed (.go 2 7)), q [7] .waiting]).reqs)
    ∧ (let r := (portC fun r => { r with replies := [rp] }).ports[(2 : PortId)]
       r.up = true ∧ r.cts = true ∧ r.tx = none ∧ r.replies = rp :: [])
    ∧ (let r := (portC fun r => { r with notices := [nt] }).ports[(2 : PortId)]
       r.replies = [] ∧ r.notices = nt :: [] ∧ r.tx = none)
    ∧ ((sent true 1).tx = some { reply := true, chars := framed [128, 3], begun := 1 } ∧ (sent true 1).cts = true
      ∧ (sent true 1).reqs = q [7] .answered :: [] ∧ (sent false 1).cts = false ∧ 1 < (framed [128, 3]).length
      ∧ (framed [128, 3]).length ≤ 2) := by
  decide +kernel

/-- A GO from a port that does not hold authority, handed over. -/
def refusedGo : State := handTo 1 (.go 1 7) desk

theorem test_hyps_RefusedRequestChangesNothing :
    requestMessage (.go 1 7) = some (1, 32, [7])
    ∧ (∃ t, exec (.go 1 7) refusedGo = .next t ∧ t.ports[(1 : PortId)].replies =
        refusedGo.ports[(1 : PortId)].replies ++ [{ tag := 7, kind := 32, outcome := .notHolder, fields := [] }])
    ∧ NoneSettled refusedGo ∧ nextJob refusedGo.card = none := by
  refine ⟨by decide +kernel, ⟨_, rfl, by decide +kernel⟩, ?_, by decide +kernel⟩
  unfold NoneSettled; decide +kernel

theorem test_hyps_RequestMessageRoundTrip :
    (∃ body, requestMessage (.go 0 255) = some (0, 32, body)) ∧ (Instr.go 0 255).wf = true
    ∧ (Instr.cueAdd 2 255 16777215 (.page 65535 65535 255 255 255 255)).wf = true
    ∧ (requestMessage (.cueAdd 2 255 16777215 (.page 65535 65535 255 255 255 255))).isSome = true := by
  refine ⟨⟨[255], by decide +kernel⟩, by decide +kernel, by decide +kernel, by decide +kernel⟩

/-- The working part with a fade, and the card's removal ahead of it. -/
def stepping : State := { fading (single (.master 3) 0 9 (.port 1)) desk with pending := [.cardRemoval] }

theorem test_hyps_StepKeeps :
    (∃ t, StepsTo stepping t) ∧ PortsLimited stepping ∧ RunLimit stepping ∧ PageLimit stepping ∧ SystemHeld stepping
    ∧ AlarmMutes stepping ∧ FadeLimit stepping ∧ DrivenOnce stepping ∧ VoiceFadeLaw stepping ∧ DuckLaw stepping
    ∧ PoolLaw stepping ∧ NoneSettled stepping ∧ CueListLaw stepping := by
  refine ⟨⟨_, rfl⟩, ?_, ?_, ?_, ?_, ?_, ?_, fun t => List.length_filter_le .., ?_, ?_, ?_, ?_, ?_, ?_, ?_⟩
  · unfold PortsLimited PortLimits; decide +kernel
  · unfold RunLimit; decide +kernel
  · unfold PageLimit; decide +kernel
  · unfold SystemHeld; decide +kernel
  · unfold AlarmMutes; decide +kernel
  · unfold FadeLimit; decide +kernel
  · unfold VoiceFadeLaw; decide +kernel
  · unfold DuckLaw; decide +kernel
  · unfold PoolLaw; decide +kernel
  · unfold NoneSettled; decide +kernel
  · decide +kernel
  · intro n h; obtain rfl : 20 = n := Option.some.inj h; decide +kernel
  · intro j a h; exact nomatch (show (none : Option LoadJob) = some j from h)

theorem test_hyps_StepKeepsLevelLaw : LevelLaw stepping := by
  refine ⟨fun t => ?_, by decide +kernel, ?_, ?_, ?_, ?_, ?_, by decide +kernel, by decide +kernel, by decide +kernel,
    by decide +kernel, fun l => ⟨?_, ?_⟩⟩
  · cases t with
    | crosspoint m x => exact (by decide +kernel : ∀ (m : MixId) (x : SourceId), levelOf (.crosspoint m x) stepping ≤ 3840) m x
    | master m => exact (by decide +kernel : ∀ m : MixId, levelOf (.master m) stepping ≤ 3840) m
    | zoneProgramme z => exact (by decide +kernel : ∀ z : ZoneId, levelOf (.zoneProgramme z) stepping ≤ 3840) z
    | zoneDuck z => exact (by decide +kernel : ∀ z : ZoneId, levelOf (.zoneDuck z) stepping ≤ 3840) z
    | voice v => exact (by decide +kernel : ∀ v : VoiceId, levelOf (.voice v) stepping ≤ 3840) v
  · intro r hr; rw [List.mem_singleton.mp (show r ∈ [single (.master 3) 0 9 (.port 1)] from hr)]
    unfold FadeLevels single; decide
  · intro n sn h i
    by_cases hn : n = 0
    · subst hn; obtain rfl := (Option.some.inj h : ({ mix := 3, levels := Vector.replicate 97 100 } : Snapshot) = sn)
      exact (by decide +kernel : ∀ i : Fin 97, (Vector.replicate 97 100)[i] ≤ 3840) i
    · exact absurd h ((by decide +kernel : ∀ n : Fin 128, n ≠ 0 → stepping.fades.snaps[n] = none) n hn ▸ nofun)
  · unfold CueCodes; intro c hc a ha
    have : ∀ c ∈ stepping.cues.list, ∀ a ∈ c.actions, a.act = .mute 0 true := by decide +kernel
    rw [this c hc a ha]; trivial
  · unfold CueCodes; intro p d h a ha
    have : ∀ p : PortId, (stepping.cues.drafts[p]).all (fun d => d.cue.actions.all fun a => a.act == .mute 0 true) = true := by
      decide +kernel
    have h1 := this p; rw [h] at h1
    rw [eq_of_beq (List.all_eq_true.mp h1 a ha)]; trivial
  · intro j a h; exact nomatch (show (none : Option LoadJob) = some j from h)
  · intro c hc
    exact absurd hc ((by decide +kernel : ∀ l : ZoneId, stepping.lines.tab[l].queue = []) l ▸ List.not_mem_nil)
  · intro o h
    exact absurd h ((by decide +kernel : ∀ l : ZoneId, stepping.lines.tab[l].out = none) l ▸ nofun)

theorem test_hyps_StepKeepsPagePriorities : PagePriorityLaw stepping := by
  refine ⟨by decide +kernel, ?_, ?_, ?_⟩
  · unfold CuePriorities; intro c hc a ha
    have : ∀ c ∈ stepping.cues.list, ∀ a ∈ c.actions, a.act = .mute 0 true := by decide +kernel
    rw [this c hc a ha]; trivial
  · unfold CuePriorities; intro p d h a ha
    have : ∀ p : PortId, (stepping.cues.drafts[p]).all (fun d => d.cue.actions.all fun a => a.act == .mute 0 true) = true := by
      decide +kernel
    have h1 := this p; rw [h] at h1
    rw [eq_of_beq (List.all_eq_true.mp h1 a ha)]; trivial
  · intro j a h; exact nomatch (show (none : Option LoadJob) = some j from h)

end Sys2Proof.Machine.Tests
end

section
/-! PROOFS. Levels and the mix engine (spec/01): the gain laws, the output links, MUTE and the input links. -/

namespace Sys2Proof.Machine

/-! ### The gain law (R3, R4, R5) -/

/-- A mantissa lies in one octave: between 2 ^ 14 and 2 ^ 15. -/
theorem mantissa_octave {k : Nat} (hk : k < 12) : 2 ^ 14 ≤ mantissa k ∧ mantissa k < 2 ^ 15 :=
  (by decide : ∀ k < 12, 2 ^ 14 ≤ mantissa k ∧ mantissa k < 2 ^ 15) k hk

/-- R3: a code as octave `q` and step `k` of the mantissa table. -/
theorem codeGain_octave_step {q k : Nat} (hk : k < 12) (hpos : 1 ≤ 12 * q + k) :
    codeGain (12 * q + k) = if 18 ≤ q then mantissa k * 2 ^ (q - 18) else mantissa k / 2 ^ (18 - q) := by
  have hq : (12 * q + k) / 12 = q := by omega
  have hr : (12 * q + k) % 12 = k := by omega
  rw [codeGain, if_neg (Nat.one_le_iff_ne_zero.mp hpos), hq, hr]

/-- Four octaves up, the mantissa is no longer shifted out altogether. -/
theorem codeGain_eq_zero_iff (c : Nat) : codeGain c = 0 ↔ c < 48 := by
  obtain ⟨hlow, hhigh⟩ := mantissa_octave (Nat.mod_lt c (by decide : 0 < 12))
  unfold codeGain
  split
  · omega
  · split
    · have hpos : mantissa (c % 12) * 2 ^ (c / 12 - 18) ≠ 0 := Nat.mul_ne_zero (by omega) (by simp)
      omega
    · rw [Nat.div_eq_zero_iff_lt (by positivity)]
      constructor
      · intro hlt
        by_contra hc
        have : 2 ^ (18 - c / 12) ≤ 2 ^ 14 := Nat.pow_le_pow_right (by decide) (by omega)
        omega
      · intro hc
        have : 2 ^ 15 ≤ 2 ^ (18 - c / 12) := Nat.pow_le_pow_right (by decide) (by omega)
        omega

/-- R4: below the highest fine level, linear interpolation between the gain words of two codes. -/
theorem fineGain_below {f : Nat} (hf : f < 3840) :
    fineGain f = codeGain (f / 16) + (codeGain (f / 16 + 1) - codeGain (f / 16)) * (f % 16) / 16 :=
  if_neg (Nat.not_le.mpr hf)

/-- R2, R4: the fine level of a code has the code's own gain word. -/
theorem fineGain_fineOfCode {c : Nat} (hc : c ≤ 240) : fineGain (16 * c) = codeGain c := by
  obtain rfl | hlt := Nat.eq_or_lt_of_le hc
  · decide
  · have hq : 16 * c / 16 = c := by omega
    have hr : 16 * c % 16 = 0 := by omega
    rw [fineGain_below (by omega), hq, hr, Nat.mul_zero, Nat.zero_div, Nat.add_zero]

/-- R4: a fine level is silent below that of code 48. In the last sixteenth before it the interpolation climbs from 0 to 1,
which the discarded remainder keeps at 0. -/
theorem fineGain_eq_zero_iff {f : Nat} (hf : f ≤ 3840) : fineGain f = 0 ↔ f < 768 := by
  obtain rfl | hlt := Nat.eq_or_lt_of_le hf
  · decide
  rw [fineGain_below hlt]
  by_cases h : f < 768
  · have hzero : codeGain (f / 16) = 0 := (codeGain_eq_zero_iff _).mpr (by omega)
    have hone : codeGain (f / 16 + 1) ≤ 1 := by
      obtain hq | hq : f / 16 + 1 < 48 ∨ f / 16 + 1 = 48 := by omega
      · rw [(codeGain_eq_zero_iff _).mpr hq]; exact Nat.zero_le 1
      · rw [hq]; decide
    have hpart : codeGain (f / 16 + 1) * (f % 16) ≤ 1 * (f % 16) := Nat.mul_le_mul_right _ hone
    rw [hzero, Nat.sub_zero, Nat.zero_add]
    omega
  · have hpos : codeGain (f / 16) ≠ 0 := mt (codeGain_eq_zero_iff _).mp (by omega)
    omega

/-- R5: rounding to the nearest whole number, halves upward, as a pair of bounds. -/
theorem applyGain_bounds (g : Nat) (x : Sample) :
    16384 * applyGain g x ≤ x * g + 8192 ∧ x * g + 8192 < 16384 * (applyGain g x + 1) := by
  have floor (a : Int) : 16384 * (a / 16384) ≤ a ∧ a < 16384 * (a / 16384 + 1) := by omega
  exact floor _

@[simp] theorem applyGain_unity (x : Sample) : applyGain 16384 x = x := by
  have nearest (a : Int) : (a * 16384 + 8192) / 16384 = a := by omega
  exact nearest x

@[simp] theorem applyGain_zero (x : Sample) : applyGain 0 x = 0 := by
  simp [applyGain]

/-- Settles O4, from the octave and step of a code, and from the bounds of the rounding. -/
theorem gainLaws : Obligations.GainLaws := by
  refine ⟨⟨by decide, fun q k hk hpos _ => codeGain_octave_step hk hpos, fun c hc => (codeGain_eq_zero_iff c).mpr hc,
    by decide, by decide, by decide⟩, ⟨by decide, fun f hf => fineGain_below hf, fun c hc => fineGain_fineOfCode hc,
    fun f hf => fineGain_eq_zero_iff hf, by decide⟩, applyGain_bounds, applyGain_unity, applyGain_zero⟩

/-! ### The output links (R17) -/

/-- SAO0 carries the first sixteen mixes. -/
theorem outputSlots_first (s : State) (i : Fin 16) : (outputSlots false s)[i] = s.mix.out[i.val] := by
  simp [outputSlots]

/-- SAO1 carries the foldback mixes, and 0 in the slots that are left. -/
theorem outputSlots_second (s : State) (i : Fin 16) :
    (outputSlots true s)[i] = if h : i.val < 12 then s.mix.out[8 + i.val] else 0 := by
  simp [outputSlots]

/-- Settles O10, from the two links' slots. -/
theorem outputLinks : Obligations.OutputLinks := fun s i =>
  ⟨outputSlots_first s i, fun h => (outputSlots_second s i).trans (dif_pos h),
    fun h => (outputSlots_second s i).trans (dif_neg (Nat.not_lt.mpr h))⟩

/-! ### Operands by index and setting -/

@[simp] theorem idx1_val_succ {n : Nat} (i : Fin n) : idx1 n (i.val + 1) = some i := by
  rw [idx1, dif_pos (by omega)]; rfl

theorem idx1_eq_none {n k : Nat} (h : k < 1 ∨ n < k) : idx1 n k = none := dif_neg (by omega)

@[simp] theorem onOff_toNat (b : Bool) : onOff b.toNat = some b := by cases b <;> rfl

theorem onOff_eq_none {v : Nat} (h : 1 < v) : onOff v = none := by
  match v, h with
  | _ + 2, _ => rfl

/-! ### MUTE (R20) -/

section
variable {s : State} {p : PortId} {mix setting : Nat} {m : MixId} {on : Bool}

theorem exec_mute (p : PortId) (tag mix setting : Nat) (s : State) :
    exec (.mute p tag mix setting) s = serve p tag 9 (.mute p tag mix setting) (muteBody p mix setting) s := by
  rfl

/-- What a MUTE in hand answers is what its body gives. -/
theorem exec_mute_handed {tag : Nat} {u : State} {a : Answer} (h : handed p (.mute p tag mix setting) s = true)
    (hb : muteBody p mix setting s = (u, a)) :
    exec (.mute p tag mix setting) s = .next (answer p tag 9 (.mute p tag mix setting) a u) :=
  (exec_mute ..).trans (serve_handed h hb)

theorem muteBody_badArgument (h : mix < 1 ∨ 24 < mix ∨ 1 < setting) :
    muteBody p mix setting s = (s, refuse .badArgument) := by
  unfold muteBody
  obtain h | h | h := h
  · rw [idx1_eq_none (.inl h)]; rfl
  · rw [idx1_eq_none (.inr h)]; rfl
  · rw [onOff_eq_none h]; cases idx1 24 mix <;> rfl

/-- The tests that follow once mix and setting are in range. -/
theorem muteBody_inRange : muteBody p (m.val + 1) on.toNat s =
    if !hasRight p .mix s then (s, refuse .notPermitted)
    else if unmuteBarred m on s then (s, refuse .alarm) else (setMute m on s, accept) := by
  rw [muteBody, idx1_val_succ, onOff_toNat]; rfl

theorem unmuteBarred_eq_true (hon : on = false) (hm : m.val < 20) (ha : s.mix.alarm.standing = true) :
    unmuteBarred m on s = true := by simp [unmuteBarred, hon, hm, ha]

theorem unmuteBarred_eq_false (h : on = true ∨ 20 ≤ m.val ∨ s.mix.alarm.standing = false) :
    unmuteBarred m on s = false := by
  obtain h | h | h := h
  · simp [unmuteBarred, h]
  · simp [unmuteBarred, Nat.not_lt.mpr h]
  · simp [unmuteBarred, h]

end

/-- Settles O15: each case is the body's answer there, served. -/
theorem muteLaw : Obligations.MuteLaw := by
  intro p tag mix setting s i hi
  refine ⟨fun hbad => exec_mute_handed hi (muteBody_badArgument hbad), ?_⟩
  rintro m on rfl rfl
  refine ⟨fun hr => ?_, fun hr hon hm ha => ?_, fun hr hfree => ?_⟩ <;> refine exec_mute_handed hi ?_
  · rw [muteBody_inRange, hr]; rfl
  · rw [muteBody_inRange, hr, unmuteBarred_eq_true hon hm ha]; rfl
  · rw [muteBody_inRange, hr, unmuteBarred_eq_false hfree]; rfl

/-! ### The input links (R13-R15) -/

section
variable {l : InputLink}

theorem linkMove_unlocked_valid_counts (hl : l.locked = false) (hr : l.run < 47) :
    linkMove true l = { l with run := l.run + 1 } := by simp [linkMove, hl, hr]

theorem linkMove_unlocked_valid_locks (hl : l.locked = false) (hr : l.run = 47) :
    linkMove true l = { l with locked := true, run := 0 } := by simp [linkMove, hl, hr]

theorem linkMove_unlocked_invalid (hl : l.locked = false) : linkMove false l = { l with run := 0 } := by
  simp [linkMove, hl]

theorem linkMove_locked_valid (hl : l.locked = true) : linkMove true l = { l with run := 0 } := by
  simp [linkMove, hl]

theorem linkMove_locked_invalid_counts (hl : l.locked = true) (hr : l.run < 3) :
    linkMove false l = { l with run := l.run + 1 } := by simp [linkMove, hl, hr]

theorem linkMove_locked_invalid_unlocks (hl : l.locked = true) (hr : l.run = 3) :
    linkMove false l = { l with locked := false, run := 0 } := by simp [linkMove, hl, hr]

end

theorem linkWords_locked (w : Vector Word24 16) (i : Fin 16) : (linkWords true (some w))[i] = w[i].toInt := by
  simp [linkWords]

theorem linkWords_silent {locked : Bool} {fr : Option (Vector Word24 16)} (h : fr = none ∨ locked = false) :
    linkWords locked fr = Vector.replicate 16 0 := by
  obtain rfl | rfl := h
  · cases locked <;> rfl
  · rfl

/-- The record of a link after a frame: moved by R13's table, with the samples that R14 delivers. -/
def linkAfter (fr : Option (Vector Word24 16)) (l : InputLink) : InputLink :=
  { linkMove fr.isSome l with words := linkWords (linkMove fr.isSome l).locked fr }

theorem linkAfter_locked (fr : Option (Vector Word24 16)) (l : InputLink) :
    (linkAfter fr l).locked = (linkMove fr.isSome l).locked := rfl

theorem linkAfter_run (fr : Option (Vector Word24 16)) (l : InputLink) :
    (linkAfter fr l).run = (linkMove fr.isSome l).run := rfl

section
variable (k : LinkId) (fr : Option (Vector Word24 16)) (s : State)

theorem exec_linkFrame : exec (.linkFrame k fr) s = .next (linkFrame k fr s) := by rfl

/-- R13, R15: a frame changes its link's record, and the ports on a change of the lock state. -/
theorem linkFrame_eq : linkFrame k fr s = { s with
    mix := { s.mix with links := upd s.mix.links k (linkAfter fr s.mix.links[k]) }
    ports := if s.mix.links[k].locked = (linkAfter fr s.mix.links[k]).locked then s.ports
      else afterNotice .mix 2 [f1 k.val, f1 (linkAfter fr s.mix.links[k]).locked.toNat] s.ports } := by
  by_cases h : s.mix.links[k].locked = (linkAfter fr s.mix.links[k]).locked
  · rw [if_pos h]; exact if_pos h
  · rw [if_neg h]; exact if_neg h

theorem linkFrame_link_self : (linkFrame k fr s).mix.links[k] = linkAfter fr s.mix.links[k] := by
  rw [linkFrame_eq]; exact upd_get_self ..

theorem linkFrame_link_other {j : LinkId} (h : j ≠ k) : (linkFrame k fr s).mix.links[j] = s.mix.links[j] := by
  rw [linkFrame_eq]; exact upd_get_ne _ _ h

theorem linkFrame_ports : (linkFrame k fr s).ports =
    if s.mix.links[k].locked = (linkAfter fr s.mix.links[k]).locked then s.ports
    else afterNotice .mix 2 [f1 k.val, f1 (linkAfter fr s.mix.links[k]).locked.toNat] s.ports := by
  rw [linkFrame_eq]

theorem linkFrame_frame : linkFrame k fr s = { s with
    mix := { s.mix with links := (linkFrame k fr s).mix.links }, ports := (linkFrame k fr s).ports } := by
  rw [linkFrame_eq]

/-- R14: only a LOCKED link delivers the words of its frame. -/
theorem linkAfter_words_locked {w : Vector Word24 16} {l : InputLink} (hl : (linkAfter (some w) l).locked = true)
    (i : Fin 16) : (linkAfter (some w) l).words[i] = w[i].toInt := by
  have hm : (linkMove true l).locked = true := hl
  simp only [linkAfter, Option.isSome_some, hm]
  exact linkWords_locked w i

theorem linkAfter_words_silent {l : InputLink} (h : fr = none ∨ (linkAfter fr l).locked = false) :
    (linkAfter fr l).words = Vector.replicate 16 0 := linkWords_silent h

theorem reset_link_unlocked : State.reset.mix.links[k].locked = false ∧ State.reset.mix.links[k].run = 0 := by
  have h : State.reset.mix.links[k] = { locked := false, run := 0, words := Vector.replicate 16 0 } :=
    Vector.getElem_replicate k.isLt
  rw [h]; exact ⟨rfl, rfl⟩

end

/-- Settles O11: the six rows of R13's table, then R14's samples and R15's notice. -/
theorem linkFrameMoves : Obligations.LinkFrameMoves := by
  intro k fr s
  refine ⟨linkFrame k fr s, exec_linkFrame k fr s, ?_, fun j hj => linkFrame_link_other k fr s hj,
    linkFrame_frame k fr s, reset_link_unlocked k⟩
  simp only [linkFrame_link_self, linkAfter_locked, linkAfter_run]
  refine ⟨fun hl hf hr => ?_, fun hl hf hr => ?_, fun hl hf => ?_, fun hl hf => ?_, fun hl hf hr => ?_,
    fun hl hf hr => ?_, ?_, linkAfter_words_silent fr, linkFrame_ports k fr s⟩
  · rw [hf, linkMove_unlocked_valid_counts hl hr]; exact ⟨hl, rfl⟩
  · rw [hf, linkMove_unlocked_valid_locks hl hr]; exact ⟨rfl, rfl⟩
  · rw [hf, Option.isSome_none, linkMove_unlocked_invalid hl]; exact ⟨hl, rfl⟩
  · rw [hf, linkMove_locked_valid hl]; exact ⟨hl, rfl⟩
  · rw [hf, Option.isSome_none, linkMove_locked_invalid_counts hl hr]; exact ⟨hl, rfl⟩
  · rw [hf, Option.isSome_none, linkMove_locked_invalid_unlocks hl hr]; exact ⟨rfl, rfl⟩
  · rintro w rfl hl i
    exact linkAfter_words_locked hl i

end Sys2Proof.Machine
end

section
/-! PROOFS. Snapshots (spec/02, 2.6): what STORE and CLEAR leave of one, and what a RECALL action then finds of it. -/

namespace Sys2Proof.Machine

variable {s : State} {p : PortId} {n : Fin 128} {m : MixId}

/-! ### The levels of a mix, and its engaged set -/

@[simp] theorem mixLevels_crosspoint (m : MixId) (x : SourceId) (s : State) :
    (mixLevels m s)[x.val] = s.mix.xpt[m][x] := by
  simp [mixLevels]

@[simp] theorem mixLevels_master (m : MixId) (s : State) : (mixLevels m s)[96] = s.mix.master[m] := by
  simp [mixLevels]

/-- R35: a recall engages the master, whatever the recall-safe flags. -/
@[simp] theorem recallSet_master (m : MixId) (s : State) : (recallSet m s)[96] = true := by
  simp [recallSet]

theorem levelOf_master_writeMix {engaged : Vector Bool 97} (h : engaged[96] = true) (levels : Vector Nat 97) (s : State) :
    levelOf (.master m) (writeMix m engaged levels s) = levels[96] := by
  simp [levelOf, writeMix, modMix, h]

/-! ### A RECALL action by the snapshot it names (R47) -/

/-- R35: whatever the takeovers of a snap recall report, its levels are written after them. -/
theorem levelOf_master_recallMix_snap (m : MixId) (n : Fin 128) (levels : Vector Nat 97) (o : FadeOrigin) (s : State) :
    levelOf (.master m) (recallMix m n levels 0 o s).1 = levels[96] :=
  levelOf_master_writeMix (recallSet_master m s) levels _

theorem perform_recall_empty (h : s.fades.snaps[n] = none) (cue : Nat) (m : MixId) (time : Nat) :
    perform cue (.recall m n time) s = (s, { result := .emptySnapshot }) := by
  simp only [perform, recallFor, h]

theorem perform_recall_stored {sn : Snapshot} (h : s.fades.snaps[n] = some sn) (cue : Nat) (m : MixId) (time : Nat) :
    (perform cue (.recall m n time) s).1 = (recallMix m n sn.levels time (.entry cue) s).1 := by
  simp only [perform, recallFor, h]

theorem levelOf_master_perform_recall {sn : Snapshot} (h : s.fades.snaps[n] = some sn) (cue : Nat) (m : MixId) :
    levelOf (.master m) (perform cue (.recall m n 0) s).1 = sn.levels[96] := by
  rw [perform_recall_stored h, levelOf_master_recallMix_snap]

/-- A snapshot written is the one found once the request is answered. -/
theorem answer_setSnapshot_snaps (p : PortId) (tag kind : Nat) (i : Instr) (a : Answer) (n : Fin 128)
    (sn : Option Snapshot) (s : State) : (answer p tag kind i a (setSnapshot n sn s)).fades.snaps[n] = sn :=
  upd_get_self s.fades.snaps n sn

/-! ### STORE (R43) -/

section
variable {number mix : Nat}

theorem exec_store_handed {tag : Nat} {u : State} {a : Answer} (h : handed p (.store p tag number mix) s = true)
    (hb : storeBody p number mix s = (u, a)) :
    exec (.store p tag number mix) s = .next (answer p tag 10 (.store p tag number mix) a u) :=
  serve_handed h hb

theorem storeBody_badArgument (h : number < 1 ∨ 128 < number ∨ mix < 1 ∨ 24 < mix) :
    storeBody p number mix s = (s, refuse .badArgument) := by
  unfold storeBody
  obtain h | h : (number < 1 ∨ 128 < number) ∨ (mix < 1 ∨ 24 < mix) := or_assoc.mpr h
  · rw [idx1_eq_none h]; rfl
  · rw [idx1_eq_none h]; cases idx1 128 number <;> rfl

/-- The test that follows once snapshot and mix are in range. -/
theorem storeBody_inRange : storeBody p (n.val + 1) (m.val + 1) s =
    if !hasRight p .mix s then (s, refuse .notPermitted)
    else (setSnapshot n (some { mix := m, levels := mixLevels m s }) s, accept) := by
  rw [storeBody, idx1_val_succ, idx1_val_succ]; rfl

end

/-- Settles O16: each case is the body's answer there, served; the levels written are those of the mix, and a RECALL action
finds them. -/
theorem storeLaw : Obligations.StoreLaw := by
  intro p tag number mix s i hi
  refine ⟨fun hbad => exec_store_handed hi (storeBody_badArgument hbad), ?_⟩
  rintro n m rfl rfl
  refine ⟨fun hr => exec_store_handed hi ?_, fun hr => ⟨mixLevels m s, fun x => mixLevels_crosspoint m x s,
    mixLevels_master m s, _, exec_store_handed hi ?_, rfl, fun cue m' => ?_⟩⟩
  · rw [storeBody_inRange, hr]; rfl
  · rw [storeBody_inRange, hr]; rfl
  · exact levelOf_master_perform_recall (answer_setSnapshot_snaps ..) cue m'

/-! ### CLEAR (R44) -/

section
variable {number : Nat}

theorem exec_clear_handed {tag : Nat} {u : State} {a : Answer} (h : handed p (.clear p tag number) s = true)
    (hb : clearBody p number s = (u, a)) :
    exec (.clear p tag number) s = .next (answer p tag 11 (.clear p tag number) a u) :=
  serve_handed h hb

theorem clearBody_badArgument (h : number < 1 ∨ 128 < number) : clearBody p number s = (s, refuse .badArgument) := by
  rw [clearBody, idx1_eq_none h]; rfl

/-- The test that follows once the snapshot is in range. -/
theorem clearBody_inRange : clearBody p (n.val + 1) s =
    if !hasRight p .mix s then (s, refuse .notPermitted) else (setSnapshot n none s, accept) := by
  rw [clearBody, idx1_val_succ]; rfl

end

/-- Settles O17: each case is the body's answer there, served; a RECALL action finds the snapshot EMPTY. -/
theorem clearLaw : Obligations.ClearLaw := by
  intro p tag number s i hi
  refine ⟨fun hbad => exec_clear_handed hi (clearBody_badArgument hbad), ?_⟩
  rintro n rfl
  refine ⟨fun hr => exec_clear_handed hi ?_, fun hr => ⟨_, exec_clear_handed hi ?_, rfl, fun cue m time => ?_⟩⟩
  · rw [clearBody_inRange, hr]; rfl
  · rw [clearBody_inRange, hr]; rfl
  · exact perform_recall_empty (answer_setSnapshot_snaps ..) cue m time

end Sys2Proof.Machine
end

section
/-! PROOFS. Running cues (spec/05): go authority and the standing cue, by TAKE GO, RELEASE GO and STANDBY. -/

namespace Sys2Proof.Machine

variable {s : State} {p q : PortId}

/-! ### Operands: a YES/NO flag, a number in range -/

@[simp] theorem yesNo_toNat (b : Bool) : yesNo b.toNat = b := by cases b <;> rfl

theorem between_eq_true {lo hi v : Nat} (hlo : lo ≤ v) (hhi : v ≤ hi) : between lo hi v = true := by
  simp [between, hlo, hhi]

theorem between_eq_false {lo hi v : Nat} (h : v < lo ∨ hi < v) : between lo hi v = false := by
  obtain h | h := h
  · simp [between, Nat.not_le.mpr h]
  · simp [between, Nat.not_le.mpr h]

/-! ### Authority moved (R97) -/

/-- Any move but a forced one is told to the subscribers of class CUE alone. -/
theorem moveHolder_unforced {new : Option PortId} {c : AuthorityCause} (hc : c ≠ .forced) : moveHolder new c s = { s with
    cues := { s.cues with holder := new }
    ports := afterNotice .cue 5 [fholder s.cues.holder, fholder new, f1 c.code] s.ports } := by
  have hf : (c == .forced) = false := beq_false_of_ne hc
  simp only [moveHolder, hf, Bool.false_and, Bool.or_false]
  rfl

/-- A forced move is also told to the port that loses authority and to the one that takes it. -/
theorem moveHolder_forced (hq : s.cues.holder = some q) : moveHolder (some p) .forced s = { s with
    cues := { s.cues with holder := some p }
    ports := vmapi (fun k r => if r.subs[(0 : Fin 7)] || k == q || k == p then enqueueNotice
      { cls := .cue, kind := 5, fields := [f1 (q.val + 1), f1 (p.val + 1), f1 2] } r else r) s.ports } := by
  have named (k : PortId) (b : Bool) :
      (b || (AuthorityCause.forced == .forced && (some q == some k || some p == some k))) = (b || k == q || k == p) := by
    rw [Option.some_beq_some, Option.some_beq_some, BEq.comm (a := q), BEq.comm (a := p), beq_self_eq_true,
      Bool.true_and, Bool.or_assoc]
  simp only [moveHolder, hq, named]
  rfl

/-! ### TAKE GO (R95) -/

section
variable {force : Nat}

theorem exec_takeGo_handed {tag : Nat} {u : State} {a : Answer} (h : handed p (.takeGo p tag force) s = true)
    (hb : takeGoBody p force s = (u, a)) :
    exec (.takeGo p tag force) s = .next (answer p tag 28 (.takeGo p tag force) a u) :=
  serve_handed h hb

theorem takeGoBody_notPermitted (hr : hasRight p .cue s = false) :
    takeGoBody p force s = (s, refuse .notPermitted) := by
  simp [takeGoBody, hr, only]

variable (hr : hasRight p .cue s = true)
include hr

theorem takeGoBody_free (hh : s.cues.holder = none) : takeGoBody p force s =
    (moveHolder (some p) .taken s, { outcome := .accepted, fields := [fholder (some p)] }) := by
  simp [takeGoBody, hr, hh]

theorem takeGoBody_own (hh : s.cues.holder = some p) : takeGoBody p force s =
    (s, { outcome := .accepted, fields := [fholder (some p)] }) := by
  simp [takeGoBody, hr, hh, only]

/-- The test that follows once another port is seen to hold authority. -/
theorem takeGoBody_other (hq : q ≠ p) (hh : s.cues.holder = some q) : takeGoBody p force s =
    if yesNo force && hasRight p .system s then
      (moveHolder (some p) .forced s, { outcome := .accepted, fields := [fholder (some p)] })
    else (s, { outcome := .held, fields := [fholder (some q)] }) := by
  simp [takeGoBody, hr, hh, hq, only]

end

/-! ### RELEASE GO (R96) -/

theorem exec_releaseGo_handed {tag : Nat} {u : State} {a : Answer} (h : handed p (.releaseGo p tag) s = true)
    (hb : releaseGoBody p s = (u, a)) :
    exec (.releaseGo p tag) s = .next (answer p tag 29 (.releaseGo p tag) a u) :=
  serve_handed h hb

theorem releaseGoBody_holder (hh : s.cues.holder = some p) :
    releaseGoBody p s = (moveHolder none .released s, accept) := if_pos hh

theorem releaseGoBody_notHolder (hh : s.cues.holder ≠ some p) :
    releaseGoBody p s = (s, refuse .notHolder) := if_neg hh

/-! ### STANDBY (R100) -/

section
variable {n : Nat}

theorem exec_standby_handed {tag : Nat} {u : State} {a : Answer} (h : handed p (.standby p tag n) s = true)
    (hb : standbyBody p n s = (u, a)) :
    exec (.standby p tag n) s = .next (answer p tag 30 (.standby p tag n) a u) :=
  serve_handed h hb

theorem standbyBody_badArgument (h : n < 1 ∨ 9999 < n) : standbyBody p n s = (s, refuse .badArgument) := by
  simp [standbyBody, between_eq_false h, only]

theorem standbyBody_notPermitted (hlo : 1 ≤ n) (hhi : n ≤ 9999) (hr : hasRight p .cue s = false) :
    standbyBody p n s = (s, refuse .notPermitted) := by
  simp [standbyBody, between_eq_true hlo hhi, hr, only]

variable (h : 1 ≤ n ∧ n ≤ 9999 ∧ hasRight p .cue s = true)
include h

/-- The tests that follow once the number is in range and the port has the right. -/
theorem standbyBody_permitted : standbyBody p n s =
    if s.cues.holder ≠ some p then (s, refuse .notHolder)
    else if (cueOf n s).isNone then (s, refuse .noSuch)
    else (setStanding (some n) s, { outcome := .accepted, fields := [f2 n] }) := by
  obtain ⟨hlo, hhi, hr⟩ := h
  rw [standbyBody, between_eq_true hlo hhi, hr]; rfl

theorem standbyBody_notHolder (hh : s.cues.holder ≠ some p) : standbyBody p n s = (s, refuse .notHolder) :=
  (standbyBody_permitted h).trans (if_pos hh)

theorem standbyBody_noSuch (hh : s.cues.holder = some p) (hc : cueOf n s = none) :
    standbyBody p n s = (s, refuse .noSuch) := by
  simp [standbyBody_permitted h, hh, hc]

theorem standbyBody_accepted (hh : s.cues.holder = some p) (hc : (cueOf n s).isSome) : standbyBody p n s =
    (setStanding (some n) s, { outcome := .accepted, fields := [f2 n] }) := by
  simp [standbyBody_permitted h, hh, Option.ne_none_iff_isSome.mpr hc]

end

/-- Settles O31: each case is the body's answer there, served; authority moved is told as R97 has it. -/
theorem authorityAndStandby : Obligations.AuthorityAndStandby := by
  intro p tag s
  refine ⟨?takeGo, ?releaseGo, ?standby⟩
  case takeGo =>
    intro force i yes hi
    refine ⟨fun hr => exec_takeGo_handed hi (takeGoBody_notPermitted hr),
      fun hr hh => exec_takeGo_handed hi ((takeGoBody_free hr hh).trans ?_),
      fun hr hh => exec_takeGo_handed hi (takeGoBody_own hr hh),
      fun q hr hq hh => ⟨fun hf hs => exec_takeGo_handed hi ((takeGoBody_other hr hq hh).trans ?_),
        fun hno => exec_takeGo_handed hi ((takeGoBody_other hr hq hh).trans (if_neg ?_))⟩⟩
    · rw [moveHolder_unforced (by decide), hh]; rfl
    · rw [hf, hs, moveHolder_forced hh]; rfl
    · rw [yesNo_toNat]
      obtain hf | hs := hno
      · simp [hf]
      · simp [hs]
  case releaseGo =>
    intro i hi
    refine ⟨fun hh => exec_releaseGo_handed hi ((releaseGoBody_holder hh).trans ?_),
      fun hh => exec_releaseGo_handed hi (releaseGoBody_notHolder hh)⟩
    rw [moveHolder_unforced (by decide), hh]; rfl
  case standby =>
    intro n i passes hi
    exact ⟨fun hbad => exec_standby_handed hi (standbyBody_badArgument hbad),
      fun hlo hhi hr => exec_standby_handed hi (standbyBody_notPermitted hlo hhi hr),
      fun hp hh => exec_standby_handed hi (standbyBody_notHolder hp hh),
      fun hp hh hc => exec_standby_handed hi (standbyBody_noSuch hp hh hc),
      fun hp hh hc => exec_standby_handed hi (standbyBody_accepted hp hh hc)⟩

end Sys2Proof.Machine
end
